-- ==== Sys2Proof/Word.lean ====
section
/-! DEFINITION. The word types of the block and their plainest arithmetic (spec 00_scope.md R10, R12, R14). -/

namespace Sys2Proof

/-- `u8` (00_scope.md R12). -/
abbrev Byte := BitVec 8

/-- `u32`, the width of every register (00_scope.md R10, R12). -/
abbrev Word := BitVec 32

/-- A byte sequence (00_scope.md R14). -/
abbrev Bytes := List Byte

/-- `ceil_div(a, b) = (a + b - 1) // b` (00_scope.md R12). -/
def ceilDiv (a b : Nat) : Nat := (a + b - 1) / b

end Sys2Proof
end

