-- ==== Sys2Proof/Config.lean ====
section
/-! DEFINITION. What an implementation fixes: the OPEN parameters of 00_scope.md R9, R11, R20, R21 and
92_eei_decisions.md, and the free values a step may read. -/

namespace Sys2Proof

/-- `PLATFORM_MAP` (20_memory.md R240): where the host's address map places the register window and the seven
spaces, and which platform interrupt input `irq` drives (60_exceptions.md R957). -/
structure PlatformMap where
  windowBase : Nat
  inBase : Nat
  outBase : Nat
  dbufBase : Nat
  rawBase : Nat
  palBase : Nat
  metaBase : Nat
  pixBase : Nat
  irqInput : Nat
  deriving DecidableEq, Repr

/-- The OPEN parameters of the block, as plain data (00_scope.md R9 and R11). No step writes them.
`inflateTable` and `deflateTable` list answers of the external collaborator that are known; on every other
argument its answer is the opaque `Config.inflate` or `Config.deflate` (log 7). -/
structure Config where
  inCap : Nat
  outCap : Nat
  dbufCap : Nat
  rawCap : Nat
  pixCap : Nat
  metaCap : Nat
  stageCap : Nat
  inflCap : Nat
  filtCap : Nat
  deflCap : Nat
  rowCap : Nat
  zlibPresent : Bool
  /-- `ZLIB_LEVEL_MAP` at level codes 0, 1, 2 and 3 (00_scope.md R21). -/
  zlibLevel0 : Nat
  zlibLevel1 : Nat
  zlibLevel2 : Nat
  zlibLevel3 : Nat
  inflateTable : List (Bytes × Option Bytes)
  deflateTable : List ((Bytes × Nat) × Bytes)
  platform : PlatformMap
  deriving DecidableEq, Repr

/-- `INFLATE : bytes -> bytes | CompressionDataError` (00_scope.md R20); `none` is the data error. No body: nothing is
known of it beyond that its result depends only on its argument. -/
opaque Config.inflate : Bytes → Option Bytes

/-- `DEFLATE : (bytes, level) -> bytes` (00_scope.md R20). -/
opaque Config.deflate : Bytes → Nat → Bytes

/-- The value of `ZLIB_LEVEL_MAP` at a level code above 3, where 00_scope.md R21 defines none (log 30). -/
opaque Config.freeLevel : Nat → Nat

/-- A free 32-bit value: the one numbered by the free-value counter and by the place it is used for (log 8, log 9). -/
opaque Config.freeWord : Nat → Nat → Word

/-- A free natural number (log 8, log 9). -/
opaque Config.freeNat : Nat → Nat → Nat

/-- A free byte at an address (log 8, log 9). -/
opaque Config.freeByte : Nat → Nat → Nat → Byte

/-- A free byte sequence (log 8, log 9). -/
opaque Config.freeBytes : Nat → Nat → Bytes

/-- What sample `x` of a row adds to its byte where the sample would cross the byte's end, for which 42_filter.md R508 gives
no value (a shift by a negative amount): a function of the pixel bits, the samples and `x` (log 12). -/
opaque Config.freePacked : Nat → Bytes → Nat → Byte

/-- The configuration of `State.reset` (log 6): the sizes are the model's choice within the bounds of 00_scope.md R9. -/
def Config.default : Config where
  inCap := 65536
  outCap := 65536
  dbufCap := 4096
  rawCap := 65536
  pixCap := 65536
  metaCap := 4096
  stageCap := 65536
  inflCap := 65536
  filtCap := 65536
  deflCap := 65536
  rowCap := 4096
  zlibPresent := true
  zlibLevel0 := 0
  zlibLevel1 := 1
  zlibLevel2 := 6
  zlibLevel3 := 9
  inflateTable := []
  deflateTable := []
  platform :=
    { windowBase := 0x00000000, inBase := 0x00100000, outBase := 0x00200000, dbufBase := 0x00300000,
      rawBase := 0x00400000, palBase := 0x00500000, metaBase := 0x00600000, pixBase := 0x00700000,
      irqInput := 0 }

end Sys2Proof
end

