-- ==== Sys2Proof/Syntax.lean ====
section
/-! DEFINITION. The 26 commands of the block (30_encoding.md R302), one constructor per row of opcode_table.json.
A command word carries no operand (R306); the two CMD-P commands carry the PIPE bit (R301). -/

namespace Sys2Proof

inductive Instr where
  /-- NOP, 46_system.md R850. -/
  | nop
  /-- CLEAR, 46_system.md R851. -/
  | clear
  /-- CRC.CALC, 40_crc.md R410. -/
  | crcCalc
  /-- CRC.UPD, 40_crc.md R420. -/
  | crcUpd
  /-- CRC.UPD32, 40_crc.md R421. -/
  | crcUpd32
  /-- SIG.CHECK, 41_framer.md R455. -/
  | sigCheck
  /-- SIG.WRITE, 41_framer.md R456. -/
  | sigWrite
  /-- CHUNK.READ, 41_framer.md R460. -/
  | chunkRead
  /-- CHUNK.VERIFY, 41_framer.md R470. -/
  | chunkVerify
  /-- CHUNK.SETCRC, 41_framer.md R475. -/
  | chunkSetcrc
  /-- CHUNK.WRITE, 41_framer.md R480. -/
  | chunkWrite
  /-- UNFILTER, 42_filter.md R520. -/
  | unfilter
  /-- FILTER, 42_filter.md R550. -/
  | filter
  /-- DEINTERLACE, 43_adam7.md R610. -/
  | deinterlace
  /-- INTERLACE, 43_adam7.md R620. -/
  | interlace
  /-- DEC.HEADER, 44_decode.md R710. -/
  | decHeader
  /-- DEC.CHUNKS, 44_decode.md R711. -/
  | decChunks
  /-- DEC.INFLATE, 44_decode.md R712. -/
  | decInflate
  /-- DEC.PIXELS, 44_decode.md R713. -/
  | decPixels
  /-- DEC.EXPAND, 44_decode.md R714. -/
  | decExpand
  /-- DECODE with its PIPE bit, 44_decode.md R720. -/
  | decode (pipe : Bool)
  /-- ENC.VALIDATE, 45_encode.md R800. -/
  | encValidate
  /-- ENC.HEADER, 45_encode.md R801. -/
  | encHeader
  /-- ENC.DATA, 45_encode.md R802. -/
  | encData
  /-- ENC.TRAILER, 45_encode.md R803. -/
  | encTrailer
  /-- ENCODE with its PIPE bit, 45_encode.md R804. -/
  | encode (pipe : Bool)
  deriving DecidableEq, Repr

end Sys2Proof
end

