-- ==== Sys2Proof/WellFormed.lean ====
section
/-! DEFINITION. What is well formed: a command word's fields (30_encoding.md R303), a host access to the register
window (10_state.md R100), and the parameters of the block (00_scope.md R9). Every term of `Instr` is well formed by its
type: PIPE stands only where R301 allows it. -/

namespace Sys2Proof

/-- The fields of a command word (30_encoding.md R301). -/
structure CommandFields where
  opcode : Byte
  pipe : Bool
  reserved : BitVec 23
  deriving DecidableEq, Repr

/-- The opcodes of 30_encoding.md R302; every other value is reserved. -/
def legalOpcodes : List Byte :=
  [0x00, 0x01, 0x10, 0x11, 0x12, 0x20, 0x21, 0x22, 0x23, 0x24, 0x25, 0x30, 0x31, 0x38, 0x39] ++
  [0x40, 0x41, 0x42, 0x43, 0x44, 0x4F, 0x50, 0x51, 0x52, 0x53, 0x5F]

/-- The two opcodes that take PIPE (30_encoding.md R301). -/
def pipedOpcodes : List Byte := [0x4F, 0x5F]

/-- First line of 30_encoding.md R303. -/
def CommandFields.opcodeOk (f : CommandFields) : Bool := legalOpcodes.contains f.opcode

/-- Second line of 30_encoding.md R303. -/
def CommandFields.reservedOk (f : CommandFields) : Bool := f.reserved == 0

/-- Third line of 30_encoding.md R303. -/
def CommandFields.pipeOk (f : CommandFields) : Bool := !f.pipe || pipedOpcodes.contains f.opcode

/-- A command word is legal when none of the three lines of 30_encoding.md R303 holds. -/
def CommandFields.wf (f : CommandFields) : Bool := f.opcodeOk && f.reservedOk && f.pipeOk

/-- The widths a host bus may use (10_state.md R100 speaks of narrower and wider accesses). -/
inductive AccessWidth where
  | byte
  | half
  | word
  | double
  deriving DecidableEq, Repr

/-- 10_state.md R100: the window holds offsets 0x000 to 0x0FF. -/
def inWindow (off : Nat) : Bool := decide (off < 256)

/-- 10_state.md R100: the window takes only aligned 32-bit accesses. -/
def windowAccessOk (w : AccessWidth) (off : Nat) : Bool := (w == .word) && (off % 4 == 0)

/-- 10_state.md R140: one byte per access to a space. -/
def spaceWidthOk (w : AccessWidth) : Bool := w == .byte

/-- The minimums of 00_scope.md R9. -/
def Config.minimumsOk (c : Config) : Bool :=
  decide (8 ≤ c.inCap) && decide (12 ≤ c.outCap) && decide (768 ≤ c.dbufCap) && decide (1 ≤ c.rawCap) &&
  decide (8 ≤ c.pixCap) && decide (1 ≤ c.stageCap) && decide (1 ≤ c.inflCap) && decide (1 ≤ c.filtCap) &&
  decide (1 ≤ c.deflCap) && decide (1 ≤ c.rowCap)

/-- Every byte count of the block fits the 32-bit register that counts it (log 19). -/
def Config.countersFit (c : Config) : Bool :=
  decide (c.inCap < 2 ^ 32) && decide (c.outCap < 2 ^ 32) && decide (c.dbufCap < 2 ^ 32) &&
  decide (c.rawCap < 2 ^ 32) && decide (c.pixCap < 2 ^ 32) && decide (c.metaCap < 2 ^ 32) &&
  decide (c.stageCap < 2 ^ 32) && decide (c.inflCap < 2 ^ 32) && decide (c.filtCap < 2 ^ 32) &&
  decide (c.deflCap < 2 ^ 32)

/-- The parameters are within the bounds of 00_scope.md R9 and their counters can hold them (log 19). -/
def Config.wf (c : Config) : Bool := c.minimumsOk && c.countersFit

end Sys2Proof
end

