-- ==== Sys2Proof/Decode.lean ====
section
/-! DEFINITION. The decoder of command words (30_encoding.md R300-R304) and the encoder, from the same table. -/

namespace Sys2Proof

/-- Why a word is illegal (30_encoding.md R303). -/
inductive DecodeError where
  /-- `w[7:0]` is a reserved opcode. -/
  | reservedOpcode
  /-- `w[31:9]` is not zero. -/
  | reservedBits
  /-- `w[8] = 1` with an opcode that does not take PIPE. -/
  | pipeNotAllowed
  deriving DecidableEq, Repr

/-- `w[7:0]`. -/
def opcodeOf (w : Word) : Byte := w.extractLsb' 0 8

/-- `w[8]`. -/
def pipeOf (w : Word) : Bool := w.getLsbD 8

/-- `w[31:9]`. -/
def reservedOf (w : Word) : BitVec 23 := w.extractLsb' 9 23

/-- The command of an opcode (30_encoding.md R302), given the PIPE bit; `none` for a reserved opcode. -/
def instrOfOpcode (op : Byte) (pipe : Bool) : Option Instr :=
  match op with
  | 0x00#8 => some .nop
  | 0x01#8 => some .clear
  | 0x10#8 => some .crcCalc
  | 0x11#8 => some .crcUpd
  | 0x12#8 => some .crcUpd32
  | 0x20#8 => some .sigCheck
  | 0x21#8 => some .sigWrite
  | 0x22#8 => some .chunkRead
  | 0x23#8 => some .chunkVerify
  | 0x24#8 => some .chunkSetcrc
  | 0x25#8 => some .chunkWrite
  | 0x30#8 => some .unfilter
  | 0x31#8 => some .filter
  | 0x38#8 => some .deinterlace
  | 0x39#8 => some .interlace
  | 0x40#8 => some .decHeader
  | 0x41#8 => some .decChunks
  | 0x42#8 => some .decInflate
  | 0x43#8 => some .decPixels
  | 0x44#8 => some .decExpand
  | 0x4F#8 => some (.decode pipe)
  | 0x50#8 => some .encValidate
  | 0x51#8 => some .encHeader
  | 0x52#8 => some .encData
  | 0x53#8 => some .encTrailer
  | 0x5F#8 => some (.encode pipe)
  | _ => none

/-- Whether an opcode takes the PIPE bit (30_encoding.md R301). -/
def takesPipe (op : Byte) : Bool := op == 0x4F#8 || op == 0x5F#8

/-- The decode procedure of 30_encoding.md R304, total on every word. -/
def decode (w : Word) : Except DecodeError Instr :=
  match instrOfOpcode (opcodeOf w) (pipeOf w) with
  | none => .error .reservedOpcode
  | some i =>
    if reservedOf w ≠ 0 then .error .reservedBits
    else if pipeOf w && !takesPipe (opcodeOf w) then .error .pipeNotAllowed
    else .ok i

/-- The opcode of a command (30_encoding.md R302). -/
def Instr.opcode : Instr → Byte
  | .nop => 0x00
  | .clear => 0x01
  | .crcCalc => 0x10
  | .crcUpd => 0x11
  | .crcUpd32 => 0x12
  | .sigCheck => 0x20
  | .sigWrite => 0x21
  | .chunkRead => 0x22
  | .chunkVerify => 0x23
  | .chunkSetcrc => 0x24
  | .chunkWrite => 0x25
  | .unfilter => 0x30
  | .filter => 0x31
  | .deinterlace => 0x38
  | .interlace => 0x39
  | .decHeader => 0x40
  | .decChunks => 0x41
  | .decInflate => 0x42
  | .decPixels => 0x43
  | .decExpand => 0x44
  | .decode _ => 0x4F
  | .encValidate => 0x50
  | .encHeader => 0x51
  | .encData => 0x52
  | .encTrailer => 0x53
  | .encode _ => 0x5F

/-- The PIPE bit of a command: 0 for every CMD-R command (30_encoding.md R301). -/
def Instr.pipe : Instr → Bool
  | .decode p => p
  | .encode p => p
  | .nop | .clear | .crcCalc | .crcUpd | .crcUpd32 | .sigCheck | .sigWrite | .chunkRead | .chunkVerify => false
  | .chunkSetcrc | .chunkWrite | .unfilter | .filter | .deinterlace | .interlace | .decHeader | .decChunks => false
  | .decInflate | .decPixels | .decExpand | .encValidate | .encHeader | .encData | .encTrailer => false

/-- The fields of a command's word (30_encoding.md R301). -/
def Instr.fields (i : Instr) : CommandFields :=
  { opcode := i.opcode, pipe := i.pipe, reserved := 0 }

/-- A word from its fields: `reserved << 9 | PIPE << 8 | OPCODE` (30_encoding.md R301). -/
def CommandFields.toWord (f : CommandFields) : Word :=
  (f.reserved ++ BitVec.ofBool f.pipe ++ f.opcode).cast (by decide)

/-- The fields of a word (30_encoding.md R301). -/
def fieldsOf (w : Word) : CommandFields :=
  { opcode := opcodeOf w, pipe := pipeOf w, reserved := reservedOf w }

/-- The word of a command: formats CMD-R and CMD-P of 30_encoding.md R301. -/
def encode (i : Instr) : Word := i.fields.toWord

/-- The decoder's answer for a word numbered as opcode_table.json numbers it. A command is one 32-bit word
(30_encoding.md R300): bits above `nbits` are 0. -/
def decodeTableWord (nbits w : Nat) : Option Instr :=
  match decode (BitVec.ofNat 32 (w % 2 ^ nbits)) with
  | .ok i => some i
  | .error _ => none

end Sys2Proof
end

