-- ==== Sys2Proof/Machine/State.lean ====
section
/-! DEFINITION. The block's state as plain data (10_state.md), the two ways a step can stop, and the state after
reset (70_reset_and_hazards.md R1000). -/

namespace Sys2Proof.Machine

/-- A byte memory: address and byte pairs, addresses strictly rising, no byte equal to `Memory.unlisted`. -/
abbrev Memory := List Host.Cell

/-- The seven buffer spaces (10_state.md R140). -/
inductive Space where
  | inp
  | outp
  | dbuf
  | raw
  | pal
  | metaLog
  | pix
  deriving DecidableEq, Repr

/-- The contents of the seven spaces (10_state.md R140). -/
structure Spaces where
  inp : Memory
  outp : Memory
  dbuf : Memory
  raw : Memory
  pal : Memory
  metaLog : Memory
  pix : Memory
  deriving DecidableEq, Repr

/-- The four internal streams (10_state.md R150). -/
inductive StreamId where
  | stage
  | infl
  | filt
  | defl
  deriving DecidableEq, Repr

/-- The state of one internal stream (10_state.md R151). -/
structure Stream where
  readable : Bytes
  rpos : Nat
  staged : Bytes
  closed : Bool
  total : Nat
  deriving DecidableEq, Repr

/-- A stream that is reset (10_state.md R151). -/
def Stream.fresh : Stream := { readable := [], rpos := 0, staged := [], closed := false, total := 0 }

/-- The four internal streams (10_state.md R150). -/
structure Streams where
  stage : Stream
  infl : Stream
  filt : Stream
  defl : Stream
  deriving DecidableEq, Repr

/-- `CTRL` (10_state.md R106). -/
structure Ctrl where
  crcCheckEn : Bool
  irqEn : Bool
  deriving DecidableEq, Repr

/-- `STATUS` (10_state.md R107). -/
structure Status where
  busy : Bool
  done : Bool
  err : Bool
  cmdLost : Bool
  pipeActive : Bool
  op : Byte
  deriving DecidableEq, Repr

/-- The CRC unit's registers (10_state.md R111). -/
structure CrcRegs where
  input : Word
  val : Word
  off : Word
  len : Word
  out : Word
  deriving DecidableEq, Repr

/-- The chunk registers (10_state.md R112). -/
structure ChunkRegs where
  length : Word
  type : Word
  crc : Word
  deriving DecidableEq, Repr

/-- `IMG_WIDTH`, `IMG_HEIGHT`, the four bytes of `IMG_FORMAT` and the two fields of `IMG_MODE` (10_state.md R114-R116). -/
structure ImgRegs where
  width : Word
  height : Word
  bitDepth : Byte
  colorType : Byte
  compression : Byte
  filter : Byte
  interlace : Byte
  level : Byte
  deriving DecidableEq, Repr

/-- `DEC_STATE` (10_state.md R165). -/
inductive DecState where
  | idle
  | header
  | chunks
  | inflated
  | pixels
  | expanded
  | failed
  deriving DecidableEq, Repr

/-- `ENC_STATE` (10_state.md R166). -/
inductive EncState where
  | idle
  | valid
  | header
  | data
  | done
  | failed
  deriving DecidableEq, Repr

/-- The encoder's registers (10_state.md R118-R121), its hidden count (R164), and the model's own mark of
70_reset_and_hazards.md R1023 (log 11). -/
structure EncRegs where
  palCount : BitVec 9
  emitAlpha : Bool
  maxIdat : Word
  state : EncState
  /-- Deflated bytes already placed into `IDAT` chunks (10_state.md R164). -/
  placed : Nat
  /-- The host changed the encode configuration since ENC.VALIDATE (70_reset_and_hazards.md R1023, log 11). -/
  configChanged : Bool
  deriving DecidableEq, Repr

/-- The decoder's registers (10_state.md R122-R125). -/
structure DecRegs where
  state : DecState
  seenPlte : Bool
  seenTrns : Bool
  seenIdat : Bool
  seenIend : Bool
  palCount : BitVec 9
  trnsCount : BitVec 9
  pixMax : BitVec 16
  deriving DecidableEq, Repr

/-- The cursors and counters (10_state.md R126-R131). -/
structure Counters where
  inLen : Word
  inPos : Word
  outLen : Word
  stageLen : Word
  inflLen : Word
  filtLen : Word
  deflLen : Word
  rawLen : Word
  pixLen : Word
  metaLen : Word
  metaCount : Word
  idatCount : Word
  deriving DecidableEq, Repr

/-- `FSTATE` (10_state.md R162). -/
inductive FState where
  | idle
  | readType
  | readRow
  | recon
  | unpack
  | writeRaw
  | readRaw
  | pack
  | select
  | writeFilt
  deriving DecidableEq, Repr

/-- The filter engine's hidden state (10_state.md R162). `cur` and `pri` hold the bytes of the row buffers that a
row has defined. -/
structure FilterUnit where
  cur : Bytes
  pri : Bytes
  row : Nat
  pass : Fin 8
  fstate : FState
  deriving DecidableEq, Repr

/-- One turn of a stage of a pipelined command (60_exceptions.md R951). `first` is the chunk reader or the
interlacer-filter, `second` the inflater or the deflater (with the number of bytes it moves at most), `third` the
deinterlacer or the `IDAT` splitter (likewise). -/
inductive StageTurn where
  | first
  | second (n : Nat)
  | third (n : Nat)
  deriving DecidableEq, Repr

/-- What can happen to the block between two steps of the command engine (60_exceptions.md R951, log 2). -/
inductive HostEvent where
  /-- A host write to the register window (10_state.md R100). -/
  | regWrite (width : AccessWidth) (off : Nat) (v : Word)
  /-- A host read of the register window. -/
  | regRead (width : AccessWidth) (off : Nat)
  /-- A host byte write to a space (10_state.md R140). -/
  | spaceWrite (sp : Space) (off : Nat) (v : Byte)
  /-- A host byte read of a space. -/
  | spaceRead (sp : Space) (off : Nat)
  /-- A host write at an address of the platform (20_memory.md R240). -/
  | busWrite (width : AccessWidth) (addr : Nat) (v : Word)
  /-- A host read at an address of the platform. -/
  | busRead (width : AccessWidth) (addr : Nat)
  /-- The command engine runs the accepted command, its stages interleaved as `turns` says. -/
  | engine (turns : List StageTurn)
  /-- Reset is asserted (70_reset_and_hazards.md R1000, R1003). -/
  | resetAssert
  /-- Reset is released, the spaces holding these contents (70_reset_and_hazards.md R1002). -/
  | resetRelease (contents : Spaces)
  deriving DecidableEq, Repr

/-- The block's side of the host interface: the events still to come and the value the last host read returned
(the model's own, log 1 and log 23). -/
structure HostPort where
  inbox : List HostEvent
  readData : Word
  deriving DecidableEq, Repr

/-- The whole state of the block. -/
structure State where
  cfg : Config
  ctrl : Ctrl
  status : Status
  /-- `CMD`, the last accepted word (10_state.md R108). -/
  cmd : Word
  /-- `ERRCODE` (10_state.md R109). -/
  errCode : Byte
  /-- `ERRINFO` (10_state.md R110). -/
  errInfo : Word
  crc : CrcRegs
  ch : ChunkRegs
  img : ImgRegs
  enc : EncRegs
  dec : DecRegs
  cnt : Counters
  mem : Spaces
  str : Streams
  flt : FilterUnit
  /-- Reset is asserted (70_reset_and_hazards.md R1000). -/
  inReset : Bool
  /-- The stage interleaving chosen for the running command (the model's own, log 16). -/
  turns : List StageTurn
  /-- Picks the next free value (the model's own, log 9). -/
  freeIdx : Nat
  port : HostPort
  deriving DecidableEq, Repr

/-- Why a step stops with a fault. -/
inductive Fault where
  /-- A stage waits on an open stream that no stage of the command will ever write or close (20_memory.md R212, R221):
  raised by DEC.INFLATE and DEC.PIXELS. Safe: no reachable state has it (log 17). -/
  | stalledRead
  deriving DecidableEq, Repr

/-- Why a step refuses to go on. -/
inductive Refusal where
  /-- An instruction with no meaning yet; raised by `exec`'s arms only. Safe. -/
  | notModelled (mnemonic : String)
  /-- A narrower, wider or misaligned access to the register window (10_state.md R100: "a model refuses it"). Safe. -/
  | badWindowAccess
  /-- A host access that reaches no register and no byte of a space: an offset outside the window (10_state.md R100,
  92_eei_decisions.md D2) or beyond a space (20_memory.md R236), or another platform address (20_memory.md R240);
  60_exceptions.md R900. Raised by host accesses only. Safe (log 14). -/
  | outsideInterface
  /-- A host write to a space while busy (70_reset_and_hazards.md R1020: "refused by a model"). Safe. -/
  | spaceWriteWhileBusy
  /-- An ENC.* command after the host changed the encode configuration (70_reset_and_hazards.md R1023: "a model
  refuses the program"); raised by ENC.HEADER, ENC.DATA and ENC.TRAILER. Safe (log 11). -/
  | encodeConfigChanged
  deriving DecidableEq, Repr

/-- Spaces with nothing listed. -/
def Spaces.empty : Spaces :=
  { inp := [], outp := [], dbuf := [], raw := [], pal := [], metaLog := [], pix := [] }

/-- The state of 70_reset_and_hazards.md R1000 for given parameters and given space contents, which R1000 leaves to
the model's arguments. -/
def State.resetWith (cfg : Config) (contents : Spaces) : State where
  cfg := cfg
  ctrl := { crcCheckEn := true, irqEn := false }
  status := { busy := false, done := false, err := false, cmdLost := false, pipeActive := false, op := 0 }
  cmd := 0
  errCode := 0
  errInfo := 0
  crc := { input := 0, val := 0, off := 0, len := 0, out := 0 }
  ch := { length := 0, type := 0, crc := 0 }
  img :=
    { width := 0, height := 0, bitDepth := 0, colorType := 0, compression := 0, filter := 0, interlace := 0,
      level := 0 }
  enc :=
    { palCount := 0, emitAlpha := false, maxIdat := 0xFFFFFFFF, state := .idle, placed := 0,
      configChanged := false }
  dec :=
    { state := .idle, seenPlte := false, seenTrns := false, seenIdat := false, seenIend := false, palCount := 0,
      trnsCount := 0, pixMax := 0 }
  cnt :=
    { inLen := 0, inPos := 0, outLen := 0, stageLen := 0, inflLen := 0, filtLen := 0, deflLen := 0, rawLen := 0,
      pixLen := 0, metaLen := 0, metaCount := 0, idatCount := 0 }
  mem := contents
  str := { stage := .fresh, infl := .fresh, filt := .fresh, defl := .fresh }
  flt := { cur := [], pri := [], row := 0, pass := 0, fstate := .idle }
  inReset := false
  turns := []
  freeIdx := 0
  port := { inbox := [], readData := 0 }

/-- The block right after reset (70_reset_and_hazards.md R1000), with the model's parameters (log 6) and no byte of a
space listed (log 4). No host event is to come: nothing runs until the host writes `CMD` (R1004, log 1). -/
def State.reset : State := State.resetWith Config.default Spaces.empty

end Sys2Proof.Machine
end

