-- ==== Sys2Proof/Machine/Bytes.lean ====
section
/-! DEFINITION. Byte sequences and byte order (00_scope.md R14, 20_memory.md R200, R201, R206). -/

namespace Sys2Proof.Machine

/-- `s[i]`; 0 past the end (no rule reads there). -/
def byteAt (s : Bytes) (i : Nat) : Byte := s.getD i 0

/-- `s[off .. off+n)`. -/
def slice (s : Bytes) (off n : Nat) : Bytes := (s.drop off).take n

/-- `n` zero bytes. -/
def zeros (n : Nat) : Bytes := List.replicate n 0

/-- `s[off .. off+len(v)) <- v`. -/
def overwrite (s : Bytes) (off : Nat) (v : Bytes) : Bytes := s.take off ++ v ++ s.drop (off + v.length)

/-- `BE32(v) = [v[31:24], v[23:16], v[15:8], v[7:0]]` (00_scope.md R14; `WriteU32` of 20_memory.md R200). -/
def be32 (v : Word) : Bytes := [v.extractLsb' 24 8, v.extractLsb' 16 8, v.extractLsb' 8 8, v.extractLsb' 0 8]

/-- `BE16(v) = [v[15:8], v[7:0]]` (00_scope.md R14). -/
def be16 (v : BitVec 16) : Bytes := [v.extractLsb' 8 8, v.extractLsb' 0 8]

/-- `U32BE(s)` (00_scope.md R14; `ReadU32` of 20_memory.md R200). -/
def u32be (s : Bytes) : Word := (byteAt s 0 ++ byteAt s 1 ++ byteAt s 2 ++ byteAt s 3 : BitVec (8 + 8 + 8 + 8))

/-- `U16BE(s)` (00_scope.md R14). -/
def u16be (s : Bytes) : BitVec 16 := (byteAt s 0 ++ byteAt s 1 : BitVec (8 + 8))

/-- `BE32` of a length (30_encoding.md R321). -/
def be32Len (n : Nat) : Bytes := be32 (BitVec.ofNat 32 n)

end Sys2Proof.Machine
end

