-- ==== Sys2Proof/Machine/Ops.lean ====
section
/-! DEFINITION. The shared operations: byte memories, streams, the space and stream capacities, the errors, what a
command's pseudocode is made of, error entry (60_exceptions.md R930), completion (R931), and the values an error leaves
unspecified. -/

namespace Sys2Proof.Machine

/-! ## Byte memories -/

/-- What a byte of a space that nothing has written reads as (70_reset_and_hazards.md R1002 leaves it open; log 4). -/
def Memory.unlisted : Byte := 0

/-- The byte at an address. -/
def Memory.read : Memory → Nat → Byte
  | [], _ => Memory.unlisted
  | (b, v) :: rest, a => if a = b then v else Memory.read rest a

/-- Write one byte, keeping the canonical form. -/
def Memory.write : Memory → Nat → Byte → Memory
  | [], a, v => if v = Memory.unlisted then [] else [(a, v)]
  | (b, w) :: rest, a, v =>
    if a < b then (if v = Memory.unlisted then (b, w) :: rest else (a, v) :: (b, w) :: rest)
    else if a = b then (if v = Memory.unlisted then rest else (a, v) :: rest)
    else (b, w) :: Memory.write rest a v

/-- Bytes `off .. off+n-1`. -/
def Memory.readBytes (m : Memory) (off n : Nat) : Bytes := (List.range' off n).map m.read

/-- Write a byte sequence at `off`, in ascending order. -/
def Memory.writeBytes : Memory → Nat → Bytes → Memory
  | m, _, [] => m
  | m, off, v :: vs => Memory.writeBytes (m.write off v) (off + 1) vs

/-- The canonical form: addresses strictly rising, no byte listed that an unlisted address reads as. -/
abbrev Memory.wf (m : Memory) : Prop :=
  List.Pairwise (fun c d : Host.Cell => c.1 < d.1) m ∧ ∀ c ∈ m, c.2 ≠ Memory.unlisted

/-- Every listed address is below `cap`. -/
abbrev Memory.below (m : Memory) (cap : Nat) : Prop := ∀ c ∈ m, c.1 < cap

/-- A memory from any list of cells: those below `cap`, written one after the other. -/
def Memory.ofCells (cap : Nat) (cells : List Host.Cell) : Memory :=
  cells.foldl (fun m c => if c.1 < cap then m.write c.1 c.2 else m) []

/-- The memory that holds `f a` at every address below `n`, before the cells of `acc`. -/
def Memory.fill (f : Nat → Byte) : Nat → Memory → Memory
  | 0, acc => acc
  | n + 1, acc => Memory.fill f n (if f n = Memory.unlisted then acc else (n, f n) :: acc)

/-! ## Spaces and streams -/

/-- The size of a space in bytes (10_state.md R140). -/
def Space.cap (c : Config) : Space → Nat
  | .inp => c.inCap
  | .outp => c.outCap
  | .dbuf => c.dbufCap
  | .raw => c.rawCap
  | .pal => 1024
  | .metaLog => c.metaCap
  | .pix => c.pixCap

/-- The space id `CapacityExceeded` carries (60_exceptions.md R902). -/
def Space.id : Space → Word
  | .inp => 0
  | .outp => 1
  | .dbuf => 2
  | .raw => 3
  | .pal => 4
  | .metaLog => 5
  | .pix => 6

/-- The capacity of a stream (10_state.md R150). -/
def StreamId.cap (c : Config) : StreamId → Nat
  | .stage => c.stageCap
  | .infl => c.inflCap
  | .filt => c.filtCap
  | .defl => c.deflCap

/-- The space id of a stream (60_exceptions.md R902). -/
def StreamId.id : StreamId → Word
  | .stage => 8
  | .infl => 9
  | .filt => 10
  | .defl => 11

/-- The space id of the row buffers (60_exceptions.md R902). -/
def rowBuffersId : Word := 12

/-- The contents of one space. -/
def Spaces.get (m : Spaces) : Space → Memory
  | .inp => m.inp
  | .outp => m.outp
  | .dbuf => m.dbuf
  | .raw => m.raw
  | .pal => m.pal
  | .metaLog => m.metaLog
  | .pix => m.pix

/-- Replace the contents of one space. -/
def Spaces.set (m : Spaces) (sp : Space) (v : Memory) : Spaces :=
  match sp with
  | .inp => { m with inp := v }
  | .outp => { m with outp := v }
  | .dbuf => { m with dbuf := v }
  | .raw => { m with raw := v }
  | .pal => { m with pal := v }
  | .metaLog => { m with metaLog := v }
  | .pix => { m with pix := v }

/-- The space contents that a release of reset brings, each space cut to its size and in canonical form
(70_reset_and_hazards.md R1002). -/
def Spaces.normal (c : Config) (m : Spaces) : Spaces :=
  { inp := .ofCells c.inCap m.inp, outp := .ofCells c.outCap m.outp, dbuf := .ofCells c.dbufCap m.dbuf,
    raw := .ofCells c.rawCap m.raw, pal := .ofCells 1024 m.pal, metaLog := .ofCells c.metaCap m.metaLog,
    pix := .ofCells c.pixCap m.pix }

/-- One stream. -/
def Streams.get (t : Streams) : StreamId → Stream
  | .stage => t.stage
  | .infl => t.infl
  | .filt => t.filt
  | .defl => t.defl

/-- Replace one stream. -/
def Streams.set (t : Streams) (i : StreamId) (v : Stream) : Streams :=
  match i with
  | .stage => { t with stage := v }
  | .infl => { t with infl := v }
  | .filt => { t with filt := v }
  | .defl => { t with defl := v }

/-- Replace the contents of one space. -/
def State.setSpace (s : State) (sp : Space) (v : Memory) : State := { s with mem := s.mem.set sp v }

/-- Replace one stream. -/
def State.setStream (s : State) (i : StreamId) (v : Stream) : State := { s with str := s.str.set i v }

/-- `StreamWrite` on an open stream with room (20_memory.md R213). -/
def Stream.write (t : Stream) (v : Bytes) : Stream :=
  { t with staged := t.staged ++ v, total := t.total + v.length }

/-- `Flush` (20_memory.md R214). -/
def Stream.flush (t : Stream) : Stream := { t with readable := t.readable ++ t.staged, staged := [] }

/-- `Close`: a final flush, and the stream is closed; no effect on a closed stream (20_memory.md R215). -/
def Stream.close (t : Stream) : Stream := if t.closed then t else { t.flush with closed := true }

/-- Close every internal stream not yet closed (60_exceptions.md R930). -/
def Streams.closeAll (t : Streams) : Streams :=
  { stage := t.stage.close, infl := t.infl.close, filt := t.filt.close, defl := t.defl.close }

/-- The flushed bytes the consumer has not read (20_memory.md R212, R219). -/
def Stream.unread (t : Stream) : Bytes := t.readable.drop t.rpos

/-- The consumer has read `n` bytes more. -/
def Stream.advance (t : Stream) (n : Nat) : Stream := { t with rpos := t.rpos + n }

/-- Compaction: the consumed bytes removed, the position moved with them (20_memory.md R216). No rule calls for it, and no
read shows it. -/
def Stream.compact (t : Stream) : Stream := { t with readable := t.readable.drop t.rpos, rpos := 0 }

/-- What a read of an internal stream gives (20_memory.md R210, R212). -/
inductive StreamRead where
  /-- Bytes, and the stream after the read. -/
  | data (v : Bytes) (after : Stream)
  /-- A strict read of a closed stream that is too short: `UnexpectedEOF`, nothing consumed. -/
  | unexpectedEof
  /-- A partial read of a closed, exhausted stream. -/
  | endOfFile
  /-- The reader has no step until the producer flushes or closes. -/
  | wait
  deriving DecidableEq, Repr

/-- `StreamRead(S, n, strict)` (20_memory.md R212). -/
def Stream.readStrict (t : Stream) (n : Nat) : StreamRead :=
  if n ≤ t.unread.length then .data (t.unread.take n) (t.advance n)
  else if t.closed then .unexpectedEof
  else .wait

/-- `StreamRead(S, n, partial)` (20_memory.md R212). -/
def Stream.readPartial (t : Stream) (n : Nat) : StreamRead :=
  if t.unread = [] then (if t.closed then .endOfFile else .wait)
  else .data (t.unread.take n) (t.advance (min n t.unread.length))

/-! ## Errors -/

/-- The closed enumeration of 60_exceptions.md R901. -/
inductive Err where
  /-- 0x01; the status of a partial read, never raised (R904). -/
  | endOfFile
  | unexpectedEof
  | updatingClosedStream
  /-- 0x04; never raised (R905). -/
  | ioError
  | invalidSignature
  | ihdrNotFound
  | invalidImageSize
  | invalidColorType
  | invalidBitDepth
  | unknownCompressionMethod
  | unknownFilterMethod
  | unknownInterlaceMethod
  | corruptedChunk
  | unknownNecessaryChunk
  | illegalPaletteChunk
  | duplicatePalette
  | invalidPaletteSize
  | paletteNotFound
  | illegalTrnsChunk
  | invalidTrnsSize
  | invalidPaletteIndex
  | invalidTextChunk
  | invalidTimeChunk
  | unknownFilterType
  | invalidChunkSplitSize
  | unknownCompressionLevel
  | compressionUnavailable
  | compressionDataError
  | illegalCommand
  | capacityExceeded
  | sequenceError
  deriving DecidableEq, Repr

/-- The codes of 60_exceptions.md R901. -/
def Err.code : Err → Byte
  | .endOfFile => 0x01
  | .unexpectedEof => 0x02
  | .updatingClosedStream => 0x03
  | .ioError => 0x04
  | .invalidSignature => 0x10
  | .ihdrNotFound => 0x11
  | .invalidImageSize => 0x12
  | .invalidColorType => 0x13
  | .invalidBitDepth => 0x14
  | .unknownCompressionMethod => 0x15
  | .unknownFilterMethod => 0x16
  | .unknownInterlaceMethod => 0x17
  | .corruptedChunk => 0x18
  | .unknownNecessaryChunk => 0x19
  | .illegalPaletteChunk => 0x20
  | .duplicatePalette => 0x21
  | .invalidPaletteSize => 0x22
  | .paletteNotFound => 0x23
  | .illegalTrnsChunk => 0x24
  | .invalidTrnsSize => 0x25
  | .invalidPaletteIndex => 0x26
  | .invalidTextChunk => 0x28
  | .invalidTimeChunk => 0x29
  | .unknownFilterType => 0x30
  | .invalidChunkSplitSize => 0x38
  | .unknownCompressionLevel => 0x39
  | .compressionUnavailable => 0x40
  | .compressionDataError => 0x41
  | .illegalCommand => 0x50
  | .capacityExceeded => 0x51
  | .sequenceError => 0x52

/-- The categories of 60_exceptions.md R910. -/
inductive ErrCategory where
  | io
  | structural
  | compression
  | device
  deriving DecidableEq, Repr

/-- The category of an error (60_exceptions.md R901, R910). -/
def Err.category : Err → ErrCategory
  | .endOfFile | .unexpectedEof | .updatingClosedStream | .ioError => .io
  | .invalidSignature | .ihdrNotFound | .invalidImageSize | .invalidColorType | .invalidBitDepth => .structural
  | .unknownCompressionMethod | .unknownFilterMethod | .unknownInterlaceMethod | .corruptedChunk => .structural
  | .unknownNecessaryChunk | .illegalPaletteChunk | .duplicatePalette | .invalidPaletteSize => .structural
  | .paletteNotFound | .illegalTrnsChunk | .invalidTrnsSize | .invalidPaletteIndex | .invalidTextChunk => .structural
  | .invalidTimeChunk | .unknownFilterType | .invalidChunkSplitSize => .structural
  | .compressionUnavailable | .compressionDataError => .compression
  | .unknownCompressionLevel | .illegalCommand | .capacityExceeded | .sequenceError => .device

/-! ## A command's pseudocode -/

/-- How a piece of pseudocode ends: it goes on, it has raised an error (the state being that at the `raise`,
00_scope.md R15), it waits for ever, or the model refuses to go on. -/
inductive Res (α : Type) where
  | ok (a : α) (s : State)
  | raised (e : Err) (info : Word) (s : State)
  | stuck (f : Fault)
  | refuse (r : Refusal)
  deriving DecidableEq, Repr

/-- A piece of pseudocode that answers a value. -/
def Cmd (α : Type) : Type := State → Res α

/-- Answer a value, change nothing. -/
def Cmd.ret {α : Type} (a : α) : Cmd α := fun s => .ok a s

/-- One piece after another. -/
def Cmd.bind {α β : Type} (m : Cmd α) (f : α → Cmd β) : Cmd β := fun s =>
  match m s with
  | .ok a s' => f a s'
  | .raised e info s' => .raised e info s'
  | .stuck x => .stuck x
  | .refuse r => .refuse r

/-- One piece after another, the first one's value unused. -/
def Cmd.andThen {α β : Type} (m : Cmd α) (n : Cmd β) : Cmd β := m.bind fun _ => n

/-- `raise E(info)` (00_scope.md R15). -/
def Cmd.raise {α : Type} (e : Err) (info : Word) : Cmd α := fun s => .raised e info s

/-- `if c: raise E(info)`. -/
def Cmd.raiseIf (c : Bool) (e : Err) (info : Word) : Cmd Unit := fun s =>
  if c then .raised e info s else .ok () s

/-- Look at the state. -/
def Cmd.look {α : Type} (f : State → α) : Cmd α := fun s => .ok (f s) s

/-- Change the state. -/
def Cmd.update (f : State → State) : Cmd Unit := fun s => .ok () (f s)

/-- If the piece raises, change the state it raises with (60_exceptions.md R930: unspecified results). -/
def Cmd.onRaise {α : Type} (m : Cmd α) (f : Err → State → State) : Cmd α := fun s =>
  match m s with
  | .ok a s' => .ok a s'
  | .raised e info s' => .raised e info (f e s')
  | .stuck x => .stuck x
  | .refuse r => .refuse r

/-- A piece for each element of a list, in order. -/
def Cmd.forEach {α : Type} (f : α → Cmd Unit) : List α → Cmd Unit
  | [] => .ret ()
  | a :: rest => (f a).andThen (Cmd.forEach f rest)

/-! ## Space and stream access -/

/-- `MemRead(SP, off, n)` (00_scope.md R15); an access beyond the space raises `CapacityExceeded`
(20_memory.md R236, log 18). -/
def memRead (sp : Space) (off n : Nat) : Cmd Bytes := fun s =>
  if sp.cap s.cfg < off + n then .raised .capacityExceeded sp.id s
  else .ok ((s.mem.get sp).readBytes off n) s

/-- `MemWrite(SP, off, len(v), v)` (00_scope.md R15, 20_memory.md R236). -/
def memWrite (sp : Space) (off : Nat) (v : Bytes) : Cmd Unit := fun s =>
  if sp.cap s.cfg < off + v.length then .raised .capacityExceeded sp.id s
  else .ok () (s.setSpace sp ((s.mem.get sp).writeBytes off v))

/-- `avail` of 20_memory.md R211. -/
def inAvail (s : State) : Nat := s.cnt.inLen.toNat - s.cnt.inPos.toNat

/-- `StreamRead(IN, n, strict)` (20_memory.md R211). -/
def readIn (n : Nat) : Cmd Bytes := fun s =>
  if inAvail s < n then .raised .unexpectedEof 0 s
  else .ok (s.mem.inp.readBytes s.cnt.inPos.toNat n)
    { s with cnt.inPos := s.cnt.inPos + BitVec.ofNat 32 n }

/-- `StreamRead(IN, n, partial)` (20_memory.md R211); `none` is `EndOfFile`. -/
def readInPartial (n : Nat) : Cmd (Option Bytes) := fun s =>
  if inAvail s = 0 then .ok none s
  else .ok (some (s.mem.inp.readBytes s.cnt.inPos.toNat (min n (inAvail s))))
    { s with cnt.inPos := s.cnt.inPos + BitVec.ofNat 32 (min n (inAvail s)) }

/-- `ReadU32(IN)` (20_memory.md R200, R206). -/
def readU32 : Cmd Word := (readIn 4).bind fun b => .ret (u32be b)

/-- `StreamWrite(S, v)` (20_memory.md R213). -/
def streamWrite (i : StreamId) (v : Bytes) : Cmd Unit := fun s =>
  if (s.str.get i).closed then .raised .updatingClosedStream 0 s
  else if i.cap s.cfg < (s.str.get i).total + v.length then .raised .capacityExceeded i.id s
  else .ok () (s.setStream i ((s.str.get i).write v))

/-- `Flush(S)` (20_memory.md R214). -/
def flushStream (i : StreamId) : Cmd Unit := .update fun s => s.setStream i (s.str.get i).flush

/-- `Close(S)` (20_memory.md R215). -/
def closeStream (i : StreamId) : Cmd Unit := .update fun s => s.setStream i (s.str.get i).close

/-- Reset a stream (10_state.md R151). -/
def resetStream (i : StreamId) : Cmd Unit := .update fun s => s.setStream i .fresh

/-- `OutWrite(v)` (20_memory.md R213). -/
def outWrite (v : Bytes) : Cmd Unit := fun s =>
  if s.cfg.outCap < s.cnt.outLen.toNat + v.length then .raised .capacityExceeded Space.outp.id s
  else .ok ()
    { s.setSpace .outp (s.mem.outp.writeBytes s.cnt.outLen.toNat v) with
      cnt.outLen := s.cnt.outLen + BitVec.ofNat 32 v.length }

/-! ## Values an error leaves unspecified -/

/-- A register, space or stream that a failing command may leave with any value (60_exceptions.md R930). -/
inductive Item where
  | inPos
  | outLen
  | chLength
  | chType
  | chCrc
  | imgWidth
  | imgHeight
  | imgFormat
  | imgInterlace
  | decSeen
  | palCount
  | trnsCount
  | pixMax
  | stageLen
  | inflLen
  | filtLen
  | deflLen
  | rawLen
  | pixLen
  | metaLen
  | metaCount
  | idatCount
  /-- A whole space. -/
  | space (sp : Space)
  /-- Bytes `off .. off+n-1` of a space, as far as the space goes. -/
  | bytes (sp : Space) (off n : Nat)
  | stream (i : StreamId)
  deriving DecidableEq, Repr

/-- A number for each item, so that no two registers, streams or spaces of a list share a free value. -/
def Item.slot : Item → Nat
  | .inPos => 0
  | .outLen => 1
  | .chLength => 2
  | .chType => 3
  | .chCrc => 4
  | .imgWidth => 5
  | .imgHeight => 6
  | .imgFormat => 7
  | .imgInterlace => 8
  | .decSeen => 9
  | .palCount => 10
  | .trnsCount => 11
  | .pixMax => 12
  | .stageLen => 13
  | .inflLen => 14
  | .filtLen => 15
  | .deflLen => 16
  | .rawLen => 17
  | .pixLen => 18
  | .metaLen => 19
  | .metaCount => 20
  | .idatCount => 21
  | .space sp => 32 + sp.id.toNat
  | .bytes sp _ _ => 32 + sp.id.toNat
  | .stream i => 32 + i.id.toNat

/-- Bytes `off .. off+n-1` of a space with free contents, as far as the space goes. -/
def freeRange (c : Config) (k slot : Nat) (sp : Space) (off n : Nat) (m : Memory) : Memory :=
  m.writeBytes off ((List.range (min n (sp.cap c - off))).map fun i => Config.freeByte k slot (off + i))

/-- A stream with free contents. The error entry that follows closes it (60_exceptions.md R930). -/
def Stream.free (k slot : Nat) : Stream :=
  { readable := Config.freeBytes k slot, rpos := Config.freeNat k slot, staged := [], closed := true,
    total := Config.freeNat k (slot + 64) }

/-- Give one item its free value number `k`. `OUT_LEN` keeps the bound of its WARL rule (10_state.md R128). -/
def Item.free (k : Nat) (it : Item) (s : State) : State :=
  let w := Config.freeWord k it.slot
  match it with
  | .inPos => { s with cnt.inPos := w }
  | .outLen => { s with cnt.outLen := BitVec.ofNat 32 (min w.toNat s.cfg.outCap) }
  | .chLength => { s with ch.length := w }
  | .chType => { s with ch.type := w }
  | .chCrc => { s with ch.crc := w }
  | .imgWidth => { s with img.width := w }
  | .imgHeight => { s with img.height := w }
  | .imgFormat =>
    { s with
      img.bitDepth := w.extractLsb' 0 8, img.colorType := w.extractLsb' 8 8,
      img.compression := w.extractLsb' 16 8, img.filter := w.extractLsb' 24 8 }
  | .imgInterlace => { s with img.interlace := w.extractLsb' 0 8 }
  | .decSeen =>
    { s with
      dec.seenPlte := w.getLsbD 0, dec.seenTrns := w.getLsbD 1, dec.seenIdat := w.getLsbD 2,
      dec.seenIend := w.getLsbD 3 }
  | .palCount => { s with dec.palCount := w.extractLsb' 0 9 }
  | .trnsCount => { s with dec.trnsCount := w.extractLsb' 0 9 }
  | .pixMax => { s with dec.pixMax := w.extractLsb' 0 16 }
  | .stageLen => { s with cnt.stageLen := w }
  | .inflLen => { s with cnt.inflLen := w }
  | .filtLen => { s with cnt.filtLen := w }
  | .deflLen => { s with cnt.deflLen := w }
  | .rawLen => { s with cnt.rawLen := w }
  | .pixLen => { s with cnt.pixLen := w }
  | .metaLen => { s with cnt.metaLen := w }
  | .metaCount => { s with cnt.metaCount := w }
  | .idatCount => { s with cnt.idatCount := w }
  | .space sp => s.setSpace sp (Memory.fill (Config.freeByte k it.slot) (sp.cap s.cfg) [])
  | .bytes sp off n => s.setSpace sp (freeRange s.cfg k it.slot sp off n (s.mem.get sp))
  | .stream i => s.setStream i (Stream.free k it.slot)

/-- Give every item of a list a free value (60_exceptions.md R930: "A model gives them any value"; log 8). -/
def unspecified (items : List Item) (s : State) : State :=
  items.foldl (fun t it => it.free s.freeIdx t) { s with freeIdx := s.freeIdx + 1 }

/-- The piece's error leaves these items unspecified. -/
def Cmd.leaving {α : Type} (m : Cmd α) (items : List Item) : Cmd α := m.onRaise fun _ => unspecified items

/-! ## Error entry and completion -/

/-- Which sequencer an error of the command marks as failed (60_exceptions.md R930). -/
inductive Family where
  | decode
  | encode
  | other
  deriving DecidableEq, Repr

/-- Error entry (60_exceptions.md R930). There is no return from it (R935): the host clears `STATUS.ERR` by W1C, or
issues the next command. -/
def errorEntry (fam : Family) (e : Err) (info : Word) (s : State) : State :=
  { s with
    str := s.str.closeAll
    dec.state := if fam = .decode then .failed else s.dec.state
    enc.state := if fam = .encode then .failed else s.enc.state
    errCode := e.code
    errInfo := info
    status.err := true
    status.busy := false
    status.pipeActive := false
    turns := [] }

/-- Completion, `finish` (60_exceptions.md R931). -/
def finish (s : State) : State :=
  { s with status.done := true, status.busy := false, status.pipeActive := false, turns := [] }

/-- Run a command's pseudocode: completion, error entry, or a stop. -/
def runCommand (fam : Family) (body : Cmd Unit) (s : State) : Host.Outcome State Fault Refusal :=
  match body s with
  | .ok _ s' => .next (finish s')
  | .raised e info s' => .next (errorEntry fam e info s')
  | .stuck f => .fault f
  | .refuse r => .refused r

end Sys2Proof.Machine
end

