-- ==== Sys2Proof/Machine/Format.lean ====
section
/-! DEFINITION. The terms of 00_scope.md R17 for an image format, and the format checks the commands share
(42_filter.md R545, 44_decode.md R666). -/

namespace Sys2Proof.Machine

/-- Samples per pixel of a colour type; 0 signals an invalid type (00_scope.md R17). -/
def samplesPerPixel (ct : Byte) : Nat :=
  if ct = 0 then 1 else if ct = 2 then 3 else if ct = 3 then 1 else if ct = 4 then 2 else if ct = 6 then 4 else 0

/-- `bd in {1, 2, 4, 8, 16}`. -/
def bitDepthKnown (bd : Byte) : Bool := bd == 1 || bd == 2 || bd == 4 || bd == 8 || bd == 16

/-- `ct in {0, 2, 3, 4, 6}`. -/
def colorTypeKnown (ct : Byte) : Bool := ct == 0 || ct == 2 || ct == 3 || ct == 4 || ct == 6

/-- The legal (colour type, bit depth) pairs of 00_scope.md R17. -/
def legalPair (ct bd : Byte) : Bool :=
  if ct = 0 then bitDepthKnown bd
  else if ct = 3 then bd == 1 || bd == 2 || bd == 4 || bd == 8
  else if ct = 2 || ct = 4 || ct = 6 then bd == 8 || bd == 16
  else false

/-- The terms of 00_scope.md R17 that the filter engine and the Adam7 unit use. -/
structure Format where
  /-- `(ct, bd)` is a legal pair. -/
  legal : Bool
  /-- `PB = SPP * bitDepth`. -/
  pixelBits : Nat
  /-- `bpp = ceil_div(PB, 8)`. -/
  bpp : Nat
  /-- `UPS = SPP * ceil_div(bitDepth, 8)`. -/
  ups : Nat
  deriving DecidableEq, Repr

/-- The format of a colour type and a bit depth (00_scope.md R17). -/
def formatOf (ct bd : Byte) : Format :=
  { legal := legalPair ct bd
    pixelBits := samplesPerPixel ct * bd.toNat
    bpp := ceilDiv (samplesPerPixel ct * bd.toNat) 8
    ups := samplesPerPixel ct * ceilDiv bd.toNat 8 }

/-- The format the image registers hold. -/
def ImgRegs.format (r : ImgRegs) : Format := formatOf r.colorType r.bitDepth

/-- `RB(w) = ceil_div(w * PB, 8)` (00_scope.md R17, 42_filter.md R500). -/
def Format.rowBytes (f : Format) (w : Nat) : Nat := ceilDiv (w * f.pixelBits) 8

/-- `w * h * UPS`, the bytes of the raw image (10_state.md R144). -/
def ImgRegs.rawBytes (r : ImgRegs) : Nat := r.width.toNat * r.height.toNat * r.format.ups

/-- The bit depth, colour type and pair checks, in the order of 42_filter.md R545, 44_decode.md R666 and
45_encode.md R751. -/
def checkColor : Cmd Unit := fun s =>
  if !bitDepthKnown s.img.bitDepth then .raised .invalidBitDepth 0 s
  else if !colorTypeKnown s.img.colorType then .raised .invalidColorType 0 s
  else if !legalPair s.img.colorType s.img.bitDepth then .raised .invalidBitDepth 0 s
  else .ok () s

/-- `if IMG_FORMAT.FILTER != 0: raise UnknownFilterMethod(0)`. -/
def checkFilterMethod : Cmd Unit := fun s =>
  if s.img.filter ≠ 0 then .raised .unknownFilterMethod 0 s else .ok () s

/-- `CheckFormat()` (42_filter.md R545). -/
def checkFormat : Cmd Unit := checkColor.andThen checkFilterMethod

/-- The size check of 44_decode.md R666 and 45_encode.md R751. -/
def checkSize : Cmd Unit := fun s =>
  if s.img.width = 0 ∨ s.img.height = 0 then .raised .invalidImageSize 0 s else .ok () s

/-- `if IMG_FORMAT.COMPRESSION != 0: raise UnknownCompressionMethod(0)` (44_decode.md R666). -/
def checkCompressionMethod : Cmd Unit := fun s =>
  if s.img.compression ≠ 0 then .raised .unknownCompressionMethod 0 s else .ok () s

/-- `CheckHeader()` (44_decode.md R666). -/
def checkHeader : Cmd Unit :=
  checkSize.andThen (checkColor.andThen (checkCompressionMethod.andThen checkFilterMethod))

/-- `if IMG_MODE.INTERLACE > 1: raise UnknownInterlaceMethod(0)`. -/
def checkInterlace : Cmd Unit := fun s =>
  if 1 < s.img.interlace.toNat then .raised .unknownInterlaceMethod 0 s else .ok () s

/-- `if IMG_MODE.LEVEL > 3: raise UnknownCompressionLevel(0)`. -/
def checkLevel : Cmd Unit := fun s =>
  if 3 < s.img.level.toNat then .raised .unknownCompressionLevel 0 s else .ok () s

/-- `if w * h * UPS > RAW_CAP: raise CapacityExceeded(3)`; the product is exact (42_filter.md R520). -/
def checkRawRange : Cmd Unit := fun s =>
  if s.cfg.rawCap < s.img.rawBytes then .raised .capacityExceeded Space.raw.id s else .ok () s

end Sys2Proof.Machine
end

