-- ==== Sys2Proof/Machine/Flags.lean ====
section
/-! DEFINITION. Every register that is computed or packed from flags: CTRL, STATUS, CH_FLAGS, IMG_FORMAT, IMG_MODE,
IMG_DERIVED, DEC_STATUS, ENC_STATUS and the `irq` output (10_state.md R106-R122, 60_exceptions.md R945). -/

namespace Sys2Proof.Machine

/-- `CTRL` as the host reads it (10_state.md R106). -/
def Ctrl.word (c : Ctrl) : Word :=
  ((0 : BitVec 30) ++ BitVec.ofBool c.irqEn ++ BitVec.ofBool c.crcCheckEn : BitVec (30 + 1 + 1))

/-- `CTRL` after a host write (10_state.md R106). -/
def Ctrl.ofWord (v : Word) : Ctrl := { crcCheckEn := v.getLsbD 0, irqEn := v.getLsbD 1 }

/-- `STATUS` as the host reads it (10_state.md R107). -/
def Status.word (t : Status) : Word :=
  ((0 : BitVec 16) ++ t.op ++ (0 : BitVec 3) ++ BitVec.ofBool t.pipeActive ++ BitVec.ofBool t.cmdLost ++
    BitVec.ofBool t.err ++ BitVec.ofBool t.done ++ BitVec.ofBool t.busy : BitVec (16 + 8 + 3 + 1 + 1 + 1 + 1 + 1))

/-- A host write to `STATUS`: 1 clears DONE, ERR and CMD_LOST, every other bit is read-only (10_state.md R107). -/
def Status.w1c (t : Status) (v : Word) : Status :=
  { t with
    done := t.done && !v.getLsbD 1
    err := t.err && !v.getLsbD 2
    cmdLost := t.cmdLost && !v.getLsbD 3 }

/-- `CH_FLAGS` computed from `CH_TYPE` (10_state.md R113, 30_encoding.md R324). -/
def chFlags (typ : Word) : Word :=
  ((0 : BitVec 28) ++ BitVec.ofBool (typ.getLsbD 5) ++ BitVec.ofBool (typ.getLsbD 13) ++
    BitVec.ofBool (typ.getLsbD 21) ++ BitVec.ofBool (typ.getLsbD 29) : BitVec (28 + 1 + 1 + 1 + 1))

/-- The ancillary bit of a chunk type, `typ[29]` (10_state.md R113). -/
def isAncillary (typ : Word) : Bool := typ.getLsbD 29

/-- `IMG_FORMAT` as the host reads it (10_state.md R115). -/
def ImgRegs.formatWord (r : ImgRegs) : Word :=
  (r.filter ++ r.compression ++ r.colorType ++ r.bitDepth : BitVec (8 + 8 + 8 + 8))

/-- `IMG_MODE` as the host reads it (10_state.md R116). -/
def ImgRegs.modeWord (r : ImgRegs) : Word := ((0 : BitVec 16) ++ r.level ++ r.interlace : BitVec (16 + 8 + 8))

/-- `IMG_DERIVED` computed from `IMG_FORMAT` (10_state.md R117). -/
def ImgRegs.derivedWord (r : ImgRegs) : Word :=
  if r.format.legal then
    ((0 : BitVec 7) ++ (1 : BitVec 1) ++ BitVec.ofNat 8 r.format.bpp ++ BitVec.ofNat 8 r.format.pixelBits ++
      BitVec.ofNat 8 (samplesPerPixel r.colorType) : BitVec (7 + 1 + 8 + 8 + 8))
  else 0

/-- The code of `DEC_STATE` (10_state.md R165). -/
def DecState.code : DecState → BitVec 4
  | .idle => 0
  | .header => 1
  | .chunks => 2
  | .inflated => 3
  | .pixels => 4
  | .expanded => 5
  | .failed => 15

/-- The code of `ENC_STATE` (10_state.md R166). -/
def EncState.code : EncState → BitVec 4
  | .idle => 0
  | .valid => 1
  | .header => 2
  | .data => 3
  | .done => 4
  | .failed => 15

/-- `DEC_STATUS` as the host reads it (10_state.md R122). -/
def DecRegs.statusWord (d : DecRegs) : Word :=
  ((0 : BitVec 20) ++ BitVec.ofBool d.seenIend ++ BitVec.ofBool d.seenIdat ++ BitVec.ofBool d.seenTrns ++
    BitVec.ofBool d.seenPlte ++ (0 : BitVec 4) ++ d.state.code : BitVec (20 + 1 + 1 + 1 + 1 + 4 + 4))

/-- `ENC_STATUS` as the host reads it (10_state.md R121). -/
def EncRegs.statusWord (e : EncRegs) : Word := e.state.code.setWidth 32

/-- The `irq` output (60_exceptions.md R945). -/
def State.irq (s : State) : Bool := s.ctrl.irqEn && (s.status.done || s.status.err)

end Sys2Proof.Machine
end

