-- ==== Sys2Proof/Machine/Operands.lean ====
section
/-! DEFINITION. The register window (10_state.md section 2): the offset of each register, what the host reads and what a
host write stores; and which registers a command writes (30_encoding.md R306). -/

namespace Sys2Proof.Machine

/-- The registers of 10_state.md section 2. -/
inductive Reg where
  | id
  | version
  | ctrl
  | status
  | cmd
  | errcode
  | errinfo
  | crcIn
  | crcVal
  | crcOff
  | crcLen
  | crcOut
  | chLength
  | chType
  | chCrc
  | chFlags
  | imgWidth
  | imgHeight
  | imgFormat
  | imgMode
  | imgDerived
  | encPalCount
  | encCfg
  | encMaxIdat
  | encStatus
  | decStatus
  | palCount
  | trnsCount
  | pixMax
  | inLen
  | inPos
  | outLen
  | stageLen
  | inflLen
  | filtLen
  | deflLen
  | rawLen
  | pixLen
  | metaLen
  | metaCount
  | idatCount
  deriving DecidableEq, Repr

/-- The offset of a register (10_state.md section 2). -/
def Reg.offset : Reg → Nat
  | .id => 0x000
  | .version => 0x004
  | .ctrl => 0x008
  | .status => 0x00C
  | .cmd => 0x010
  | .errcode => 0x014
  | .errinfo => 0x018
  | .crcIn => 0x020
  | .crcVal => 0x024
  | .crcOff => 0x028
  | .crcLen => 0x02C
  | .crcOut => 0x030
  | .chLength => 0x040
  | .chType => 0x044
  | .chCrc => 0x048
  | .chFlags => 0x04C
  | .imgWidth => 0x060
  | .imgHeight => 0x064
  | .imgFormat => 0x068
  | .imgMode => 0x06C
  | .imgDerived => 0x070
  | .encPalCount => 0x080
  | .encCfg => 0x084
  | .encMaxIdat => 0x088
  | .encStatus => 0x08C
  | .decStatus => 0x0A0
  | .palCount => 0x0A4
  | .trnsCount => 0x0A8
  | .pixMax => 0x0AC
  | .inLen => 0x0C0
  | .inPos => 0x0C4
  | .outLen => 0x0C8
  | .stageLen => 0x0CC
  | .inflLen => 0x0D0
  | .filtLen => 0x0D4
  | .deflLen => 0x0D8
  | .rawLen => 0x0DC
  | .pixLen => 0x0E0
  | .metaLen => 0x0E4
  | .metaCount => 0x0E8
  | .idatCount => 0x0EC

/-- The register at an offset of the window; `none` where the offset is reserved (10_state.md R102). -/
def Reg.ofOffset (off : Nat) : Option Reg :=
  match off with
  | 0x000 => some .id
  | 0x004 => some .version
  | 0x008 => some .ctrl
  | 0x00C => some .status
  | 0x010 => some .cmd
  | 0x014 => some .errcode
  | 0x018 => some .errinfo
  | 0x020 => some .crcIn
  | 0x024 => some .crcVal
  | 0x028 => some .crcOff
  | 0x02C => some .crcLen
  | 0x030 => some .crcOut
  | 0x040 => some .chLength
  | 0x044 => some .chType
  | 0x048 => some .chCrc
  | 0x04C => some .chFlags
  | 0x060 => some .imgWidth
  | 0x064 => some .imgHeight
  | 0x068 => some .imgFormat
  | 0x06C => some .imgMode
  | 0x070 => some .imgDerived
  | 0x080 => some .encPalCount
  | 0x084 => some .encCfg
  | 0x088 => some .encMaxIdat
  | 0x08C => some .encStatus
  | 0x0A0 => some .decStatus
  | 0x0A4 => some .palCount
  | 0x0A8 => some .trnsCount
  | 0x0AC => some .pixMax
  | 0x0C0 => some .inLen
  | 0x0C4 => some .inPos
  | 0x0C8 => some .outLen
  | 0x0CC => some .stageLen
  | 0x0D0 => some .inflLen
  | 0x0D4 => some .filtLen
  | 0x0D8 => some .deflLen
  | 0x0DC => some .rawLen
  | 0x0E0 => some .pixLen
  | 0x0E4 => some .metaLen
  | 0x0E8 => some .metaCount
  | 0x0EC => some .idatCount
  | _ => none

/-- The value a register holds, as the host reads it (10_state.md R101-R131). -/
def State.readReg (s : State) : Reg → Word
  | .id => 0x504E4743
  | .version => 0x00000007
  | .ctrl => s.ctrl.word
  | .status => s.status.word
  | .cmd => s.cmd
  | .errcode => s.errCode.setWidth 32
  | .errinfo => s.errInfo
  | .crcIn => s.crc.input
  | .crcVal => s.crc.val
  | .crcOff => s.crc.off
  | .crcLen => s.crc.len
  | .crcOut => s.crc.out
  | .chLength => s.ch.length
  | .chType => s.ch.type
  | .chCrc => s.ch.crc
  | .chFlags => Machine.chFlags s.ch.type
  | .imgWidth => s.img.width
  | .imgHeight => s.img.height
  | .imgFormat => s.img.formatWord
  | .imgMode => s.img.modeWord
  | .imgDerived => s.img.derivedWord
  | .encPalCount => s.enc.palCount.setWidth 32
  | .encCfg => (BitVec.ofBool s.enc.emitAlpha).setWidth 32
  | .encMaxIdat => s.enc.maxIdat
  | .encStatus => s.enc.statusWord
  | .decStatus => s.dec.statusWord
  | .palCount => s.dec.palCount.setWidth 32
  | .trnsCount => s.dec.trnsCount.setWidth 32
  | .pixMax => s.dec.pixMax.setWidth 32
  | .inLen => s.cnt.inLen
  | .inPos => s.cnt.inPos
  | .outLen => s.cnt.outLen
  | .stageLen => s.cnt.stageLen
  | .inflLen => s.cnt.inflLen
  | .filtLen => s.cnt.filtLen
  | .deflLen => s.cnt.deflLen
  | .rawLen => s.cnt.rawLen
  | .pixLen => s.cnt.pixLen
  | .metaLen => s.cnt.metaLen
  | .metaCount => s.cnt.metaCount
  | .idatCount => s.cnt.idatCount

/-- A host write to a register other than `CMD`, taken while the block is idle: read-only registers and reserved bits
ignore it (10_state.md R102), `IN_LEN` and `OUT_LEN` are WARL (R126, R128). -/
def State.storeReg (s : State) (r : Reg) (v : Word) : State :=
  match r with
  | .ctrl => { s with ctrl := .ofWord v }
  | .status => { s with status := s.status.w1c v }
  | .crcIn => { s with crc.input := v }
  | .crcVal => { s with crc.val := v }
  | .crcOff => { s with crc.off := v }
  | .crcLen => { s with crc.len := v }
  | .chLength => { s with ch.length := v }
  | .chType => { s with ch.type := v }
  | .chCrc => { s with ch.crc := v }
  | .imgWidth => { s with img.width := v }
  | .imgHeight => { s with img.height := v }
  | .imgFormat =>
    { s with
      img.bitDepth := v.extractLsb' 0 8, img.colorType := v.extractLsb' 8 8,
      img.compression := v.extractLsb' 16 8, img.filter := v.extractLsb' 24 8 }
  | .imgMode => { s with img.interlace := v.extractLsb' 0 8, img.level := v.extractLsb' 8 8 }
  | .encPalCount => { s with enc.palCount := v.extractLsb' 0 9 }
  | .encCfg => { s with enc.emitAlpha := v.getLsbD 0 }
  | .encMaxIdat => { s with enc.maxIdat := v }
  | .inLen => { s with cnt.inLen := BitVec.ofNat 32 (min v.toNat s.cfg.inCap) }
  | .inPos => { s with cnt.inPos := v }
  | .outLen => { s with cnt.outLen := BitVec.ofNat 32 (min v.toNat s.cfg.outCap) }
  | .id | .version | .cmd | .errcode | .errinfo | .crcOut | .chFlags | .imgDerived | .encStatus | .decStatus => s
  | .palCount | .trnsCount | .pixMax | .stageLen | .inflLen | .filtLen | .deflLen | .rawLen | .pixLen => s
  | .metaLen | .metaCount | .idatCount => s

/-- The encode configuration of 70_reset_and_hazards.md R1023. -/
def Reg.isEncodeConfig : Reg → Bool
  | .imgWidth | .imgHeight | .imgFormat | .imgMode | .encPalCount | .encCfg | .encMaxIdat => true
  | .id | .version | .ctrl | .status | .cmd | .errcode | .errinfo | .crcIn | .crcVal | .crcOff | .crcLen => false
  | .crcOut | .chLength | .chType | .chCrc | .chFlags | .imgDerived | .encStatus | .decStatus | .palCount => false
  | .trnsCount | .pixMax | .inLen | .inPos | .outLen | .stageLen | .inflLen | .filtLen | .deflLen => false
  | .rawLen | .pixLen | .metaLen | .metaCount | .idatCount => false

/-- A staged encode is between ENC.VALIDATE and the end of ENC.TRAILER (70_reset_and_hazards.md R1023). -/
def EncState.staged : EncState → Bool
  | .valid | .header | .data => true
  | .idle | .done | .failed => false

/-- A host write to a register, taken while the block is idle, with the mark of 70_reset_and_hazards.md R1023: the
write changes the encode configuration of a staged encode (log 11). -/
def State.writeReg (s : State) (r : Reg) (v : Word) : State :=
  let t := s.storeReg r v
  if r.isEncodeConfig && s.enc.state.staged && t.readReg r != s.readReg r then
    { t with enc.configChanged := true }
  else t

/-- `CRC_OUT`, which the decode commands write only when `CTRL.CRC_CHECK_EN = 1` (44_decode.md R662). -/
def checkedCrcOut (crcCheckEn : Bool) : List Reg := if crcCheckEn then [.crcOut] else []

/-- The registers DEC.HEADER writes (30_encoding.md R306, 44_decode.md R651, R662, R710). -/
def headerResults (crcCheckEn : Bool) : List Reg :=
  [.inPos, .imgWidth, .imgHeight, .imgFormat, .imgMode, .imgDerived, .chLength, .chType, .chCrc, .chFlags,
   .decStatus, .palCount, .trnsCount, .idatCount] ++
  [.metaLen, .metaCount, .stageLen, .inflLen] ++ checkedCrcOut crcCheckEn

/-- The registers DEC.CHUNKS writes (30_encoding.md R306, 44_decode.md R662, R711). -/
def chunksResults (crcCheckEn : Bool) : List Reg :=
  [.inPos, .chLength, .chType, .chCrc, .chFlags, .decStatus, .palCount, .trnsCount, .idatCount, .metaLen,
   .metaCount, .stageLen] ++ checkedCrcOut crcCheckEn

/-- The registers ENC.DATA lists as its results (30_encoding.md R306, 45_encode.md R802). -/
def dataResults : List Reg := [.outLen, .filtLen, .deflLen, .idatCount, .encStatus]

/-- The registers a command writes besides `STATUS`, `ERRCODE` and `ERRINFO`, for a value of `CTRL.CRC_CHECK_EN`
(30_encoding.md R306, 44_decode.md R662). -/
def resultRegs (crcCheckEn : Bool) : Instr → List Reg
  | .nop => []
  | .clear =>
    [.decStatus, .encStatus, .palCount, .trnsCount, .pixMax, .idatCount, .metaLen, .metaCount] ++
    [.stageLen, .inflLen, .filtLen, .deflLen, .rawLen, .pixLen]
  | .crcCalc => [.crcOut]
  | .crcUpd => [.crcOut]
  | .crcUpd32 => [.crcOut]
  | .sigCheck => [.inPos]
  | .sigWrite => [.outLen]
  | .chunkRead => [.chLength, .chType, .chCrc, .chFlags, .inPos]
  | .chunkVerify => [.crcOut]
  | .chunkSetcrc => [.chCrc, .crcOut]
  | .chunkWrite => [.outLen]
  | .unfilter => [.rawLen, .inPos]
  | .filter => [.outLen]
  | .deinterlace => [.rawLen, .inPos]
  | .interlace => [.outLen]
  | .decHeader => headerResults crcCheckEn
  | .decChunks => chunksResults crcCheckEn
  | .decInflate => [.inflLen, .decStatus]
  | .decPixels => [.rawLen, .decStatus]
  | .decExpand => [.pixLen, .pixMax, .decStatus]
  | .decode _ => headerResults crcCheckEn ++ [.rawLen, .pixLen, .pixMax]
  | .encValidate => [.outLen, .encStatus]
  | .encHeader => [.outLen, .encStatus]
  | .encData => dataResults
  | .encTrailer => [.outLen, .encStatus]
  | .encode _ => dataResults

/-- The bits a register implements; the others are reserved and read 0 (10_state.md R102). -/
def Reg.mask : Reg → Word
  | .chFlags => 0x0000000F
  | .imgMode => 0x0000FFFF
  | .imgDerived => 0x01FFFFFF
  | .encStatus => 0x0000000F
  | .decStatus => 0x00000F0F
  | .palCount => 0x000001FF
  | .trnsCount => 0x000001FF
  | .pixMax => 0x0000FFFF
  | .encPalCount => 0x000001FF
  | .encCfg => 0x00000001
  | .ctrl => 0x00000003
  | .status => 0x0000FF1F
  | .errcode => 0x000000FF
  | .id | .version | .cmd | .errinfo | .crcIn | .crcVal | .crcOff | .crcLen | .crcOut => 0xFFFFFFFF
  | .chLength | .chType | .chCrc | .imgWidth | .imgHeight | .imgFormat | .encMaxIdat => 0xFFFFFFFF
  | .inLen | .inPos | .outLen | .stageLen | .inflLen | .filtLen | .deflLen | .rawLen => 0xFFFFFFFF
  | .pixLen | .metaLen | .metaCount | .idatCount => 0xFFFFFFFF

/-- What a host read gives while a command runs, for a register the command writes: a free value in the implemented
bits (70_reset_and_hazards.md R1021). In a pipelined DECODE, `DEC_STATE` reads D_IDLE or D_HEADER until the end. -/
def State.readWhileWritten (s : State) (i : Instr) (r : Reg) : Word :=
  let v := Config.freeWord s.freeIdx (100 + r.offset) &&& r.mask
  if r = .decStatus ∧ i = .decode true then v &&& 0x00000F01 else v

/-- A host read of a register, and the free-value counter after it (10_state.md R103, 70_reset_and_hazards.md R1021). -/
def State.hostRead (s : State) (r : Reg) : Word × Nat :=
  if !s.status.busy then (s.readReg r, s.freeIdx)
  else
    match Sys2Proof.decode s.cmd with
    | .error _ => (s.readReg r, s.freeIdx)
    | .ok i =>
      if (resultRegs s.ctrl.crcCheckEn i).contains r then (s.readWhileWritten i r, s.freeIdx + 1)
      else (s.readReg r, s.freeIdx)

end Sys2Proof.Machine
end

