-- ==== Sys2Proof/Machine/Crc.lean ====
section
/-! DEFINITION. The CRC unit: the CRC-32 function (40_crc.md R400-R405) and CRC.CALC, CRC.UPD, CRC.UPD32 (R410, R420,
R421). -/

namespace Sys2Proof.Machine

/-- One round of the table construction (40_crc.md R400). -/
def crcRound (c : Word) : Word := if c.getLsbD 0 then 0xEDB88320 ^^^ (c >>> 1) else c >>> 1

/-- `T[n]`, eight rounds from `n` (40_crc.md R400). -/
def crcTable (n : Byte) : Word :=
  crcRound (crcRound (crcRound (crcRound (crcRound (crcRound (crcRound (crcRound (n.setWidth 32))))))))

/-- The loop body of `Upd`: `T[(c ^ b) & 0xFF] ^ (c >> 8)` (40_crc.md R402). -/
def crcByte (c : Word) (b : Byte) : Word := crcTable (c.extractLsb' 0 8 ^^^ b) ^^^ (c >>> 8)

/-- `Upd(c, s)` on the running register (40_crc.md R402, R404). -/
def crcUpdate (c : Word) (s : Bytes) : Word := s.foldl crcByte c

/-- `Upd32(c, v) = Upd(c, BE32(v))` (40_crc.md R403). -/
def crcUpdate32 (c v : Word) : Word := crcUpdate c (be32 v)

/-- `CRC32(s)` (40_crc.md R401). -/
def crc32 (s : Bytes) : Word := crcUpdate 0xFFFFFFFF s ^^^ 0xFFFFFFFF

/-- `ChunkCRC(t, d)` (40_crc.md R405). -/
def chunkCrc (t : Word) (d : Bytes) : Word := crcUpdate (crcUpdate32 0xFFFFFFFF t) d ^^^ 0xFFFFFFFF

/-- The DBUF operand range of CRC.CALC and CRC.UPD (40_crc.md R410, R420); the sum is exact. -/
def crcOperand : Cmd Bytes := fun s => memRead .dbuf s.crc.off.toNat s.crc.len.toNat s

/-- `R[CRC_OUT] <- v`. -/
def setCrcOut (v : Word) : Cmd Unit := .update fun s => { s with crc.out := v }

/-- CRC.CALC (40_crc.md R410). -/
def execCrcCalc (s : State) : Host.Outcome State Fault Refusal :=
  runCommand .other (crcOperand.bind fun d => setCrcOut (crc32 d)) s

/-- CRC.UPD (40_crc.md R420). -/
def execCrcUpd (s : State) : Host.Outcome State Fault Refusal :=
  runCommand .other (crcOperand.bind fun d => setCrcOut (crcUpdate s.crc.input d)) s

/-- CRC.UPD32 (40_crc.md R421). -/
def execCrcUpd32 (s : State) : Host.Outcome State Fault Refusal :=
  runCommand .other (setCrcOut (crcUpdate32 s.crc.input s.crc.val)) s

end Sys2Proof.Machine
end

