-- ==== Sys2Proof/Machine/Framer.lean ====
section
/-! DEFINITION. The framer: `ReadChunk`, `CheckCRC`, `WriteChunk` (41_framer.md R450-R452) and SIG.CHECK, SIG.WRITE,
CHUNK.READ, CHUNK.VERIFY, CHUNK.SETCRC, CHUNK.WRITE (R455-R480). -/

namespace Sys2Proof.Machine

/-- `PNG_SIG` (30_encoding.md R320). -/
def pngSignature : Bytes := [0x89, 0x50, 0x4E, 0x47, 0x0D, 0x0A, 0x1A, 0x0A]

/-! The chunk type codes of 30_encoding.md R323. -/

/-- `IHDR`. -/
def typeIHDR : Word := 0x49484452
/-- `PLTE`. -/
def typePLTE : Word := 0x504C5445
/-- `IDAT`. -/
def typeIDAT : Word := 0x49444154
/-- `IEND`. -/
def typeIEND : Word := 0x49454E44
/-- `tRNS`. -/
def typeTRNS : Word := 0x74524E53
/-- `tEXt`. -/
def typeTEXT : Word := 0x74455874
/-- `zTXt`. -/
def typeZTXT : Word := 0x7A545874
/-- `iTXt`. -/
def typeITXT : Word := 0x69545874
/-- `tIME`. -/
def typeTIME : Word := 0x74494D45

/-- Where `ReadChunk` puts the data (41_framer.md R450). -/
inductive ChunkSink where
  | dbuf
  | auto
  deriving DecidableEq, Repr

/-- What `ReadChunk` answers (41_framer.md R450). `toStage` says that the destination is STAGE, not DBUF. -/
structure Chunk where
  len : Nat
  typ : Word
  data : Bytes
  crc : Word
  toStage : Bool
  fits : Bool
  deriving DecidableEq, Repr

/-- `R[CH_LENGTH] <- v`. -/
def setChLength (v : Word) : Cmd Unit := .update fun s => { s with ch.length := v }

/-- `R[CH_TYPE] <- v`. -/
def setChType (v : Word) : Cmd Unit := .update fun s => { s with ch.type := v }

/-- `R[CH_CRC] <- v`. -/
def setChCrc (v : Word) : Cmd Unit := .update fun s => { s with ch.crc := v }

/-- `fits` of 41_framer.md R450. -/
def chunkFits (toStage : Bool) (len : Nat) (s : State) : Bool :=
  if toStage then decide (s.str.stage.total + len ≤ s.cfg.stageCap) else decide (len ≤ s.cfg.dbufCap)

/-- The last two fields of a chunk, once its length and type are read (41_framer.md R450). -/
def readChunkBody (len : Nat) (typ : Word) (toStage fits : Bool) : Cmd Chunk :=
  (readIn len).bind fun data =>
  (if !toStage && fits then memWrite .dbuf 0 data else .ret ()).andThen <|
  readU32.bind fun crc =>
  (setChCrc crc).andThen <|
  .ret { len := len, typ := typ, data := data, crc := crc, toStage := toStage, fits := fits }

/-- `ReadChunk(IN, sink)` (41_framer.md R450). When a read fails, the registers of the fields not read are left
unspecified, and those of the fields read stay written (log 8). -/
def readChunk (sink : ChunkSink) : Cmd Chunk :=
  (readU32.leaving [.chLength, .chType, .chCrc]).bind fun len =>
  (setChLength len).andThen <|
  (readU32.leaving [.chType, .chCrc]).bind fun typ =>
  (setChType typ).andThen <|
  Cmd.leaving (items := [.chCrc]) <|
    let toStage := sink == .auto && typ == typeIDAT
    (Cmd.look (chunkFits toStage len.toNat)).bind fun fits =>
    (Cmd.raiseIf (sink == .dbuf && !fits) .capacityExceeded Space.dbuf.id).andThen <|
    readChunkBody len.toNat typ toStage fits

/-- The bytes of DBUF that hold a chunk's data, if its data went there (41_framer.md R450). -/
def Chunk.dbufItems (c : Chunk) : List Item := if c.fits && !c.toStage then [.bytes .dbuf 0 c.len] else []

/-- `CheckCRC(typ, data, crc)` (41_framer.md R451). -/
def checkCrc (typ : Word) (data : Bytes) (crc : Word) : Cmd Unit :=
  (setCrcOut (chunkCrc typ data)).andThen (Cmd.raiseIf (chunkCrc typ data != crc) .corruptedChunk typ)

/-- The bytes of a chunk (30_encoding.md R321). -/
def chunkBytes (typ : Word) (data : Bytes) : Bytes :=
  be32Len data.length ++ be32 typ ++ data ++ be32 (chunkCrc typ data)

/-- `WriteChunk(typ, data)` (41_framer.md R452). -/
def writeChunk (typ : Word) (data : Bytes) : Cmd Unit := outWrite (chunkBytes typ data)

/-- The signature read and compare of SIG.CHECK and DEC.HEADER (41_framer.md R455, 44_decode.md R655). -/
def checkSignature : Cmd Unit :=
  (readIn 8).bind fun sg => Cmd.raiseIf (sg != pngSignature) .invalidSignature 0

/-- SIG.CHECK (41_framer.md R455). -/
def execSigCheck (s : State) : Host.Outcome State Fault Refusal := runCommand .other checkSignature s

/-- SIG.WRITE (41_framer.md R456). -/
def execSigWrite (s : State) : Host.Outcome State Fault Refusal := runCommand .other (outWrite pngSignature) s

/-- What CHUNK.READ and DEC.HEADER leave of DBUF when the input ends in the chunk: `DBUF[0 .. CH_LENGTH)` is unspecified,
`CH_LENGTH` being what the error leaves (R460, 44_decode.md R710, log 8). Data that goes to STAGE, or that is too long for
DBUF, leaves DBUF alone (R450). -/
def leaveChunkData (toStage : Bool) (e : Err) (s : State) : State :=
  if e = .unexpectedEof ∧ toStage = false ∧ s.ch.length.toNat ≤ s.cfg.dbufCap then
    unspecified [.bytes .dbuf 0 s.ch.length.toNat] s
  else s

/-- CHUNK.READ (41_framer.md R460, R462). An oversized chunk leaves DBUF alone (60_exceptions.md R903, log 8). -/
def execChunkRead (s : State) : Host.Outcome State Fault Refusal :=
  runCommand .other (((readChunk .dbuf).onRaise (leaveChunkData false)).bind fun _ => .ret ()) s

/-- `DBUF[0 .. CH_LENGTH)` (10_state.md R143). -/
def chunkData : Cmd Bytes := fun s => memRead .dbuf 0 s.ch.length.toNat s

/-- CHUNK.VERIFY (41_framer.md R470). -/
def execChunkVerify (s : State) : Host.Outcome State Fault Refusal :=
  runCommand .other (chunkData.bind fun d => checkCrc s.ch.type d s.ch.crc) s

/-- CHUNK.SETCRC (41_framer.md R475). -/
def execChunkSetcrc (s : State) : Host.Outcome State Fault Refusal :=
  runCommand .other
    (chunkData.bind fun d => (setChCrc (chunkCrc s.ch.type d)).andThen (setCrcOut (chunkCrc s.ch.type d))) s

/-- CHUNK.WRITE (41_framer.md R480). It writes `CH_CRC` as it stands. A DBUF range error leaves `OUT_LEN` and the
`12 + CH_LENGTH` bytes of OUT the chunk would take unspecified; an OUT error writes nothing (log 8). -/
def execChunkWrite (s : State) : Host.Outcome State Fault Refusal :=
  runCommand .other
    ((chunkData.leaving [.bytes .outp s.cnt.outLen.toNat (12 + s.ch.length.toNat), .outLen]).bind fun d =>
      outWrite (be32 s.ch.length ++ be32 s.ch.type ++ d ++ be32 s.ch.crc)) s

end Sys2Proof.Machine
end

