-- ==== Sys2Proof/Machine/Filter.lean ====
section
/-! DEFINITION. The adaptive filter engine (42_filter.md): predictors (R501-R505), bit packing (R507, R508), the unfilter
and filter loops (R510, R530, R540) on byte sequences, and UNFILTER and FILTER (R520, R550). -/

namespace Sys2Proof.Machine

/-! ## Predictors -/

/-- The five filters (30_encoding.md R333). -/
inductive FilterType where
  | none
  | sub
  | up
  | average
  | paeth
  deriving DecidableEq, Repr

/-- The filter-type byte (30_encoding.md R333). -/
def FilterType.code : FilterType → Byte
  | .none => 0
  | .sub => 1
  | .up => 2
  | .average => 3
  | .paeth => 4

/-- The filter of a filter-type byte; 5 to 255 are reserved (30_encoding.md R333). -/
def FilterType.ofByte (b : Byte) : Option FilterType :=
  if b = 0 then some .none
  else if b = 1 then some .sub
  else if b = 2 then some .up
  else if b = 3 then some .average
  else if b = 4 then some .paeth
  else Option.none

/-- `Paeth(a, b, c)` in exact integers (42_filter.md R503). -/
def paeth (a b c : Byte) : Byte :=
  let p : Int := (a.toNat : Int) + (b.toNat : Int) - (c.toNat : Int)
  let pa := (p - (a.toNat : Int)).natAbs
  let pb := (p - (b.toNat : Int)).natAbs
  let pc := (p - (c.toNat : Int)).natAbs
  if pa ≤ pb ∧ pa ≤ pc then a else if pb ≤ pc then b else c

/-- `Pred(ft, a, b, c)` (42_filter.md R502). -/
def predictor (ft : FilterType) (a b c : Byte) : Byte :=
  match ft with
  | .none => 0
  | .sub => a
  | .up => b
  | .average => BitVec.ofNat 8 ((a.toNat + b.toNat) / 2)
  | .paeth => paeth a b c

/-- The byte `bpp` places to the left of byte `i` of a row, 0 if there is none (42_filter.md R501). -/
def leftOf (bpp : Nat) (row : Bytes) (i : Nat) : Byte := if bpp ≤ i then byteAt row (i - bpp) else 0

/-- The prediction of byte `i` of a row from the row's original bytes `o` and the prior row `pr` (42_filter.md R501). -/
def predictAt (ft : FilterType) (bpp : Nat) (o pr : Bytes) (i : Nat) : Byte :=
  predictor ft (leftOf bpp o i) (byteAt pr i) (leftOf bpp pr i)

/-- One step of reconstruction: the next byte, from the bytes reconstructed so far (42_filter.md R504). -/
def reconStep (ft : FilterType) (bpp : Nat) (pr r : Bytes) (x : Byte) : Bytes :=
  r ++ [x + predictAt ft bpp r pr r.length]

/-- `Recon(ft, f, pr)`, left to right (42_filter.md R504). -/
def recon (ft : FilterType) (bpp : Nat) (f pr : Bytes) : Bytes := f.foldl (reconStep ft bpp pr) []

/-- `Filt(ft, o, pr)` (42_filter.md R505). -/
def filt (ft : FilterType) (bpp : Nat) (o pr : Bytes) : Bytes :=
  (List.range o.length).map fun i => byteAt o i - predictAt ft bpp o pr i

/-! ## Bit packing -/

/-- `2^PB - 1` as a byte mask. -/
def sampleMask (pb : Nat) : Byte := BitVec.ofNat 8 (2 ^ pb - 1)

/-- `Unpack(r, w, PB)` (42_filter.md R507, 20_memory.md R202). -/
def unpack (r : Bytes) (w pb : Nat) : Bytes :=
  (List.range w).map fun x => (byteAt r (x * pb / 8) >>> (8 - pb - x * pb % 8)) &&& sampleMask pb

/-- The bits of sample `x` at its place in its byte (42_filter.md R508). With 1, 2 or 4 pixel bits, and so in every legal
format, a sample lies within one byte; one that crosses the end of its byte gives a free value (log 12). -/
def sampleBits (s : Bytes) (pb x : Nat) : Byte :=
  if x * pb % 8 + pb ≤ 8 then (byteAt s x &&& sampleMask pb) <<< (8 - pb - x * pb % 8) else Config.freePacked pb s x

/-- One step of `Pack`: sample `x` into its byte (42_filter.md R508). -/
def packStep (s : Bytes) (pb : Nat) (q : Bytes) (x : Nat) : Bytes :=
  q.set (x * pb / 8) (byteAt q (x * pb / 8) ||| sampleBits s pb x)

/-- `Pack(s, w, PB)` (42_filter.md R508). -/
def pack (s : Bytes) (w pb : Nat) : Bytes := (List.range w).foldl (packStep s pb) (zeros (ceilDiv (w * pb) 8))

/-- The unpacked row of a reconstructed row (42_filter.md R507, R510). -/
def unpackRow (f : Format) (w : Nat) (r : Bytes) : Bytes := if f.pixelBits < 8 then unpack r w f.pixelBits else r

/-- The packed row `CUR[0 .. RB(w))` of a raw row (42_filter.md R508, R530): for 8 pixel bits or more the raw row
unchanged, below that `Pack`. Only ENC.DATA can meet a format that is not legal, after a DEC.HEADER has replaced the image
registers (70_reset_and_hazards.md R1024). Then a raw row may be longer than `RB(w)`, and `CUR` holds its first bytes
(log 12). -/
def packRow (f : Format) (w : Nat) (raw : Bytes) : Bytes :=
  if 8 ≤ f.pixelBits then raw.take (f.rowBytes w) else pack raw w f.pixelBits

/-! ## Unfilter engine -/

/-- What unfiltering from a byte sequence gives: the unpacked bytes, or an error; with the engine's registers and the
bytes not consumed. -/
inductive Unfiltered where
  | done (out : Bytes) (u : FilterUnit) (rest : Bytes)
  | failed (e : Err) (info : Word) (u : FilterUnit) (rest : Bytes)
  deriving DecidableEq, Repr

/-- One scanline of `UnfilterImage` (42_filter.md R510): two strict reads, the type check after them, reconstruction,
unpacking. A strict read that is short consumes nothing. -/
def unfilterRow (f : Format) (w y : Nat) (u : FilterUnit) (inp : Bytes) : Unfiltered :=
  match inp with
  | [] => .failed .unexpectedEof 0 { u with row := y, fstate := .readType } []
  | ft :: body =>
    if body.length < f.rowBytes w then .failed .unexpectedEof 0 { u with row := y, fstate := .readRow } body
    else
      let line := body.take (f.rowBytes w)
      let rest := body.drop (f.rowBytes w)
      match FilterType.ofByte ft with
      | Option.none =>
        .failed .unknownFilterType (ft.setWidth 32) { u with row := y, cur := line, fstate := .recon } rest
      | some t =>
        let r := recon t f.bpp line u.pri
        .done (unpackRow f w r) { u with row := y, cur := r, pri := r, fstate := .writeRaw } rest

/-- Rows `y .. y+n-1` of a sub-image (42_filter.md R510). -/
def unfilterRows (f : Format) (w : Nat) : Nat → Nat → FilterUnit → Bytes → Unfiltered
  | 0, _, u, inp => .done [] u inp
  | n + 1, y, u, inp =>
    match unfilterRow f w y u inp with
    | .failed e info u' rest => .failed e info u' rest
    | .done row u' rest =>
      match unfilterRows f w n (y + 1) u' rest with
      | .failed e info u'' rest' => .failed e info u'' rest'
      | .done rows u'' rest' => .done (row ++ rows) u'' rest'

/-- `PRI[0..rb) <- 0`, the prior row of a sub-image's first row (42_filter.md R510, R530). With no rows (`h = 0`) the rules
let `rb` exceed `ROW_CAP` and do not say what then lies past the row buffer: the model zeroes the `ROW_CAP` bytes there
are, which is its own choice (log 33). -/
def clearPrior (rowCap rb : Nat) (u : FilterUnit) : FilterUnit := { u with pri := zeros (min rb rowCap) }

/-- `UnfilterImage(S, w, h)` on the bytes of `S` (42_filter.md R510). -/
def unfilterImage (rowCap : Nat) (f : Format) (w h : Nat) (u : FilterUnit) (inp : Bytes) : Unfiltered :=
  if 0 < h ∧ rowCap < f.rowBytes w then .failed .capacityExceeded rowBuffersId u inp
  else
    match unfilterRows f w h 0 (clearPrior rowCap (f.rowBytes w) u) inp with
    | .failed e info u' rest => .failed e info u' rest
    | .done out u' rest => .done out { u' with fstate := .idle } rest

/-! ## Filter engine -/

/-- `Σ` of a row's bytes as unsigned values (42_filter.md R540, R541). -/
def rowSum (r : Bytes) : Nat := (r.map BitVec.toNat).sum

/-- One step of the BestSize search: the strict `<` keeps the first minimum (42_filter.md R540). -/
def betterFilter (bpp : Nat) (o pr : Bytes) (best : FilterType × Nat) (ft : FilterType) : FilterType × Nat :=
  if rowSum (filt ft bpp o pr) < best.2 then (ft, rowSum (filt ft bpp o pr)) else best

/-- `Select(3, o, pr)` (42_filter.md R540). -/
def bestSize (bpp : Nat) (o pr : Bytes) : FilterType :=
  ([FilterType.sub, .up, .average, .paeth].foldl (betterFilter bpp o pr)
    (FilterType.none, rowSum (filt .none bpp o pr))).1

/-- `Select(level, o, pr)` (42_filter.md R540); `none` for a level with no policy, which raises
`UnknownCompressionLevel` when used (10_state.md R116). -/
def selectFilter (level : Byte) (bpp : Nat) (o pr : Bytes) : Option FilterType :=
  if level = 0 then some .none
  else if level = 1 ∨ level = 2 then some .paeth
  else if level = 3 then some (bestSize bpp o pr)
  else Option.none

/-- What filtering gives: the scanlines to write, in order, each with the engine's registers at its `Write`; the error that
follows them if any; and the engine's registers at the end, or at that error. -/
structure Filtered where
  rows : List (FilterUnit × Bytes)
  err : Option (Err × Word)
  u : FilterUnit
  deriving DecidableEq, Repr

/-- The scanlines to write. -/
def Filtered.lines (r : Filtered) : List Bytes := r.rows.map Prod.snd

/-- Rows `y .. y+n-1` of `FilterImage` (42_filter.md R530). -/
def filterRows (f : Format) (w : Nat) (level : Byte) (src : Bytes) : Nat → Nat → FilterUnit → Filtered
  | 0, _, u => { rows := [], err := none, u := u }
  | n + 1, y, u =>
    let cur := packRow f w (slice src (y * w * f.ups) (w * f.ups))
    match selectFilter level f.bpp cur u.pri with
    | Option.none =>
      { rows := [], err := some (.unknownCompressionLevel, 0), u := { u with row := y, cur := cur, fstate := .select } }
    | some ft =>
      let v := { u with row := y, cur := cur, fstate := .writeFilt }
      let r := filterRows f w level src n (y + 1) { v with pri := cur }
      { r with rows := (v, ft.code :: filt ft f.bpp cur u.pri) :: r.rows }

/-- `FilterImage(src, w, h, level, K)`: the scanlines it writes to `K` (42_filter.md R530). -/
def filterImage (rowCap : Nat) (f : Format) (src : Bytes) (w h : Nat) (level : Byte) (u : FilterUnit) : Filtered :=
  if 0 < h ∧ rowCap < f.rowBytes w then { rows := [], err := some (.capacityExceeded, rowBuffersId), u := u }
  else
    let r := filterRows f w level src h 0 (clearPrior rowCap (f.rowBytes w) u)
    match r.err with
    | some _ => r
    | none => { r with u := { r.u with fstate := .idle } }

/-! ## The engine on the IN stream and into a sink -/

/-- Run an unfilter engine on the bytes IN has left (20_memory.md R211). -/
def unfilterIn (engine : FilterUnit → Bytes → Unfiltered) : Cmd Bytes := fun s =>
  match engine s.flt (s.mem.inp.readBytes s.cnt.inPos.toNat (inAvail s)) with
  | .done out u rest =>
    .ok out { s with flt := u, cnt.inPos := s.cnt.inPos + BitVec.ofNat 32 (inAvail s - rest.length) }
  | .failed e info u rest =>
    .raised e info { s with flt := u, cnt.inPos := s.cnt.inPos + BitVec.ofNat 32 (inAvail s - rest.length) }

/-- `MemWrite(RAW, 0, len(out), out); R[RAW_LEN] <- len(out)` (42_filter.md R520). -/
def storeRaw (out : Bytes) : Cmd Unit :=
  (memWrite .raw 0 out).andThen (.update fun s => { s with cnt.rawLen := BitVec.ofNat 32 out.length })

/-- `R[RAW_LEN] <- 0`. -/
def clearRawLen : Cmd Unit := .update fun s => { s with cnt.rawLen := 0 }

/-- Where `FilterImage` writes (42_filter.md R530). -/
inductive Sink where
  | outSpace
  | filtStream
  deriving DecidableEq, Repr

/-- Write one scanline, and flush it if the sink is a stream (42_filter.md R530, R536). -/
def writeLine (k : Sink) (line : Bytes) : Cmd Unit :=
  match k with
  | .outSpace => outWrite line
  | .filtStream => (streamWrite .filt line).andThen (flushStream .filt)

/-- The engine's registers. -/
def setFlt (u : FilterUnit) : Cmd Unit := .update fun s => { s with flt := u }

/-- Write one scanline, the engine's registers as they stand at its `Write` (42_filter.md R530). -/
def writeRow (k : Sink) (row : FilterUnit × Bytes) : Cmd Unit := (setFlt row.1).andThen (writeLine k row.2)

/-- The error of the engine, if any, raised after the scanlines before it are written. -/
def raiseErr (e : Option (Err × Word)) : Cmd Unit :=
  match e with
  | some (e, info) => .raise e info
  | none => .ret ()

/-- Write what the filter engine gives to a sink, then raise its error if it has one; a write that fails leaves the
scanlines before it, and the engine at its row (42_filter.md R530; that the hidden registers then keep what the pseudocode
set is the model's choice, log 20, log 24). `leave` is what the engine's error leaves unspecified. -/
def emit (k : Sink) (leave : Cmd Unit → Cmd Unit) (engine : FilterUnit → Filtered) : Cmd Unit := fun s =>
  let r := engine s.flt
  ((Cmd.forEach (writeRow k) r.rows).andThen <| (setFlt r.u).andThen <| leave (raiseErr r.err)) s

/-! ## Commands -/

/-- What an unfiltering command's error leaves unspecified (42_filter.md R520, 43_adam7.md R610). -/
def unfilterLeaves : List Item := [.space .raw, .rawLen, .inPos]

/-- What a filtering command's error leaves unspecified, but for a full OUT: `OUT_LEN`, and the `n` bytes of OUT that its
result would take (42_filter.md R550, 43_adam7.md R620, log 8). -/
def filterLeaves (s : State) (n : Nat) : List Item := [.bytes .outp s.cnt.outLen.toNat n, .outLen]

/-- The bytes the scanlines of a `w` by `h` sub-image take (42_filter.md R531). -/
def Format.scanlineBytes (f : Format) (w h : Nat) : Nat := h * (1 + f.rowBytes w)

/-- UNFILTER (42_filter.md R520). -/
def execUnfilter (s : State) : Host.Outcome State Fault Refusal :=
  runCommand .other
    (Cmd.leaving (items := unfilterLeaves) <|
      checkFormat.andThen <| checkRawRange.andThen <| clearRawLen.andThen <|
      (unfilterIn (unfilterImage s.cfg.rowCap s.img.format s.img.width.toNat s.img.height.toNat)).bind storeRaw) s

/-- FILTER (42_filter.md R550). -/
def execFilter (s : State) : Host.Outcome State Fault Refusal :=
  let leaves := filterLeaves s (s.img.format.scanlineBytes s.img.width.toNat s.img.height.toNat)
  runCommand .other
    ((Cmd.leaving (items := leaves) <|
        checkFormat.andThen <| checkLevel.andThen <| checkRawRange.andThen <| memRead .raw 0 s.img.rawBytes).bind
      fun src =>
        emit .outSpace (Cmd.leaving · leaves)
          (filterImage s.cfg.rowCap s.img.format src s.img.width.toNat s.img.height.toNat s.img.level)) s

end Sys2Proof.Machine
end

