-- ==== Sys2Proof/Machine/Adam7.lean ====
section
/-! DEFINITION. The Adam7 unit (43_adam7.md): pass geometry (R600), dispatch (R601), deinterlace and interlace (R602,
R603), and DEINTERLACE and INTERLACE (R610, R620). -/

namespace Sys2Proof.Machine

/-! The tables of 10_state.md R153. -/

/-- `START_COL`. -/
def startCol (p : Nat) : Nat := [0, 4, 0, 2, 0, 1, 0].getD p 0
/-- `START_ROW`. -/
def startRow (p : Nat) : Nat := [0, 0, 4, 0, 2, 0, 1].getD p 0
/-- `COL_STRIDE`. -/
def colStride (p : Nat) : Nat := [8, 8, 4, 4, 2, 2, 1].getD p 1
/-- `ROW_STRIDE`. -/
def rowStride (p : Nat) : Nat := [8, 8, 8, 4, 4, 2, 2].getD p 1

/-- `PassW(p, w)` (43_adam7.md R600). -/
def passW (p w : Nat) : Nat := if startCol p < w then ceilDiv (w - startCol p) (colStride p) else 0

/-- `PassH(p, h)` (43_adam7.md R600). -/
def passH (p h : Nat) : Nat := if startRow p < h then ceilDiv (h - startRow p) (rowStride p) else 0

/-- The pass numbers, in order. -/
def passes : List Nat := [0, 1, 2, 3, 4, 5, 6]

/-- The index `y*w + x` of the image pixel that pass pixel number `k`, in row order, stands for (43_adam7.md R600):
`px = k mod PassW`, `py = k div PassW`. -/
def passPixel (p w k : Nat) : Nat :=
  (startRow p + k / passW p w * rowStride p) * w + (startCol p + k % passW p w * colStride p)

/-- Scatter a pass's pixels into the image (43_adam7.md R602). -/
def scatter (ups w h p : Nat) (sub out : Bytes) : Bytes :=
  (List.range (passW p w * passH p h)).foldl
    (fun o k => overwrite o (passPixel p w k * ups) (slice sub (k * ups) ups)) out

/-- Gather a pass's pixels from the image (43_adam7.md R603). -/
def gather (ups w h p : Nat) (src : Bytes) : Bytes :=
  (List.range (passW p w * passH p h)).flatMap fun k => slice src (passPixel p w k * ups) ups

/-- The loop over the passes of `Adam7Deinterlace` (43_adam7.md R602). -/
def deinterlacePasses (rowCap : Nat) (f : Format) (w h : Nat) : List Nat → Bytes → FilterUnit → Bytes → Unfiltered
  | [], out, u, inp => .done out { u with pass := 7 } inp
  | p :: ps, out, u, inp =>
    if passW p w = 0 ∨ passH p h = 0 then
      deinterlacePasses rowCap f w h ps out { u with pass := Fin.ofNat 8 p } inp
    else
      match unfilterImage rowCap f (passW p w) (passH p h) { u with pass := Fin.ofNat 8 p } inp with
      | .failed e info u' rest => .failed e info u' rest
      | .done sub u' rest => deinterlacePasses rowCap f w h ps (scatter f.ups w h p sub out) u' rest

/-- `Adam7Deinterlace(S, w, h)` on the bytes of `S` (43_adam7.md R602). -/
def adam7Deinterlace (rowCap : Nat) (f : Format) (w h : Nat) (u : FilterUnit) (inp : Bytes) : Unfiltered :=
  deinterlacePasses rowCap f w h passes (zeros (w * h * f.ups)) u inp

/-- The loop over the passes of `Adam7Interlace` (43_adam7.md R603): the scanlines of every pass, up to the first
error. -/
def interlacePasses (rowCap : Nat) (f : Format) (src : Bytes) (w h : Nat) (level : Byte) :
    List Nat → FilterUnit → Filtered
  | [], u => { rows := [], err := none, u := { u with pass := 7 } }
  | p :: ps, u =>
    if passW p w = 0 ∨ passH p h = 0 then
      interlacePasses rowCap f src w h level ps { u with pass := Fin.ofNat 8 p }
    else
      let r := filterImage rowCap f (gather f.ups w h p src) (passW p w) (passH p h) level
        { u with pass := Fin.ofNat 8 p }
      match r.err with
      | some _ => r
      | none =>
        let q := interlacePasses rowCap f src w h level ps r.u
        { q with rows := r.rows ++ q.rows }

/-- `Adam7Interlace(src, w, h, level, K)`: the scanlines it writes to `K` (43_adam7.md R603). -/
def adam7Interlace (rowCap : Nat) (f : Format) (src : Bytes) (w h : Nat) (level : Byte) (u : FilterUnit) : Filtered :=
  interlacePasses rowCap f src w h level passes u

/-- `DeinterlacePixels(S, w, h)` on the bytes of `S` (43_adam7.md R601). -/
def deinterlacePixels (rowCap : Nat) (f : Format) (m : Byte) (w h : Nat) (u : FilterUnit) (inp : Bytes) :
    Unfiltered :=
  if m = 0 then unfilterImage rowCap f w h u inp
  else if m = 1 then adam7Deinterlace rowCap f w h u inp
  else .failed .unknownInterlaceMethod 0 u inp

/-- `InterlacePixels(src, w, h, level, K)`: the scanlines it writes to `K` (43_adam7.md R601). -/
def interlacePixels (rowCap : Nat) (f : Format) (m : Byte) (src : Bytes) (w h : Nat) (level : Byte) (u : FilterUnit) :
    Filtered :=
  if m = 0 then filterImage rowCap f src w h level u
  else if m = 1 then adam7Interlace rowCap f src w h level u
  else { rows := [], err := some (.unknownInterlaceMethod, 0), u := u }

/-- The deinterlacer for the image registers as they stand. -/
def deinterlacer (s : State) : FilterUnit → Bytes → Unfiltered :=
  deinterlacePixels s.cfg.rowCap s.img.format s.img.interlace s.img.width.toNat s.img.height.toNat

/-- The interlacer-filter for the image registers as they stand. -/
def interlacer (s : State) (src : Bytes) : FilterUnit → Filtered :=
  interlacePixels s.cfg.rowCap s.img.format s.img.interlace src s.img.width.toNat s.img.height.toNat s.img.level

/-- The length of the filtered stream of a `w` by `h` image (30_encoding.md R332, 42_filter.md R531, 43_adam7.md R603):
non-empty passes only for Adam7. No rule defines a filtered stream for an interlace method of 2 or more: that such a method
gives the length of the Adam7 stream, and so the bytes of OUT that INTERLACE's `UnknownInterlaceMethod` leaves unspecified,
is the model's choice (DESIGN CHOICE, log 34). -/
def Format.streamBytes (f : Format) (m : Byte) (w h : Nat) : Nat :=
  if m = 0 then f.scanlineBytes w h
  else
    (passes.map fun p =>
      if passW p w = 0 ∨ passH p h = 0 then 0 else f.scanlineBytes (passW p w) (passH p h)).sum

/-- DEINTERLACE (43_adam7.md R610). -/
def execDeinterlace (s : State) : Host.Outcome State Fault Refusal :=
  runCommand .other
    (Cmd.leaving (items := unfilterLeaves) <|
      checkFormat.andThen <| checkInterlace.andThen <| checkRawRange.andThen <| clearRawLen.andThen <|
      (unfilterIn (deinterlacer s)).bind storeRaw) s

/-- INTERLACE (43_adam7.md R620). -/
def execInterlace (s : State) : Host.Outcome State Fault Refusal :=
  let leaves := filterLeaves s (s.img.format.streamBytes s.img.interlace s.img.width.toNat s.img.height.toNat)
  runCommand .other
    ((Cmd.leaving (items := leaves) <|
        checkFormat.andThen <| checkInterlace.andThen <| checkLevel.andThen <| checkRawRange.andThen <|
        memRead .raw 0 s.img.rawBytes).bind
      fun src => emit .outSpace (Cmd.leaving · leaves) (interlacer s src)) s

end Sys2Proof.Machine
end

