-- ==== Sys2Proof/Machine/DecodeSeq.lean ====
section
/-! DEFINITION. The decode sequencer (44_decode.md): the six steps (R651-R700) and DEC.HEADER, DEC.CHUNKS, DEC.INFLATE,
DEC.PIXELS, DEC.EXPAND (R710-R714). DECODE is in Pipeline.lean. -/

namespace Sys2Proof.Machine

/-! ## Shared pieces -/

/-- `DEC_STATE <- v`. -/
def setDecState (v : DecState) : Cmd Unit := .update fun s => { s with dec.state := v }

/-- `require DEC_STATE = v`: in any other state, `SequenceError(DEC_STATE)` (44_decode.md R709). -/
def requireDecState (v : DecState) : Cmd Unit := fun s =>
  if s.dec.state = v then .ok () s else .raised .sequenceError (s.dec.state.code.setWidth 32) s

/-- `if CTRL.CRC_CHECK_EN = 1: CheckCRC(typ, data, crc)` (44_decode.md R662). -/
def checkCrcIfEnabled (c : Chunk) : Cmd Unit := fun s =>
  if s.ctrl.crcCheckEn then checkCrc c.typ c.data c.crc s else .ok () s

/-! ## Start and header -/

/-- The state `DecStart()` leaves (44_decode.md R651). -/
def decStartState (s : State) : State :=
  { s with
    dec :=
      { s.dec with
        state := .idle, seenPlte := false, seenTrns := false, seenIdat := false, seenIend := false,
        palCount := 0, trnsCount := 0 }
    cnt := { s.cnt with inPos := 0, idatCount := 0, metaLen := 0, metaCount := 0, stageLen := 0, inflLen := 0 }
    str := { s.str with stage := .fresh, infl := .fresh } }

/-- `DecStart()` (44_decode.md R651). -/
def decStart : Cmd Unit := .update decStartState

/-- The image registers `ParseIHDR(data)` writes; `IMG_MODE.LEVEL` is unchanged (44_decode.md R665). -/
def parseIhdr (data : Bytes) (r : ImgRegs) : ImgRegs :=
  { r with
    width := u32be (slice data 0 4), height := u32be (slice data 4 4), bitDepth := byteAt data 8,
    colorType := byteAt data 9, compression := byteAt data 10, filter := byteAt data 11,
    interlace := byteAt data 12 }

/-- The chunk registers. -/
def chunkItems : List Item := [.chLength, .chType, .chCrc]

/-- The image registers that `IHDR` writes. -/
def imageItems : List Item := [.imgWidth, .imgHeight, .imgFormat, .imgInterlace]

/-- The first two fields of the chunk that IN holds next (41_framer.md R450). -/
def chunkAhead (s : State) : Word × Word :=
  let b := s.mem.inp.readBytes s.cnt.inPos.toNat 8
  (u32be (b.take 4), u32be (b.drop 4))

/-- IN holds the type of its next chunk, and it is `IDAT`, whose data goes to STAGE (41_framer.md R450). -/
def idatAhead (s : State) : Bool := decide (8 ≤ inAvail s) && (chunkAhead s).2 == typeIDAT

/-- The reads of `DecHeader()`: the signature and the first chunk (44_decode.md R655). A failed strict read keeps
`IN_POS` (20_memory.md R211); a wrong signature leaves it unspecified. DBUF is left alone before the chunk is reached
(log 8). -/
def readHeader : Cmd Chunk :=
  (((readIn 8).leaving chunkItems).bind fun sg =>
    (Cmd.raiseIf (sg != pngSignature) .invalidSignature 0).leaving (chunkItems ++ [.inPos])).andThen
  fun s => (readChunk .auto).onRaise (leaveChunkData (idatAhead s)) s

/-- The checks of `DecHeader()` on the chunk behind its CRC, before its data is parsed (44_decode.md R655). -/
def checkIhdrChunk (c : Chunk) : Cmd Unit :=
  (Cmd.raiseIf (c.typ != typeIHDR) .ihdrNotFound c.typ).andThen <|
  (Cmd.raiseIf (!c.fits) .capacityExceeded Space.dbuf.id).andThen <|
  Cmd.raiseIf (decide (c.len < 13)) .unexpectedEof 0

/-- The results of `DecHeader()` that an error behind its reads leaves unspecified, but for the image registers and `CH_CRC`:
the chunk's bytes of DBUF, `IN_POS`, `CH_LENGTH` and `CH_TYPE` (44_decode.md R710, 60_exceptions.md R930, log 8). -/
def Chunk.headerLeaves (c : Chunk) : List Item := c.dbufItems ++ [.inPos, .chLength, .chType]

/-- `DecHeader()` (44_decode.md R655). After `CorruptedChunk` `CH_CRC` holds the chunk's (95_test_vectors.md P8), and after an
error of `CheckHeader()` the image registers hold the fields that were read (R665); otherwise an error leaves both
unspecified (log 8). -/
def decHeader : Cmd Unit :=
  (readHeader.leaving imageItems).bind fun c =>
  ((checkCrcIfEnabled c).leaving (c.headerLeaves ++ imageItems)).andThen <|
  ((checkIhdrChunk c).leaving (c.headerLeaves ++ .chCrc :: imageItems)).andThen <|
  (Cmd.update fun s => { s with img := parseIhdr c.data s.img }).andThen <|
  (checkHeader.leaving (c.headerLeaves ++ [.chCrc])).andThen <|
  setDecState .header

/-! ## Chunk loop -/

/-- `Record(len, typ, data)` (44_decode.md R684). -/
def record (typ : Word) (data : Bytes) : Cmd Unit := fun s =>
  let rec_ := be32Len data.length ++ be32 typ ++ data
  if s.cfg.metaCap < s.cnt.metaLen.toNat + rec_.length then .raised .capacityExceeded Space.metaLog.id s
  else
    ((memWrite .metaLog s.cnt.metaLen.toNat rec_).andThen <|
      Cmd.update fun t =>
        { t with
          cnt.metaLen := t.cnt.metaLen + BitVec.ofNat 32 rec_.length
          cnt.metaCount := t.cnt.metaCount + 1 }) s

/-- `DoIDAT(len, data)` (44_decode.md R681). -/
def doIdat (data : Bytes) : Cmd Unit := fun s =>
  if s.img.colorType = 3 ∧ s.dec.seenPlte = false then .raised .paletteNotFound typeIDAT s
  else
    ((streamWrite .stage data).andThen <|
      (flushStream .stage).andThen <|
      Cmd.update fun t =>
        { t with
          cnt.stageLen := t.cnt.stageLen + BitVec.ofNat 32 data.length
          cnt.idatCount := t.cnt.idatCount + 1
          dec.seenIdat := true }) s

/-- The PAL bytes of `n` entries of a `PLTE` chunk: red, green, blue, 255 (44_decode.md R682, 10_state.md R145). -/
def plteEntries (data : Bytes) (n : Nat) : Bytes :=
  (List.range n).flatMap fun i => [byteAt data (3 * i), byteAt data (3 * i + 1), byteAt data (3 * i + 2), 255]

/-- `DoPLTE(len, data)` (44_decode.md R682). -/
def doPlte (data : Bytes) : Cmd Unit := fun s =>
  let n := data.length / 3
  if s.dec.seenPlte then .raised .duplicatePalette typePLTE s
  else if s.dec.seenIdat then .raised .illegalPaletteChunk typePLTE s
  else if s.img.colorType = 0 ∨ s.img.colorType = 4 then .raised .illegalPaletteChunk typePLTE s
  else if 256 < n ∨ (s.img.colorType = 3 ∧ 2 ^ s.img.bitDepth.toNat < n) then
    .raised .invalidPaletteSize typePLTE s
  else
    ((memWrite .pal 0 (plteEntries data n)).andThen <|
      Cmd.update fun t => { t with dec.palCount := BitVec.ofNat 9 n, dec.seenPlte := true }) s

/-- `for i in 0 .. len-1: PAL[4i+3] <- data[i]` (44_decode.md R683). -/
def writeAlphas (data : Bytes) : Cmd Unit :=
  Cmd.forEach (fun i => memWrite .pal (4 * i + 3) [byteAt data i]) (List.range data.length)

/-- `DoTRNS(len, data)` (44_decode.md R683). -/
def doTrns (data : Bytes) : Cmd Unit := fun s =>
  if s.img.colorType = 4 ∨ s.img.colorType = 6 then .raised .illegalTrnsChunk typeTRNS s
  else if s.dec.seenTrns then .raised .illegalTrnsChunk typeTRNS s
  else if s.dec.seenIdat then .raised .illegalTrnsChunk typeTRNS s
  else if s.img.colorType = 3 then
    if s.dec.seenPlte = false then .raised .illegalTrnsChunk typeTRNS s
    else if s.dec.palCount.toNat < data.length then .raised .invalidTrnsSize typeTRNS s
    else
      ((writeAlphas data).andThen <|
        Cmd.update fun t =>
          { t with dec.trnsCount := BitVec.ofNat 9 data.length, dec.seenTrns := true }) s
  else
    ((record typeTRNS data).andThen <| Cmd.update fun t => { t with dec.seenTrns := true }) s

/-- The index of the first `0x00` at or after `a` (20_memory.md R207). -/
def findNul (data : Bytes) (a : Nat) : Option Nat := ((data.drop a).findIdx? (· == 0)).map (a + ·)

/-- `KeywordEnd(data)`; `none` is the failure (44_decode.md R686). -/
def keywordEnd (data : Bytes) : Option Nat :=
  match findNul data 0 with
  | some k => if 1 ≤ k ∧ k ≤ 79 then some k else none
  | none => none

/-- The layout of `zTXt`: the method byte is present (44_decode.md R686). -/
def ztxtOk (data : Bytes) : Bool :=
  match keywordEnd data with
  | some k => decide (k + 2 ≤ data.length)
  | none => false

/-- The layout of `iTXt` (44_decode.md R686). -/
def itxtOk (data : Bytes) : Bool :=
  match keywordEnd data with
  | some k =>
    decide (k + 3 ≤ data.length) &&
      (match findNul data (k + 3) with
        | some l => (findNul data (l + 1)).isSome
        | none => false)
  | none => false

/-- The layout of `tIME` (44_decode.md R686, 30_encoding.md R330). -/
def timeOk (data : Bytes) : Bool :=
  decide (data.length = 7) &&
  decide (1 ≤ (byteAt data 2).toNat ∧ (byteAt data 2).toNat ≤ 12) &&
  decide (1 ≤ (byteAt data 3).toNat ∧ (byteAt data 3).toNat ≤ 31) &&
  decide ((byteAt data 4).toNat ≤ 23) && decide ((byteAt data 5).toNat ≤ 59) && decide ((byteAt data 6).toNat ≤ 60)

/-- `DoUnknown(len, typ, data)` (44_decode.md R689). -/
def doUnknown (typ : Word) (data : Bytes) : Cmd Unit :=
  (Cmd.raiseIf (!isAncillary typ) .unknownNecessaryChunk typ).andThen (record typ data)

/-- `CheckMeta(typ, len, data); Record(len, typ, data)` for one metadata type (44_decode.md R660, R686). -/
def doMeta (ok : Bool) (e : Err) (typ : Word) (data : Bytes) : Cmd Unit :=
  (Cmd.raiseIf (!ok) e typ).andThen (record typ data)

/-- The case on the chunk's type; the answer says whether the loop ends (44_decode.md R660, R680, R687). -/
def chunkCase (typ : Word) (data : Bytes) : Cmd Bool :=
  if typ = typeIDAT then (doIdat data).andThen (.ret false)
  else if typ = typePLTE then (doPlte data).andThen (.ret false)
  else if typ = typeTRNS then (doTrns data).andThen (.ret false)
  else if typ = typeTEXT then
    (doMeta (keywordEnd data).isSome .invalidTextChunk typ data).andThen (.ret false)
  else if typ = typeZTXT then (doMeta (ztxtOk data) .invalidTextChunk typ data).andThen (.ret false)
  else if typ = typeITXT then (doMeta (itxtOk data) .invalidTextChunk typ data).andThen (.ret false)
  else if typ = typeTIME then (doMeta (timeOk data) .invalidTimeChunk typ data).andThen (.ret false)
  else if typ = typeIEND then (Cmd.update fun s => { s with dec.seenIend := true }).andThen (.ret true)
  else (doUnknown typ data).andThen (.ret false)

/-- The id of a chunk's destination (44_decode.md R660). -/
def Chunk.destId (c : Chunk) : Word := if c.toStage then StreamId.stage.id else Space.dbuf.id

/-- One turn of the chunk loop (44_decode.md R660); the answer says whether the loop ends. -/
def decChunksStep : Cmd Bool :=
  (readChunk .auto).bind fun c =>
  (checkCrcIfEnabled c).andThen <|
  (Cmd.raiseIf (!c.fits) .capacityExceeded c.destId).andThen <|
  chunkCase c.typ c.data

/-- The chunk loop, `fuel` turns at most. Each turn reads 12 bytes or more, so with more fuel than bytes the bound is
never met. -/
def chunkLoop : Nat → Cmd Unit
  | 0 => .raise .unexpectedEof 0
  | fuel + 1 => decChunksStep.bind fun last => if last then .ret () else chunkLoop fuel

/-- What follows the chunk loop: `Close(STAGE)` (44_decode.md R660). -/
def endChunks : Cmd Unit := closeStream .stage

/-- The chunk reader from its start to its end, without the reset of STAGE. -/
def readChunks : Cmd Unit := fun s => ((chunkLoop (inAvail s + 1)).andThen endChunks) s

/-- The state in which the chunk loop reads its first chunk (10_state.md R151, log 10). -/
def State.chunksStart (s : State) : State := { s with str := { s.str with stage := .fresh } }

/-- How many bytes of DBUF a turn of the chunk loop writes: the data of a chunk that goes to DBUF and fits, once IN has held
it whole (41_framer.md R450). -/
def turnReach (s : State) : Nat :=
  let len := (chunkAhead s).1.toNat
  if (chunkAhead s).2 ≠ typeIDAT ∧ len ≤ s.cfg.dbufCap ∧ 8 + len ≤ inAvail s then len else 0

/-- How many bytes of DBUF the chunk loop writes in `fuel` turns at most, up to the turn that ends it. -/
def chunkReach : Nat → State → Nat
  | 0, _ => 0
  | fuel + 1, s =>
    match decChunksStep s with
    | .ok false t => max (turnReach s) (chunkReach fuel t)
    | .ok true _ | .raised _ _ _ | .stuck _ | .refuse _ => turnReach s

/-- How many bytes of DBUF the chunk loop writes that starts in `s`. -/
def State.dbufReach (s : State) : Nat := chunkReach (inAvail s + 1) s.chunksStart

/-- What an error leaves unspecified of the results of a chunk loop that has come to `s`, but for DBUF, `IN_POS` and the chunk
registers: META, its counters, and of PAL the entries the loop has written, which are below `PAL_COUNT` (44_decode.md
R682-R684, R711, 60_exceptions.md R930, log 8). -/
def chunksLeaves (s : State) : List Item :=
  [.bytes .pal 0 (4 * s.dec.palCount.toNat), .space .metaLog, .palCount, .trnsCount, .metaLen, .metaCount, .stream .stage,
   .stageLen, .idatCount, .decSeen]

/-- What an error leaves unspecified of `IN_POS` and the chunk registers. A failed strict read of IN (`cut`) consumes nothing,
and the fields before it stay written (20_memory.md R211, 41_framer.md R450); after `PaletteNotFound`, `CH_TYPE` holds the
chunk's (95_test_vectors.md P6). -/
def cursorLeaves (cut : Bool) (e : Err) : List Item :=
  if cut then [] else .inPos :: .chLength :: .chCrc :: (if e = .paletteNotFound then [] else [.chType])

/-- After an error of a DEC.CHUNKS that started in `a`, the loop's results and the bytes of DBUF it has written are
unspecified (60_exceptions.md R930, log 8). -/
def leaveChunks (a : State) (e : Err) (s : State) : State :=
  unspecified (cursorLeaves (e == .unexpectedEof) e ++ .bytes .dbuf 0 a.dbufReach :: chunksLeaves s) s

/-- `DecChunks()` (44_decode.md R660). The command that starts the producer of a stream resets the stream first
(10_state.md R151, log 10). -/
def decChunks : Cmd Unit := (resetStream .stage).andThen <| readChunks.andThen <| setDecState .chunks

/-! ## Decompression -/

/-- The answer of `INFLATE` (00_scope.md R20, log 7). -/
def Config.inflateOf (c : Config) (z : Bytes) : Option Bytes :=
  match c.inflateTable.lookup z with
  | some r => r
  | none => Config.inflate z

/-- `all bytes of S, read until it is closed and exhausted` (44_decode.md R695, 45_encode.md R780). -/
def readAll (i : StreamId) : Cmd Bytes := fun s =>
  let t := s.str.get i
  if t.closed then .ok t.unread (s.setStream i (t.advance t.unread.length)) else .stuck .stalledRead

/-- The call of `INFLATE` (44_decode.md R695). -/
def callInflate (z : Bytes) : Cmd Bytes := fun s =>
  if s.cfg.zlibPresent = false then .raised .compressionUnavailable 0 s
  else
    match Config.inflateOf s.cfg z with
    | some d => .ok d s
    | none => .raised .compressionDataError 0 s

/-- The results of DEC.INFLATE that an error leaves unspecified (44_decode.md R712, log 8). -/
def inflateLeaves : List Item := [.stream .infl, .inflLen]

/-- `DecInflate()` (44_decode.md R695). -/
def decInflate : Cmd Unit :=
  Cmd.leaving (items := inflateLeaves) <|
    (resetStream .infl).andThen <|
    (Cmd.update fun s => { s with cnt.inflLen := 0 }).andThen <|
    (readAll .stage).bind fun z =>
    (callInflate z).bind fun d =>
    (streamWrite .infl d).andThen <|
    (Cmd.update fun s => { s with cnt.inflLen := BitVec.ofNat 32 d.length }).andThen <|
    (closeStream .infl).andThen <|
    setDecState .inflated

/-! ## Pixels -/

/-- Run an unfilter engine on the bytes INFL has (20_memory.md R212). If the engine runs out of bytes while INFL is
open, it waits. -/
def unfilterInfl (engine : FilterUnit → Bytes → Unfiltered) : Cmd Bytes := fun s =>
  let t := s.str.infl
  match engine s.flt t.unread with
  | .done out u rest =>
    .ok out { s.setStream .infl (t.advance (t.unread.length - rest.length)) with flt := u }
  | .failed e info u rest =>
    if e = .unexpectedEof ∧ t.closed = false then .stuck .stalledRead
    else .raised e info { s.setStream .infl (t.advance (t.unread.length - rest.length)) with flt := u }

/-- The checks of `DecPixels()` (44_decode.md R697). -/
def checkPixels : Cmd Unit := checkHeader.andThen <| checkInterlace.andThen checkRawRange

/-- The results of DEC.PIXELS that an error leaves unspecified: `RAW[0 .. w*h*UPS)` and `RAW_LEN` (44_decode.md R713,
log 8). -/
def pixelsLeaves (r : ImgRegs) : List Item := [.bytes .raw 0 r.rawBytes, .rawLen]

/-- `DecPixels()` (44_decode.md R697). -/
def decPixels : Cmd Unit := fun s =>
  Cmd.leaving (items := pixelsLeaves s.img)
    (checkPixels.andThen <| clearRawLen.andThen <|
      (unfilterInfl (deinterlacer s)).bind fun out => (storeRaw out).andThen <| setDecState .pixels) s

/-! ## Expansion -/

/-- Sample `j` of a raw pixel (44_decode.md R700, 10_state.md R144): two bytes for bit depth 16, else bits
`bitDepth-1 .. 0` of one byte. R144 says that the higher bits are 0 and not what DEC.EXPAND takes from a RAW byte (written
by the host, say) in which they are not: that it ignores them is the model's choice (DESIGN CHOICE, log 32). -/
def rawSample (bitDepth : Byte) (px : Bytes) (j : Nat) : BitVec 16 :=
  if bitDepth = 16 then u16be (slice px (2 * j) 2)
  else (byteAt px j &&& sampleMask bitDepth.toNat).setWidth 16

/-- `M`: 255 for the palette type, `2^bd - 1` otherwise (44_decode.md R700, 10_state.md R125). -/
def pixMaxOf (r : ImgRegs) : BitVec 16 :=
  if r.colorType = 3 then 255 else BitVec.ofNat 16 (2 ^ r.bitDepth.toNat - 1)

/-- Four components as the eight bytes of a pixel of PIX (10_state.md R147). -/
def pixelBytes (r g b a : BitVec 16) : Bytes := be16 r ++ be16 g ++ be16 b ++ be16 a

/-- The components of a raw pixel that is no palette index (44_decode.md R700). -/
def expandDirect (r : ImgRegs) (px : Bytes) : Bytes :=
  let smp := rawSample r.bitDepth px
  let m := pixMaxOf r
  if r.colorType = 0 then pixelBytes (smp 0) (smp 0) (smp 0) m
  else if r.colorType = 2 then pixelBytes (smp 0) (smp 1) (smp 2) m
  else if r.colorType = 4 then pixelBytes (smp 0) (smp 0) (smp 0) (smp 1)
  else pixelBytes (smp 0) (smp 1) (smp 2) (smp 3)

/-- A PAL entry as the eight bytes of a pixel (44_decode.md R700). -/
def expandEntry (e : Bytes) : Bytes :=
  pixelBytes ((byteAt e 0).setWidth 16) ((byteAt e 1).setWidth 16) ((byteAt e 2).setWidth 16)
    ((byteAt e 3).setWidth 16)

/-- The eight bytes of a raw pixel (44_decode.md R700). -/
def expandPixel (px : Bytes) : Cmd Bytes := fun s =>
  if s.img.colorType = 3 then
    let i := rawSample s.img.bitDepth px 0
    if s.dec.palCount.toNat ≤ i.toNat then .raised .invalidPaletteIndex (i.setWidth 32) s
    else ((memRead .pal (4 * i.toNat) 4).bind fun e => .ret (expandEntry e)) s
  else .ok (expandDirect s.img px) s

/-- Pixel number `k` in row-major order, `k = y*w + x`, from RAW to PIX (44_decode.md R700). -/
def expandOne (k : Nat) : Cmd Unit := fun s =>
  ((memRead .raw (k * s.img.format.ups) s.img.format.ups).bind fun px =>
    (expandPixel px).bind fun v => memWrite .pix (k * 8) v) s

/-- `w * h`. -/
def ImgRegs.pixels (r : ImgRegs) : Nat := r.width.toNat * r.height.toNat

/-- `if w * h * 8 > PIX_CAP: raise CapacityExceeded(6)` (44_decode.md R700). -/
def checkPixRange : Cmd Unit := fun s =>
  if s.cfg.pixCap < s.img.pixels * 8 then .raised .capacityExceeded Space.pix.id s else .ok () s

/-- The results of DEC.EXPAND that an error leaves unspecified: `PIX[0 .. w*h*8)`, `PIX_LEN` and `PIX_MAX`
(44_decode.md R714, log 8). -/
def expandLeaves (r : ImgRegs) : List Item := [.bytes .pix 0 (r.pixels * 8), .pixLen, .pixMax]

/-- `DecExpand()` (44_decode.md R700). -/
def decExpand : Cmd Unit := fun s =>
  Cmd.leaving (items := expandLeaves s.img)
    (checkHeader.andThen <| checkPixRange.andThen <|
      (Cmd.update fun t => { t with cnt.pixLen := 0, dec.pixMax := pixMaxOf t.img }).andThen <|
      (Cmd.forEach expandOne (List.range s.img.pixels)).andThen <|
      (Cmd.update fun t => { t with cnt.pixLen := BitVec.ofNat 32 (t.img.pixels * 8) }).andThen <|
      setDecState .expanded) s

/-! ## Commands -/

/-- The results of DEC.HEADER that an error leaves unspecified in every case (44_decode.md R710, log 8). -/
def headerLeaves : List Item :=
  [.decSeen, .palCount, .trnsCount, .idatCount, .metaLen, .metaCount, .stageLen, .inflLen]

/-- DEC.HEADER (44_decode.md R710). -/
def execDecHeader (s : State) : Host.Outcome State Fault Refusal :=
  runCommand .decode ((decStart.andThen decHeader).leaving headerLeaves) s

/-- DEC.CHUNKS (44_decode.md R711). -/
def execDecChunks (s : State) : Host.Outcome State Fault Refusal :=
  runCommand .decode ((requireDecState .header).andThen (decChunks.onRaise (leaveChunks s))) s

/-- DEC.INFLATE (44_decode.md R712). -/
def execDecInflate (s : State) : Host.Outcome State Fault Refusal :=
  runCommand .decode ((requireDecState .chunks).andThen decInflate) s

/-- DEC.PIXELS (44_decode.md R713). -/
def execDecPixels (s : State) : Host.Outcome State Fault Refusal :=
  runCommand .decode ((requireDecState .inflated).andThen decPixels) s

/-- DEC.EXPAND (44_decode.md R714). -/
def execDecExpand (s : State) : Host.Outcome State Fault Refusal :=
  runCommand .decode ((requireDecState .pixels).andThen decExpand) s

end Sys2Proof.Machine
end

