-- ==== Sys2Proof/Machine/EncodeSeq.lean ====
section
/-! DEFINITION. The encode serializer (45_encode.md): its steps (R751-R790) and ENC.VALIDATE, ENC.HEADER, ENC.DATA,
ENC.TRAILER (R800-R803). ENCODE is in Pipeline.lean. -/

namespace Sys2Proof.Machine

/-! ## Shared pieces -/

/-- `ENC_STATE <- v`. -/
def setEncState (v : EncState) : Cmd Unit := .update fun s => { s with enc.state := v }

/-- `require ENC_STATE = v`: in any other state, `SequenceError(ENC_STATE)` (45_encode.md R799). -/
def requireEncState (v : EncState) : Cmd Unit := fun s =>
  if s.enc.state = v then .ok () s else .raised .sequenceError (s.enc.state.code.setWidth 32) s

/-- The program is refused when the host changed the encode configuration after ENC.VALIDATE
(70_reset_and_hazards.md R1023, log 11). -/
def requireSameConfig : Cmd Unit := fun s =>
  if s.enc.configChanged then .refuse .encodeConfigChanged else .ok () s

/-! ## Validation -/

/-- `CheckEncPalette()` (45_encode.md R752). -/
def checkEncPalette : Cmd Unit := fun s =>
  if s.img.colorType = 3 then
    if s.enc.palCount = 0 then .raised .paletteNotFound 0 s
    else if min 256 (2 ^ s.img.bitDepth.toNat) < s.enc.palCount.toNat then .raised .invalidPaletteSize 0 s
    else .ok () s
  else if 256 < s.enc.palCount.toNat then .raised .invalidPaletteSize 0 s
  else .ok () s

/-- `if R[ENC_MAX_IDAT] = 0: raise InvalidChunkSplitSize(0)` (45_encode.md R751). -/
def checkSplitSize : Cmd Unit := fun s =>
  if s.enc.maxIdat = 0 then .raised .invalidChunkSplitSize 0 s else .ok () s

/-- The checks of `EncValidate()`, in order (45_encode.md R751). -/
def encChecks : Cmd Unit :=
  checkSize.andThen <| checkColor.andThen <| checkEncPalette.andThen <| checkSplitSize.andThen <|
  checkInterlace.andThen <| checkLevel.andThen checkRawRange

/-- `EncValidate()` (45_encode.md R751). From here the configuration is the validated one (log 11). -/
def encValidate : Cmd Unit :=
  encChecks.andThen <|
  Cmd.update fun s => { s with cnt.outLen := 0, enc.state := .valid, enc.configChanged := false }

/-! ## Header chunks -/

/-- `IHDRData()` (45_encode.md R761). -/
def ihdrData (r : ImgRegs) : Bytes :=
  be32 r.width ++ be32 r.height ++ [r.bitDepth, r.colorType, 0, 0, r.interlace]

/-- The `PLTE` data of `n` entries (45_encode.md R760). -/
def plteData (pal : Memory) (n : Nat) : Bytes :=
  (List.range n).flatMap fun i => [pal.read (4 * i), pal.read (4 * i + 1), pal.read (4 * i + 2)]

/-- One plus the largest `i < n` with `PAL[4i+3] < 255`; 0 if there is none (45_encode.md R760). -/
def opaqueFrom (pal : Memory) : Nat → Nat
  | 0 => 0
  | n + 1 => if (pal.read (4 * n + 3)).toNat < 255 then n + 1 else opaqueFrom pal n

/-- The `tRNS` data: the alphas of the first `t` entries (45_encode.md R760). -/
def trnsData (pal : Memory) (t : Nat) : Bytes := (List.range t).map fun i => pal.read (4 * i + 3)

/-- The `PLTE` and `tRNS` chunks of a palette image (45_encode.md R760). PAL holds 256 entries: more of them is an
access beyond it (20_memory.md R236, log 18). -/
def paletteChunks : Cmd Unit := fun s =>
  let n := s.enc.palCount.toNat
  ((memRead .pal 0 (4 * n)).andThen <|
    (writeChunk typePLTE (plteData s.mem.pal n)).andThen <|
    if s.enc.emitAlpha ∧ 0 < opaqueFrom s.mem.pal n then
      writeChunk typeTRNS (trnsData s.mem.pal (opaqueFrom s.mem.pal n))
    else .ret ()) s

/-- `EncHeader()` (45_encode.md R760). -/
def encHeader : Cmd Unit := fun s =>
  ((outWrite pngSignature).andThen <|
    (writeChunk typeIHDR (ihdrData s.img)).andThen <|
    (if s.img.colorType = 3 then paletteChunks else .ret ()).andThen <|
    setEncState .header) s

/-! ## Image data -/

/-- The answer of `DEFLATE` (00_scope.md R20, log 7). -/
def Config.deflateOf (c : Config) (f : Bytes) (level : Nat) : Bytes :=
  match c.deflateTable.lookup (f, level) with
  | some d => d
  | none => Config.deflate f level

/-- `ZLIB_LEVEL_MAP` (00_scope.md R21; above code 3, log 30). -/
def Config.zlibLevel (c : Config) (code : Byte) : Nat :=
  if code = 0 then c.zlibLevel0
  else if code = 1 then c.zlibLevel1
  else if code = 2 then c.zlibLevel2
  else if code = 3 then c.zlibLevel3
  else Config.freeLevel code.toNat

/-- What ENC.DATA does first: FILT and DEFL reset, their counters, `IDAT_COUNT` and the hidden count 0
(45_encode.md R780, 10_state.md R164). -/
def dataStartState (s : State) : State :=
  { s with
    str := { s.str with filt := .fresh, defl := .fresh }
    cnt := { s.cnt with filtLen := 0, deflLen := 0, idatCount := 0 }
    enc.placed := 0 }

/-- The interlacer-filter stage (45_encode.md R780). -/
def filterStage : Cmd Unit := fun s =>
  ((memRead .raw 0 s.img.rawBytes).bind fun src =>
    (emit .filtStream id (interlacer s src)).andThen <|
    (closeStream .filt).andThen <|
    Cmd.update fun t => { t with cnt.filtLen := BitVec.ofNat 32 t.str.filt.total }) s

/-- The call of `DEFLATE` (45_encode.md R780). -/
def callDeflate (f : Bytes) : Cmd Bytes := fun s =>
  if s.cfg.zlibPresent = false then .raised .compressionUnavailable 0 s
  else .ok (Config.deflateOf s.cfg f (Config.zlibLevel s.cfg s.img.level)) s

/-- The deflater stage (45_encode.md R780). -/
def deflateStage : Cmd Unit :=
  (readAll .filt).bind fun f =>
  (callDeflate f).bind fun d =>
  (streamWrite .defl d).andThen <|
  (closeStream .defl).andThen <|
  Cmd.update fun s => { s with cnt.deflLen := BitVec.ofNat 32 d.length }

/-- `WriteChunk(IDAT, held); R[IDAT_COUNT] += 1`, and the hidden count (45_encode.md R782, 10_state.md R164). -/
def placeIdat (held : Bytes) : Cmd Unit :=
  (writeChunk typeIDAT held).andThen <|
  Cmd.update fun s =>
    { s with cnt.idatCount := s.cnt.idatCount + 1, enc.placed := s.enc.placed + held.length }

/-- `SplitIDAT()` with `held` bytes held, `fuel` reads at most (45_encode.md R782). Each read but the last gives a byte
or more, so with more fuel than bytes the bound is never met. -/
def splitLoop : Nat → Bytes → Cmd Unit
  | 0, _ => .ret ()
  | fuel + 1, held => fun s =>
    match s.str.defl.readPartial (s.enc.maxIdat.toNat - held.length) with
    | .data v t =>
      if (held ++ v).length = s.enc.maxIdat.toNat then
        ((placeIdat (held ++ v)).andThen (splitLoop fuel [])) (s.setStream .defl t)
      else splitLoop fuel (held ++ v) (s.setStream .defl t)
    | .endOfFile => if 0 < held.length then placeIdat held s else .ok () s
    | .unexpectedEof => .raised .unexpectedEof 0 s
    | .wait => .stuck .stalledRead

/-- `SplitIDAT()` (45_encode.md R782). `ENC_MAX_IDAT = 0` would read 0 bytes for ever; only a changed configuration
gives it, and the program is refused (70_reset_and_hazards.md R1023, log 11). -/
def splitIdat : Cmd Unit := fun s =>
  if s.enc.maxIdat = 0 then .refuse .encodeConfigChanged
  else splitLoop (s.str.defl.unread.length + 1) [] s

/-- The results of ENC.DATA that an error leaves unspecified. OUT and `OUT_LEN` hold the chunks written before the
failing one (45_encode.md R760, 60_exceptions.md R930, R932; log 8). -/
def dataLeaves : List Item := [.stream .filt, .stream .defl, .filtLen, .deflLen, .idatCount]

/-- The three stages of `EncData()`, one after the other (45_encode.md R780). -/
def dataStages : Cmd Unit := filterStage.andThen <| deflateStage.andThen splitIdat

/-- `EncData()` around given stages (45_encode.md R780). -/
def encDataWith (stages : Cmd Unit) : Cmd Unit :=
  (Cmd.update dataStartState).andThen <| stages.andThen <| setEncState .data

/-- `EncData()` (45_encode.md R780). -/
def encData : Cmd Unit := encDataWith dataStages

/-! ## Trailer -/

/-- `EncTrailer()` (45_encode.md R790). -/
def encTrailer : Cmd Unit := (writeChunk typeIEND []).andThen <| setEncState .done

/-! ## Commands -/

/-- ENC.VALIDATE (45_encode.md R800). A failed validation changes no result. -/
def execEncValidate (s : State) : Host.Outcome State Fault Refusal := runCommand .encode encValidate s

/-- ENC.HEADER (45_encode.md R801). The chunks written before a failing one stay in OUT (R760). -/
def execEncHeader (s : State) : Host.Outcome State Fault Refusal :=
  runCommand .encode ((requireEncState .valid).andThen <| requireSameConfig.andThen encHeader) s

/-- ENC.DATA (45_encode.md R802). -/
def execEncData (s : State) : Host.Outcome State Fault Refusal :=
  runCommand .encode ((requireEncState .header).andThen <| requireSameConfig.andThen <| encData.leaving dataLeaves) s

/-- ENC.TRAILER (45_encode.md R803). -/
def execEncTrailer (s : State) : Host.Outcome State Fault Refusal :=
  runCommand .encode ((requireEncState .data).andThen <| requireSameConfig.andThen encTrailer) s

end Sys2Proof.Machine
end

