-- ==== Sys2Proof/Machine/Pipeline.lean ====
section
/-! DEFINITION. DECODE and ENCODE (44_decode.md R720, R721; 45_encode.md R804, R805): the steps one after the other, or
their three stages as agents that step in the order `State.turns` says and then drain, upstream first
(60_exceptions.md R921, R951, R952; log 16). -/

namespace Sys2Proof.Machine

/-! ## The middle stage: inflater or deflater -/

/-- A stage that reads a stream to its end, converts the bytes, and writes the result in pieces to the next stream
(44_decode.md R695, R721; 45_encode.md R780, R805; log 25). -/
inductive MidStage where
  /-- The bytes read so far. -/
  | reading (got : Bytes)
  /-- The bytes still to write, and the output stream. -/
  | writing (rest : Bytes) (out : Stream)
  /-- Finished; the output stream is closed. -/
  | done (out : Stream)
  /-- Failed, with the output stream as the failure left it. -/
  | failed (e : Err) (info : Word) (out : Stream)
  deriving DecidableEq, Repr

/-- What a middle stage does: its conversion, and the capacity and id of its output stream. -/
structure MidJob where
  convert : Bytes → Except (Err × Word) Bytes
  cap : Nat
  id : Word

/-- The stage's input is complete. -/
def MidJob.start (j : MidJob) (z : Bytes) : MidStage :=
  match j.convert z with
  | .ok d => .writing d .fresh
  | .error (e, info) => .failed e info .fresh

/-- Write one piece and flush it (20_memory.md R213, R214). -/
def MidJob.write (j : MidJob) (n : Nat) (rest : Bytes) (out : Stream) : MidStage :=
  if j.cap < out.total + (rest.take n).length then .failed .capacityExceeded j.id out
  else .writing (rest.drop n) (out.write (rest.take n)).flush

/-- One turn of the stage, moving `n` bytes at most; `up` is the stream it reads. It waits while `up` is open and gives
no bytes (20_memory.md R212). -/
def MidJob.turn (j : MidJob) (n : Nat) (up : Stream) : MidStage → MidStage
  | .reading got =>
    if up.readable.drop got.length = [] then (if up.closed then j.start got else .reading got)
    else .reading (got ++ (up.readable.drop got.length).take n)
  | .writing rest out => if rest = [] then .done out.close else j.write n rest out
  | .done out => .done out
  | .failed e info out => .failed e info out

/-- The stage's output, all of it at once. -/
def MidJob.flushAll (j : MidJob) : MidStage → MidStage
  | .writing rest out =>
    if j.cap < out.total + rest.length then .failed .capacityExceeded j.id out
    else .done (out.write rest).close
  | .reading got => .reading got
  | .done out => .done out
  | .failed e info out => .failed e info out

/-- The stage to its end, once its input stream is closed. -/
def MidJob.drain (j : MidJob) (up : Stream) (m : MidStage) : MidStage :=
  match m with
  | .reading _ => j.flushAll (j.start up.readable)
  | .writing _ _ | .done _ | .failed _ _ _ => j.flushAll m

/-- The stage's output stream as its consumer sees it. A stage closes it on every exit (20_memory.md R220). -/
def MidStage.view : MidStage → Stream
  | .reading _ => .fresh
  | .writing _ out => out
  | .done out => out
  | .failed _ _ out => out.close

/-! ## The stages of DECODE -/

/-- The chunk reader: its own state, or how it ended. -/
inductive ReaderStage where
  | running (s : State)
  | ended (r : Res Unit)
  deriving DecidableEq, Repr

/-- One turn of the chunk reader: one chunk (44_decode.md R660). -/
def ReaderStage.turn : ReaderStage → ReaderStage
  | .running s =>
    match decChunksStep s with
    | .ok false s' => .running s'
    | .ok true s' => .ended (endChunks s')
    | .raised e info s' => .ended (.raised e info s')
    | .stuck f => .ended (.stuck f)
    | .refuse r => .ended (.refuse r)
  | .ended r => .ended r

/-- The chunk reader to its end. -/
def ReaderStage.drain : ReaderStage → ReaderStage
  | .running s => .ended (((chunkLoop (inAvail s + 1)).andThen endChunks) s)
  | .ended r => .ended r

/-- STAGE as the inflater sees it; closed when the reader has ended (20_memory.md R220). -/
def ReaderStage.view : ReaderStage → Stream
  | .running s => s.str.stage
  | .ended (.ok _ s) => s.str.stage
  | .ended (.raised _ _ s) => s.str.stage.close
  | .ended (.stuck _) => Stream.fresh.close
  | .ended (.refuse _) => Stream.fresh.close

/-- The inflater's job (44_decode.md R695). -/
def inflateJob (c : Config) : MidJob where
  convert z :=
    if c.zlibPresent = false then .error (.compressionUnavailable, 0)
    else
      match Config.inflateOf c z with
      | some d => .ok d
      | none => .error (.compressionDataError, 0)
  cap := StreamId.infl.cap c
  id := StreamId.infl.id

/-- How a check ends: its error, if it raised one. -/
def Res.error {α : Type} : Res α → Option (Err × Word)
  | .ok _ _ => none
  | .raised e info _ => some (e, info)
  | .stuck _ => none
  | .refuse _ => none

/-- The deinterlacer's answer on the bytes `inp` of INFL, for the image registers and the engine of `s`
(44_decode.md R697). -/
def pixelsOn (s : State) (inp : Bytes) : Unfiltered :=
  match (checkPixels s).error with
  | some (e, info) => .failed e info s.flt inp
  | none => deinterlacer s s.flt inp

/-- The deinterlacer: the bytes of INFL it has taken, and its answer once they decide it. -/
inductive PixelsStage where
  | reading (got : Bytes)
  | ended (got : Bytes) (r : Unfiltered)
  deriving DecidableEq, Repr

/-- The answer on the bytes taken so far is final: it is no wait for more bytes (20_memory.md R212). -/
def Unfiltered.final (r : Unfiltered) (exhausted : Bool) : Bool :=
  match r with
  | .done _ _ _ => true
  | .failed e _ _ _ => e != .unexpectedEof || exhausted

/-- The deinterlacer with the bytes `got` taken. -/
def PixelsStage.take (s : State) (infl : Stream) (got : Bytes) : PixelsStage :=
  if (pixelsOn s got).final (infl.closed && decide (infl.readable.length ≤ got.length)) then
    .ended got (pixelsOn s got)
  else .reading got

/-- One turn of the deinterlacer, taking `n` more bytes at most; `s` is the state its command started the stages in. -/
def PixelsStage.turn (s : State) (n : Nat) (infl : Stream) : PixelsStage → PixelsStage
  | .reading got => .take s infl (got ++ (infl.readable.drop got.length).take n)
  | .ended got r => .ended got r

/-- The deinterlacer to its end, once INFL is closed. -/
def PixelsStage.drain (s : State) (infl : Stream) : PixelsStage → PixelsStage
  | .reading _ => .ended infl.readable (pixelsOn s infl.readable)
  | .ended got r => .ended got r

/-- The three stages of a pipelined DECODE (44_decode.md R721). -/
structure DecPipe where
  reader : ReaderStage
  inflater : MidStage
  pixels : PixelsStage
  deriving DecidableEq, Repr

/-- The stages before their first turn. -/
def DecPipe.start (s : State) : DecPipe := { reader := .running s, inflater := .reading [], pixels := .reading [] }

/-- One turn of one stage (60_exceptions.md R951). -/
def DecPipe.turn (s : State) (p : DecPipe) : StageTurn → DecPipe
  | .first => { p with reader := p.reader.turn }
  | .second n => { p with inflater := (inflateJob s.cfg).turn n p.reader.view p.inflater }
  | .third n => { p with pixels := p.pixels.turn s n p.inflater.view }

/-- Every stage to its end, upstream first (60_exceptions.md R921, R952). -/
def DecPipe.drain (s : State) (p : DecPipe) : DecPipe :=
  let reader := p.reader.drain
  let inflater := (inflateJob s.cfg).drain reader.view p.inflater
  { reader := reader, inflater := inflater, pixels := p.pixels.drain s inflater.view }

/-- The stages after the interleaving `s.turns` and the drain. -/
def DecPipe.run (s : State) : DecPipe := (s.turns.foldl (DecPipe.turn s) (.start s)).drain s

/-- The inflater's registers and streams, once the chunk reader has finished. -/
def commitInflater (m : MidStage) : Cmd Unit :=
  Cmd.leaving (items := inflateLeaves) <|
    (resetStream .infl).andThen <|
    (Cmd.update fun s => { s with cnt.inflLen := 0 }).andThen <|
    (readAll .stage).andThen <|
    match m with
    | .done out =>
      (Cmd.update fun s =>
          { s.setStream .infl out with cnt.inflLen := BitVec.ofNat 32 out.total }).andThen <|
        setDecState .inflated
    | .failed e info _ => .raise e info
    | .reading _ | .writing _ _ => fun _ => .stuck .stalledRead

/-- The deinterlacer's registers and RAW, once the inflater has finished. -/
def commitPixels (p : PixelsStage) : Cmd Unit := fun s =>
  Cmd.leaving (items := pixelsLeaves s.img)
    (match p with
    | .ended got (.done out u rest) =>
      clearRawLen.andThen <|
      (Cmd.update fun s =>
          { s.setStream .infl (s.str.infl.advance (got.length - rest.length)) with flt := u }).andThen <|
      (storeRaw out).andThen <|
      setDecState .pixels
    | .ended got (.failed e info u rest) =>
      (Cmd.update fun s =>
          { s.setStream .infl (s.str.infl.advance (got.length - rest.length)) with flt := u }).andThen <|
      Cmd.raise e info
    | .reading _ => fun _ => .stuck .stalledRead) s

/-- The end of the three stages: the error of the most upstream stage that failed, with nothing kept of the stages below
it; or the results of all three (60_exceptions.md R921, 20_memory.md R232). -/
def DecPipe.commit (p : DecPipe) : Cmd Unit := fun s =>
  match p.reader with
  | .running _ => .stuck .stalledRead
  | .ended r =>
    (Cmd.andThen (fun _ => r) <|
      (setDecState .chunks).andThen <|
      (commitInflater p.inflater).andThen (commitPixels p.pixels)) s

/-- Steps 3 to 5 as three concurrent stages (44_decode.md R720, R721). -/
def decPipelined : Cmd Unit := (resetStream .stage).andThen fun s => (DecPipe.run s).commit s

/-- Steps 3 to 5 one after the other (44_decode.md R720). -/
def decSequential : Cmd Unit := decChunks.andThen <| decInflate.andThen decPixels

/-- The results of DECODE that an error leaves unspecified in every case, for an image of registers `r`: META, and RAW and PIX
as far as the image goes, among them (44_decode.md R720, log 8). -/
def decodeLeaves (r : ImgRegs) : List Item :=
  headerLeaves ++
  [.space .metaLog, .bytes .raw 0 r.rawBytes, .bytes .pix 0 (r.pixels * 8), .stream .stage, .stream .infl, .rawLen, .pixLen, .pixMax]

/-- After an error in the header of DECODE: beside what `DecHeader()` leaves unspecified, the other results of DECODE, and
`CH_CRC`, of which 95_test_vectors.md P8 speaks for DEC.HEADER only. The size of the image is that of the image registers as
the error leaves them. -/
def leaveDecodeHeader (e : Err) (s : State) : State :=
  unspecified ((if e = .corruptedChunk then [.chCrc] else []) ++ decodeLeaves s.img) s

/-- After an error of DECODE behind its header, which left `h`: the image registers, `IN_POS` and the chunk registers, and the
bytes of DBUF and PAL that its steps have written, are unspecified too. `PaletteNotFound` leaves `IMG_FORMAT` and `CH_TYPE` as
they stood (95_test_vectors.md P6), and a failed strict read of the chunk loop leaves `IN_POS` and the chunk registers
(20_memory.md R211, 41_framer.md R450; log 8). -/
def leaveDecode (h : State) (e : Err) (s : State) : State :=
  unspecified
    (cursorLeaves (e == .unexpectedEof && s.dec.state == .header) e ++
      (if e = .paletteNotFound then [] else [.imgFormat]) ++
      .bytes .dbuf 0 (max h.ch.length.toNat h.dbufReach) :: chunksLeaves s ++ decodeLeaves h.img ++
      [.imgWidth, .imgHeight, .imgInterlace]) s

/-- The steps of DECODE around given steps 3 to 5 (44_decode.md R720). -/
def decodeWith (stages : Cmd Unit) : Cmd Unit :=
  ((decStart.andThen decHeader).onRaise leaveDecodeHeader).andThen fun h =>
    ((stages.andThen decExpand).onRaise (leaveDecode h)) h

/-- DECODE (44_decode.md R720, R721). -/
def execDecode (pipe : Bool) (s : State) : Host.Outcome State Fault Refusal :=
  runCommand .decode (decodeWith (if pipe then decPipelined else decSequential)) s

/-! ## The stages of ENCODE -/

/-- The interlacer-filter: the scanlines still to write, and FILT. Where it failed, `u` holds the engine's registers as
they stood then. -/
inductive FilterStage where
  | running (rest : List (FilterUnit × Bytes)) (out : Stream)
  | done (out : Stream)
  | failed (e : Err) (info : Word) (u : FilterUnit) (out : Stream)
  deriving DecidableEq, Repr

/-- What the interlacer-filter has to write for the image of `s` (45_encode.md R780). -/
def filterJob (s : State) : Filtered := interlacer s (s.mem.raw.readBytes 0 s.img.rawBytes) s.flt

/-- The interlacer-filter before its first turn; a RAW range beyond the space ends it (20_memory.md R236). -/
def FilterStage.start (s : State) : FilterStage :=
  if s.cfg.rawCap < 0 + s.img.rawBytes then .failed .capacityExceeded Space.raw.id s.flt .fresh
  else .running (filterJob s).rows .fresh

/-- The interlacer-filter when no scanline is left: its error, or the close of FILT. -/
def filterEnd (r : Filtered) (out : Stream) : FilterStage :=
  match r.err with
  | some (e, info) => .failed e info r.u out
  | none => .done out.close

/-- One turn of the interlacer-filter: one scanline, written and flushed (42_filter.md R536), or the end. -/
def FilterStage.turn (s : State) : FilterStage → FilterStage
  | .running [] out => filterEnd (filterJob s) out
  | .running ((u, l) :: rest) out =>
    if StreamId.filt.cap s.cfg < out.total + l.length then .failed .capacityExceeded StreamId.filt.id u out
    else .running rest (out.write l).flush
  | .done out => .done out
  | .failed e info u out => .failed e info u out

/-- The interlacer-filter to its end. -/
def filterAll (s : State) : List (FilterUnit × Bytes) → Stream → FilterStage
  | [], out => filterEnd (filterJob s) out
  | (u, l) :: rest, out =>
    if StreamId.filt.cap s.cfg < out.total + l.length then .failed .capacityExceeded StreamId.filt.id u out
    else filterAll s rest (out.write l).flush

/-- The interlacer-filter to its end. -/
def FilterStage.drain (s : State) : FilterStage → FilterStage
  | .running rest out => filterAll s rest out
  | .done out => .done out
  | .failed e info u out => .failed e info u out

/-- FILT as the deflater sees it; closed when the stage has ended (20_memory.md R220). -/
def FilterStage.view : FilterStage → Stream
  | .running _ out => out
  | .done out => out
  | .failed _ _ _ out => out.close

/-- The deflater's job (45_encode.md R780). -/
def deflateJob (s : State) : MidJob where
  convert f :=
    if s.cfg.zlibPresent = false then .error (.compressionUnavailable, 0)
    else .ok (Config.deflateOf s.cfg f (Config.zlibLevel s.cfg s.img.level))
  cap := StreamId.defl.cap s.cfg
  id := StreamId.defl.id

/-- The part of the state the `IDAT` splitter writes. -/
structure OutSide where
  outp : Memory
  outLen : Word
  idatCount : Word
  placed : Nat
  deriving DecidableEq, Repr

/-- The splitter's part of a state. -/
def State.outSide (s : State) : OutSide :=
  { outp := s.mem.outp, outLen := s.cnt.outLen, idatCount := s.cnt.idatCount, placed := s.enc.placed }

/-- A state with the splitter's part replaced. -/
def State.withOutSide (s : State) (o : OutSide) : State :=
  { s.setSpace .outp o.outp with
    cnt.outLen := o.outLen, cnt.idatCount := o.idatCount, enc.placed := o.placed }

/-- The `IDAT` splitter: the bytes of DEFL it has read, those it holds, and its own part of the state; or its end. -/
inductive SplitStage where
  | running (got : Nat) (held : Bytes) (o : OutSide)
  | done (got : Nat) (o : OutSide)
  | failed (e : Err) (info : Word) (got : Nat) (o : OutSide)
  deriving DecidableEq, Repr

/-- One `IDAT` chunk into the splitter's part (45_encode.md R782); `none` when it does not fit OUT. -/
def OutSide.place (outCap : Nat) (held : Bytes) (o : OutSide) : Option OutSide :=
  if outCap < o.outLen.toNat + (chunkBytes typeIDAT held).length then none
  else
    some
      { outp := o.outp.writeBytes o.outLen.toNat (chunkBytes typeIDAT held)
        outLen := o.outLen + BitVec.ofNat 32 (chunkBytes typeIDAT held).length
        idatCount := o.idatCount + 1
        placed := o.placed + held.length }

/-- The splitter has read `got` bytes of DEFL and holds `held`, which may be a whole chunk (45_encode.md R782). -/
def SplitStage.hold (s : State) (got : Nat) (held : Bytes) (o : OutSide) : SplitStage :=
  if held.length = s.enc.maxIdat.toNat then
    match o.place s.cfg.outCap held with
    | some o' => .running got [] o'
    | none => .failed .capacityExceeded Space.outp.id got o
  else .running got held o

/-- The splitter at the end of DEFL (45_encode.md R782). -/
def SplitStage.last (s : State) (got : Nat) (held : Bytes) (o : OutSide) : SplitStage :=
  if 0 < held.length then
    match o.place s.cfg.outCap held with
    | some o' => .done got o'
    | none => .failed .capacityExceeded Space.outp.id got o
  else .done got o

/-- One turn of the splitter: one partial read, of `n` bytes at most, and the chunk it completes (45_encode.md R782). -/
def SplitStage.turn (s : State) (n : Nat) (defl : Stream) : SplitStage → SplitStage
  | .running got held o =>
    if defl.readable.drop got = [] then (if defl.closed then .last s got held o else .running got held o)
    else
      let v := (defl.readable.drop got).take (min n (s.enc.maxIdat.toNat - held.length))
      .hold s (got + v.length) (held ++ v) o
  | .done got o => .done got o
  | .failed e info got o => .failed e info got o

/-- The splitter to its end, once DEFL is closed, in `fuel` turns at most. -/
def SplitStage.drain (s : State) (defl : Stream) : Nat → SplitStage → SplitStage
  | 0, p => p
  | fuel + 1, p => SplitStage.drain s defl fuel (p.turn s s.enc.maxIdat.toNat defl)

/-- The three stages of a pipelined ENCODE (45_encode.md R805). -/
structure EncPipe where
  filter : FilterStage
  deflater : MidStage
  splitter : SplitStage
  deriving DecidableEq, Repr

/-- The stages before their first turn. -/
def EncPipe.start (s : State) : EncPipe :=
  { filter := .start s, deflater := .reading [], splitter := .running 0 [] s.outSide }

/-- One turn of one stage (60_exceptions.md R951). -/
def EncPipe.turn (s : State) (p : EncPipe) : StageTurn → EncPipe
  | .first => { p with filter := p.filter.turn s }
  | .second n => { p with deflater := (deflateJob s).turn n p.filter.view p.deflater }
  | .third n => { p with splitter := p.splitter.turn s n p.deflater.view }

/-- Every stage to its end, upstream first (60_exceptions.md R921, R952). -/
def EncPipe.drain (s : State) (p : EncPipe) : EncPipe :=
  let filter := p.filter.drain s
  let deflater := (deflateJob s).drain filter.view p.deflater
  { filter := filter, deflater := deflater
    splitter := p.splitter.drain s deflater.view (deflater.view.readable.length + 1) }

/-- The stages after the interleaving `s.turns` and the drain. -/
def EncPipe.run (s : State) : EncPipe := (s.turns.foldl (EncPipe.turn s) (.start s)).drain s

/-- The interlacer-filter's registers and FILT. -/
def commitFilter (p : FilterStage) : Cmd Unit := fun s =>
  match p with
  | .done out => .ok () { s.setStream .filt out with flt := (filterJob s).u, cnt.filtLen := BitVec.ofNat 32 out.total }
  | .failed e info u out => .raised e info { s.setStream .filt out with flt := u }
  | .running _ _ => .stuck .stalledRead

/-- The deflater's registers and DEFL, once the interlacer-filter has finished. -/
def commitDeflater (m : MidStage) : Cmd Unit :=
  (readAll .filt).andThen fun s =>
    match m with
    | .done out => .ok () { s.setStream .defl out with cnt.deflLen := BitVec.ofNat 32 out.total }
    | .failed e info _ => .raised e info s
    | .reading _ | .writing _ _ => .stuck .stalledRead

/-- The splitter's registers and OUT, once the deflater has finished. -/
def commitSplitter (p : SplitStage) : Cmd Unit := fun s =>
  match p with
  | .done got o => .ok () ((s.setStream .defl (s.str.defl.advance got)).withOutSide o)
  | .failed e info got o => .raised e info ((s.setStream .defl (s.str.defl.advance got)).withOutSide o)
  | .running _ _ _ => .stuck .stalledRead

/-- The end of the three stages: the error of the most upstream stage that failed, with nothing kept of the stages below
it; or the results of all three (60_exceptions.md R921, 45_encode.md R805). -/
def EncPipe.commit (p : EncPipe) : Cmd Unit :=
  (commitFilter p.filter).andThen <| (commitDeflater p.deflater).andThen (commitSplitter p.splitter)

/-- The three stages of `EncData()` run concurrently (45_encode.md R804, R805). -/
def pipelinedStages : Cmd Unit := fun s =>
  if s.enc.maxIdat = 0 then .refuse .encodeConfigChanged else (EncPipe.run s).commit s

/-- The steps of ENCODE around given stages of `EncData()` (45_encode.md R804). An error leaves the results of
`EncData()` unspecified, and OUT and `OUT_LEN` as the chunks written before it left them (log 8). -/
def encodeWith (stages : Cmd Unit) : Cmd Unit :=
  Cmd.leaving (items := dataLeaves) <|
    encValidate.andThen <| encHeader.andThen <| (encDataWith stages).andThen encTrailer

/-- ENCODE (45_encode.md R804, R805). -/
def execEncode (pipe : Bool) (s : State) : Host.Outcome State Fault Refusal :=
  runCommand .encode (encodeWith (if pipe then pipelinedStages else dataStages)) s

end Sys2Proof.Machine
end

