-- ==== Sys2Proof/Machine/System.lean ====
section
/-! DEFINITION. The system commands NOP and CLEAR (46_system.md R850, R851). -/

namespace Sys2Proof.Machine

/-- NOP (46_system.md R850). -/
def execNop (s : State) : Host.Outcome State Fault Refusal := runCommand .other (.ret ()) s

/-- The state CLEAR leaves before it finishes (46_system.md R851). -/
def clearState (s : State) : State :=
  { s with
    dec :=
      { state := .idle, seenPlte := false, seenTrns := false, seenIdat := false, seenIend := false,
        palCount := 0, trnsCount := 0, pixMax := 0 }
    enc.state := .idle
    cnt :=
      { s.cnt with
        idatCount := 0, metaLen := 0, metaCount := 0, stageLen := 0, inflLen := 0, filtLen := 0, deflLen := 0,
        rawLen := 0, pixLen := 0 }
    str := { stage := .fresh, infl := .fresh, filt := .fresh, defl := .fresh }
    flt := { s.flt with fstate := .idle, row := 0, pass := 0 }
    status.cmdLost := false }

/-- CLEAR (46_system.md R851). -/
def execClear (s : State) : Host.Outcome State Fault Refusal := runCommand .other (.update clearState) s

end Sys2Proof.Machine
end

