-- ==== Sys2Proof/Machine/Dispatch.lean ====
section
/-! DEFINITION. The meaning of every command, one arm per constructor of `Instr`. -/

namespace Sys2Proof.Machine

def exec (i : Instr) (s : State) : Host.Outcome State Fault Refusal :=
  match i with
  | .nop => Sys2Proof.Machine.execNop s
  | .clear => Sys2Proof.Machine.execClear s
  | .crcCalc => Sys2Proof.Machine.execCrcCalc s
  | .crcUpd => Sys2Proof.Machine.execCrcUpd s
  | .crcUpd32 => Sys2Proof.Machine.execCrcUpd32 s
  | .sigCheck => Sys2Proof.Machine.execSigCheck s
  | .sigWrite => Sys2Proof.Machine.execSigWrite s
  | .chunkRead => Sys2Proof.Machine.execChunkRead s
  | .chunkVerify => Sys2Proof.Machine.execChunkVerify s
  | .chunkSetcrc => Sys2Proof.Machine.execChunkSetcrc s
  | .chunkWrite => Sys2Proof.Machine.execChunkWrite s
  | .unfilter => Sys2Proof.Machine.execUnfilter s
  | .filter => Sys2Proof.Machine.execFilter s
  | .deinterlace => Sys2Proof.Machine.execDeinterlace s
  | .interlace => Sys2Proof.Machine.execInterlace s
  | .decHeader => Sys2Proof.Machine.execDecHeader s
  | .decChunks => Sys2Proof.Machine.execDecChunks s
  | .decInflate => Sys2Proof.Machine.execDecInflate s
  | .decPixels => Sys2Proof.Machine.execDecPixels s
  | .decExpand => Sys2Proof.Machine.execDecExpand s
  | .decode pipe => Sys2Proof.Machine.execDecode pipe s
  | .encValidate => Sys2Proof.Machine.execEncValidate s
  | .encHeader => Sys2Proof.Machine.execEncHeader s
  | .encData => Sys2Proof.Machine.execEncData s
  | .encTrailer => Sys2Proof.Machine.execEncTrailer s
  | .encode pipe => Sys2Proof.Machine.execEncode pipe s

end Sys2Proof.Machine
end

