-- ==== Sys2Proof/Machine/HostPort.lean ====
section
/-! DEFINITION. What the host can do to the block: register and space accesses (10_state.md R100-R108, R140), command
issue (R108), hazards while busy (70_reset_and_hazards.md R1020, R1021), the platform's addresses (20_memory.md R240), and
reset (70_reset_and_hazards.md R1000-R1003). -/

namespace Sys2Proof.Machine

/-! ## Command issue -/

/-- `STATUS.PIPE_ACTIVE` at acceptance: `w[8]` for a legal DECODE or ENCODE word, else 0 (10_state.md R108). -/
def pipeActiveOf (w : Word) : Bool :=
  match decode w with
  | .ok i => i.pipe
  | .error _ => false

/-- Acceptance of a command word (10_state.md R108). -/
def State.accept (w : Word) (s : State) : State :=
  { s with
    cmd := w
    errCode := 0
    errInfo := 0
    status :=
      { s.status with busy := true, done := false, err := false, pipeActive := pipeActiveOf w, op := opcodeOf w } }

/-- A host write to `CMD`: dropped while busy, else accepted (10_state.md R108). -/
def State.writeCmd (w : Word) (s : State) : State :=
  if s.status.busy then { s with status.cmdLost := true } else s.accept w

/-! ## Registers -/

/-- A host write to a register: to `CMD`; to another register while idle; while busy only W1C of `STATUS`
(10_state.md R103, R108). -/
def State.hostWrite (s : State) (r : Reg) (v : Word) : State :=
  if r = .cmd then s.writeCmd v
  else if s.status.busy = false ∨ r = .status then s.writeReg r v
  else s

/-- A host write at an offset of the window; a reserved offset ignores it (10_state.md R102). -/
def State.windowWrite (s : State) (off : Nat) (v : Word) : State :=
  match Reg.ofOffset off with
  | some r => s.hostWrite r v
  | none => s

/-- The value a host read returned, and the free-value counter after it (log 23). -/
def State.returned (s : State) (v : Word × Nat) : State := { s with port.readData := v.1, freeIdx := v.2 }

/-- A host read at an offset of the window; a reserved offset reads 0 (10_state.md R102). -/
def State.windowRead (s : State) (off : Nat) : State :=
  match Reg.ofOffset off with
  | some r => s.returned (s.hostRead r)
  | none => s.returned (0, s.freeIdx)

/-- A host read that the block does not accept gives whatever the platform does (70_reset_and_hazards.md R1000, log 15). -/
def State.readUnaccepted (s : State) : State := s.returned (Config.freeWord s.freeIdx 400, s.freeIdx + 1)

/-- A host write to the window at an offset and of a width: an access outside the window is refused, and so is a narrower,
wider or misaligned one inside it (10_state.md R100, 60_exceptions.md R900, 92_eei_decisions.md D2). -/
def State.regWrite (s : State) (w : AccessWidth) (off : Nat) (v : Word) : Host.Outcome State Fault Refusal :=
  if !inWindow off then .refused .outsideInterface
  else if !windowAccessOk w off then .refused .badWindowAccess
  else .next (s.windowWrite off v)

/-- A host read of the window, refused alike (10_state.md R100, 60_exceptions.md R900, 92_eei_decisions.md D2). -/
def State.regRead (s : State) (w : AccessWidth) (off : Nat) : Host.Outcome State Fault Refusal :=
  if !inWindow off then .refused .outsideInterface
  else if !windowAccessOk w off then .refused .badWindowAccess
  else .next (s.windowRead off)

/-! ## Spaces -/

/-- A host write of one byte of a space (10_state.md R140): refused beyond the space (20_memory.md R236) and while busy
(70_reset_and_hazards.md R1020). -/
def State.spaceWrite (s : State) (sp : Space) (off : Nat) (v : Byte) : Host.Outcome State Fault Refusal :=
  if sp.cap s.cfg ≤ off then .refused .outsideInterface
  else if s.status.busy then .refused .spaceWriteWhileBusy
  else .next (s.setSpace sp ((s.mem.get sp).write off v))

/-- A host read of one byte of a space; while busy a free value (70_reset_and_hazards.md R1020). -/
def State.spaceRead (s : State) (sp : Space) (off : Nat) : Host.Outcome State Fault Refusal :=
  if sp.cap s.cfg ≤ off then .refused .outsideInterface
  else if s.status.busy then
    .next (s.returned ((Config.freeByte s.freeIdx (410 + sp.id.toNat) off).setWidth 32, s.freeIdx + 1))
  else .next (s.returned (((s.mem.get sp).read off).setWidth 32, s.freeIdx))

/-! ## The platform's addresses -/

/-- The bytes an access moves. -/
def widthBytes : AccessWidth → Nat
  | .byte => 1
  | .half => 2
  | .word => 4
  | .double => 8

/-- Where a platform address leads (20_memory.md R240). -/
inductive Target where
  /-- The register window, at an offset. -/
  | window (off : Nat)
  /-- A space, at an offset. -/
  | space (sp : Space) (off : Nat)
  /-- No access of the block's interface. -/
  | outside
  deriving DecidableEq, Repr

/-- The base of a space in the platform's map. -/
def spaceBase (p : PlatformMap) : Space → Nat
  | .inp => p.inBase
  | .outp => p.outBase
  | .dbuf => p.dbufBase
  | .raw => p.rawBase
  | .pal => p.palBase
  | .metaLog => p.metaBase
  | .pix => p.pixBase

/-- An access touches a range of addresses. -/
def touches (base size addr : Nat) (w : AccessWidth) : Bool :=
  decide (addr < base + size) && decide (base < addr + widthBytes w)

/-- The seven spaces. -/
def allSpaces : List Space := [.inp, .outp, .dbuf, .raw, .pal, .metaLog, .pix]

/-- The target among some spaces. -/
def findSpace (c : Config) (w : AccessWidth) (addr : Nat) : List Space → Target
  | [] => .outside
  | sp :: rest =>
    if touches (spaceBase c.platform sp) (sp.cap c) addr w then
      (if spaceWidthOk w then .space sp (addr - spaceBase c.platform sp) else .outside)
    else findSpace c w addr rest

/-- The target of a platform address (20_memory.md R240, log 26). -/
def target (c : Config) (w : AccessWidth) (addr : Nat) : Target :=
  if touches c.platform.windowBase 256 addr w then
    (if c.platform.windowBase ≤ addr then .window (addr - c.platform.windowBase) else .outside)
  else findSpace c w addr allSpaces

/-- A host write at a platform address; a space takes the low byte; any other address is refused (20_memory.md R240:
"Nothing else is addressable"; 60_exceptions.md R900). -/
def State.busWrite (s : State) (w : AccessWidth) (addr : Nat) (v : Word) : Host.Outcome State Fault Refusal :=
  match target s.cfg w addr with
  | .window off => s.regWrite w off v
  | .space sp off => s.spaceWrite sp off (v.setWidth 8)
  | .outside => .refused .outsideInterface

/-- A host read at a platform address, refused alike. -/
def State.busRead (s : State) (w : AccessWidth) (addr : Nat) : Host.Outcome State Fault Refusal :=
  match target s.cfg w addr with
  | .window off => s.regRead w off
  | .space sp off => s.spaceRead sp off
  | .outside => .refused .outsideInterface

/-! ## Reset -/

/-- The host's side is no part of the block: it survives a reset, as does the free-value counter (log 9). -/
def State.keepHostSide (s t : State) : State := { t with port := s.port, freeIdx := s.freeIdx }

/-- Reset is asserted: a running command is abandoned (70_reset_and_hazards.md R1003, log 27). -/
def State.assertReset (s : State) : State :=
  s.keepHostSide { State.resetWith s.cfg s.mem with inReset := true }

/-- Reset is released: the state of 70_reset_and_hazards.md R1000, the spaces holding what the event brings (R1002). -/
def State.releaseReset (s : State) (contents : Spaces) : State :=
  if s.inReset then s.keepHostSide (State.resetWith s.cfg (Spaces.normal s.cfg contents)) else s

end Sys2Proof.Machine
end

