-- ==== Sys2Proof/Machine/Engine.lean ====
section
/-! DEFINITION. The command engine (10_state.md R108, 60_exceptions.md R940) and what each host event does. -/

namespace Sys2Proof.Machine

/-- The command engine runs the accepted word to its end (10_state.md R108, 30_encoding.md R303, R304; log 3). It does
nothing while the block is idle or in reset. -/
def runEngine (turns : List StageTurn) (s : State) : Host.Outcome State Fault Refusal :=
  if s.inReset || !s.status.busy then .next s
  else
    match decode s.cmd with
    | .error _ => .next (errorEntry .other .illegalCommand s.cmd s)
    | .ok i => exec i { s with turns := turns }

/-- One event. While reset is asserted the block accepts no host access (70_reset_and_hazards.md R1000): a write is lost
and a read gives a free value (log 15). -/
def handleEvent (e : HostEvent) (s : State) : Host.Outcome State Fault Refusal :=
  match e with
  | .engine turns => runEngine turns s
  | .resetAssert => .next s.assertReset
  | .resetRelease contents => .next (s.releaseReset contents)
  | .regWrite w off v => if s.inReset then .next s else s.regWrite w off v
  | .spaceWrite sp off v => if s.inReset then .next s else s.spaceWrite sp off v
  | .busWrite w addr v => if s.inReset then .next s else s.busWrite w addr v
  | .regRead w off => if s.inReset then .next s.readUnaccepted else s.regRead w off
  | .spaceRead sp off => if s.inReset then .next s.readUnaccepted else s.spaceRead sp off
  | .busRead w addr => if s.inReset then .next s.readUnaccepted else s.busRead w addr

/-- Take the next event off the inbox. -/
def State.withInbox (s : State) (rest : List HostEvent) : State := { s with port.inbox := rest }

/-- One step of the machine: the next event; with none to come, the command engine (log 2). -/
def stepOnce (s : State) : Host.Outcome State Fault Refusal :=
  match s.port.inbox with
  | e :: rest => handleEvent e (s.withInbox rest)
  | [] => runEngine [] s

/-- The state in which the next step runs the command word `w` (log 1). -/
def State.issued (w : Word) (s : State) : State :=
  { (s.accept w) with inReset := false, port.inbox := .engine [] :: s.port.inbox }

end Sys2Proof.Machine
end

