-- ==== Sys2Proof/Machine/Step.lean ====
section
/-! DEFINITION. One step of the machine, and the placing of a command word for it (log 1, log 2). -/

namespace Sys2Proof.Machine

/-- One step (60_exceptions.md R951): a host event, or the command engine. -/
def step (s : State) : Host.Outcome State Fault Refusal := stepOnce s

/-- The command word with the bits `w`, as opcode_table.json numbers them, accepted as `CMD` and next to run (log 1):
the block fetches no instruction (10_state.md R105). A command is one 32-bit word (30_encoding.md R300): bits above
`nbits` are 0. -/
def State.withFetchWord (s : State) (nbits w : Nat) : State := s.issued (BitVec.ofNat 32 (w % 2 ^ nbits))

end Sys2Proof.Machine
end

