-- ==== Sys2Proof/Safety.lean ====
section
/-! DEFINITION. What a safe run is: the invariant of the machine's states, and a step that does not stop with a fault; and
the terms the claims are stated in. -/

namespace Sys2Proof.Machine

/-- The codes `ERRCODE` may hold (60_exceptions.md R901): 0 and those of the errors a command reports. `EndOfFile`,
`UpdatingClosedStreamError` and `IOError` are never reported (R904, R905, R906). -/
def reportedCodes : List Byte :=
  [0x00, 0x02, 0x10, 0x11, 0x12, 0x13, 0x14, 0x15, 0x16, 0x17, 0x18, 0x19, 0x20, 0x21, 0x22, 0x23] ++
  [0x24, 0x25, 0x26, 0x28, 0x29, 0x30, 0x38, 0x39, 0x40, 0x41, 0x50, 0x51, 0x52]

/-- One space: its memory is canonical and within its size (10_state.md R140). -/
def Spaces.okAt (c : Config) (m : Spaces) (sp : Space) : Prop :=
  Memory.wf (m.get sp) ∧ Memory.below (m.get sp) (sp.cap c)

/-- Every space. -/
def Spaces.ok (c : Config) (m : Spaces) : Prop := ∀ sp, m.okAt c sp

/-- `IN_LEN` and `OUT_LEN` stay within their spaces (10_state.md R126, R128). -/
def State.lengthsOk (s : State) : Prop := s.cnt.inLen.toNat ≤ s.cfg.inCap ∧ s.cnt.outLen.toNat ≤ s.cfg.outCap

/-- The status register and what goes with it (10_state.md R107-R110, 60_exceptions.md R930, R931): while busy, no result
is shown; while idle, no pipeline is active; `DONE` and `ERR` exclude each other; after success no error is latched; OP is
the opcode of the last accepted word; `ERRCODE` is a code that is reported. -/
structure StatusOk (s : State) : Prop where
  busy : s.status.busy = true → s.status.done = false ∧ s.status.err = false ∧ s.errCode = 0 ∧ s.errInfo = 0
  idle : s.status.busy = false → s.status.pipeActive = false
  running : s.status.busy = true → s.status.pipeActive = pipeActiveOf s.cmd
  exclusive : ¬(s.status.done = true ∧ s.status.err = true)
  success : s.status.done = true → s.errCode = 0 ∧ s.errInfo = 0
  op : s.status.op = opcodeOf s.cmd
  code : s.errCode ∈ reportedCodes
  reset : s.inReset = true → s.status.busy = false

/-- The decode sequencer (10_state.md R165, 44_decode.md R650): what a stage reads is closed before the stage may run,
and PAL holds at most 256 entries, unless a failure left the counts unspecified. -/
structure DecodeOk (s : State) : Prop where
  stage : s.dec.state = .chunks → s.str.stage.closed = true
  infl : s.dec.state = .inflated → s.str.infl.closed = true
  palette : s.dec.state ≠ .failed → s.dec.palCount.toNat ≤ 256 ∧ s.dec.trnsCount.toNat ≤ 256

/-- The invariant of the machine's states. -/
structure Inv (s : State) : Prop where
  cfg : s.cfg.wf = true
  spaces : s.mem.ok s.cfg
  lengths : s.lengthsOk
  status : StatusOk s
  decode : DecodeOk s

/-- A step that does not stop with a fault. -/
def safeStep (s : State) : Prop := ∀ f, step s ≠ .fault f

/-! ## Terms of the claims -/

/-- IN holds `v` from `IN_POS` on, below `IN_LEN` (20_memory.md R211). -/
def State.inHolds (s : State) (v : Bytes) : Prop :=
  v.length ≤ inAvail s ∧ s.mem.inp.readBytes s.cnt.inPos.toNat v.length = v

/-- `IN_POS` advanced by `n`. -/
def State.afterIn (s : State) (n : Nat) : State := { s with cnt.inPos := s.cnt.inPos + BitVec.ofNat 32 n }

/-- OUT has room for `n` more bytes at `OUT_LEN` (20_memory.md R213). -/
def State.outFits (s : State) (n : Nat) : Prop := s.cnt.outLen.toNat + n ≤ s.cfg.outCap

/-- `v` written to OUT at `OUT_LEN`, and `OUT_LEN` advanced (20_memory.md R213). -/
def State.afterOut (s : State) (v : Bytes) : State :=
  { s.setSpace .outp (s.mem.outp.writeBytes s.cnt.outLen.toNat v) with
    cnt.outLen := s.cnt.outLen + BitVec.ofNat 32 v.length }

/-- The image registers name a legal format with the one filter method (00_scope.md R17, 42_filter.md R545). -/
def ImgRegs.formatOk (r : ImgRegs) : Prop := legalPair r.colorType r.bitDepth = true ∧ r.filter = 0

/-- The image registers pass the header checks (44_decode.md R666). -/
def ImgRegs.headerOk (r : ImgRegs) : Prop := r.width ≠ 0 ∧ r.height ≠ 0 ∧ r.formatOk ∧ r.compression = 0

/-- Every sub-byte sample of a raw image is below `2^bitDepth` (43_adam7.md R604). -/
def samplesFit (bitDepth : Byte) (raw : Bytes) : Prop :=
  bitDepth.toNat < 8 → ∀ b ∈ raw, b.toNat < 2 ^ bitDepth.toNat

/-- The filtered stream of a raw image (30_encoding.md R332): what the interlacer-filter writes. -/
def filteredStream (rowCap : Nat) (r : ImgRegs) (raw : Bytes) (u : FilterUnit) : Bytes :=
  (interlacePixels rowCap r.format r.interlace raw r.width.toNat r.height.toNat r.level u).lines.flatten

/-- A stream that has had `v` written to it and is closed (20_memory.md R213, R215). -/
def Stream.holding (v : Bytes) (rpos : Nat) : Stream :=
  { readable := v, rpos := rpos, staged := [], closed := true, total := v.length }

/-- Byte `i` of RAW for pixel number `k` (10_state.md R144). -/
def State.rawByte (s : State) (k i : Nat) : Nat := (s.mem.raw.read (k * s.img.format.ups + i)).toNat

/-- Sample `j` of pixel number `k` in RAW: a big-endian 16-bit value, or the low `bitDepth` bits of a byte (10_state.md
R144; that higher bits of the byte do not count is the model's choice, log 32). -/
def State.sample (s : State) (k j : Nat) : Nat :=
  if s.img.bitDepth = 16 then s.rawByte k (2 * j) * 256 + s.rawByte k (2 * j + 1)
  else s.rawByte k j % 2 ^ s.img.bitDepth.toNat

/-- The divisor `M` of the components (44_decode.md R700, 10_state.md R125). -/
def ImgRegs.divisor (r : ImgRegs) : Nat := if r.colorType = 3 then 255 else 2 ^ r.bitDepth.toNat - 1

/-- The four components of pixel number `k`, colour type by colour type (44_decode.md R700). -/
def State.components (s : State) (k : Nat) : List Nat :=
  let m := s.img.divisor
  let pal := fun i => (s.mem.pal.read (4 * s.sample k 0 + i)).toNat
  if s.img.colorType = 0 then [s.sample k 0, s.sample k 0, s.sample k 0, m]
  else if s.img.colorType = 2 then [s.sample k 0, s.sample k 1, s.sample k 2, m]
  else if s.img.colorType = 3 then [pal 0, pal 1, pal 2, pal 3]
  else if s.img.colorType = 4 then [s.sample k 0, s.sample k 0, s.sample k 0, s.sample k 1]
  else [s.sample k 0, s.sample k 1, s.sample k 2, s.sample k 3]

/-- The eight bytes of PIX for pixel number `k`: each component high byte first (10_state.md R147). -/
def State.expectedPixel (s : State) (k : Nat) : Bytes :=
  (s.components k).flatMap fun c => [BitVec.ofNat 8 (c / 256), BitVec.ofNat 8 (c % 256)]

/-- All of PIX for the image of the registers (44_decode.md R700, 10_state.md R147). -/
def State.expectedPix (s : State) : Bytes := (List.range s.img.pixels).flatMap s.expectedPixel

/-- Every palette index of the image is below `PAL_COUNT` (44_decode.md R700). -/
def State.indicesOk (s : State) : Prop :=
  s.img.colorType = 3 →
    s.dec.palCount.toNat ≤ 256 ∧ ∀ k < s.img.pixels, s.sample k 0 < s.dec.palCount.toNat

/-! What a filtered stream is, row by row and pass by pass, without reference to the engine's loops. -/

/-- Packed row `y` of a raw image of width `w` (42_filter.md R508, R530). -/
def packedRow (f : Format) (w : Nat) (raw : Bytes) (y : Nat) : Bytes :=
  let row := slice raw (y * w * f.ups) (w * f.ups)
  if f.pixelBits < 8 then pack row w f.pixelBits else row

/-- The prior row of row `y`: zeros for the first (42_filter.md R530). -/
def priorRow (f : Format) (w : Nat) (raw : Bytes) (y : Nat) : Bytes :=
  if y = 0 then zeros (f.rowBytes w) else packedRow f w raw (y - 1)

/-- `lines` are the scanlines of a raw sub-image at a level: each is the type byte of the filter that `Select` picks for
the row, and the row filtered so (42_filter.md R530, R540). -/
structure IsFiltered (f : Format) (level : Byte) (w h : Nat) (raw : Bytes) (lines : List Bytes) : Prop where
  count : lines.length = h
  line : ∀ y < h, ∃ ft,
    selectFilter level f.bpp (packedRow f w raw y) (priorRow f w raw y) = some ft ∧
    lines[y]? = some (ft.code :: filt ft f.bpp (packedRow f w raw y) (priorRow f w raw y))

/-- `row` is what reconstruction makes of the bytes `body` with filter `ft` and prior row `pr` (42_filter.md R501, R504). -/
def IsReconstructed (ft : FilterType) (bpp : Nat) (body pr row : Bytes) : Prop :=
  row.length = body.length ∧
  ∀ i < body.length,
    byteAt row i =
      byteAt body i +
        predictor ft (if bpp ≤ i then byteAt row (i - bpp) else 0) (byteAt pr i)
          (if bpp ≤ i then byteAt pr (i - bpp) else 0)

/-- `lines` are scanlines, each of any of the five filter types, that unfilter to the raw sub-image (42_filter.md R510). -/
def IsUnfiltered (f : Format) (w h : Nat) (lines : List Bytes) (raw : Bytes) : Prop :=
  ∃ rows : List Bytes,
    lines.length = h ∧ rows.length = h ∧
    raw = rows.flatMap (fun r => if f.pixelBits < 8 then unpack r w f.pixelBits else r) ∧
    ∀ y < h, ∃ ft body row,
      lines[y]? = some (ft.code :: body) ∧ rows[y]? = some row ∧ body.length = f.rowBytes w ∧
      IsReconstructed ft f.bpp body (if y = 0 then zeros (f.rowBytes w) else rows.getD (y - 1) []) row

/-- Pass `p` has no pixel (43_adam7.md R602, R603). -/
def passEmpty (p w h : Nat) : Prop := passW p w = 0 ∨ passH p h = 0

/-- `sub` holds the pixels of pass `p` of a raw image (43_adam7.md R600, R602, R603). -/
def IsPass (f : Format) (p w h : Nat) (raw sub : Bytes) : Prop :=
  sub.length = passW p w * passH p h * f.ups ∧
  ∀ px < passW p w, ∀ py < passH p h,
    slice sub ((py * passW p w + px) * f.ups) f.ups =
      slice raw (((startRow p + py * rowStride p) * w + (startCol p + px * colStride p)) * f.ups) f.ups

/-- `lines` are the scanlines that interlace method `m` gives for a raw image at a level (43_adam7.md R601, R603). -/
def IsInterlaced (f : Format) (m level : Byte) (w h : Nat) (raw : Bytes) (lines : List Bytes) : Prop :=
  (m = 0 ∧ IsFiltered f level w h raw lines) ∨
  (m = 1 ∧ ∃ (sub : Nat → Bytes) (part : Nat → List Bytes),
    lines = [0, 1, 2, 3, 4, 5, 6].flatMap part ∧
    ∀ p < 7,
      (passEmpty p w h → part p = []) ∧
      (¬passEmpty p w h →
        IsPass f p w h raw (sub p) ∧ IsFiltered f level (passW p w) (passH p h) (sub p) (part p)))

/-- `lines` are scanlines, of any filter types, that interlace method `m` makes the raw image of (43_adam7.md R601,
R602). -/
def IsDeinterlaced (f : Format) (m : Byte) (w h : Nat) (lines : List Bytes) (raw : Bytes) : Prop :=
  (m = 0 ∧ IsUnfiltered f w h lines raw) ∨
  (m = 1 ∧ raw.length = w * h * f.ups ∧ ∃ (sub : Nat → Bytes) (part : Nat → List Bytes),
    lines = [0, 1, 2, 3, 4, 5, 6].flatMap part ∧
    ∀ p < 7,
      (passEmpty p w h → part p = []) ∧
      (¬passEmpty p w h →
        IsPass f p w h raw (sub p) ∧ IsUnfiltered f (passW p w) (passH p h) (part p) (sub p)))

/-- Every row that the method filters fits the row buffers (42_filter.md R510, R530). -/
def rowsFit (rowCap : Nat) (f : Format) (m : Byte) (w h : Nat) : Prop :=
  (m = 0 → 0 < h → f.rowBytes w ≤ rowCap) ∧
  (m = 1 → ∀ p < 7, ¬passEmpty p w h → f.rowBytes (passW p w) ≤ rowCap)

/-- `p` is the first pass with a row that does not fit the row buffers (42_filter.md R510, R530, 43_adam7.md R602, R603). -/
def IsWidePass (rowCap : Nat) (f : Format) (w h p : Nat) : Prop :=
  p < 7 ∧ ¬passEmpty p w h ∧ rowCap < f.rowBytes (passW p w) ∧
  ∀ q < p, ¬passEmpty q w h → f.rowBytes (passW q w) ≤ rowCap

/-- `lines` are scanlines, each of any of the five filter types, of the passes before pass `p` (43_adam7.md R602). -/
def IsPassesBefore (f : Format) (w h p : Nat) (lines : List Bytes) : Prop :=
  ∃ part : Nat → List Bytes,
    lines = (List.range p).flatMap part ∧
    ∀ q < p,
      (passEmpty q w h → part q = []) ∧
      (¬passEmpty q w h →
        (part q).length = passH q h ∧
        ∀ l ∈ part q, ∃ (ft : FilterType) (body : Bytes), l = ft.code :: body ∧ body.length = f.rowBytes (passW q w))

/-- The bytes that the scanlines of the passes before pass `p` take (43_adam7.md R603, 42_filter.md R531). -/
def bytesBefore (f : Format) (w h p : Nat) : Nat :=
  ((List.range p).map fun q => if passW q w = 0 ∨ passH q h = 0 then 0 else passH q h * (1 + f.rowBytes (passW q w))).sum

/-- The first check that fails of UNFILTER, FILTER, DEINTERLACE or INTERLACE (42_filter.md R520, R545, R550, 43_adam7.md
R610, R620): whether the command looks at the interlace method and at the level, and the capacity of RAW. -/
def State.filterError (s : State) (interlace level : Bool) : Option (Err × Word) :=
  if s.img.bitDepth ∉ ([1, 2, 4, 8, 16] : List Byte) then some (.invalidBitDepth, 0)
  else if s.img.colorType ∉ ([0, 2, 3, 4, 6] : List Byte) then some (.invalidColorType, 0)
  else if legalPair s.img.colorType s.img.bitDepth = false then some (.invalidBitDepth, 0)
  else if s.img.filter ≠ 0 then some (.unknownFilterMethod, 0)
  else if interlace = true ∧ 1 < s.img.interlace.toNat then some (.unknownInterlaceMethod, 0)
  else if level = true ∧ 3 < s.img.level.toNat then some (.unknownCompressionLevel, 0)
  else if s.cfg.rawCap < s.img.width.toNat * s.img.height.toNat * s.img.format.ups then some (.capacityExceeded, 3)
  else none

/-- The first of the header checks that fails (44_decode.md R666). -/
def State.headerError (s : State) : Option Err :=
  if s.img.width = 0 ∨ s.img.height = 0 then some .invalidImageSize
  else if s.img.bitDepth ∉ ([1, 2, 4, 8, 16] : List Byte) then some .invalidBitDepth
  else if s.img.colorType ∉ ([0, 2, 3, 4, 6] : List Byte) then some .invalidColorType
  else if legalPair s.img.colorType s.img.bitDepth = false then some .invalidBitDepth
  else if s.img.compression ≠ 0 then some .unknownCompressionMethod
  else if s.img.filter ≠ 0 then some .unknownFilterMethod
  else none

/-! The layouts of the text and time chunks (44_decode.md R686). -/

/-- The first `0x00` at or after `a` is at `k` (20_memory.md R207). -/
def IsFirstNul (data : Bytes) (a k : Nat) : Prop :=
  a ≤ k ∧ data[k]? = some 0 ∧ ∀ j, a ≤ j → j < k → data[j]? ≠ some 0

/-- The keyword has 1 to 79 bytes and its `0x00` is at `k`. -/
def IsKeywordEnd (data : Bytes) (k : Nat) : Prop := IsFirstNul data 0 k ∧ 1 ≤ k ∧ k ≤ 79

/-- The data of a `tEXt` (0x74455874), `zTXt` (0x7A545874), `iTXt` (0x69545874) or `tIME` (0x74494D45) chunk has the
layout its type asks for. -/
def hasLayout (typ : Word) (data : Bytes) : Prop :=
  (typ = 0x74455874 → ∃ k, IsKeywordEnd data k) ∧
  (typ = 0x7A545874 → ∃ k, IsKeywordEnd data k ∧ k + 2 ≤ data.length) ∧
  (typ = 0x69545874 →
    ∃ k l m, IsKeywordEnd data k ∧ k + 3 ≤ data.length ∧ IsFirstNul data (k + 3) l ∧ l < m ∧ data[m]? = some 0) ∧
  (typ = 0x74494D45 →
    data.length = 7 ∧ 1 ≤ (byteAt data 2).toNat ∧ (byteAt data 2).toNat ≤ 12 ∧
    1 ≤ (byteAt data 3).toNat ∧ (byteAt data 3).toNat ≤ 31 ∧ (byteAt data 4).toNat ≤ 23 ∧
    (byteAt data 5).toNat ≤ 59 ∧ (byteAt data 6).toNat ≤ 60)

/-- The four bytes `len`, `type`, the data and the four bytes of a CRC, right or wrong (30_encoding.md R321). -/
def rawChunk (typ : Word) (data : Bytes) (crc : Word) : Bytes := be32Len data.length ++ be32 typ ++ data ++ be32 crc

/-- The state after `n` turns of the chunk loop that go on; `none` when one of them does not (44_decode.md R660). -/
def chunkTurns : Nat → State → Option State
  | 0, s => some s
  | n + 1, s =>
    match decChunksStep s with
    | .ok false t => chunkTurns n t
    | .ok true _ | .raised _ _ _ | .stuck _ | .refuse _ => none

/-- The state after commands that run one after the other and all finish; `none` when one fails, which `failed` says of the
state it leaves, or stops (44_decode.md R720, 45_encode.md R804). -/
def runInTurn (failed : State → Bool) : List Instr → State → Option State
  | [], s => some s
  | i :: rest, s =>
    match exec i s with
    | .next t => if failed t then none else runInTurn failed rest t
    | .fault _ => none
    | .refused _ => none

/-- The DEC.* commands in their order (44_decode.md R650). -/
def decodeStages : List Instr := [.decHeader, .decChunks, .decInflate, .decPixels, .decExpand]

/-- The ENC.* commands in their order (45_encode.md R750). -/
def encodeStages : List Instr := [.encValidate, .encHeader, .encData, .encTrailer]

/-- The first check of `EncValidate()` that fails, in order (45_encode.md R751, R752). -/
def State.validationError (s : State) : Option (Err × Word) :=
  if s.img.width = 0 ∨ s.img.height = 0 then some (.invalidImageSize, 0)
  else if s.img.bitDepth ∉ ([1, 2, 4, 8, 16] : List Byte) then some (.invalidBitDepth, 0)
  else if s.img.colorType ∉ ([0, 2, 3, 4, 6] : List Byte) then some (.invalidColorType, 0)
  else if legalPair s.img.colorType s.img.bitDepth = false then some (.invalidBitDepth, 0)
  else if s.img.colorType = 3 ∧ s.enc.palCount = 0 then some (.paletteNotFound, 0)
  else if s.img.colorType = 3 ∧ min 256 (2 ^ s.img.bitDepth.toNat) < s.enc.palCount.toNat then
    some (.invalidPaletteSize, 0)
  else if 256 < s.enc.palCount.toNat then some (.invalidPaletteSize, 0)
  else if s.enc.maxIdat = 0 then some (.invalidChunkSplitSize, 0)
  else if 1 < s.img.interlace.toNat then some (.unknownInterlaceMethod, 0)
  else if 3 < s.img.level.toNat then some (.unknownCompressionLevel, 0)
  else if s.cfg.rawCap < s.img.width.toNat * s.img.height.toNat * s.img.format.ups then some (.capacityExceeded, 3)
  else none

/-- The signature and the chunks ENC.HEADER appends, one after the other (45_encode.md R760). -/
def State.headerChunks (s : State) : List Bytes :=
  let n := s.enc.palCount.toNat
  let t := opaqueFrom s.mem.pal n
  [pngSignature, chunkBytes typeIHDR (ihdrData s.img)] ++
    (if s.img.colorType = 3 then
      chunkBytes typePLTE (plteData s.mem.pal n) ::
        (if s.enc.emitAlpha = true ∧ 0 < t then [chunkBytes typeTRNS (trnsData s.mem.pal t)] else [])
    else [])

/-- The bytes ENC.HEADER appends. -/
def State.headerBytes (s : State) : Bytes := s.headerChunks.flatten

/-- The `IDAT` chunks of a deflated stream cut into pieces of `m` bytes (45_encode.md R782). -/
def idatBytes (m : Nat) (d : Bytes) : Bytes := (d.toChunks m).flatMap (chunkBytes typeIDAT)

/-- The filtered stream of the image of the registers. -/
def State.encFiltered (s : State) : Bytes :=
  filteredStream s.cfg.rowCap s.img (s.mem.raw.readBytes 0 s.img.rawBytes) s.flt

/-- The deflated stream of the image of the registers (45_encode.md R780). -/
def State.encDeflated (s : State) : Bytes :=
  Config.deflateOf s.cfg s.encFiltered (Config.zlibLevel s.cfg s.img.level)

/-- `EncData()` can run to its end on the operands (45_encode.md R780). -/
structure EncDataFits (s : State) : Prop where
  legal : legalPair s.img.colorType s.img.bitDepth = true
  interlace : s.img.interlace.toNat ≤ 1
  level : s.img.level.toNat ≤ 3
  raw : s.img.rawBytes ≤ s.cfg.rawCap
  row : s.img.format.rowBytes s.img.width.toNat ≤ s.cfg.rowCap
  zlib : s.cfg.zlibPresent = true
  filt : s.encFiltered.length ≤ s.cfg.filtCap
  defl : s.encDeflated.length ≤ s.cfg.deflCap
  split : s.enc.maxIdat ≠ 0

/-- What `EncData()` leaves, but for the filter engine's registers `u` (45_encode.md R780, R782). -/
def State.afterData (s : State) (u : FilterUnit) : State :=
  let d := s.encDeflated
  let m := s.enc.maxIdat.toNat
  { s.afterOut (idatBytes m d) with
    flt := u
    str := { s.str with filt := .holding s.encFiltered s.encFiltered.length, defl := .holding d d.length }
    cnt :=
      { (s.afterOut (idatBytes m d)).cnt with
        filtLen := BitVec.ofNat 32 s.encFiltered.length
        deflLen := BitVec.ofNat 32 d.length
        idatCount := BitVec.ofNat 32 (d.toChunks m).length }
    enc.placed := d.length
    enc.state := .data }

end Sys2Proof.Machine
end

