-- ==== Sys2Proof/Certificates/Slice0/Obligations.lean ====
section
/-! DEFINITION. The statements about the block, one `def Obligations.<Name> : Prop` each. The result of a command is
stated as the whole next state: a record update names everything that changes, so everything it does not name is
unchanged, every byte of every space included. -/

open Sys2Proof Sys2Proof.Machine
open Host (Outcome)

/-! ## Reset and the host interface -/

/-- 70_reset_and_hazards.md R1000: the state after reset, register by register, and the hidden state. (The contents of the
spaces and the row buffers are the model's choice: log 4, log 5; nothing is claimed of them.) -/
def Obligations.ResetValues : Prop :=
  (∀ r : Reg, State.reset.readReg r =
    match r with
    | .id => 0x504E4743
    | .version => 0x00000007
    | .ctrl => 0x00000001
    | .encMaxIdat => 0xFFFFFFFF
    | _ => 0) ∧
  State.reset.str = { stage := .fresh, infl := .fresh, filt := .fresh, defl := .fresh } ∧
  State.reset.flt.fstate = .idle ∧ State.reset.flt.row = 0 ∧ State.reset.flt.pass = 0 ∧
  State.reset.enc.placed = 0 ∧ State.reset.irq = false

/-- 70_reset_and_hazards.md R1003, R1000, R1002: reset asserted in any state, and so while a command runs, abandons the
command: it neither finishes nor fails, no error is recorded, and after release every register has its reset value and the
spaces hold whatever the release brings. That the flags and `ERRCODE` are cleared at assertion already, those of an idle
block included, is the model's reading (log 27), and that the release brings the contents of the spaces is the model's
choice (log 4). -/
def Obligations.ResetAbandonsCommand : Prop :=
  ∀ (s : State) (contents : Spaces) (rest : List HostEvent),
    contents.ok s.cfg →
    s.port.inbox = .resetAssert :: .resetRelease contents :: rest →
    ∃ t u, step s = .next t ∧ t.inReset = true ∧ t.status.busy = false ∧ t.status.done = false ∧
      t.status.err = false ∧ t.errCode = 0 ∧
      step t = .next u ∧ u.inReset = false ∧ (∀ r, u.readReg r = State.reset.readReg r) ∧
      u.str = State.reset.str ∧ u.flt.fstate = .idle ∧ u.flt.row = 0 ∧ u.flt.pass = 0 ∧ u.enc.placed = 0 ∧
      u.mem = contents ∧ u.cfg = s.cfg ∧ u.port.inbox = rest

/-- 10_state.md R102: a reserved offset reads 0 and ignores writes; a reserved bit reads 0 and ignores writes; a write to a
read-only register or to a read-only field (`STATUS` but for its W1C bits 1 to 3) is ignored. -/
def Obligations.ReservedAndReadOnly : Prop :=
  (∀ (s : State) (off : Nat) (v : Word), Reg.ofOffset off = none →
    s.windowWrite off v = s ∧ (s.windowRead off).port.readData = 0) ∧
  (∀ (s : State) (r : Reg), s.readReg r &&& ~~~r.mask = 0) ∧
  (∀ (s : State) (r : Reg) (v : Word),
    r ∈ ([.id, .version, .errcode, .errinfo, .crcOut, .chFlags, .imgDerived, .encStatus, .decStatus, .palCount,
      .trnsCount, .pixMax, .stageLen, .inflLen, .filtLen, .deflLen, .rawLen, .pixLen, .metaLen, .metaCount,
      .idatCount] : List Reg) →
    s.windowWrite r.offset v = s) ∧
  (∀ (s : State) (r : Reg) (v : Word), s.windowWrite r.offset (v &&& r.mask) = s.windowWrite r.offset v) ∧
  (∀ (s : State) (v : Word),
    s.windowWrite Reg.status.offset (v &&& 0x0000000E) = s.windowWrite Reg.status.offset v)

/-- 10_state.md R104, R106, R111-R120, R126-R128: a write to a read-write register of the idle block is read back in the
register's implemented bits (`IN_LEN` and `OUT_LEN` store the lesser of the value and the space's size), and no other
register changes but the two that are computed from the written one. -/
def Obligations.RegisterReadBack : Prop :=
  ∀ (s : State) (r q : Reg) (v : Word),
    s.cfg.wf = true → s.status.busy = false →
    r ∈ ([.ctrl, .crcIn, .crcVal, .crcOff, .crcLen, .chLength, .chType, .chCrc, .imgWidth, .imgHeight, .imgFormat,
      .imgMode, .encPalCount, .encCfg, .encMaxIdat, .inLen, .inPos, .outLen] : List Reg) →
    (s.hostWrite r v).readReg r =
      (if r = .inLen then BitVec.ofNat 32 (min v.toNat s.cfg.inCap)
       else if r = .outLen then BitVec.ofNat 32 (min v.toNat s.cfg.outCap)
       else v &&& r.mask) ∧
    (q ≠ r → ¬(r = .chType ∧ q = .chFlags) → ¬(r = .imgFormat ∧ q = .imgDerived) →
      (s.hostWrite r v).readReg q = s.readReg q) ∧
    (s.hostWrite r v).mem = s.mem

/-- 10_state.md R113, R117, 00_scope.md R17: the two registers that are computed, in every state: `CH_FLAGS` from
`CH_TYPE`, and `IMG_DERIVED` from `IMG_FORMAT`: samples per pixel, pixel bits, their bytes and the mark of a legal pair, or
0 where the pair is not legal. -/
def Obligations.ComputedRegisters : Prop :=
  ∀ s : State,
    let ct := s.img.colorType.toNat
    let bd := s.img.bitDepth.toNat
    let spp := if ct = 0 ∨ ct = 3 then 1 else if ct = 2 then 3 else if ct = 4 then 2 else 4
    let legal :=
      (ct = 0 ∧ bd ∈ [1, 2, 4, 8, 16]) ∨ (ct = 3 ∧ bd ∈ [1, 2, 4, 8]) ∨ (ct ∈ [2, 4, 6] ∧ bd ∈ [8, 16])
    (∀ i : Nat, (s.readReg .chFlags).getLsbD i =
      (if i = 0 then s.ch.type.getLsbD 29
       else if i = 1 then s.ch.type.getLsbD 21
       else if i = 2 then s.ch.type.getLsbD 13
       else if i = 3 then s.ch.type.getLsbD 5
       else false)) ∧
    (legal →
      (s.readReg .imgDerived).toNat =
        spp + 256 * (spp * bd) + 65536 * ((spp * bd + 7) / 8) + 16777216) ∧
    (¬legal → s.readReg .imgDerived = 0)

/-- 10_state.md R107: a write to `STATUS`, busy or idle, clears DONE, ERR and CMD_LOST where it has a 1, and changes
nothing else. -/
def Obligations.StatusWriteOneToClear : Prop :=
  ∀ (s : State) (v : Word),
    s.regWrite .word 0x00C v =
      .next { s with
        status.done := s.status.done && !v.getLsbD 1
        status.err := s.status.err && !v.getLsbD 2
        status.cmdLost := s.status.cmdLost && !v.getLsbD 3 }

/-- 10_state.md R108: a write to `CMD` of the idle block is accepted; and it clears `irq` (60_exceptions.md R945). -/
def Obligations.CommandAcceptance : Prop :=
  ∀ (s : State) (w : Word), s.status.busy = false →
    ∃ t, s.regWrite .word 0x010 w = .next t ∧
      t = { s with
        cmd := w, errCode := 0, errInfo := 0, status.busy := true, status.done := false, status.err := false,
        status.op := w.extractLsb' 0 8, status.pipeActive := pipeActiveOf w } ∧
      (pipeActiveOf w = true ↔ w = 0x14F ∨ w = 0x15F) ∧
      t.readReg .cmd = w ∧ t.irq = false

/-- 10_state.md R103, R108, 70_reset_and_hazards.md R1027: while busy, a host write to any register but `STATUS` and `CMD`
changes nothing, and a `CMD` write is dropped: it sets `STATUS.CMD_LOST` and has no other effect. -/
def Obligations.BusyWrites : Prop :=
  ∀ (s : State) (v : Word), s.status.busy = true →
    (∀ r : Reg, r ≠ .status → r ≠ .cmd → s.regWrite .word r.offset v = .next s) ∧
    s.regWrite .word 0x010 v = .next { s with status.cmdLost := true }

/-- 10_state.md R102, R103, 20_memory.md R208, 70_reset_and_hazards.md R1021: a host read of an idle block gives the
register's value. While a command runs, a register the command does not write reads its value, `STATUS`, `CMD`, `ERRCODE`
and `ERRINFO` among them, and so does every register while an illegal word waits; `CRC_OUT` is written by a decode command
only when `CTRL.CRC_CHECK_EN` is 1 (44_decode.md R662); in a pipelined DECODE, `DEC_STATE` reads D_IDLE or D_HEADER. Which
registers a command writes (`resultRegs`), and that the free value read from one of them stays in the register's
implemented bits, is the model's reading (log 13). No read changes anything else. 30_encoding.md R306, 60_exceptions.md R930:
whether it finishes or fails, a command leaves every register but `STATUS`, `ERRCODE`, `ERRINFO` and those it writes. -/
def Obligations.HostRegisterReads : Prop :=
  (∀ (en : Bool) (i : Instr), i ∈ ([.decHeader, .decChunks, .decode false, .decode true] : List Instr) →
    (Reg.crcOut ∈ resultRegs en i ↔ en = true)) ∧
  (∀ (i : Instr) (s t : State) (r : Reg), exec i s = .next t → r ∉ resultRegs s.ctrl.crcCheckEn i →
    r ∉ ([.status, .errcode, .errinfo] : List Reg) → t.readReg r = s.readReg r) ∧
  ∀ (s : State) (r : Reg),
    let value := s.regRead .word r.offset = .next { s with port.readData := s.readReg r }
    (s.status.busy = false → value) ∧
    (∀ e, decode s.cmd = .error e → value) ∧
    (∀ i, s.status.busy = true → decode s.cmd = .ok i →
      (r ∉ resultRegs s.ctrl.crcCheckEn i → value) ∧
      (r ∈ ([.status, .cmd, .errcode, .errinfo] : List Reg) → r ∉ resultRegs s.ctrl.crcCheckEn i) ∧
      (∃ v k, s.regRead .word r.offset = .next { s with port.readData := v, freeIdx := k } ∧ v &&& ~~~r.mask = 0) ∧
      (i = .decode true → r = .decStatus → ∀ t, s.regRead .word r.offset = .next t → t.port.readData.toNat % 16 ≤ 1))

/-- 10_state.md R100, 60_exceptions.md R900, 92_eei_decisions.md D2: every register lies in the window at a multiple of 4;
the window takes only aligned 32-bit accesses, and every other access, one outside the window included, is refused.
20_memory.md R240: an address of the platform leads to the window or, for an access of one byte, to a space; nothing else
is addressable, and an access elsewhere is refused (the model's reading: log 14; where the platform places the two on one
address the window wins, which is the model's choice: log 26). -/
def Obligations.WindowAccesses : Prop :=
  (∀ r : Reg, r.offset < 256 ∧ r.offset % 4 = 0) ∧
  (∀ (s : State) (w : AccessWidth) (off : Nat) (v : Word),
    (256 ≤ off →
      s.regWrite w off v = .refused .outsideInterface ∧ s.regRead w off = .refused .outsideInterface) ∧
    (off < 256 → (w ≠ .word ∨ off % 4 ≠ 0) →
      s.regWrite w off v = .refused .badWindowAccess ∧ s.regRead w off = .refused .badWindowAccess) ∧
    (off < 256 → w = .word → off % 4 = 0 →
      (∃ t, s.regWrite w off v = .next t) ∧ ∃ t, s.regRead w off = .next t)) ∧
  ∀ (s : State) (w : AccessWidth) (addr : Nat) (v : Word),
    let p := s.cfg.platform
    let inWin := p.windowBase ≤ addr ∧ addr < p.windowBase + 256
    let inSpace := fun sp : Space => spaceBase p sp ≤ addr ∧ addr < spaceBase p sp + sp.cap s.cfg
    (inWin →
      s.busWrite w addr v = s.regWrite w (addr - p.windowBase) v ∧
      s.busRead w addr = s.regRead w (addr - p.windowBase)) ∧
    (∀ sp : Space, ¬inWin → w = .byte → inSpace sp → (∀ sq, sq ≠ sp → ¬inSpace sq) →
      s.busWrite w addr v = s.spaceWrite sp (addr - spaceBase p sp) (v.setWidth 8) ∧
      s.busRead w addr = s.spaceRead sp (addr - spaceBase p sp)) ∧
    (¬inWin → (w ≠ .byte ∨ ∀ sp, ¬inSpace sp) →
      s.busWrite w addr v = .refused .outsideInterface ∧ s.busRead w addr = .refused .outsideInterface)

/-- 10_state.md R140, 20_memory.md R236, 70_reset_and_hazards.md R1020: the host's byte accesses to the spaces. -/
def Obligations.SpaceAccesses : Prop :=
  ∀ (s : State) (sp : Space) (off : Nat) (v : Byte),
    s.mem.ok s.cfg →
    (off < sp.cap s.cfg → s.status.busy = false →
      (∃ t, s.spaceWrite sp off v = .next t ∧ (t.mem.get sp).read off = v ∧
        (∀ a, a ≠ off → (t.mem.get sp).read a = (s.mem.get sp).read a) ∧
        (∀ sq, sq ≠ sp → t.mem.get sq = s.mem.get sq) ∧
        t = s.setSpace sp (t.mem.get sp) ∧ t.mem.ok t.cfg) ∧
      s.spaceRead sp off = .next { s with port.readData := ((s.mem.get sp).read off).setWidth 32 }) ∧
    (off < sp.cap s.cfg → s.status.busy = true →
      s.spaceWrite sp off v = .refused .spaceWriteWhileBusy ∧
      ∃ r k, s.spaceRead sp off = .next { s with port.readData := r, freeIdx := k }) ∧
    (sp.cap s.cfg ≤ off →
      s.spaceWrite sp off v = .refused .outsideInterface ∧ s.spaceRead sp off = .refused .outsideInterface)

/-- 60_exceptions.md R945: `irq` is `CTRL.IRQ_EN & (STATUS.DONE | STATUS.ERR)` in every state; so with `IRQ_EN = 1` it is
1 whenever a command has ended, and a dropped `CMD` write does not raise it. -/
def Obligations.InterruptOutput : Prop :=
  (∀ s : State, s.irq = true ↔ (s.readReg .ctrl).getLsbD 1 = true ∧
    ((s.readReg .status).getLsbD 1 = true ∨ (s.readReg .status).getLsbD 2 = true)) ∧
  (∀ s : State, s.ctrl.irqEn = true →
    (finish s).irq = true ∧ ∀ fam e info, (errorEntry fam e info s).irq = true) ∧
  (∀ (s : State) (w : Word) (t : State), s.status.busy = true → s.regWrite .word 0x010 w = .next t → t.irq = s.irq)

/-! ## Command words -/

/-- 30_encoding.md R302, R304: words written out from the opcode map decode to their commands (a sanity statement). -/
def Obligations.DecodedWords : Prop :=
  decode 0x00000000 = .ok .nop ∧ decode 0x00000012 = .ok .crcUpd32 ∧ decode 0x00000024 = .ok .chunkSetcrc ∧
  decode 0x00000031 = .ok .filter ∧ decode 0x00000038 = .ok .deinterlace ∧ decode 0x00000044 = .ok .decExpand ∧
  decode 0x0000014F = .ok (.decode true) ∧ decode 0x0000005F = .ok (.encode false) ∧
  decode 0x00000002 = .error .reservedOpcode ∧ decode 0x00000140 = .error .pipeNotAllowed ∧
  decode 0x00010010 = .error .reservedBits

/-- 30_encoding.md R301, R302, R304: decoding and encoding agree, both ways, for every command and every word. -/
def Obligations.EncodeDecodeAgree : Prop :=
  (∀ i : Instr, decode (encode i) = .ok i) ∧ (∀ (w : Word) (i : Instr), decode w = .ok i → encode i = w)

/-- 30_encoding.md R303: which words are illegal; an illegal word that is run, at an `engine` event or with no event to come,
raises `IllegalCommand(w)`, changes nothing beyond the error entry, and changes neither `DEC_STATE` nor `ENC_STATE`. -/
def Obligations.IllegalWords : Prop :=
  (∀ w : Word, (∃ e, decode w = .error e) ↔
    (w.extractLsb' 0 8 ∉ legalOpcodes ∨ w.extractLsb' 9 23 ≠ 0 ∨
      (w.getLsbD 8 = true ∧ w.extractLsb' 0 8 ≠ 0x4F ∧ w.extractLsb' 0 8 ≠ 0x5F))) ∧
  (∀ (s : State) (e : DecodeError) (rest : List HostEvent),
    (s.port.inbox = [] ∧ rest = []) ∨ (∃ turns, s.port.inbox = .engine turns :: rest) →
    s.inReset = false → s.status.busy = true → decode s.cmd = .error e →
    ∃ t, step s = .next t ∧ t = errorEntry .other .illegalCommand s.cmd { s with port.inbox := rest } ∧
      t.errCode = 0x50 ∧ t.errInfo = s.cmd ∧ t.dec = s.dec ∧ t.enc = s.enc)

/-- 10_state.md R108, 60_exceptions.md R940: when the block is busy with a word that decodes to the command `i`, a step at
which the engine has its turn (an `engine` event, or no event to come) is `exec i`, with the event taken off the inbox and
the stage turns of the event kept for a pipelined command (log 2, log 16). The engine does nothing while the block is idle
or in reset. 10_state.md R100, R140, 20_memory.md R240, 70_reset_and_hazards.md R1000: a step at a host access is that
access, with the event taken off the inbox; while reset is asserted a write is lost, and a read gives a free value (log 15).
That host accesses and turns of the engine are events of a list is the model's choice (log 1). -/
def Obligations.StepRunsDecodedCommand : Prop :=
  (∀ (s : State) (i : Instr), s.inReset = false → s.status.busy = true → decode s.cmd = .ok i →
    (∀ turns rest, s.port.inbox = .engine turns :: rest →
      step s = exec i { s with port.inbox := rest, turns := turns }) ∧
    (s.port.inbox = [] → step s = exec i { s with turns := [] })) ∧
  (∀ s : State, s.inReset = true ∨ s.status.busy = false →
    (s.port.inbox = [] → step s = .next s) ∧
    ∀ turns rest, s.port.inbox = .engine turns :: rest → step s = .next { s with port.inbox := rest }) ∧
  ∀ (s : State) (e : HostEvent) (rest : List HostEvent), s.port.inbox = e :: rest →
    let u : State := { s with port.inbox := rest }
    let lost := ∃ v k, step s = .next { u with port.readData := v, freeIdx := k }
    (∀ w off v, e = .regWrite w off v → step s = if s.inReset then .next u else u.regWrite w off v) ∧
    (∀ sp off v, e = .spaceWrite sp off v → step s = if s.inReset then .next u else u.spaceWrite sp off v) ∧
    (∀ w addr v, e = .busWrite w addr v → step s = if s.inReset then .next u else u.busWrite w addr v) ∧
    (∀ w off, e = .regRead w off → if s.inReset then lost else step s = u.regRead w off) ∧
    (∀ sp off, e = .spaceRead sp off → if s.inReset then lost else step s = u.spaceRead sp off) ∧
    (∀ w addr, e = .busRead w addr → if s.inReset then lost else step s = u.busRead w addr)

/-! ## Error entry, completion and sequencing -/

/-- 60_exceptions.md R930: error entry, for every error of every command. It closes every internal stream, marks the
command's sequencer failed, latches the code and the information, and ends the command; nothing else changes, but that the
interleaving chosen for the command is dropped (the model's own field, log 16). A failing DEC.* or DECODE marks the decode
sequencer and leaves the encode sequencer's state, a failing ENC.* or ENCODE the other way round, and any other failing
command leaves both. -/
def Obligations.ErrorEntryEffect : Prop :=
  (∀ (fam : Family) (e : Err) (info : Word) (s : State),
    let t := errorEntry fam e info s
    (∀ i,
      (t.str.get i).closed = true ∧
      (t.str.get i).staged = (if (s.str.get i).closed then (s.str.get i).staged else []) ∧
      (t.str.get i).readable =
        (if (s.str.get i).closed then (s.str.get i).readable else (s.str.get i).readable ++ (s.str.get i).staged) ∧
      (t.str.get i).rpos = (s.str.get i).rpos ∧ (t.str.get i).total = (s.str.get i).total) ∧
    t.dec = { s.dec with state := if fam = .decode then .failed else s.dec.state } ∧
    t.enc = { s.enc with state := if fam = .encode then .failed else s.enc.state } ∧
    t.errCode = e.code ∧ t.errInfo = info ∧
    t.status = { s.status with err := true, busy := false, pipeActive := false } ∧
    t.cfg = s.cfg ∧ t.ctrl = s.ctrl ∧ t.cmd = s.cmd ∧ t.crc = s.crc ∧ t.ch = s.ch ∧ t.img = s.img ∧ t.cnt = s.cnt ∧
    t.mem = s.mem ∧ t.flt = s.flt ∧ t.inReset = s.inReset ∧ t.port = s.port ∧ t.freeIdx = s.freeIdx ∧ t.turns = []) ∧
  ∀ (i : Instr) (s t : State), s.status.err = false → exec i s = .next t → t.status.err = true →
    (∀ j, (t.str.get j).closed = true) ∧ t.status.busy = false ∧ t.status.pipeActive = false ∧ t.errCode ≠ 0 ∧
    t.status.done = s.status.done ∧
    t.dec.state =
      (if i ∈ ([.decHeader, .decChunks, .decInflate, .decPixels, .decExpand, .decode false, .decode true] : List Instr)
       then .failed else s.dec.state) ∧
    t.enc.state =
      (if i ∈ ([.encValidate, .encHeader, .encData, .encTrailer, .encode false, .encode true] : List Instr)
       then .failed else s.enc.state)

/-- 44_decode.md R709, 45_encode.md R799: a DEC.* or ENC.* command in another sequencer state than its own raises
`SequenceError` with the state found, and changes nothing before the error entry; DEC.HEADER, DECODE, ENC.VALIDATE and
ENCODE run in every state, and alike. -/
def Obligations.SequenceErrors : Prop :=
  (∀ (s : State) (d : DecState) (e : EncState) (pipe : Bool),
    exec .decHeader { s with dec.state := d } = exec .decHeader s ∧
    exec (.decode pipe) { s with dec.state := d } = exec (.decode pipe) s ∧
    exec .encValidate { s with enc.state := e } = exec .encValidate s ∧
    exec (.encode pipe) { s with enc.state := e } = exec (.encode pipe) s) ∧
  (∀ (s : State) (i : Instr) (need : DecState),
    (i, need) ∈ ([(.decChunks, .header), (.decInflate, .chunks), (.decPixels, .inflated), (.decExpand, .pixels)] :
      List (Instr × DecState)) →
    s.dec.state ≠ need →
    ∃ t, exec i s = .next t ∧ t = errorEntry .decode .sequenceError (s.dec.state.code.setWidth 32) s ∧
      t.errCode = 0x52 ∧ t.dec.state = .failed) ∧
  ∀ (s : State) (i : Instr) (need : EncState),
    (i, need) ∈ ([(.encHeader, .valid), (.encData, .header), (.encTrailer, .data)] : List (Instr × EncState)) →
    s.enc.state ≠ need →
    ∃ t, exec i s = .next t ∧ t = errorEntry .encode .sequenceError (s.enc.state.code.setWidth 32) s ∧
      t.errCode = 0x52 ∧ t.enc.state = .failed

/-- 70_reset_and_hazards.md R1023: a host write that changes an encode configuration register of a staged encode makes
every later ENC.HEADER, ENC.DATA and ENC.TRAILER of it refused. The model holds the fact as the mark `enc.configChanged`
(log 11): such a write sets it; every step keeps it, but a step that runs an ENC.VALIDATE or an ENCODE whose validation
passes, and a reset; and in every state that has it, the ENC.* command that the encode state allows is refused. -/
def Obligations.ChangedEncodeConfigRefused : Prop :=
  (∀ (s : State) (r : Reg) (v : Word), s.status.busy = false →
    r ∈ ([.imgWidth, .imgHeight, .imgFormat, .imgMode, .encPalCount, .encCfg, .encMaxIdat] : List Reg) →
    (s.hostWrite r v).readReg r ≠ s.readReg r →
    s.enc.state ∈ ([.valid, .header, .data] : List EncState) →
    (s.hostWrite r v).enc.configChanged = true ∧ (s.hostWrite r v).enc.state = s.enc.state) ∧
  (∀ s t : State, s.enc.configChanged = true → step s = .next t →
    t.enc.configChanged = true ∨
    (∃ rest, s.port.inbox = .resetAssert :: rest) ∨ (∃ c rest, s.port.inbox = .resetRelease c :: rest) ∨
    (s.status.busy = true ∧ s.validationError = none ∧
      (decode s.cmd = .ok .encValidate ∨ ∃ pipe, decode s.cmd = .ok (.encode pipe)))) ∧
  ∀ s : State, s.enc.configChanged = true →
    (s.enc.state = .valid → exec .encHeader s = .refused .encodeConfigChanged) ∧
    (s.enc.state = .header → exec .encData s = .refused .encodeConfigChanged) ∧
    (s.enc.state = .data → exec .encTrailer s = .refused .encodeConfigChanged)

/-! ## System commands -/

/-- 46_system.md R850, R851, 60_exceptions.md R931: NOP only completes; CLEAR resets the sequencers, the counters, the
streams, the filter FSM and CMD_LOST, and changes no space and no operand or configuration register. That the row buffers,
the encoder's hidden count (log 22) and the mark of a changed encode configuration survive CLEAR is the model's reading
(log 29). -/
def Obligations.SystemCommands : Prop :=
  ∀ s : State,
    exec .nop s =
      .next { s with status.done := true, status.busy := false, status.pipeActive := false, turns := [] } ∧
    exec .clear s =
      .next { s with
        dec :=
          { state := .idle, seenPlte := false, seenTrns := false, seenIdat := false, seenIend := false,
            palCount := 0, trnsCount := 0, pixMax := 0 }
        enc.state := .idle
        cnt :=
          { inLen := s.cnt.inLen, inPos := s.cnt.inPos, outLen := s.cnt.outLen, stageLen := 0, inflLen := 0,
            filtLen := 0, deflLen := 0, rawLen := 0, pixLen := 0, metaLen := 0, metaCount := 0, idatCount := 0 }
        str := { stage := .fresh, infl := .fresh, filt := .fresh, defl := .fresh }
        flt.fstate := .idle, flt.row := 0, flt.pass := 0
        status.cmdLost := false, status.done := true, status.busy := false, status.pipeActive := false
        turns := [] }

/-! ## CRC unit -/

/-- 40_crc.md R410, R420, R421: CRC.CALC, CRC.UPD and CRC.UPD32 write `CRC_OUT` and nothing else; a range that passes the
end of DBUF raises `CapacityExceeded(2)` and leaves `CRC_OUT`. -/
def Obligations.CrcResults : Prop :=
  ∀ s : State,
    (s.crc.off.toNat + s.crc.len.toNat ≤ s.cfg.dbufCap →
      exec .crcCalc s =
        .next (finish { s with crc.out := crc32 (s.mem.dbuf.readBytes s.crc.off.toNat s.crc.len.toNat) }) ∧
      exec .crcUpd s =
        .next (finish
          { s with crc.out := crcUpdate s.crc.input (s.mem.dbuf.readBytes s.crc.off.toNat s.crc.len.toNat) })) ∧
    (s.cfg.dbufCap < s.crc.off.toNat + s.crc.len.toNat →
      exec .crcCalc s = .next (errorEntry .other .capacityExceeded 2 s) ∧
      exec .crcUpd s = .next (errorEntry .other .capacityExceeded 2 s)) ∧
    exec .crcUpd32 s = .next (finish { s with crc.out := crcUpdate s.crc.input (be32 s.crc.val) })

/-- 40_crc.md R405, R406: the running update composes, and the chunk CRC is the CRC of type and data. -/
def Obligations.CrcComposition : Prop :=
  (∀ (c : Word) (s u : Bytes), crcUpdate (crcUpdate c s) u = crcUpdate c (s ++ u)) ∧
  (∀ c : Word, crcUpdate c [] = c) ∧ crc32 [] = 0 ∧
  (∀ c v : Word, crcUpdate32 c v = crcUpdate c (be32 v)) ∧
  (∀ (t : Word) (d : Bytes),
    chunkCrc t d = crcUpdate (crcUpdate32 0xFFFFFFFF t) d ^^^ 0xFFFFFFFF ∧ chunkCrc t d = crc32 (be32 t ++ d))

/-- 40_crc.md R406: two messages of one length that differ in one byte, and so in a single bit, have different CRCs;
CHUNK.VERIFY then raises `CorruptedChunk` for a DBUF with a changed byte. -/
def Obligations.CrcDetectsChangedByte : Prop :=
  (∀ (a b : Bytes) (x y : Byte), x ≠ y → crc32 (a ++ x :: b) ≠ crc32 (a ++ y :: b)) ∧
  (∀ (s : State) (k : Nat) (v : Byte), s.mem.ok s.cfg →
    s.ch.length.toNat ≤ s.cfg.dbufCap → k < s.ch.length.toNat →
    v ≠ s.mem.dbuf.read k →
    s.ch.crc = chunkCrc s.ch.type (s.mem.dbuf.readBytes 0 s.ch.length.toNat) →
    ∃ t, exec .chunkVerify (s.setSpace .dbuf (s.mem.dbuf.write k v)) = .next t ∧
      t.errCode = 0x18 ∧ t.errInfo = s.ch.type)

/-! ## Framer -/

/-- 41_framer.md R455, R456: SIG.CHECK on the signature, on eight other bytes, and on a short input; SIG.WRITE appends the
signature, or writes nothing when OUT is full. -/
def Obligations.SignatureCommands : Prop :=
  ∀ s : State,
    (s.inHolds pngSignature → exec .sigCheck s = .next (finish (s.afterIn 8))) ∧
    (8 ≤ inAvail s → s.mem.inp.readBytes s.cnt.inPos.toNat 8 ≠ pngSignature →
      exec .sigCheck s = .next (errorEntry .other .invalidSignature 0 (s.afterIn 8))) ∧
    (inAvail s < 8 → exec .sigCheck s = .next (errorEntry .other .unexpectedEof 0 s)) ∧
    (s.outFits 8 → exec .sigWrite s = .next (finish (s.afterOut pngSignature))) ∧
    (¬s.outFits 8 → exec .sigWrite s = .next (errorEntry .other .capacityExceeded 1 s))

/-- 41_framer.md R450, R460, R462: CHUNK.READ of a chunk that fits DBUF. A chunk longer than DBUF has its length and type
consumed and written to `CH_LENGTH` and `CH_TYPE`, and raises `CapacityExceeded(2)` before any data byte is read; that DBUF
keeps its bytes then is the model's reading (60_exceptions.md R903, log 8). An input that ends inside the chunk raises
`UnexpectedEOF(0)`; the fields before the one that does not fit are consumed, `CH_LENGTH` and `CH_TYPE` hold those of them
that were read, and the field that fails consumes nothing. What is left of DBUF from `CH_LENGTH` on is as before
(60_exceptions.md R930, log 8). -/
def Obligations.ChunkReadResults : Prop :=
  (∀ (s : State) (typ crc : Word) (data : Bytes),
    data.length ≤ s.cfg.dbufCap → s.inHolds (rawChunk typ data crc) →
    exec .chunkRead s =
      .next (finish
        { (s.afterIn (12 + data.length)).setSpace .dbuf (s.mem.dbuf.writeBytes 0 data) with
          ch := { length := BitVec.ofNat 32 data.length, type := typ, crc := crc } })) ∧
  (∀ (s : State) (len typ : Word),
    s.inHolds (be32 len ++ be32 typ) → s.cfg.dbufCap < len.toNat →
    ∃ t, exec .chunkRead s = .next t ∧ t.errCode = 0x51 ∧ t.errInfo = 2 ∧
      t.cnt = { s.cnt with inPos := s.cnt.inPos + 8 } ∧ t.ch.length = len ∧ t.ch.type = typ ∧ t.mem = s.mem) ∧
  ∀ s : State,
    let len := u32be (s.mem.inp.readBytes s.cnt.inPos.toNat 4)
    let typ := u32be (s.mem.inp.readBytes (s.cnt.inPos.toNat + 4) 4)
    inAvail s < 8 ∨ (len.toNat ≤ s.cfg.dbufCap ∧ inAvail s < 12 + len.toNat) →
    ∃ t, exec .chunkRead s = .next t ∧ t.errCode = 0x02 ∧ t.errInfo = 0 ∧
      t.cnt =
        { s.cnt with
          inPos := s.cnt.inPos +
            (if inAvail s < 4 then 0 else if inAvail s < 8 then 4 else if inAvail s < 8 + len.toNat then 8
              else 8 + len) } ∧
      (4 ≤ inAvail s → t.ch.length = len) ∧ (8 ≤ inAvail s → t.ch.type = typ) ∧ t.dec = s.dec ∧ t.enc = s.enc ∧
      t.crc = s.crc ∧ t.img = s.img ∧ (∀ sp, sp ≠ .dbuf → t.mem.get sp = s.mem.get sp) ∧
      (s.mem.dbuf.wf → ∀ a, t.ch.length.toNat ≤ a → t.mem.dbuf.read a = s.mem.dbuf.read a)

/-- 41_framer.md R451, R470: CHUNK.VERIFY compares the CRC whatever `CTRL` says; `CRC_OUT` holds the computed CRC on both
outcomes. A `CH_LENGTH` above the size of DBUF raises `CapacityExceeded(2)` and changes nothing. -/
def Obligations.ChunkVerifyResult : Prop :=
  ∀ s : State,
    (s.cfg.dbufCap < s.ch.length.toNat → exec .chunkVerify s = .next (errorEntry .other .capacityExceeded 2 s)) ∧
    (s.ch.length.toNat ≤ s.cfg.dbufCap →
      chunkCrc s.ch.type (s.mem.dbuf.readBytes 0 s.ch.length.toNat) = s.ch.crc →
      exec .chunkVerify s = .next (finish { s with crc.out := s.ch.crc })) ∧
    (s.ch.length.toNat ≤ s.cfg.dbufCap →
      chunkCrc s.ch.type (s.mem.dbuf.readBytes 0 s.ch.length.toNat) ≠ s.ch.crc →
      exec .chunkVerify s =
        .next (errorEntry .other .corruptedChunk s.ch.type
          { s with crc.out := chunkCrc s.ch.type (s.mem.dbuf.readBytes 0 s.ch.length.toNat) }))

/-- 41_framer.md R475, R480, 30_encoding.md R321: CHUNK.SETCRC writes the chunk CRC into `CH_CRC` and `CRC_OUT`; CHUNK.WRITE
appends the quad of the registers and DBUF as they stand, or writes nothing when OUT is full. A `CH_LENGTH` above the size
of DBUF raises `CapacityExceeded(2)`; CHUNK.WRITE then leaves unspecified only `OUT_LEN` and the bytes of OUT that the chunk
would take, and nothing else changes but the error entry and the model's counter of free values (60_exceptions.md R930,
log 8, log 9). -/
def Obligations.ChunkWriteResults : Prop :=
  ∀ s : State,
    let data := s.mem.dbuf.readBytes 0 s.ch.length.toNat
    (s.cfg.dbufCap < s.ch.length.toNat →
      exec .chunkSetcrc s = .next (errorEntry .other .capacityExceeded 2 s) ∧
      ∃ (k : Nat) (len : Word) (m : Memory),
        exec .chunkWrite s =
          .next (errorEntry .other .capacityExceeded 2 { s.setSpace .outp m with cnt.outLen := len, freeIdx := k }) ∧
        (s.mem.outp.wf → ∀ a, a < s.cnt.outLen.toNat ∨ s.cnt.outLen.toNat + (12 + s.ch.length.toNat) ≤ a →
          m.read a = s.mem.outp.read a)) ∧
    (s.ch.length.toNat ≤ s.cfg.dbufCap →
      exec .chunkSetcrc s =
        .next (finish { s with ch.crc := chunkCrc s.ch.type data, crc.out := chunkCrc s.ch.type data }) ∧
      (s.outFits (12 + s.ch.length.toNat) →
        exec .chunkWrite s =
          .next (finish (s.afterOut (be32 s.ch.length ++ be32 s.ch.type ++ data ++ be32 s.ch.crc)))) ∧
      (¬s.outFits (12 + s.ch.length.toNat) →
        exec .chunkWrite s = .next (errorEntry .other .capacityExceeded 1 s)))

/-! ## Filter engine -/

/-- 42_filter.md R502 to R509: the predictors; reconstruction inverts filtering, for every filter type, every row and every
prior row; unpacking takes the bits of a row most significant first, and inverts packing, for every width and every row of
samples that fit; packing takes the low `PB` bits of any sample, and leaves the bits after the last sample 0. -/
def Obligations.RowTransforms : Prop :=
  (∀ a b c : Byte,
    predictor .none a b c = 0 ∧ predictor .sub a b c = a ∧ predictor .up a b c = b ∧
    (predictor .average a b c).toNat = (a.toNat + b.toNat) / 2 ∧
    let pa := ((b.toNat : Int) - c.toNat).natAbs
    let pb := ((a.toNat : Int) - c.toNat).natAbs
    let pc := ((a.toNat : Int) + b.toNat - 2 * c.toNat).natAbs
    predictor .paeth a b c = if pa ≤ pb ∧ pa ≤ pc then a else if pb ≤ pc then b else c) ∧
  (∀ (ft : FilterType) (bpp : Nat) (o pr : Bytes), 0 < bpp →
    recon ft bpp (filt ft bpp o pr) pr = o ∧ IsReconstructed ft bpp (filt ft bpp o pr) pr o) ∧
  (∀ (pb w x : Nat) (r : Bytes), pb ∈ [1, 2, 4] → x < w →
    (unpack r w pb).length = w ∧
    (byteAt (unpack r w pb) x).toNat = (byteAt r (x * pb / 8)).toNat / 2 ^ (8 - pb - x * pb % 8) % 2 ^ pb) ∧
  ∀ (pb w : Nat) (s : Bytes), pb ∈ [1, 2, 4] → s.length = w →
    (pack s w pb).length = (w * pb + 7) / 8 ∧ ((∀ b ∈ s, b.toNat < 2 ^ pb) → unpack (pack s w pb) w pb = s) ∧
    (∀ x < w, (byteAt (pack s w pb) (x * pb / 8)).toNat / 2 ^ (8 - pb - x * pb % 8) % 2 ^ pb =
      (byteAt s x).toNat % 2 ^ pb) ∧
    (w * pb % 8 ≠ 0 → (byteAt (pack s w pb) (w * pb / 8)).toNat % 2 ^ (8 - w * pb % 8) = 0)

/-- 42_filter.md R540: level 0 chooses None, levels 1 and 2 Paeth; at level 3 the filter chosen for a row has a sum that no
filter's sum is below, and every filter before it in the order None, Sub, Up, Average, Paeth has a greater sum. -/
def Obligations.BestSizeIsFirstMinimum : Prop :=
  ∀ (bpp : Nat) (o pr : Bytes),
    selectFilter 0 bpp o pr = some .none ∧ selectFilter 1 bpp o pr = some .paeth ∧
    selectFilter 2 bpp o pr = some .paeth ∧
    ∃ best, selectFilter 3 bpp o pr = some best ∧
    (∀ ft, rowSum (filt best bpp o pr) ≤ rowSum (filt ft bpp o pr)) ∧
    (∀ ft : FilterType, ft.code.toNat < best.code.toNat →
      rowSum (filt best bpp o pr) < rowSum (filt ft bpp o pr))

/-- 42_filter.md R510, R511, R520: UNFILTER of any scanlines, each of any of the five filter types, gives their
reconstructed and unpacked rows in RAW and consumes exactly `h * (1 + RB(w))` bytes; nothing else changes but the filter
engine's hidden registers. -/
def Obligations.UnfilterResult : Prop :=
  ∀ (s : State) (lines : List Bytes) (raw : Bytes),
    s.img.formatOk → s.img.rawBytes ≤ s.cfg.rawCap →
    rowsFit s.cfg.rowCap s.img.format 0 s.img.width.toNat s.img.height.toNat →
    IsUnfiltered s.img.format s.img.width.toNat s.img.height.toNat lines raw → s.inHolds lines.flatten →
    raw.length = s.img.rawBytes ∧
    ∃ v, exec .unfilter s =
      .next (finish
        { s.setSpace .raw (s.mem.raw.writeBytes 0 raw) with
          cnt.inPos := s.cnt.inPos + BitVec.ofNat 32
            (s.img.height.toNat * (1 + s.img.format.rowBytes s.img.width.toNat))
          cnt.rawLen := BitVec.ofNat 32 s.img.rawBytes
          flt := v })

/-- 42_filter.md R510, R520, 43_adam7.md R610, 44_decode.md R697, R713: after scanlines `good` of an image, a scanline that
the input does not hold whole stops UNFILTER, DEINTERLACE and DEC.PIXELS with `UnexpectedEOF(0)`, whatever its type byte;
one that it holds whole, with a type byte above 4, stops them with `UnknownFilterType` and that byte. Every space but RAW is
as before, and after a DEC.PIXELS RAW beyond the image too; for UNFILTER and DEINTERLACE all of RAW is left open
(60_exceptions.md R930; which bytes an error leaves open is the model's reading, log 8). -/
def Obligations.ScanlineErrors : Prop :=
  ∀ (i : Instr) (s : State) (m : Byte) (good : List Bytes) (body raw : Bytes) (ft : FilterType) (later : List Bytes)
    (e : Err) (info : Word),
    let inp := if i = .decPixels then s.str.infl.unread else s.mem.inp.readBytes s.cnt.inPos.toNat (inAvail s)
    (i = .unfilter ∧ m = 0) ∨ (i = .deinterlace ∧ m = s.img.interlace) ∨
      (i = .decPixels ∧ m = s.img.interlace ∧ s.dec.state = .inflated ∧ s.str.infl.closed = true ∧ s.img.headerOk) →
    s.img.formatOk → s.img.rawBytes ≤ s.cfg.rawCap →
    rowsFit s.cfg.rowCap s.img.format m s.img.width.toNat s.img.height.toNat →
    IsDeinterlaced s.img.format m s.img.width.toNat s.img.height.toNat (good ++ (ft.code :: body) :: later) raw →
    inp.take good.flatten.length = good.flatten →
    (good.flatten.length ≤ inp.length ∧ inp.length < good.flatten.length + (1 + body.length) ∧
        e = .unexpectedEof ∧ info = 0) ∨
      (good.flatten.length + (1 + body.length) ≤ inp.length ∧ 4 < (byteAt inp good.flatten.length).toNat ∧
        e = .unknownFilterType ∧ info = (byteAt inp good.flatten.length).setWidth 32) →
    ∃ t, exec i s = .next t ∧ t.errCode = e.code ∧ t.errInfo = info ∧
      t.dec.state = (if i = .decPixels then .failed else s.dec.state) ∧ t.enc = s.enc ∧ t.img = s.img ∧
      (∀ sp, sp ≠ .raw → t.mem.get sp = s.mem.get sp) ∧
      (i = .decPixels → s.mem.raw.wf → ∀ a, s.img.rawBytes ≤ a → t.mem.raw.read a = s.mem.raw.read a)

/-- 42_filter.md R530, R531, R540, R550: FILTER appends the filtered rows of RAW, `h * (1 + RB(w))` bytes: row `y` is the
type byte of the filter that `Select` picks for the packed row and the packed row before it, and the row filtered so. When
OUT cannot take them all, the rows before the first that does not fit stay written and counted. Nothing else changes but
the filter engine's hidden registers. -/
def Obligations.FilterResult : Prop :=
  ∀ s : State,
    s.img.formatOk → s.img.level.toNat ≤ 3 → s.img.rawBytes ≤ s.cfg.rawCap → s.cfg.wf = true →
    rowsFit s.cfg.rowCap s.img.format 0 s.img.width.toNat s.img.height.toNat →
    let size := 1 + s.img.format.rowBytes s.img.width.toNat
    ∃ lines : List Bytes,
      IsFiltered s.img.format s.img.level s.img.width.toNat s.img.height.toNat
        (s.mem.raw.readBytes 0 s.img.rawBytes) lines ∧
      (∀ l ∈ lines, l.length = size) ∧
      (s.outFits (s.img.height.toNat * size) →
        ∃ v, exec .filter s = .next (finish { s.afterOut lines.flatten with flt := v })) ∧
      (s.lengthsOk → ¬s.outFits (s.img.height.toNat * size) →
        ∃ n v, n < s.img.height.toNat ∧ s.outFits (n * size) ∧ ¬s.outFits ((n + 1) * size) ∧
          exec .filter s =
            .next (errorEntry .other .capacityExceeded 1 { s.afterOut (lines.take n).flatten with flt := v }))

/-- 42_filter.md R510, R520, R530, R545, R550, 43_adam7.md R610, R620: the checks of UNFILTER, FILTER, DEINTERLACE and
INTERLACE in their order: the format, the interlace method where the command looks at it, the level where it filters, the
capacity of RAW (3); then a first row that does not fit the row buffers (12), or, where the image is interlaced, a row of a
later pass that does not (12), once the scanlines of the passes before are read or written. The sequencers and the image,
chunk and CRC registers are as before, UNFILTER and DEINTERLACE leave every space but RAW, and FILTER and INTERLACE leave
every space but OUT, and OUT below `OUT_LEN` (60_exceptions.md R930, log 8). -/
def Obligations.FilterCommandErrors : Prop :=
  ∀ (i : Instr) (s : State) (interlace level : Bool) (e : Err) (info : Word),
    (i, interlace, level) ∈
      ([(.unfilter, false, false), (.filter, false, true), (.deinterlace, true, false), (.interlace, true, true)] :
        List (Instr × Bool × Bool)) →
    let w := s.img.width.toNat
    let h := s.img.height.toNat
    let first := if interlace = true ∧ s.img.interlace = 1 then passW 0 w else w
    s.filterError interlace level = some (e, info) ∨
      (s.filterError interlace level = none ∧ e = .capacityExceeded ∧ info = 12 ∧
        ((0 < w ∧ 0 < h ∧ s.cfg.rowCap < s.img.format.rowBytes first) ∨
          (interlace = true ∧ s.img.interlace = 1 ∧ ∃ p, IsWidePass s.cfg.rowCap s.img.format w h p ∧
            if level then s.cfg.wf = true ∧ s.outFits (bytesBefore s.img.format w h p)
            else ∃ lines, IsPassesBefore s.img.format w h p lines ∧ s.inHolds lines.flatten))) →
    ∃ t, exec i s = .next t ∧ t.errCode = e.code ∧ t.errInfo = info ∧ t.dec = s.dec ∧ t.enc = s.enc ∧ t.img = s.img ∧
      t.ch = s.ch ∧ t.crc = s.crc ∧
      (level = false → ∀ sp, sp ≠ .raw → t.mem.get sp = s.mem.get sp) ∧
      (level = true → (∀ sp, sp ≠ .outp → t.mem.get sp = s.mem.get sp) ∧
        (s.mem.outp.wf → ∀ a, a < s.cnt.outLen.toNat → t.mem.outp.read a = s.mem.outp.read a))

/-! ## Adam7 unit -/

/-- 43_adam7.md R600: every pixel of an image is the pixel of exactly one pass pixel of exactly one pass. -/
def Obligations.Adam7Coverage : Prop :=
  ∀ w h x y : Nat, x < w → y < h →
    ∃! q : Nat × Nat × Nat, q.1 < 7 ∧ q.2.1 < passW q.1 w ∧ q.2.2 < passH q.1 h ∧
      startCol q.1 + q.2.1 * colStride q.1 = x ∧ startRow q.1 + q.2.2 * rowStride q.1 = y

/-- 43_adam7.md R604: for every legal format, every level, every size and both interlace methods, deinterlacing what
`InterlacePixels` writes gives back the raw image, and consumes all of it. -/
def Obligations.InterlaceRoundTrip : Prop :=
  ∀ (rowCap : Nat) (ct bd m level : Byte) (w h : Nat) (raw rest : Bytes) (u v : FilterUnit),
    legalPair ct bd = true → m.toNat ≤ 1 → level.toNat ≤ 3 → (formatOf ct bd).rowBytes w ≤ rowCap →
    raw.length = w * h * (formatOf ct bd).ups → samplesFit bd raw →
    ∃ v', deinterlacePixels rowCap (formatOf ct bd) m w h v
      ((interlacePixels rowCap (formatOf ct bd) m raw w h level u).lines.flatten ++ rest) = .done raw v' rest

/-- 43_adam7.md R601, R602, R610: DEINTERLACE of the scanlines of an image, of any filter types, gives the image in RAW and
advances `IN_POS` by their length; nothing else changes but the filter engine's hidden registers. -/
def Obligations.DeinterlaceResult : Prop :=
  ∀ (s : State) (lines : List Bytes) (raw : Bytes),
    s.img.formatOk → s.img.rawBytes ≤ s.cfg.rawCap →
    rowsFit s.cfg.rowCap s.img.format s.img.interlace s.img.width.toNat s.img.height.toNat →
    IsDeinterlaced s.img.format s.img.interlace s.img.width.toNat s.img.height.toNat lines raw →
    s.inHolds lines.flatten →
    raw.length = s.img.rawBytes ∧
    ∃ v, exec .deinterlace s =
      .next (finish
        { s.setSpace .raw (s.mem.raw.writeBytes 0 raw) with
          cnt.inPos := s.cnt.inPos + BitVec.ofNat 32 lines.flatten.length
          cnt.rawLen := BitVec.ofNat 32 s.img.rawBytes
          flt := v })

/-- 43_adam7.md R601, R603, R620: INTERLACE appends the filtered stream of RAW to OUT: the scanlines of the image, or of its
non-empty passes in pass order, each row filtered as `Select` picks. When OUT cannot take them all, the scanlines before
the first that does not fit stay written and counted. Nothing else changes but the filter engine's hidden registers. -/
def Obligations.InterlaceResult : Prop :=
  ∀ s : State,
    s.img.formatOk → s.img.interlace.toNat ≤ 1 → s.img.level.toNat ≤ 3 → s.img.rawBytes ≤ s.cfg.rawCap →
    s.cfg.wf = true → rowsFit s.cfg.rowCap s.img.format s.img.interlace s.img.width.toNat s.img.height.toNat →
    ∃ lines : List Bytes,
      IsInterlaced s.img.format s.img.interlace s.img.level s.img.width.toNat s.img.height.toNat
        (s.mem.raw.readBytes 0 s.img.rawBytes) lines ∧
      s.encFiltered = lines.flatten ∧
      (s.outFits lines.flatten.length →
        ∃ v, exec .interlace s = .next (finish { s.afterOut lines.flatten with flt := v })) ∧
      (s.lengthsOk → ¬s.outFits lines.flatten.length →
        ∃ n v, n < lines.length ∧ s.outFits (lines.take n).flatten.length ∧
          ¬s.outFits (lines.take (n + 1)).flatten.length ∧
          exec .interlace s =
            .next (errorEntry .other .capacityExceeded 1 { s.afterOut (lines.take n).flatten with flt := v }))

/-! ## Decode sequencer -/

/-- 44_decode.md R651, R655, R665, R710: DEC.HEADER on a file that starts with the signature and a good `IHDR` of 13 bytes
or more. -/
def Obligations.DecHeaderResult : Prop :=
  ∀ (s : State) (data : Bytes) (crc : Word),
    13 ≤ data.length → data.length ≤ s.cfg.dbufCap →
    20 + data.length ≤ s.cnt.inLen.toNat →
    s.mem.inp.readBytes 0 (20 + data.length) =
      pngSignature ++ (be32Len data.length ++ be32 typeIHDR ++ data ++ be32 crc) →
    (s.ctrl.crcCheckEn = true → crc = chunkCrc typeIHDR data) →
    (parseIhdr data s.img).headerOk →
    exec .decHeader s =
      .next (finish
        { s.setSpace .dbuf (s.mem.dbuf.writeBytes 0 data) with
          dec :=
            { state := .header, seenPlte := false, seenTrns := false, seenIdat := false, seenIend := false,
              palCount := 0, trnsCount := 0, pixMax := s.dec.pixMax }
          img :=
            { width := u32be (slice data 0 4), height := u32be (slice data 4 4), bitDepth := byteAt data 8,
              colorType := byteAt data 9, compression := byteAt data 10, filter := byteAt data 11,
              interlace := byteAt data 12, level := s.img.level }
          ch := { length := BitVec.ofNat 32 data.length, type := typeIHDR, crc := crc }
          crc.out := if s.ctrl.crcCheckEn then chunkCrc typeIHDR data else s.crc.out
          cnt :=
            { s.cnt with
              inPos := BitVec.ofNat 32 (20 + data.length), idatCount := 0, metaLen := 0, metaCount := 0,
              stageLen := 0, inflLen := 0 }
          str := { s.str with stage := .fresh, infl := .fresh } })

/-- 44_decode.md R655, R662, R665, R666, R710, R725: how DEC.HEADER fails, in the order of its checks: a short signature, a
wrong one, a first chunk that IN does not hold, a CRC that does not match (checked before the type is looked at, and only
when `CTRL.CRC_CHECK_EN` is 1), a chunk that is no `IHDR`, one that does not fit DBUF, one below 13 bytes, and a header
check; after the last the image registers hold what the `IHDR` gives, and the code is that of the first check that fails: a
zero size fails with `InvalidImageSize`, and a bit depth of 3 with `InvalidBitDepth` whatever the colour type. A bad
signature leaves every space; later errors leave every space but DBUF, and DBUF from `CH_LENGTH` on; an `IDAT` or a chunk
longer than DBUF leaves DBUF too, cut short or not. That is the model's reading of 60_exceptions.md R930 (log 8). `CRC_OUT`
is the computed CRC once the comparison has run (R662), and after `CorruptedChunk` `CH_CRC` holds the chunk's
(95_test_vectors.md P8). -/
def Obligations.HeaderErrors : Prop :=
  (∀ s : State,
    let fails := fun (e : Err) =>
      ∃ t, exec .decHeader s = .next t ∧ t.errCode = e.code ∧ t.errInfo = 0 ∧ t.dec.state = .failed ∧ t.crc = s.crc ∧
        (∀ sp, sp ≠ .dbuf → t.mem.get sp = s.mem.get sp) ∧
        (e = .invalidSignature ∨ s.cnt.inLen.toNat < 8 → t.mem = s.mem) ∧
        (s.mem.dbuf.wf → ∀ a, t.ch.length.toNat ≤ a → t.mem.dbuf.read a = s.mem.dbuf.read a)
    (s.cnt.inLen.toNat < 8 → fails .unexpectedEof) ∧
    (8 ≤ s.cnt.inLen.toNat → s.mem.inp.readBytes 0 8 ≠ pngSignature → fails .invalidSignature) ∧
    (8 ≤ s.cnt.inLen.toNat → s.mem.inp.readBytes 0 8 = pngSignature →
      (s.cnt.inLen.toNat < 16 ∨ s.cnt.inLen.toNat < 20 + (u32be (s.mem.inp.readBytes 8 4)).toNat) →
      fails .unexpectedEof) ∧
    (16 ≤ s.cnt.inLen.toNat → s.mem.inp.readBytes 0 8 = pngSignature →
      s.cnt.inLen.toNat < 20 + (u32be (s.mem.inp.readBytes 8 4)).toNat →
      (u32be (s.mem.inp.readBytes 12 4) = 0x49444154 ∨ s.cfg.dbufCap < (u32be (s.mem.inp.readBytes 8 4)).toNat) →
      ∃ t, exec .decHeader s = .next t ∧ t.errCode = 0x02 ∧ t.ch.length = u32be (s.mem.inp.readBytes 8 4) ∧
        t.ch.type = u32be (s.mem.inp.readBytes 12 4) ∧ t.mem = s.mem)) ∧
  ∀ (s : State) (typ : Word) (data : Bytes) (crc : Word),
    20 + data.length ≤ s.cnt.inLen.toNat →
    s.mem.inp.readBytes 0 (20 + data.length) = pngSignature ++ rawChunk typ data crc →
    let good := s.ctrl.crcCheckEn = true → crc = chunkCrc typ data
    let keeps := fun t : State =>
      (∀ sp, sp ≠ .dbuf → t.mem.get sp = s.mem.get sp) ∧
      (s.mem.dbuf.wf → ∀ a, data.length ≤ a → t.mem.dbuf.read a = s.mem.dbuf.read a) ∧
      (typ = 0x49444154 ∨ s.cfg.dbufCap < data.length → t.mem = s.mem)
    let fails := fun (e : Err) (info : Word) =>
      ∃ t, exec .decHeader s = .next t ∧ t.errCode = e.code ∧ t.errInfo = info ∧ t.dec.state = .failed ∧ keeps t ∧
        (e = .corruptedChunk → t.ch.crc = crc) ∧
        t.crc = { s.crc with out := if s.ctrl.crcCheckEn then chunkCrc typ data else s.crc.out }
    (¬good → fails .corruptedChunk typ) ∧
    (good → typ ≠ 0x49484452 → fails .ihdrNotFound typ) ∧
    (good → typ = 0x49484452 → s.cfg.dbufCap < data.length → fails .capacityExceeded 2) ∧
    (good → typ = 0x49484452 → data.length ≤ s.cfg.dbufCap → data.length < 13 → fails .unexpectedEof 0) ∧
    (good → typ = 0x49484452 → data.length ≤ s.cfg.dbufCap → 13 ≤ data.length → ¬(parseIhdr data s.img).headerOk →
      ∃ t, exec .decHeader s = .next t ∧ t.img = parseIhdr data s.img ∧ t.dec.state = .failed ∧ keeps t ∧
        t.crc = { s.crc with out := if s.ctrl.crcCheckEn then chunkCrc typ data else s.crc.out } ∧
        t.status.err = true ∧ t.errInfo = 0 ∧
        (({ s with img := parseIhdr data s.img } : State).headerError.map Err.code = some t.errCode) ∧
        (u32be (slice data 0 4) = 0 ∨ u32be (slice data 4 4) = 0 → t.errCode = 0x12) ∧
        (u32be (slice data 0 4) ≠ 0 → u32be (slice data 4 4) ≠ 0 → byteAt data 8 = 3 → t.errCode = 0x14))

/-- 44_decode.md R660, R681, R687, R711: DEC.CHUNKS on any number of `IDAT` chunks and an `IEND`: STAGE holds the
concatenated data and is closed. That an earlier content of STAGE plays no part, since DEC.CHUNKS resets the stream first
(10_state.md R151), is the model's choice where another command has failed in between (log 10). -/
def Obligations.DecChunksResult : Prop :=
  ∀ (s : State) (parts : List Bytes),
    s.dec.state = .header → (s.img.colorType = 3 → s.dec.seenPlte = true) →
    parts.flatten.length ≤ s.cfg.stageCap →
    s.inHolds (parts.flatMap (chunkBytes typeIDAT) ++ chunkBytes typeIEND []) →
    exec .decChunks s =
      .next (finish
        { s with
          dec.state := .chunks, dec.seenIdat := s.dec.seenIdat || !parts.isEmpty, dec.seenIend := true
          ch := { length := 0, type := 0x49454E44, crc := 0xAE426082 }
          crc.out := if s.ctrl.crcCheckEn then 0xAE426082 else s.crc.out
          cnt.inPos := s.cnt.inPos + BitVec.ofNat 32 (parts.flatten.length + 12 * parts.length + 12)
          cnt.stageLen := s.cnt.stageLen + BitVec.ofNat 32 parts.flatten.length
          cnt.idatCount := s.cnt.idatCount + BitVec.ofNat 32 parts.length
          str.stage := .holding parts.flatten 0 })

/-- 44_decode.md R660, R680, R681, R682, R683, R684, R686, R687, R689, R711: what the chunk loop does with one chunk that it
accepts, by type: image data that STAGE can take, the end, the palette, the palette-type and the advisory transparency, and
a record of an unknown ancillary chunk or of a metadata chunk with the layout of its type (keyword of 1 to 79 bytes, the
bytes and the `0x00`s after it, the ranges of the time fields). After any number of turns that go on and one that ends the
loop, DEC.CHUNKS finishes with what they left, STAGE closed. That its loop starts with STAGE reset (10_state.md R151) is the
model's choice where another command has failed since DEC.HEADER (log 10). -/
def Obligations.AcceptedChunks : Prop :=
  (∀ (s : State) (n : Nat) (u v : State),
    s.dec.state = .header → chunkTurns n s.chunksStart = some u → decChunksStep u = .ok true v →
    exec .decChunks s = .next (finish { v with dec.state := .chunks, str.stage := v.str.stage.close }) ∧
      v.str.stage.close.closed = true) ∧
  ∀ (s : State) (data : Bytes),
    ((s.img.colorType = 3 → s.dec.seenPlte = true) → s.str.stage.closed = false →
      s.str.stage.total + data.length ≤ s.cfg.stageCap →
      chunkCase typeIDAT data s =
        .ok false
          { s with
            str.stage :=
              { s.str.stage with
                readable := s.str.stage.readable ++ (s.str.stage.staged ++ data), staged := []
                total := s.str.stage.total + data.length }
            cnt.stageLen := s.cnt.stageLen + BitVec.ofNat 32 data.length
            cnt.idatCount := s.cnt.idatCount + 1
            dec.seenIdat := true }) ∧
    chunkCase typeIEND data s = .ok true { s with dec.seenIend := true } ∧
    (s.dec.seenPlte = false → s.dec.seenIdat = false → s.img.colorType ≠ 0 → s.img.colorType ≠ 4 →
      data.length / 3 ≤ 256 → (s.img.colorType = 3 → data.length / 3 ≤ 2 ^ s.img.bitDepth.toNat) →
      chunkCase typePLTE data s =
        .ok false
          { s.setSpace .pal (s.mem.pal.writeBytes 0
              ((List.range (data.length / 3)).flatMap fun i =>
                [byteAt data (3 * i), byteAt data (3 * i + 1), byteAt data (3 * i + 2), 255])) with
            dec.palCount := BitVec.ofNat 9 (data.length / 3), dec.seenPlte := true }) ∧
    (s.dec.seenTrns = false → s.dec.seenIdat = false → s.img.colorType = 3 → s.dec.seenPlte = true →
      data.length ≤ s.dec.palCount.toNat → s.dec.palCount.toNat ≤ 256 →
      chunkCase typeTRNS data s =
        .ok false
          { s.setSpace .pal ((List.range data.length).foldl (fun m i => m.write (4 * i + 3) (byteAt data i)) s.mem.pal) with
            dec.trnsCount := BitVec.ofNat 9 data.length, dec.seenTrns := true }) ∧
    (∀ typ : Word,
      (typ = typeTRNS ∧ s.dec.seenTrns = false ∧ s.dec.seenIdat = false ∧ (s.img.colorType = 0 ∨ s.img.colorType = 2)) ∨
        (typ ∈ ([typeTEXT, typeZTXT, typeITXT, typeTIME] : List Word) ∧ hasLayout typ data) ∨
        (typ ∉ ([typeIDAT, typePLTE, typeTRNS, typeTEXT, typeZTXT, typeITXT, typeTIME, typeIEND] : List Word) ∧
          typ.getLsbD 29 = true) →
      s.cnt.metaLen.toNat + (8 + data.length) ≤ s.cfg.metaCap →
      ∃ t, chunkCase typ data s = .ok false t ∧
        t =
          { s.setSpace .metaLog (s.mem.metaLog.writeBytes s.cnt.metaLen.toNat
              (be32Len data.length ++ be32 typ ++ data)) with
            cnt.metaLen := s.cnt.metaLen + BitVec.ofNat 32 (8 + data.length)
            cnt.metaCount := s.cnt.metaCount + 1
            dec.seenTrns := if typ = typeTRNS then true else s.dec.seenTrns })

/-- 44_decode.md R680, R681, R682, R683, R686, R689: the chunks the loop rejects for their type and content, once their CRC
and their size have passed, with their errors in the order of the checks; the error's information is the chunk's type, and
the state is that at the check. -/
def Obligations.RejectedChunks : Prop :=
  ∀ (s : State) (data : Bytes),
    let raises := fun (typ : Word) (e : Err) => chunkCase typ data s = .raised e typ s
    (s.img.colorType = 3 → s.dec.seenPlte = false → raises 0x49444154 .paletteNotFound) ∧
    (s.dec.seenPlte = true → raises 0x504C5445 .duplicatePalette) ∧
    (s.dec.seenPlte = false → s.dec.seenIdat = true ∨ s.img.colorType = 0 ∨ s.img.colorType = 4 →
      raises 0x504C5445 .illegalPaletteChunk) ∧
    (s.dec.seenPlte = false → s.dec.seenIdat = false → s.img.colorType ≠ 0 → s.img.colorType ≠ 4 →
      256 < data.length / 3 ∨ (s.img.colorType = 3 ∧ 2 ^ s.img.bitDepth.toNat < data.length / 3) →
      raises 0x504C5445 .invalidPaletteSize) ∧
    (s.img.colorType = 4 ∨ s.img.colorType = 6 ∨ s.dec.seenTrns = true ∨ s.dec.seenIdat = true ∨
      (s.img.colorType = 3 ∧ s.dec.seenPlte = false) → raises 0x74524E53 .illegalTrnsChunk) ∧
    (s.img.colorType = 3 → s.dec.seenTrns = false → s.dec.seenIdat = false → s.dec.seenPlte = true →
      s.dec.palCount.toNat < data.length → raises 0x74524E53 .invalidTrnsSize) ∧
    (∀ typ ∈ ([0x74455874, 0x7A545874, 0x69545874] : List Word), ¬hasLayout typ data → raises typ .invalidTextChunk) ∧
    (¬hasLayout 0x74494D45 data → raises 0x74494D45 .invalidTimeChunk) ∧
    (∀ typ : Word, typ ∉ ([0x49444154, 0x504C5445, 0x74524E53, 0x74455874, 0x7A545874, 0x69545874, 0x74494D45,
        0x49454E44] : List Word) → typ.getLsbD 29 = false → raises typ .unknownNecessaryChunk)

/-- 44_decode.md R660, R662, R684, R711, 41_framer.md R450: one turn of the chunk loop. A chunk that IN does not hold whole
raises `UnexpectedEOF(0)`; a CRC that does not match raises `CorruptedChunk` with the chunk's type, whatever the type, and
is not looked at when `CTRL.CRC_CHECK_EN` is 0; then a chunk that does not fit STAGE (8, `IDAT`) or DBUF (2, the others)
raises `CapacityExceeded`; then the chunk is acted on by its type, where a record that does not fit META raises
`CapacityExceeded(5)`. An error of the turn after any number of turns that go on is the error of DEC.CHUNKS, with the CRC
registers as that turn left them (after `PaletteNotFound` `CH_TYPE` too, and after an input that ends the chunk registers and
`IN_POS`), and PAL but for the entries that the loop has written (60_exceptions.md R930, 95_test_vectors.md P6, log 8). That the loop of DEC.CHUNKS starts with STAGE reset (10_state.md R151)
is the model's choice where another command has failed since DEC.HEADER (log 10). -/
def Obligations.ChunkLoopErrors : Prop :=
  (∀ (s : State) (n : Nat) (u v : State) (e : Err) (info : Word),
    s.dec.state = .header → chunkTurns n s.chunksStart = some u → decChunksStep u = .raised e info v →
    ∃ t, exec .decChunks s = .next t ∧ t.errCode = e.code ∧ t.errInfo = info ∧ t.dec.state = .failed ∧
      (e = .paletteNotFound → t.ch.type = v.ch.type) ∧ (e = .unexpectedEof → t.ch = v.ch ∧ t.cnt.inPos = v.cnt.inPos) ∧ t.crc = v.crc ∧
      t.img = s.img ∧ t.enc = s.enc ∧ t.mem.inp = s.mem.inp ∧ t.mem.outp = s.mem.outp ∧
      t.mem.raw = s.mem.raw ∧ t.mem.pix = s.mem.pix ∧
      (s.mem.ok s.cfg → s.cfg.wf = true →
        ∀ a, 4 * v.dec.palCount.toNat ≤ a → t.mem.pal.read a = s.mem.pal.read a)) ∧
  (∀ s : State,
    (inAvail s < 8 ∨ ∃ len typ : Word, s.inHolds (be32 len ++ be32 typ) ∧ inAvail s < 12 + len.toNat) →
    ∃ v, decChunksStep s = .raised .unexpectedEof 0 v) ∧
  (∀ (s : State) (typ crc : Word) (data : Bytes), data.length < 2 ^ 32 → s.inHolds (rawChunk typ data crc) →
    let good := s.ctrl.crcCheckEn = true → crc = chunkCrc typ data
    let full := if typ = 0x49444154 then s.cfg.stageCap < s.str.stage.total + data.length else s.cfg.dbufCap < data.length
    let after : State :=
      { s with
        cnt := (s.afterIn (12 + data.length)).cnt
        ch := { length := BitVec.ofNat 32 data.length, type := typ, crc := crc }
        crc.out := if s.ctrl.crcCheckEn then chunkCrc typ data else s.crc.out
        mem := if typ = 0x49444154 ∨ full then s.mem else s.mem.set .dbuf (s.mem.dbuf.writeBytes 0 data) }
    (¬good → decChunksStep s = .raised .corruptedChunk typ after) ∧
    (good → full → decChunksStep s = .raised .capacityExceeded (if typ = 0x49444154 then 8 else 2) after) ∧
    (good → ¬full → decChunksStep s = chunkCase typ data after)) ∧
  ∀ (s : State) (typ : Word) (data : Bytes),
    (typ = 0x74524E53 ∧ s.dec.seenTrns = false ∧ s.dec.seenIdat = false ∧ (s.img.colorType = 0 ∨ s.img.colorType = 2)) ∨
      (typ ∈ ([0x74455874, 0x7A545874, 0x69545874, 0x74494D45] : List Word) ∧ hasLayout typ data) ∨
      (typ ∉ ([0x49444154, 0x504C5445, 0x74524E53, 0x74455874, 0x7A545874, 0x69545874, 0x74494D45, 0x49454E44] :
          List Word) ∧
        typ.getLsbD 29 = true) →
    s.cfg.metaCap < s.cnt.metaLen.toNat + (8 + data.length) →
    chunkCase typ data s = .raised .capacityExceeded 5 s

/-- 44_decode.md R695, R712: DEC.INFLATE takes all of STAGE, and INFL holds what `INFLATE` gives; its three errors mark the
decode failed. -/
def Obligations.DecInflateResult : Prop :=
  ∀ s : State, s.dec.state = .chunks → s.str.stage.closed = true →
    let z := s.str.stage.unread
    (∀ d, s.cfg.zlibPresent = true → Config.inflateOf s.cfg z = some d → d.length ≤ s.cfg.inflCap →
      exec .decInflate s =
        .next (finish
          { s with
            dec.state := .inflated
            cnt.inflLen := BitVec.ofNat 32 d.length
            str.stage := { s.str.stage with rpos := s.str.stage.rpos + z.length }
            str.infl := .holding d 0 })) ∧
    (∀ (e : Err) (info : Word),
      (s.cfg.zlibPresent = false ∧ e = .compressionUnavailable ∧ info = 0) ∨
      (s.cfg.zlibPresent = true ∧ Config.inflateOf s.cfg z = none ∧ e = .compressionDataError ∧ info = 0) ∨
      (s.cfg.zlibPresent = true ∧ (∃ d, Config.inflateOf s.cfg z = some d ∧ s.cfg.inflCap < d.length) ∧
        e = .capacityExceeded ∧ info = 9) →
      ∃ t, exec .decInflate s = .next t ∧ t.errCode = e.code ∧ t.errInfo = info ∧ t.dec.state = .failed ∧
        t.mem = s.mem ∧ t.img = s.img)

/-- 44_decode.md R697, R713: DEC.PIXELS on an INFL that holds the scanlines of an image, of any filter types, and any bytes
after them: RAW holds the image, and the bytes after them are not read. Before it reads it checks the header fields again,
then the interlace method, the capacity of RAW (3), and that a first row fits the row buffers (12); where the image is
interlaced, a row of a later pass that does not fit them fails it (12) once the scanlines of the passes before are read. Such
an error leaves every space but RAW, and RAW beyond the image (60_exceptions.md R930, log 8). -/
def Obligations.DecPixelsResult : Prop :=
  (∀ (s : State) (e : Err) (info : Word),
    let w := s.img.width.toNat
    let first := if s.img.interlace = 1 then passW 0 w else w
    s.dec.state = .inflated →
    (s.headerError = some e ∧ info = 0) ∨
      (s.headerError = none ∧
        ((1 < s.img.interlace.toNat ∧ e = .unknownInterlaceMethod ∧ info = 0) ∨
          (s.img.interlace.toNat ≤ 1 ∧ s.cfg.rawCap < s.img.rawBytes ∧ e = .capacityExceeded ∧ info = 3) ∨
          (s.img.interlace.toNat ≤ 1 ∧ s.img.rawBytes ≤ s.cfg.rawCap ∧ e = .capacityExceeded ∧ info = 12 ∧
            (s.cfg.rowCap < s.img.format.rowBytes first ∨
              (s.img.interlace = 1 ∧ ∃ p lines rest, IsWidePass s.cfg.rowCap s.img.format w s.img.height.toNat p ∧
                IsPassesBefore s.img.format w s.img.height.toNat p lines ∧
                s.str.infl.unread = lines.flatten ++ rest))))) →
    ∃ t, exec .decPixels s = .next t ∧ t.errCode = e.code ∧ t.errInfo = info ∧ t.dec = { s.dec with state := .failed } ∧
      t.enc = s.enc ∧ t.img = s.img ∧ t.ch = s.ch ∧ t.crc = s.crc ∧
      (∀ sp, sp ≠ .raw → t.mem.get sp = s.mem.get sp) ∧
      (s.mem.raw.wf → ∀ a, s.img.rawBytes ≤ a → t.mem.raw.read a = s.mem.raw.read a)) ∧
  ∀ (s : State) (lines : List Bytes) (raw rest : Bytes),
    s.dec.state = .inflated → s.img.headerOk → s.img.rawBytes ≤ s.cfg.rawCap →
    rowsFit s.cfg.rowCap s.img.format s.img.interlace s.img.width.toNat s.img.height.toNat →
    IsDeinterlaced s.img.format s.img.interlace s.img.width.toNat s.img.height.toNat lines raw →
    s.str.infl.unread = lines.flatten ++ rest →
    ∃ v, exec .decPixels s =
      .next (finish
        { s.setSpace .raw (s.mem.raw.writeBytes 0 raw) with
          dec.state := .pixels
          cnt.rawLen := BitVec.ofNat 32 s.img.rawBytes
          str.infl := { s.str.infl with rpos := s.str.infl.rpos + lines.flatten.length }
          flt := v })

/-- 44_decode.md R700, R714, 10_state.md R125, R144, R147: DEC.EXPAND writes every pixel of PIX, row by row, `PIX_LEN` and
`PIX_MAX`; the four components of a pixel are those of its colour type, each two bytes, and none is above `PIX_MAX`. That a
sub-byte sample is the low `bitDepth` bits of its byte, also where the higher bits are not 0, is the model's choice
(log 32). Before it expands it checks the header fields again, then the capacity of PIX (6); such an error leaves every space
but PIX, and PIX beyond the image (60_exceptions.md R930, log 8). -/
def Obligations.DecExpandResult : Prop :=
  (∀ (s : State) (e : Err) (info : Word),
    s.dec.state = .pixels →
    (s.headerError = some e ∧ info = 0) ∨
      (s.headerError = none ∧ s.cfg.pixCap < s.img.pixels * 8 ∧ e = .capacityExceeded ∧ info = 6) →
    ∃ t, exec .decExpand s = .next t ∧ t.errCode = e.code ∧ t.errInfo = info ∧ t.dec.state = .failed ∧
      t.enc = s.enc ∧ t.img = s.img ∧ t.ch = s.ch ∧ t.crc = s.crc ∧
      (∀ sp, sp ≠ .pix → t.mem.get sp = s.mem.get sp) ∧
      (s.mem.pix.wf → ∀ a, s.img.pixels * 8 ≤ a → t.mem.pix.read a = s.mem.pix.read a)) ∧
  ∀ s : State,
    s.dec.state = .pixels → s.img.headerOk → s.img.pixels * 8 ≤ s.cfg.pixCap → s.img.rawBytes ≤ s.cfg.rawCap →
    s.indicesOk →
    exec .decExpand s =
      .next (finish
        { s.setSpace .pix (s.mem.pix.writeBytes 0 s.expectedPix) with
          dec.state := .expanded
          dec.pixMax := if s.img.colorType = 3 then 255 else BitVec.ofNat 16 (2 ^ s.img.bitDepth.toNat - 1)
          cnt.pixLen := BitVec.ofNat 32 (s.img.pixels * 8) }) ∧
    ∀ k < s.img.pixels, (s.expectedPixel k).length = 8 ∧ ∀ c ∈ s.components k, c ≤ s.img.divisor

/-- 44_decode.md R700, R701: the first palette index in row-major order that is not below `PAL_COUNT` makes DEC.EXPAND
raise `InvalidPaletteIndex` with that index (the low `bitDepth` bits of the byte of RAW, log 32). Only the bytes of PIX that
the image would take may change (60_exceptions.md R930). -/
def Obligations.FirstBadIndexReported : Prop :=
  ∀ (s : State) (k : Nat),
    s.dec.state = .pixels → s.img.headerOk → s.img.colorType = 3 → s.img.pixels * 8 ≤ s.cfg.pixCap →
    s.img.rawBytes ≤ s.cfg.rawCap → s.dec.palCount.toNat ≤ 256 → k < s.img.pixels →
    (∀ j < k, s.sample j 0 < s.dec.palCount.toNat) → s.dec.palCount.toNat ≤ s.sample k 0 →
    ∃ t, exec .decExpand s = .next t ∧ t.errCode = 0x26 ∧ t.errInfo = BitVec.ofNat 32 (s.sample k 0) ∧
      t.dec.state = .failed ∧ (∀ sp, sp ≠ .pix → t.mem.get sp = s.mem.get sp) ∧
      (s.mem.pix.wf → ∀ a, s.img.pixels * 8 ≤ a → t.mem.pix.read a = s.mem.pix.read a)

/-- 44_decode.md R720, 60_exceptions.md R921: a sequential DECODE ends in the state that DEC.HEADER, DEC.CHUNKS, DEC.INFLATE,
DEC.PIXELS and DEC.EXPAND leave when they are run in turn and each finishes. When the first of them finish and the next
fails, DECODE, sequential or pipelined, fails with its code and information, and leaves `CRC_OUT` as the failing command
does. After the `PaletteNotFound` of DEC.CHUNKS `IMG_FORMAT` is what the `IHDR` gave, and `CH_TYPE` the chunk's
(95_test_vectors.md P6). -/
def Obligations.DecodeEqualsStages : Prop :=
  (∀ (pipe : Bool) (s u t : State) (n : Nat) (i : Instr),
    runInTurn (fun v => v.dec.state == .failed) (decodeStages.take n) s = some u → decodeStages[n]? = some i →
    exec i u = .next t → t.dec.state = .failed →
    ∃ v, exec (.decode pipe) s = .next v ∧ v.errCode = t.errCode ∧ v.errInfo = t.errInfo ∧ v.dec.state = .failed ∧
      v.crc = t.crc ∧ v.enc = s.enc ∧ v.ctrl = s.ctrl ∧ v.img.level = s.img.level ∧ v.mem.inp = s.mem.inp ∧
      v.mem.outp = s.mem.outp ∧
      (n = 1 → t.errCode = 0x23 → v.img.formatWord = u.img.formatWord ∧ v.ch.type = 0x49444154)) ∧
  ∀ s s1 s2 s3 s4 s5 : State,
    exec .decHeader s = .next s1 → s1.dec.state = .header →
    exec .decChunks s1 = .next s2 → s2.dec.state = .chunks →
    exec .decInflate s2 = .next s3 → s3.dec.state = .inflated →
    exec .decPixels s3 = .next s4 → s4.dec.state = .pixels →
    exec .decExpand s4 = .next s5 → s5.dec.state = .expanded →
    exec (.decode false) s = .next s5

/-- 44_decode.md R660, R682, R683, R700, R720, R721, 30_encoding.md R321, R326, R328, R332: DECODE, sequential or pipelined,
of a whole file: signature, `IHDR`, for a palette image `PLTE` and, if there is one, `tRNS`, `IDAT` chunks whose data
inflates to the scanlines of an image, `IEND`. RAW holds the image, PAL the palette and its alphas, PIX the components of
every pixel by its colour type, and the registers the results of every step; OUT, the encoder and the other spaces but
DBUF are unchanged. -/
def Obligations.DecodeFile : Prop :=
  ∀ (pipe : Bool) (s : State) (r : ImgRegs) (entries : List (Byte × Byte × Byte)) (alphas : Option Bytes)
    (parts : List Bytes) (lines : List Bytes) (raw rest : Bytes),
    let palette := r.colorType = 3
    let plte := chunkBytes typePLTE (entries.flatMap fun c => [c.1, c.2.1, c.2.2])
    let trns := match alphas with
      | some a => chunkBytes typeTRNS a
      | none => []
    let file := pngSignature ++ chunkBytes typeIHDR (ihdrData r) ++ (if palette then plte ++ trns else []) ++
      parts.flatMap (chunkBytes typeIDAT) ++ chunkBytes typeIEND []
    let w := r.width.toNat
    let h := r.height.toNat
    let n := entries.length
    let alpha := fun i => (alphas.getD []).getD i 255
    let two := fun c : Nat => ([BitVec.ofNat 8 (c / 256), BitVec.ofNat 8 (c % 256)] : Bytes)
    let sample := fun k j : Nat =>
      if r.bitDepth = 16 then
        (byteAt raw (k * r.format.ups + 2 * j)).toNat * 256 + (byteAt raw (k * r.format.ups + 2 * j + 1)).toNat
      else (byteAt raw (k * r.format.ups + j)).toNat
    s.cfg.wf = true → s.mem.ok s.cfg → r.headerOk →
    rowsFit s.cfg.rowCap r.format r.interlace w h → IsDeinterlaced r.format r.interlace w h lines raw →
    file.length ≤ s.cnt.inLen.toNat → s.mem.inp.readBytes 0 file.length = file →
    (palette → n ≤ 2 ^ r.bitDepth.toNat ∧ (alphas.getD []).length ≤ n ∧ ∀ b ∈ raw, b.toNat < n) →
    parts.flatten.length ≤ s.cfg.stageCap → s.cfg.zlibPresent = true →
    Config.inflateOf s.cfg parts.flatten = some (lines.flatten ++ rest) →
    (lines.flatten ++ rest).length ≤ s.cfg.inflCap → r.rawBytes ≤ s.cfg.rawCap → r.pixels * 8 ≤ s.cfg.pixCap →
    ∃ t, exec (.decode pipe) s = .next t ∧
      t.status = { s.status with done := true, busy := false, pipeActive := false } ∧
      t.dec.state = .expanded ∧ t.cnt.inPos = BitVec.ofNat 32 file.length ∧
      t.img = { r with compression := 0, filter := 0, level := s.img.level } ∧
      t.mem.raw.readBytes 0 raw.length = raw ∧ t.cnt.rawLen = BitVec.ofNat 32 raw.length ∧
      (∀ k < r.pixels,
        let m := 2 ^ r.bitDepth.toNat - 1
        t.mem.pix.readBytes (8 * k) 8 =
          if r.colorType = 0 then two (sample k 0) ++ two (sample k 0) ++ two (sample k 0) ++ two m
          else if r.colorType = 2 then two (sample k 0) ++ two (sample k 1) ++ two (sample k 2) ++ two m
          else if r.colorType = 3 then
            let c := entries.getD (sample k 0) (0, 0, 0)
            [0, c.1, 0, c.2.1, 0, c.2.2, 0, alpha (sample k 0)]
          else if r.colorType = 4 then two (sample k 0) ++ two (sample k 0) ++ two (sample k 0) ++ two (sample k 1)
          else two (sample k 0) ++ two (sample k 1) ++ two (sample k 2) ++ two (sample k 3)) ∧
      t.cnt.pixLen = BitVec.ofNat 32 (r.pixels * 8) ∧
      t.dec.pixMax = (if palette then 255 else BitVec.ofNat 16 (2 ^ r.bitDepth.toNat - 1)) ∧
      t.dec.palCount = (if palette then BitVec.ofNat 9 n else 0) ∧
      t.dec.trnsCount = (if palette then BitVec.ofNat 9 (alphas.getD []).length else 0) ∧
      (palette → ∀ i < n,
        t.mem.pal.readBytes (4 * i) 4 =
          [(entries.getD i (0, 0, 0)).1, (entries.getD i (0, 0, 0)).2.1, (entries.getD i (0, 0, 0)).2.2, alpha i]) ∧
      (∀ a, ¬(palette ∧ a < 4 * n) → t.mem.pal.read a = s.mem.pal.read a) ∧
      t.cnt.stageLen = BitVec.ofNat 32 parts.flatten.length ∧ t.cnt.idatCount = BitVec.ofNat 32 parts.length ∧
      t.cnt.inflLen = BitVec.ofNat 32 (lines.flatten ++ rest).length ∧
      t.errCode = s.errCode ∧ t.ctrl = s.ctrl ∧ t.enc = s.enc ∧ t.cnt.outLen = s.cnt.outLen ∧
      t.mem.outp = s.mem.outp ∧ t.mem.inp = s.mem.inp ∧ t.mem.metaLog = s.mem.metaLog

/-- 20_memory.md R232, 44_decode.md R721, 60_exceptions.md R921: a pipelined DECODE ends in the state of the sequential one,
whatever the interleaving of its stages, errors and their information included. The interleavings are those of the model's
list `State.turns` (log 16), and after an error the free values of the two runs are equal because both runs start from one
counter (log 9): both are the model's choice. -/
def Obligations.PipelinedDecodeEqualsSequential : Prop :=
  ∀ s : State, exec (.decode true) s = exec (.decode false) s

/-! ## Encode serializer -/

/-- 45_encode.md R751, R752, R800: ENC.VALIDATE reports the first check that fails, and changes no result then; when none
fails, `OUT_LEN` is 0 and the encode is valid. That a passed validation clears the mark `enc.configChanged`, and a failed one
keeps it, is the model's choice: the mark is the model's own form of 70_reset_and_hazards.md R1023 (log 11). -/
def Obligations.EncValidateResult : Prop :=
  ∀ s : State, exec .encValidate s =
    match s.validationError with
    | some (e, info) => .next (errorEntry .encode e info s)
    | none =>
      .next (finish { s with cnt.outLen := 0, enc.state := .valid, enc.configChanged := false })

/-- 45_encode.md R760, R761, R790, R801, R803, 30_encoding.md R331: ENC.HEADER appends the signature, `IHDR`, and for a
palette image `PLTE` and, where asked for and needed, `tRNS`; when OUT cannot take all of them, those before the first that
does not fit stay in OUT. `PLTE` holds the red, green and blue of every entry, and `tRNS` the alphas up to the last entry
whose alpha is not 255. ENC.TRAILER appends the twelve bytes of `IEND`, or writes nothing when OUT is full. -/
def Obligations.EncHeaderAndTrailer : Prop :=
  (∀ (s : State) (rgb alphas : Bytes),
    let n := s.enc.palCount.toNat
    let ihdr := be32 s.img.width ++ be32 s.img.height ++ [s.img.bitDepth, s.img.colorType, 0, 0, s.img.interlace]
    rgb.length = 3 * n → (∀ i < n, ∀ j < 3, byteAt rgb (3 * i + j) = s.mem.pal.read (4 * i + j)) →
    alphas.length ≤ n → (∀ i < alphas.length, byteAt alphas i = s.mem.pal.read (4 * i + 3)) →
    (∀ i, alphas.length ≤ i → i < n → s.mem.pal.read (4 * i + 3) = 255) → alphas.getLast? ≠ some 255 →
    s.headerChunks =
      [[0x89, 0x50, 0x4E, 0x47, 0x0D, 0x0A, 0x1A, 0x0A], chunkBytes 0x49484452 ihdr] ++
        (if s.img.colorType ≠ 3 then []
         else if s.enc.emitAlpha = false ∨ alphas = [] then [chunkBytes 0x504C5445 rgb]
         else [chunkBytes 0x504C5445 rgb, chunkBytes 0x74524E53 alphas])) ∧
  (∀ s : State,
    s.enc.state = .valid → s.enc.configChanged = false → s.cfg.wf = true →
    (s.img.colorType = 3 → s.enc.palCount.toNat ≤ 256) →
    (s.outFits s.headerBytes.length →
      exec .encHeader s = .next (finish { s.afterOut s.headerBytes with enc.state := .header })) ∧
    (s.lengthsOk → ¬s.outFits s.headerBytes.length →
      ∃ n, n < s.headerChunks.length ∧ s.outFits (s.headerChunks.take n).flatten.length ∧
        ¬s.outFits (s.headerChunks.take (n + 1)).flatten.length ∧
        exec .encHeader s =
          .next (errorEntry .encode .capacityExceeded 1 (s.afterOut (s.headerChunks.take n).flatten)))) ∧
  ∀ s : State, s.enc.state = .data → s.enc.configChanged = false →
    (s.outFits 12 →
      exec .encTrailer s =
        .next (finish
          { s.afterOut [0x00, 0x00, 0x00, 0x00, 0x49, 0x45, 0x4E, 0x44, 0xAE, 0x42, 0x60, 0x82] with
            enc.state := .done })) ∧
    (¬s.outFits 12 → exec .encTrailer s = .next (errorEntry .encode .capacityExceeded 1 s))

/-- 45_encode.md R780, R782, R802: ENC.DATA filters RAW, deflates the stream, and appends the `IDAT` chunks. Its errors, in
the order its stages meet them: a filtered stream that FILT cannot take (10), a row that the row buffers cannot take (12),
no zlib, a deflated stream that DEFL cannot take (11), and chunks that OUT cannot take (1), where the chunks before the first
that does not fit stay in OUT. They mark the encode failed and leave open only FILT, DEFL, their lengths, `IDAT_COUNT` and
what is hidden of the filter engine and the encoder (60_exceptions.md R930, log 8). The model's choices are in it: the errors
are stated for every format, and for one that is not legal the length of the filtered stream and the bytes placed rest on
log 12 (42_filter.md R508); the hidden count that ENC.DATA leaves rests on log 22 (10_state.md R164). -/
def Obligations.EncDataResult : Prop :=
  (∀ s : State,
    s.enc.state = .header → s.enc.configChanged = false → s.cfg.wf = true → EncDataFits s →
    s.outFits (idatBytes s.enc.maxIdat.toNat s.encDeflated).length →
    ∃ u, exec .encData s = .next (finish (s.afterData u))) ∧
  ∀ (s : State) (e : Err) (info : Word) (n : Nat),
    let pieces := s.encDeflated.toChunks s.enc.maxIdat.toNat
    let rows := rowsFit s.cfg.rowCap s.img.format s.img.interlace s.img.width.toNat s.img.height.toNat
    let placed := (pieces.take n).flatMap (chunkBytes typeIDAT)
    s.enc.state = .header → s.enc.configChanged = false → s.cfg.wf = true → s.lengthsOk →
    s.img.interlace.toNat ≤ 1 → s.img.level.toNat ≤ 3 → s.img.rawBytes ≤ s.cfg.rawCap →
    (n = 0 ∧ s.cfg.filtCap < s.encFiltered.length ∧ e = .capacityExceeded ∧ info = 10) ∨
      (n = 0 ∧ s.encFiltered.length ≤ s.cfg.filtCap ∧ ¬rows ∧ e = .capacityExceeded ∧ info = 12) ∨
      (n = 0 ∧ s.encFiltered.length ≤ s.cfg.filtCap ∧ rows ∧ s.cfg.zlibPresent = false ∧ e = .compressionUnavailable ∧
        info = 0) ∨
      (n = 0 ∧ s.encFiltered.length ≤ s.cfg.filtCap ∧ rows ∧ s.cfg.zlibPresent = true ∧
        s.cfg.deflCap < s.encDeflated.length ∧ e = .capacityExceeded ∧ info = 11) ∨
      (n < pieces.length ∧ s.encFiltered.length ≤ s.cfg.filtCap ∧ rows ∧ s.cfg.zlibPresent = true ∧
        s.encDeflated.length ≤ s.cfg.deflCap ∧ s.enc.maxIdat ≠ 0 ∧ s.outFits placed.length ∧
        ¬s.outFits ((pieces.take (n + 1)).flatMap (chunkBytes typeIDAT)).length ∧ e = .capacityExceeded ∧ info = 1) →
    ∃ (k count : Nat) (u : FilterUnit) (filt defl : Stream) (filtLen deflLen idats : Word),
      exec .encData s =
        .next (errorEntry .encode e info
          { s.afterOut placed with
            flt := u, str.filt := filt, str.defl := defl
            cnt := { (s.afterOut placed).cnt with filtLen := filtLen, deflLen := deflLen, idatCount := idats }
            enc.placed := count, freeIdx := k })

/-- 45_encode.md R760, R782, 30_encoding.md R321: the `IDAT` splitter, run on a closed DEFL with the bytes `d` to read. It
cuts them into pieces: in order they are `d`, there are `ceil_div(len(d), M)` of them, each but the last has exactly `M`
bytes and the last 1 to `M`. Each piece is appended to OUT as one `IDAT` chunk and counted; when OUT cannot take them all,
the chunks before the first that does not fit stay written. That the encoder's hidden count (10_state.md R164) is
`enc.placed`, which grows by the bytes placed, is the model's choice (log 22). -/
def Obligations.IdatPieces : Prop :=
  ∀ (s : State) (d : Bytes),
    s.cfg.wf = true → s.lengthsOk → s.enc.maxIdat ≠ 0 → s.str.defl.closed = true → s.str.defl.unread = d →
    let m := s.enc.maxIdat.toNat
    let chunks := fun ps : List Bytes => ps.flatMap fun p =>
      be32Len p.length ++ [0x49, 0x44, 0x41, 0x54] ++ p ++ be32 (chunkCrc 0x49444154 p)
    ∃ pieces : List Bytes,
      pieces.flatten = d ∧ pieces.length = (d.length + m - 1) / m ∧
      (∀ p ∈ pieces, 1 ≤ p.length ∧ p.length ≤ m) ∧ (∀ p ∈ pieces.dropLast, p.length = m) ∧
      (s.outFits (chunks pieces).length →
        splitIdat s =
          .ok ()
            { s.afterOut (chunks pieces) with
              str.defl := { s.str.defl with rpos := s.str.defl.rpos + d.length }
              cnt :=
                { (s.afterOut (chunks pieces)).cnt with
                  idatCount := s.cnt.idatCount + BitVec.ofNat 32 pieces.length }
              enc.placed := s.enc.placed + d.length }) ∧
      (¬s.outFits (chunks pieces).length →
        ∃ n t, n < pieces.length ∧ s.outFits (chunks (pieces.take n)).length ∧
          ¬s.outFits (chunks (pieces.take (n + 1))).length ∧
          splitIdat s = .raised .capacityExceeded 1 t ∧
          t.mem = (s.afterOut (chunks (pieces.take n))).mem ∧
          t.cnt.outLen = (s.afterOut (chunks (pieces.take n))).cnt.outLen)

/-- 45_encode.md R804, R805: ENCODE, sequential or pipelined, of an image it can hold: OUT holds signature, header chunks,
`IDAT` chunks and `IEND`; the spaces but OUT and the image registers are unchanged. R751, 60_exceptions.md R921: an ENCODE
whose validation fails reports the check that fails first, and leaves every space and `OUT_LEN`; when the first of
ENC.VALIDATE, ENC.HEADER, ENC.DATA and ENC.TRAILER finish and the next fails, ENCODE fails with its code and information, and
leaves OUT and `OUT_LEN` as it does. -/
def Obligations.EncodeFile : Prop :=
  (∀ (pipe : Bool) (s : State) (e : Err) (info : Word), s.validationError = some (e, info) →
    ∃ t, exec (.encode pipe) s = .next t ∧ t.errCode = e.code ∧ t.errInfo = info ∧ t.enc.state = .failed ∧
      t.mem = s.mem ∧ t.cnt.outLen = s.cnt.outLen ∧ t.dec = s.dec ∧ t.img = s.img) ∧
  (∀ (pipe : Bool) (s u t : State) (n : Nat) (i : Instr),
    runInTurn (fun v => v.enc.state == .failed) (encodeStages.take n) s = some u → encodeStages[n]? = some i →
    exec i u = .next t → t.enc.state = .failed →
    ∃ v, exec (.encode pipe) s = .next v ∧ v.errCode = t.errCode ∧ v.errInfo = t.errInfo ∧ v.enc.state = .failed ∧
      v.mem = t.mem ∧ v.cnt.outLen = t.cnt.outLen ∧ v.dec = s.dec ∧ v.img = s.img ∧ v.ch = s.ch ∧ v.crc = s.crc) ∧
  ∀ (pipe : Bool) (s : State),
    s.cfg.wf = true → s.mem.ok s.cfg → s.validationError = none → EncDataFits s →
    let file := s.headerBytes ++ idatBytes s.enc.maxIdat.toNat s.encDeflated ++ chunkBytes typeIEND []
    file.length ≤ s.cfg.outCap →
    ∃ t, exec (.encode pipe) s = .next t ∧
      t.status = { s.status with done := true, busy := false, pipeActive := false } ∧
      t.enc.state = .done ∧ t.cnt.outLen = BitVec.ofNat 32 file.length ∧
      t.mem = { s.mem with outp := s.mem.outp.writeBytes 0 file } ∧
      t.mem.outp.readBytes 0 file.length = file ∧
      t.cnt.filtLen = BitVec.ofNat 32 s.encFiltered.length ∧ t.cnt.deflLen = BitVec.ofNat 32 s.encDeflated.length ∧
      t.cnt.idatCount = BitVec.ofNat 32 (ceilDiv s.encDeflated.length s.enc.maxIdat.toNat) ∧
      t.errCode = s.errCode ∧ t.img = s.img ∧ t.dec = s.dec ∧ t.ctrl = s.ctrl ∧ t.ch = s.ch ∧ t.crc = s.crc

/-- 20_memory.md R232, 45_encode.md R805, 60_exceptions.md R921: a pipelined ENCODE ends in the state of the sequential one,
whatever the interleaving of its stages, errors and their information included. The interleavings are those of the model's
list `State.turns` (log 16), and after an error the free values of the two runs are equal because both runs start from one
counter (log 9): both are the model's choice. -/
def Obligations.PipelinedEncodeEqualsSequential : Prop :=
  ∀ s : State, exec (.encode true) s = exec (.encode false) s

/-! ## Invariants -/

/-- The invariant of Safety.lean holds after reset (70_reset_and_hazards.md R1000, 10_state.md R140). That it does rests on
the model's choice of parameters at reset (log 6) and of empty spaces (log 4). -/
def Obligations.InvariantAtReset : Prop := Inv State.reset

/-- Every step keeps the invariant: the canonical form and the size of every space (10_state.md R140), the bounds of
`IN_LEN` and `OUT_LEN` (R126, R128), the status register's rules (R107-R110), `ERRCODE` only a code that is reported
(60_exceptions.md R901, R904-R906), and the decode sequencer's closed streams and palette bound. That `OUT_LEN` keeps its
bound where an error leaves it unspecified is the model's reading (log 28), and so is the bound of the parameters that the
invariant asks for (log 19). -/
def Obligations.InvariantKept : Prop := ∀ s t : State, Inv s → step s = .next t → Inv t

/-- 60_exceptions.md R952: no command waits forever: from a state of the invariant no step stops with a fault, and a step
of the busy block that the engine takes (an `engine` event, with any interleaving of the stages of a pipelined command, or
no event to come) ends the command (or is refused, 70_reset_and_hazards.md R1023). -/
def Obligations.NoCommandWaitsForever : Prop :=
  ∀ s : State, Inv s → safeStep s ∧
    (s.status.busy = true → (s.port.inbox = [] ∨ ∃ turns rest, s.port.inbox = .engine turns :: rest) →
      (∃ t, step s = .next t ∧ t.status.busy = false ∧ (t.status.done = true ∨ t.status.err = true)) ∨
      step s = .refused .encodeConfigChanged)

/-- 20_memory.md R217, R219, R213-R215: a stream is FIFO: what the consumer can see after any pieces are written and
flushed, and the stream closed, is their concatenation in order, and a read takes the bytes in front. -/
def Obligations.StreamsAreFifo : Prop :=
  ∀ (pieces : List Bytes) (n : Nat),
    let t := (pieces.foldl (fun t p => (t.write p).flush) Stream.fresh)
    t.unread = pieces.flatten ∧ t.total = pieces.flatten.length ∧ t.close.unread = pieces.flatten ∧
    (∀ p, (t.write p).unread = t.unread) ∧
    (n ≤ pieces.flatten.length → t.close.readStrict n = .data (pieces.flatten.take n) (t.close.advance n)) ∧
    (pieces.flatten.length < n → t.readStrict n = .wait ∧ t.close.readStrict n = .unexpectedEof) ∧
    (pieces.flatten = [] → t.readPartial n = .wait ∧ t.close.readPartial n = .endOfFile)
end

