-- ==== Sys2Proof/Laws/Bytes.lean ====
section
/-! SUPPORT. Byte sequences: lengths, byte order, and pieces of a sequence. -/

namespace Sys2Proof.Machine

@[simp] theorem length_be32 (v : Word) : (be32 v).length = 4 := rfl

@[simp] theorem length_be16 (v : BitVec 16) : (be16 v).length = 2 := rfl

@[simp] theorem length_be32Len (n : Nat) : (be32Len n).length = 4 := rfl

@[simp] theorem length_zeros (n : Nat) : (zeros n).length = n := by simp [zeros]

/-- Reading a big-endian word back gives the word (20_memory.md R200). -/
@[simp] theorem u32be_be32 (v : Word) : u32be (be32 v) = v := by
  simp only [u32be, be32, byteAt, List.getD_cons_zero, List.getD_cons_succ]
  apply BitVec.eq_of_getLsbD_eq
  intro i hi
  simp only [BitVec.getLsbD_append, BitVec.getLsbD_extractLsb']
  split
  · rename_i h; simp [h]
  · split
    · rename_i h1 h2; simp [h2]; congr 1; omega
    · split
      · rename_i h1 h2 h3; simp [h3]; congr 1; omega
      · simp; rw [show 24 + (i - 8 - 8 - 8) = i by omega]; simp; omega

/-- A field of a concatenation (00_scope.md R14). -/
theorem slice_append_left (a b : Bytes) : slice (a ++ b) 0 a.length = a := by simp [slice]

theorem slice_append_right (a b : Bytes) : slice (a ++ b) a.length b.length = b := by simp [slice]

theorem length_slice (s : Bytes) (off n : Nat) (h : off + n ≤ s.length) : (slice s off n).length = n := by
  simp [slice]; omega

@[simp] theorem slice_zero_length (s : Bytes) : slice s 0 s.length = s := by simp [slice]

theorem byteAt_eq_getElem {s : Bytes} {i : Nat} (h : i < s.length) : byteAt s i = s[i] := by
  simp [byteAt, List.getD_eq_getElem?_getD, List.getElem?_eq_getElem h]

theorem byteAt_of_length_le {s : Bytes} {i : Nat} (h : s.length ≤ i) : byteAt s i = 0 := by
  simp [byteAt, List.getD_eq_getElem?_getD, List.getElem?_eq_none h]

theorem byteAt_append_left {a b : Bytes} {i : Nat} (h : i < a.length) : byteAt (a ++ b) i = byteAt a i := by
  simp [byteAt, List.getD_eq_getElem?_getD, List.getElem?_append_left h]

theorem byteAt_append_right {a b : Bytes} {i : Nat} (h : a.length ≤ i) :
    byteAt (a ++ b) i = byteAt b (i - a.length) := by
  simp [byteAt, List.getD_eq_getElem?_getD, List.getElem?_append_right h]

/-- Two sequences of one length are equal when their bytes are. -/
theorem ext_byteAt {a b : Bytes} (hl : a.length = b.length) (h : ∀ i < a.length, byteAt a i = byteAt b i) : a = b := by
  apply List.ext_getElem hl
  intro i h1 h2
  have := h i h1
  rwa [byteAt_eq_getElem h1, byteAt_eq_getElem h2] at this

/-- `s[off .. off+n)` byte by byte. -/
theorem byteAt_slice (s : Bytes) (off n i : Nat) (h : i < n) : byteAt (slice s off n) i = byteAt s (off + i) := by
  simp [byteAt, slice, List.getD_eq_getElem?_getD, List.getElem?_take_of_lt h]

theorem length_overwrite (s : Bytes) (off : Nat) (v : Bytes) (h : off + v.length ≤ s.length) :
    (overwrite s off v).length = s.length := by
  simp [overwrite]; omega

/-- `s[off .. off+len(v)) <- v` byte by byte. -/
theorem byteAt_overwrite (s : Bytes) (off : Nat) (v : Bytes) (i : Nat) (h : off + v.length ≤ s.length) :
    byteAt (overwrite s off v) i = if off ≤ i ∧ i < off + v.length then byteAt v (i - off) else byteAt s i := by
  have hl : (s.take off).length = off := by simp; omega
  unfold overwrite
  by_cases h1 : i < off
  · rw [if_neg (by omega), List.append_assoc, byteAt_append_left (by omega)]
    simp [byteAt, List.getD_eq_getElem?_getD, List.getElem?_take_of_lt h1]
  · rw [List.append_assoc, byteAt_append_right (by omega), hl]
    by_cases h2 : i < off + v.length
    · rw [if_pos (by omega), byteAt_append_left (by omega)]
    · rw [if_neg (by omega), byteAt_append_right (by omega)]
      simp [byteAt, List.getD_eq_getElem?_getD]
      rw [show off + v.length + (i - off - v.length) = i by omega]

end Sys2Proof.Machine
end

