-- ==== Sys2Proof/Laws/Memory.lean ====
section
/-! SUPPORT. Byte memories: a read after a write, the canonical form under every memory operation, and that equal reads
make equal canonical memories. -/

namespace Sys2Proof.Machine

/-! ## Reads -/

@[simp] theorem Memory.read_nil (a : Nat) : Memory.read [] a = 0 := rfl

theorem Memory.read_write (m : Memory) (a b : Nat) (v : Byte) (hm : m.wf) :
    (m.write a v).read b = if b = a then v else m.read b := by
  induction m with
  | nil =>
    by_cases hv : v = Memory.unlisted
    · subst hv; simp [Memory.write, Memory.read, Memory.unlisted]
    · simp [Memory.write, Memory.read, hv]
  | cons c rest ih =>
    obtain ⟨k, w⟩ := c
    obtain ⟨hp, hn⟩ := hm
    rw [List.pairwise_cons] at hp
    have hrest : Memory.wf rest := ⟨hp.2, fun c hc => hn c (List.mem_cons_of_mem _ hc)⟩
    have above : ∀ x, x < k ∨ x = k → Memory.read rest x = 0 := by
      intro x hx
      have hgt : ∀ c ∈ rest, x < c.1 := fun c hc => by have := hp.1 c hc; simp only at this; omega
      clear ih hn hp hrest
      induction rest with
      | nil => rfl
      | cons d ds ih2 =>
        obtain ⟨kd, vd⟩ := d
        have h1 := hgt (kd, vd) (List.mem_cons_self ..)
        have : ¬ x = kd := by simp only at h1; omega
        simp only [Memory.read, this, if_false]
        exact ih2 (fun c hc => hgt c (List.mem_cons_of_mem _ hc))
    simp only [Memory.write]
    split
    · rename_i hak
      split
      · rename_i hv
        subst hv
        split
        · rename_i hba; subst hba
          have : ¬ b = k := by omega
          simp only [Memory.read, this, if_false, if_true]; rw [above b (Or.inl hak)]; rfl
        · rfl
      · simp only [Memory.read]
    · split
      · rename_i h1 h2
        subst h2
        split
        · rename_i hv
          subst hv
          split
          · rename_i hba; subst hba; rw [above b (Or.inr rfl)]; rfl
          · rename_i hba; simp [Memory.read, hba]
        · split
          · rename_i hba; simp [Memory.read, hba]
          · rename_i hba; simp [Memory.read, hba]
      · rename_i h1 h2
        simp only [Memory.read]
        split
        · rename_i hbk
          have : ¬ b = a := by omega
          simp [this]
        · exact ih hrest

@[simp] theorem Memory.read_write_same (m : Memory) (a : Nat) (v : Byte) (hm : m.wf) : (m.write a v).read a = v := by
  simp [Memory.read_write m a a v hm]

theorem Memory.read_write_other (m : Memory) (a b : Nat) (v : Byte) (hm : m.wf) (h : b ≠ a) :
    (m.write a v).read b = m.read b := by
  simp [Memory.read_write m a b v hm, h]

/-! ## The canonical form -/

theorem Memory.mem_write {m : Memory} {a : Nat} {v : Byte} {c : Host.Cell} (h : c ∈ m.write a v) :
    c ∈ m ∨ (c = (a, v) ∧ v ≠ Memory.unlisted) := by
  induction m with
  | nil =>
    simp only [Memory.write] at h
    split at h
    · simp at h
    · rename_i hv; simp at h; exact Or.inr ⟨h, hv⟩
  | cons d rest ih =>
    obtain ⟨k, w⟩ := d
    simp only [Memory.write] at h
    split at h
    · split at h
      · exact Or.inl h
      · rename_i hv
        rcases List.mem_cons.1 h with h | h
        · exact Or.inr ⟨h, hv⟩
        · exact Or.inl h
    · split at h
      · split at h
        · exact Or.inl (List.mem_cons_of_mem _ h)
        · rename_i hv
          rcases List.mem_cons.1 h with h | h
          · exact Or.inr ⟨h, hv⟩
          · exact Or.inl (List.mem_cons_of_mem _ h)
      · rcases List.mem_cons.1 h with h | h
        · exact Or.inl (h ▸ List.mem_cons_self ..)
        · rcases ih h with h | h
          · exact Or.inl (List.mem_cons_of_mem _ h)
          · exact Or.inr h

theorem Memory.wf_nil : Memory.wf [] := ⟨List.Pairwise.nil, by simp⟩

theorem Memory.wf_write (m : Memory) (a : Nat) (v : Byte) (hm : m.wf) : (m.write a v).wf := by
  refine ⟨?_, fun c hc => ?_⟩
  · obtain ⟨hp, -⟩ := hm
    induction m with
    | nil => simp only [Memory.write]; split <;> simp
    | cons d rest ih =>
      obtain ⟨k, w⟩ := d
      rw [List.pairwise_cons] at hp
      simp only [Memory.write]
      split
      · rename_i hak
        split
        · exact List.pairwise_cons.2 hp
        · refine List.pairwise_cons.2 ⟨fun c hc => ?_, List.pairwise_cons.2 hp⟩
          rcases List.mem_cons.1 hc with h | h
          · subst h; exact hak
          · have := hp.1 c h; simp only at this ⊢; omega
      · split
        · rename_i h1 h2
          subst h2
          split
          · exact hp.2
          · exact List.pairwise_cons.2 hp
        · rename_i h1 h2
          refine List.pairwise_cons.2 ⟨fun c hc => ?_, ih hp.2⟩
          rcases Memory.mem_write hc with h | h
          · exact hp.1 c h
          · rw [h.1]; simp only; omega
  · rcases Memory.mem_write hc with h | h
    · exact hm.2 c h
    · rw [h.1]; exact h.2

theorem Memory.below_write (m : Memory) (a cap : Nat) (v : Byte) (hm : m.below cap) (ha : a < cap) :
    (m.write a v).below cap := by
  intro c hc
  rcases Memory.mem_write hc with h | h
  · exact hm c h
  · rw [h.1]; exact ha

theorem Memory.wf_writeBytes (m : Memory) (off : Nat) (vs : Bytes) (hm : m.wf) : (m.writeBytes off vs).wf := by
  induction vs generalizing m off with
  | nil => exact hm
  | cons v vs ih => exact ih _ _ (m.wf_write off v hm)

theorem Memory.below_writeBytes (m : Memory) (off cap : Nat) (vs : Bytes) (hm : m.below cap)
    (h : off + vs.length ≤ cap) : (m.writeBytes off vs).below cap := by
  induction vs generalizing m off with
  | nil => exact hm
  | cons v vs ih =>
    simp only [List.length_cons] at h
    exact ih _ _ (m.below_write off cap v hm (by omega)) (by omega)

/-- What any byte reads after a byte sequence is written. -/
theorem Memory.read_writeBytes (m : Memory) (off a : Nat) (vs : Bytes) (hm : m.wf) :
    (m.writeBytes off vs).read a =
      if off ≤ a ∧ a < off + vs.length then vs.getD (a - off) 0 else m.read a := by
  induction vs generalizing m off with
  | nil =>
    have : ¬(off ≤ a ∧ a < off + ([] : Bytes).length) := by simp
    rw [if_neg this]; rfl
  | cons v vs ih =>
    simp only [Memory.writeBytes]
    rw [ih _ _ (m.wf_write off v hm)]
    by_cases h1 : off + 1 ≤ a ∧ a < off + 1 + vs.length
    · have h2 : off ≤ a ∧ a < off + (v :: vs).length := by simp only [List.length_cons]; omega
      rw [if_pos h1, if_pos h2]
      obtain ⟨k, rfl⟩ : ∃ k, a = off + 1 + k := ⟨a - (off + 1), by omega⟩
      have e1 : off + 1 + k - (off + 1) = k := by omega
      have e2 : off + 1 + k - off = k + 1 := by omega
      simp [e1, e2]
    · rw [if_neg h1, Memory.read_write m off a v hm]
      by_cases h3 : a = off
      · subst h3; simp
      · have : ¬(off ≤ a ∧ a < off + (v :: vs).length) := by simp only [List.length_cons]; omega
        rw [if_neg this, if_neg h3]

theorem Memory.read_writeBytes_outside (m : Memory) (off a : Nat) (vs : Bytes) (hm : m.wf)
    (h : a < off ∨ off + vs.length ≤ a) : (m.writeBytes off vs).read a = m.read a := by
  rw [Memory.read_writeBytes m off a vs hm, if_neg (by omega)]

@[simp] theorem Memory.length_readBytes (m : Memory) (off n : Nat) : (m.readBytes off n).length = n := by
  simp [Memory.readBytes]

theorem Memory.getElem_readBytes (m : Memory) (off n i : Nat) (h : i < n) :
    (m.readBytes off n)[i]'(by simpa using h) = m.read (off + i) := by
  simp [Memory.readBytes, List.getElem_range']

theorem Memory.readBytes_add (m : Memory) (off a b : Nat) :
    m.readBytes off (a + b) = m.readBytes off a ++ m.readBytes (off + a) b := by
  simp only [Memory.readBytes, ← List.map_append]
  rw [show off + a = off + 1 * a by omega, List.range'_append]

@[simp] theorem Memory.readBytes_zero (m : Memory) (off : Nat) : m.readBytes off 0 = [] := rfl

/-- Reading back what was written. -/
theorem Memory.readBytes_writeBytes (m : Memory) (off : Nat) (vs : Bytes) (hm : m.wf) :
    (m.writeBytes off vs).readBytes off vs.length = vs := by
  apply List.ext_getElem (by simp)
  intro i h1 h2
  rw [Memory.getElem_readBytes _ _ _ _ h2, Memory.read_writeBytes m off _ vs hm, if_pos (by omega)]
  simp [h2]

theorem Memory.writeBytes_append (m : Memory) (off : Nat) (u v : Bytes) :
    m.writeBytes off (u ++ v) = (m.writeBytes off u).writeBytes (off + u.length) v := by
  induction u generalizing m off with
  | nil => simp [Memory.writeBytes]
  | cons a u ih =>
    simp only [List.cons_append, Memory.writeBytes, List.length_cons, ih]
    rw [show off + 1 + u.length = off + (u.length + 1) by omega]

/-- Two canonical memories with the same reads are equal. -/
theorem Memory.ext_read (m n : Memory) (hm : m.wf) (hn : n.wf) (h : ∀ a, m.read a = n.read a) : m = n := by
  have zero_below : ∀ (p : Memory) (k : Nat), (∀ c ∈ p, k < c.1) → p.read k = 0 := by
    intro p k hp
    induction p with
    | nil => rfl
    | cons d ds ih =>
      obtain ⟨kd, vd⟩ := d
      have h1 := hp (kd, vd) (List.mem_cons_self ..)
      have : ¬ k = kd := by simp only at h1; omega
      simp only [Memory.read, this, if_false]
      exact ih fun c hc => hp c (List.mem_cons_of_mem _ hc)
  induction m generalizing n with
  | nil =>
    cases n with
    | nil => rfl
    | cons d ds =>
      obtain ⟨k, v⟩ := d
      have := h k
      simp only [Memory.read, if_true] at this
      exact absurd this.symm (hn.2 (k, v) (List.mem_cons_self ..))
  | cons c rest ih =>
    obtain ⟨k, v⟩ := c
    have hvne : v ≠ Memory.unlisted := hm.2 (k, v) (List.mem_cons_self ..)
    cases n with
    | nil =>
      have := h k
      simp only [Memory.read, if_true] at this
      exact absurd this hvne
    | cons d ds =>
      obtain ⟨j, w⟩ := d
      have hwne : w ≠ Memory.unlisted := hn.2 (j, w) (List.mem_cons_self ..)
      have p1 := (List.pairwise_cons.1 hm.1)
      have p2 := (List.pairwise_cons.1 hn.1)
      have hkj : k = j := by
        rcases Nat.lt_trichotomy k j with hlt | heq | hgt
        · have h1 := h k
          have : Memory.read ((j, w) :: ds) k = 0 := zero_below _ k fun c hc => by
            rcases List.mem_cons.1 hc with e | e
            · subst e; exact hlt
            · have := p2.1 c e; simp only at this; omega
          rw [this] at h1
          simp only [Memory.read, if_true] at h1
          exact absurd h1 hvne
        · exact heq
        · have h1 := h j
          have : Memory.read ((k, v) :: rest) j = 0 := zero_below _ j fun c hc => by
            rcases List.mem_cons.1 hc with e | e
            · subst e; exact hgt
            · have := p1.1 c e; simp only at this; omega
          rw [this] at h1
          simp only [Memory.read, if_true] at h1
          exact absurd h1.symm hwne
      subst hkj
      have hvw : v = w := by have := h k; simpa [Memory.read] using this
      subst hvw
      congr 1
      apply ih ds ⟨p1.2, fun c hc => hm.2 c (List.mem_cons_of_mem _ hc)⟩
        ⟨p2.2, fun c hc => hn.2 c (List.mem_cons_of_mem _ hc)⟩
      intro a
      by_cases ha : a = k
      · subst ha
        rw [zero_below rest a fun c hc => p1.1 c hc, zero_below ds a fun c hc => p2.1 c hc]
      · have := h a
        simpa [Memory.read, ha] using this

theorem Memory.wf_ofCells (cap : Nat) (cells : List Host.Cell) :
    (Memory.ofCells cap cells).wf ∧ (Memory.ofCells cap cells).below cap := by
  unfold Memory.ofCells
  have : ∀ (cells : List Host.Cell) (m : Memory), m.wf ∧ m.below cap →
      (cells.foldl (fun m c => if c.1 < cap then m.write c.1 c.2 else m) m).wf ∧
      (cells.foldl (fun m c => if c.1 < cap then m.write c.1 c.2 else m) m).below cap := by
    intro cells
    induction cells with
    | nil => intro m h; exact h
    | cons c cs ih =>
      intro m h
      simp only [List.foldl_cons]
      apply ih
      split
      · rename_i hc; exact ⟨m.wf_write _ _ h.1, m.below_write _ _ _ h.2 hc⟩
      · exact h
  exact this cells [] ⟨Memory.wf_nil, by simp⟩

theorem Memory.wf_fill (f : Nat → Byte) (n : Nat) (m : Memory) (hm : m.wf) (h : ∀ c ∈ m, n ≤ c.1) :
    (Memory.fill f n m).wf := by
  induction n generalizing m with
  | zero => exact hm
  | succ n ih =>
    simp only [Memory.fill]
    split
    · exact ih m hm fun c hc => by have := h c hc; omega
    · rename_i hv
      apply ih
      · refine ⟨List.pairwise_cons.2 ⟨fun c hc => ?_, hm.1⟩, fun c hc => ?_⟩
        · have := h c hc; simp only; omega
        · rcases List.mem_cons.1 hc with e | e
          · rw [e]; exact hv
          · exact hm.2 c e
      · intro c hc
        rcases List.mem_cons.1 hc with e | e
        · rw [e]
        · have := h c e; omega

theorem Memory.below_fill (f : Nat → Byte) (n cap : Nat) (m : Memory) (hm : m.below cap) (h : n ≤ cap) :
    (Memory.fill f n m).below cap := by
  induction n generalizing m with
  | zero => exact hm
  | succ n ih =>
    simp only [Memory.fill]
    apply ih
    · split
      · exact hm
      · intro c hc
        rcases List.mem_cons.1 hc with e | e
        · rw [e]; simp only; omega
        · exact hm c e
    · omega

/-! ## Spaces -/

theorem freeRange_wf (c : Config) (k slot : Nat) (sp : Space) (off n : Nat) (m : Memory) (hm : m.wf) :
    (freeRange c k slot sp off n m).wf := Memory.wf_writeBytes _ _ _ hm

theorem freeRange_below (c : Config) (k slot : Nat) (sp : Space) (off n : Nat) (m : Memory) (hm : m.below (sp.cap c)) :
    (freeRange c k slot sp off n m).below (sp.cap c) := by
  by_cases h : off ≤ sp.cap c
  · exact Memory.below_writeBytes _ _ _ _ hm (by simp only [List.length_map, List.length_range]; omega)
  · have h0 : min n (sp.cap c - off) = 0 := by omega
    simp only [freeRange, h0, List.range_zero, List.map_nil]
    exact hm

/-- A range of free values leaves the bytes outside it. -/
theorem freeRange_read_outside (c : Config) (k slot : Nat) (sp : Space) (off n a : Nat) (m : Memory) (hm : m.wf)
    (h : a < off ∨ off + n ≤ a) : (freeRange c k slot sp off n m).read a = m.read a :=
  Memory.read_writeBytes_outside m off a _ hm (by simp only [List.length_map, List.length_range]; omega)

@[simp] theorem Spaces.get_set_same (m : Spaces) (sp : Space) (v : Memory) : (m.set sp v).get sp = v := by
  cases sp <;> rfl

theorem Spaces.get_set_other (m : Spaces) (sp sq : Space) (v : Memory) (h : sq ≠ sp) :
    (m.set sp v).get sq = m.get sq := by
  cases sp <;> cases sq <;> first | rfl | exact absurd rfl h

@[simp] theorem Streams.get_set_same (t : Streams) (i : StreamId) (v : Stream) : (t.set i v).get i = v := by
  cases i <;> rfl

theorem Streams.get_set_other (t : Streams) (i j : StreamId) (v : Stream) (h : j ≠ i) :
    (t.set i v).get j = t.get j := by
  cases i <;> cases j <;> first | rfl | exact absurd rfl h

/-! ## Compaction -/

/-- Compaction leaves the bytes the consumer has not read (20_memory.md R216). -/
@[simp] theorem Stream.compact_unread (t : Stream) : t.compact.unread = t.unread := by
  simp [Stream.compact, Stream.unread]

/-- A strict read gives the same bytes after compaction (20_memory.md R216). -/
theorem Stream.compact_readStrict {t : Stream} {n : Nat} {v : Bytes} {after : Stream}
    (h : t.readStrict n = .data v after) : ∃ after', t.compact.readStrict n = .data v after' ∧
      after'.unread = after.unread := by
  unfold Stream.readStrict at h
  split at h
  · rename_i hn
    cases h
    refine ⟨t.compact.advance n, ?_, ?_⟩
    · unfold Stream.readStrict
      rw [Stream.compact_unread, if_pos hn]
    · simp [Stream.advance, Stream.unread, Stream.compact, List.drop_drop]
  · split at h <;> cases h

end Sys2Proof.Machine
end

