-- ==== Sys2Proof/Laws/State.lean ====
section
/-! SUPPORT. For each named update of the state, one lemma per field. -/

namespace Sys2Proof.Machine

@[simp] theorem State.setSpace_cfg (s : State) (sp : Space) (v : Memory) :
    (s.setSpace sp v).cfg = s.cfg := rfl
@[simp] theorem State.setSpace_ctrl (s : State) (sp : Space) (v : Memory) :
    (s.setSpace sp v).ctrl = s.ctrl := rfl
@[simp] theorem State.setSpace_status (s : State) (sp : Space) (v : Memory) :
    (s.setSpace sp v).status = s.status := rfl
@[simp] theorem State.setSpace_cmd (s : State) (sp : Space) (v : Memory) :
    (s.setSpace sp v).cmd = s.cmd := rfl
@[simp] theorem State.setSpace_errCode (s : State) (sp : Space) (v : Memory) :
    (s.setSpace sp v).errCode = s.errCode := rfl
@[simp] theorem State.setSpace_errInfo (s : State) (sp : Space) (v : Memory) :
    (s.setSpace sp v).errInfo = s.errInfo := rfl
@[simp] theorem State.setSpace_crc (s : State) (sp : Space) (v : Memory) :
    (s.setSpace sp v).crc = s.crc := rfl
@[simp] theorem State.setSpace_ch (s : State) (sp : Space) (v : Memory) :
    (s.setSpace sp v).ch = s.ch := rfl
@[simp] theorem State.setSpace_img (s : State) (sp : Space) (v : Memory) :
    (s.setSpace sp v).img = s.img := rfl
@[simp] theorem State.setSpace_enc (s : State) (sp : Space) (v : Memory) :
    (s.setSpace sp v).enc = s.enc := rfl
@[simp] theorem State.setSpace_dec (s : State) (sp : Space) (v : Memory) :
    (s.setSpace sp v).dec = s.dec := rfl
@[simp] theorem State.setSpace_cnt (s : State) (sp : Space) (v : Memory) :
    (s.setSpace sp v).cnt = s.cnt := rfl
@[simp] theorem State.setSpace_mem (s : State) (sp : Space) (v : Memory) :
    (s.setSpace sp v).mem = s.mem.set sp v := rfl
@[simp] theorem State.setSpace_str (s : State) (sp : Space) (v : Memory) :
    (s.setSpace sp v).str = s.str := rfl
@[simp] theorem State.setSpace_flt (s : State) (sp : Space) (v : Memory) :
    (s.setSpace sp v).flt = s.flt := rfl
@[simp] theorem State.setSpace_inReset (s : State) (sp : Space) (v : Memory) :
    (s.setSpace sp v).inReset = s.inReset := rfl
@[simp] theorem State.setSpace_turns (s : State) (sp : Space) (v : Memory) :
    (s.setSpace sp v).turns = s.turns := rfl
@[simp] theorem State.setSpace_freeIdx (s : State) (sp : Space) (v : Memory) :
    (s.setSpace sp v).freeIdx = s.freeIdx := rfl
@[simp] theorem State.setSpace_port (s : State) (sp : Space) (v : Memory) :
    (s.setSpace sp v).port = s.port := rfl

@[simp] theorem State.setStream_cfg (s : State) (i : StreamId) (v : Stream) :
    (s.setStream i v).cfg = s.cfg := rfl
@[simp] theorem State.setStream_ctrl (s : State) (i : StreamId) (v : Stream) :
    (s.setStream i v).ctrl = s.ctrl := rfl
@[simp] theorem State.setStream_status (s : State) (i : StreamId) (v : Stream) :
    (s.setStream i v).status = s.status := rfl
@[simp] theorem State.setStream_cmd (s : State) (i : StreamId) (v : Stream) :
    (s.setStream i v).cmd = s.cmd := rfl
@[simp] theorem State.setStream_errCode (s : State) (i : StreamId) (v : Stream) :
    (s.setStream i v).errCode = s.errCode := rfl
@[simp] theorem State.setStream_errInfo (s : State) (i : StreamId) (v : Stream) :
    (s.setStream i v).errInfo = s.errInfo := rfl
@[simp] theorem State.setStream_crc (s : State) (i : StreamId) (v : Stream) :
    (s.setStream i v).crc = s.crc := rfl
@[simp] theorem State.setStream_ch (s : State) (i : StreamId) (v : Stream) :
    (s.setStream i v).ch = s.ch := rfl
@[simp] theorem State.setStream_img (s : State) (i : StreamId) (v : Stream) :
    (s.setStream i v).img = s.img := rfl
@[simp] theorem State.setStream_enc (s : State) (i : StreamId) (v : Stream) :
    (s.setStream i v).enc = s.enc := rfl
@[simp] theorem State.setStream_dec (s : State) (i : StreamId) (v : Stream) :
    (s.setStream i v).dec = s.dec := rfl
@[simp] theorem State.setStream_cnt (s : State) (i : StreamId) (v : Stream) :
    (s.setStream i v).cnt = s.cnt := rfl
@[simp] theorem State.setStream_mem (s : State) (i : StreamId) (v : Stream) :
    (s.setStream i v).mem = s.mem := rfl
@[simp] theorem State.setStream_str (s : State) (i : StreamId) (v : Stream) :
    (s.setStream i v).str = s.str.set i v := rfl
@[simp] theorem State.setStream_flt (s : State) (i : StreamId) (v : Stream) :
    (s.setStream i v).flt = s.flt := rfl
@[simp] theorem State.setStream_inReset (s : State) (i : StreamId) (v : Stream) :
    (s.setStream i v).inReset = s.inReset := rfl
@[simp] theorem State.setStream_turns (s : State) (i : StreamId) (v : Stream) :
    (s.setStream i v).turns = s.turns := rfl
@[simp] theorem State.setStream_freeIdx (s : State) (i : StreamId) (v : Stream) :
    (s.setStream i v).freeIdx = s.freeIdx := rfl
@[simp] theorem State.setStream_port (s : State) (i : StreamId) (v : Stream) :
    (s.setStream i v).port = s.port := rfl

@[simp] theorem finish_cfg (s : State) :
    (finish s).cfg = s.cfg := rfl
@[simp] theorem finish_ctrl (s : State) :
    (finish s).ctrl = s.ctrl := rfl
@[simp] theorem finish_status (s : State) :
    (finish s).status = { s.status with done := true, busy := false, pipeActive := false } := rfl
@[simp] theorem finish_cmd (s : State) :
    (finish s).cmd = s.cmd := rfl
@[simp] theorem finish_errCode (s : State) :
    (finish s).errCode = s.errCode := rfl
@[simp] theorem finish_errInfo (s : State) :
    (finish s).errInfo = s.errInfo := rfl
@[simp] theorem finish_crc (s : State) :
    (finish s).crc = s.crc := rfl
@[simp] theorem finish_ch (s : State) :
    (finish s).ch = s.ch := rfl
@[simp] theorem finish_img (s : State) :
    (finish s).img = s.img := rfl
@[simp] theorem finish_enc (s : State) :
    (finish s).enc = s.enc := rfl
@[simp] theorem finish_dec (s : State) :
    (finish s).dec = s.dec := rfl
@[simp] theorem finish_cnt (s : State) :
    (finish s).cnt = s.cnt := rfl
@[simp] theorem finish_mem (s : State) :
    (finish s).mem = s.mem := rfl
@[simp] theorem finish_str (s : State) :
    (finish s).str = s.str := rfl
@[simp] theorem finish_flt (s : State) :
    (finish s).flt = s.flt := rfl
@[simp] theorem finish_inReset (s : State) :
    (finish s).inReset = s.inReset := rfl
@[simp] theorem finish_turns (s : State) :
    (finish s).turns = [] := rfl
@[simp] theorem finish_freeIdx (s : State) :
    (finish s).freeIdx = s.freeIdx := rfl
@[simp] theorem finish_port (s : State) :
    (finish s).port = s.port := rfl

@[simp] theorem errorEntry_cfg (fam : Family) (e : Err) (info : Word) (s : State) :
    (errorEntry fam e info s).cfg = s.cfg := rfl
@[simp] theorem errorEntry_ctrl (fam : Family) (e : Err) (info : Word) (s : State) :
    (errorEntry fam e info s).ctrl = s.ctrl := rfl
@[simp] theorem errorEntry_status (fam : Family) (e : Err) (info : Word) (s : State) :
    (errorEntry fam e info s).status = { s.status with err := true, busy := false, pipeActive := false } := rfl
@[simp] theorem errorEntry_cmd (fam : Family) (e : Err) (info : Word) (s : State) :
    (errorEntry fam e info s).cmd = s.cmd := rfl
@[simp] theorem errorEntry_errCode (fam : Family) (e : Err) (info : Word) (s : State) :
    (errorEntry fam e info s).errCode = e.code := rfl
@[simp] theorem errorEntry_errInfo (fam : Family) (e : Err) (info : Word) (s : State) :
    (errorEntry fam e info s).errInfo = info := rfl
@[simp] theorem errorEntry_crc (fam : Family) (e : Err) (info : Word) (s : State) :
    (errorEntry fam e info s).crc = s.crc := rfl
@[simp] theorem errorEntry_ch (fam : Family) (e : Err) (info : Word) (s : State) :
    (errorEntry fam e info s).ch = s.ch := rfl
@[simp] theorem errorEntry_img (fam : Family) (e : Err) (info : Word) (s : State) :
    (errorEntry fam e info s).img = s.img := rfl
@[simp] theorem errorEntry_enc (fam : Family) (e : Err) (info : Word) (s : State) :
    (errorEntry fam e info s).enc = { s.enc with state := if fam = .encode then .failed else s.enc.state } := rfl
@[simp] theorem errorEntry_dec (fam : Family) (e : Err) (info : Word) (s : State) :
    (errorEntry fam e info s).dec = { s.dec with state := if fam = .decode then .failed else s.dec.state } := rfl
@[simp] theorem errorEntry_cnt (fam : Family) (e : Err) (info : Word) (s : State) :
    (errorEntry fam e info s).cnt = s.cnt := rfl
@[simp] theorem errorEntry_mem (fam : Family) (e : Err) (info : Word) (s : State) :
    (errorEntry fam e info s).mem = s.mem := rfl
@[simp] theorem errorEntry_str (fam : Family) (e : Err) (info : Word) (s : State) :
    (errorEntry fam e info s).str = s.str.closeAll := rfl
@[simp] theorem errorEntry_flt (fam : Family) (e : Err) (info : Word) (s : State) :
    (errorEntry fam e info s).flt = s.flt := rfl
@[simp] theorem errorEntry_inReset (fam : Family) (e : Err) (info : Word) (s : State) :
    (errorEntry fam e info s).inReset = s.inReset := rfl
@[simp] theorem errorEntry_turns (fam : Family) (e : Err) (info : Word) (s : State) :
    (errorEntry fam e info s).turns = [] := rfl
@[simp] theorem errorEntry_freeIdx (fam : Family) (e : Err) (info : Word) (s : State) :
    (errorEntry fam e info s).freeIdx = s.freeIdx := rfl
@[simp] theorem errorEntry_port (fam : Family) (e : Err) (info : Word) (s : State) :
    (errorEntry fam e info s).port = s.port := rfl

@[simp] theorem clearState_cfg (s : State) :
    (clearState s).cfg = s.cfg := rfl
@[simp] theorem clearState_ctrl (s : State) :
    (clearState s).ctrl = s.ctrl := rfl
@[simp] theorem clearState_cmd (s : State) :
    (clearState s).cmd = s.cmd := rfl
@[simp] theorem clearState_errCode (s : State) :
    (clearState s).errCode = s.errCode := rfl
@[simp] theorem clearState_errInfo (s : State) :
    (clearState s).errInfo = s.errInfo := rfl
@[simp] theorem clearState_crc (s : State) :
    (clearState s).crc = s.crc := rfl
@[simp] theorem clearState_ch (s : State) :
    (clearState s).ch = s.ch := rfl
@[simp] theorem clearState_img (s : State) :
    (clearState s).img = s.img := rfl
@[simp] theorem clearState_mem (s : State) :
    (clearState s).mem = s.mem := rfl
@[simp] theorem clearState_inReset (s : State) :
    (clearState s).inReset = s.inReset := rfl
@[simp] theorem clearState_turns (s : State) :
    (clearState s).turns = s.turns := rfl
@[simp] theorem clearState_freeIdx (s : State) :
    (clearState s).freeIdx = s.freeIdx := rfl
@[simp] theorem clearState_port (s : State) :
    (clearState s).port = s.port := rfl

@[simp] theorem decStartState_cfg (s : State) :
    (decStartState s).cfg = s.cfg := rfl
@[simp] theorem decStartState_ctrl (s : State) :
    (decStartState s).ctrl = s.ctrl := rfl
@[simp] theorem decStartState_status (s : State) :
    (decStartState s).status = s.status := rfl
@[simp] theorem decStartState_cmd (s : State) :
    (decStartState s).cmd = s.cmd := rfl
@[simp] theorem decStartState_errCode (s : State) :
    (decStartState s).errCode = s.errCode := rfl
@[simp] theorem decStartState_errInfo (s : State) :
    (decStartState s).errInfo = s.errInfo := rfl
@[simp] theorem decStartState_crc (s : State) :
    (decStartState s).crc = s.crc := rfl
@[simp] theorem decStartState_ch (s : State) :
    (decStartState s).ch = s.ch := rfl
@[simp] theorem decStartState_img (s : State) :
    (decStartState s).img = s.img := rfl
@[simp] theorem decStartState_enc (s : State) :
    (decStartState s).enc = s.enc := rfl
@[simp] theorem decStartState_mem (s : State) :
    (decStartState s).mem = s.mem := rfl
@[simp] theorem decStartState_flt (s : State) :
    (decStartState s).flt = s.flt := rfl
@[simp] theorem decStartState_inReset (s : State) :
    (decStartState s).inReset = s.inReset := rfl
@[simp] theorem decStartState_turns (s : State) :
    (decStartState s).turns = s.turns := rfl
@[simp] theorem decStartState_freeIdx (s : State) :
    (decStartState s).freeIdx = s.freeIdx := rfl
@[simp] theorem decStartState_port (s : State) :
    (decStartState s).port = s.port := rfl

@[simp] theorem dataStartState_cfg (s : State) :
    (dataStartState s).cfg = s.cfg := rfl
@[simp] theorem dataStartState_ctrl (s : State) :
    (dataStartState s).ctrl = s.ctrl := rfl
@[simp] theorem dataStartState_status (s : State) :
    (dataStartState s).status = s.status := rfl
@[simp] theorem dataStartState_cmd (s : State) :
    (dataStartState s).cmd = s.cmd := rfl
@[simp] theorem dataStartState_errCode (s : State) :
    (dataStartState s).errCode = s.errCode := rfl
@[simp] theorem dataStartState_errInfo (s : State) :
    (dataStartState s).errInfo = s.errInfo := rfl
@[simp] theorem dataStartState_crc (s : State) :
    (dataStartState s).crc = s.crc := rfl
@[simp] theorem dataStartState_ch (s : State) :
    (dataStartState s).ch = s.ch := rfl
@[simp] theorem dataStartState_img (s : State) :
    (dataStartState s).img = s.img := rfl
@[simp] theorem dataStartState_dec (s : State) :
    (dataStartState s).dec = s.dec := rfl
@[simp] theorem dataStartState_mem (s : State) :
    (dataStartState s).mem = s.mem := rfl
@[simp] theorem dataStartState_flt (s : State) :
    (dataStartState s).flt = s.flt := rfl
@[simp] theorem dataStartState_inReset (s : State) :
    (dataStartState s).inReset = s.inReset := rfl
@[simp] theorem dataStartState_turns (s : State) :
    (dataStartState s).turns = s.turns := rfl
@[simp] theorem dataStartState_freeIdx (s : State) :
    (dataStartState s).freeIdx = s.freeIdx := rfl
@[simp] theorem dataStartState_port (s : State) :
    (dataStartState s).port = s.port := rfl

@[simp] theorem State.withOutSide_cfg (s : State) (o : OutSide) :
    (s.withOutSide o).cfg = s.cfg := rfl
@[simp] theorem State.withOutSide_ctrl (s : State) (o : OutSide) :
    (s.withOutSide o).ctrl = s.ctrl := rfl
@[simp] theorem State.withOutSide_status (s : State) (o : OutSide) :
    (s.withOutSide o).status = s.status := rfl
@[simp] theorem State.withOutSide_cmd (s : State) (o : OutSide) :
    (s.withOutSide o).cmd = s.cmd := rfl
@[simp] theorem State.withOutSide_errCode (s : State) (o : OutSide) :
    (s.withOutSide o).errCode = s.errCode := rfl
@[simp] theorem State.withOutSide_errInfo (s : State) (o : OutSide) :
    (s.withOutSide o).errInfo = s.errInfo := rfl
@[simp] theorem State.withOutSide_crc (s : State) (o : OutSide) :
    (s.withOutSide o).crc = s.crc := rfl
@[simp] theorem State.withOutSide_ch (s : State) (o : OutSide) :
    (s.withOutSide o).ch = s.ch := rfl
@[simp] theorem State.withOutSide_img (s : State) (o : OutSide) :
    (s.withOutSide o).img = s.img := rfl
@[simp] theorem State.withOutSide_dec (s : State) (o : OutSide) :
    (s.withOutSide o).dec = s.dec := rfl
@[simp] theorem State.withOutSide_str (s : State) (o : OutSide) :
    (s.withOutSide o).str = s.str := rfl
@[simp] theorem State.withOutSide_flt (s : State) (o : OutSide) :
    (s.withOutSide o).flt = s.flt := rfl
@[simp] theorem State.withOutSide_inReset (s : State) (o : OutSide) :
    (s.withOutSide o).inReset = s.inReset := rfl
@[simp] theorem State.withOutSide_turns (s : State) (o : OutSide) :
    (s.withOutSide o).turns = s.turns := rfl
@[simp] theorem State.withOutSide_freeIdx (s : State) (o : OutSide) :
    (s.withOutSide o).freeIdx = s.freeIdx := rfl
@[simp] theorem State.withOutSide_port (s : State) (o : OutSide) :
    (s.withOutSide o).port = s.port := rfl

@[simp] theorem State.accept_cfg (w : Word) (s : State) :
    (s.accept w).cfg = s.cfg := rfl
@[simp] theorem State.accept_ctrl (w : Word) (s : State) :
    (s.accept w).ctrl = s.ctrl := rfl
@[simp] theorem State.accept_status (w : Word) (s : State) :
    (s.accept w).status = { s.status with busy := true, done := false, err := false, pipeActive := pipeActiveOf w, op := opcodeOf w } := rfl
@[simp] theorem State.accept_cmd (w : Word) (s : State) :
    (s.accept w).cmd = w := rfl
@[simp] theorem State.accept_errCode (w : Word) (s : State) :
    (s.accept w).errCode = 0 := rfl
@[simp] theorem State.accept_errInfo (w : Word) (s : State) :
    (s.accept w).errInfo = 0 := rfl
@[simp] theorem State.accept_crc (w : Word) (s : State) :
    (s.accept w).crc = s.crc := rfl
@[simp] theorem State.accept_ch (w : Word) (s : State) :
    (s.accept w).ch = s.ch := rfl
@[simp] theorem State.accept_img (w : Word) (s : State) :
    (s.accept w).img = s.img := rfl
@[simp] theorem State.accept_enc (w : Word) (s : State) :
    (s.accept w).enc = s.enc := rfl
@[simp] theorem State.accept_dec (w : Word) (s : State) :
    (s.accept w).dec = s.dec := rfl
@[simp] theorem State.accept_cnt (w : Word) (s : State) :
    (s.accept w).cnt = s.cnt := rfl
@[simp] theorem State.accept_mem (w : Word) (s : State) :
    (s.accept w).mem = s.mem := rfl
@[simp] theorem State.accept_str (w : Word) (s : State) :
    (s.accept w).str = s.str := rfl
@[simp] theorem State.accept_flt (w : Word) (s : State) :
    (s.accept w).flt = s.flt := rfl
@[simp] theorem State.accept_inReset (w : Word) (s : State) :
    (s.accept w).inReset = s.inReset := rfl
@[simp] theorem State.accept_turns (w : Word) (s : State) :
    (s.accept w).turns = s.turns := rfl
@[simp] theorem State.accept_freeIdx (w : Word) (s : State) :
    (s.accept w).freeIdx = s.freeIdx := rfl
@[simp] theorem State.accept_port (w : Word) (s : State) :
    (s.accept w).port = s.port := rfl

@[simp] theorem State.returned_cfg (s : State) (v : Word × Nat) :
    (s.returned v).cfg = s.cfg := rfl
@[simp] theorem State.returned_ctrl (s : State) (v : Word × Nat) :
    (s.returned v).ctrl = s.ctrl := rfl
@[simp] theorem State.returned_status (s : State) (v : Word × Nat) :
    (s.returned v).status = s.status := rfl
@[simp] theorem State.returned_cmd (s : State) (v : Word × Nat) :
    (s.returned v).cmd = s.cmd := rfl
@[simp] theorem State.returned_errCode (s : State) (v : Word × Nat) :
    (s.returned v).errCode = s.errCode := rfl
@[simp] theorem State.returned_errInfo (s : State) (v : Word × Nat) :
    (s.returned v).errInfo = s.errInfo := rfl
@[simp] theorem State.returned_crc (s : State) (v : Word × Nat) :
    (s.returned v).crc = s.crc := rfl
@[simp] theorem State.returned_ch (s : State) (v : Word × Nat) :
    (s.returned v).ch = s.ch := rfl
@[simp] theorem State.returned_img (s : State) (v : Word × Nat) :
    (s.returned v).img = s.img := rfl
@[simp] theorem State.returned_enc (s : State) (v : Word × Nat) :
    (s.returned v).enc = s.enc := rfl
@[simp] theorem State.returned_dec (s : State) (v : Word × Nat) :
    (s.returned v).dec = s.dec := rfl
@[simp] theorem State.returned_cnt (s : State) (v : Word × Nat) :
    (s.returned v).cnt = s.cnt := rfl
@[simp] theorem State.returned_mem (s : State) (v : Word × Nat) :
    (s.returned v).mem = s.mem := rfl
@[simp] theorem State.returned_str (s : State) (v : Word × Nat) :
    (s.returned v).str = s.str := rfl
@[simp] theorem State.returned_flt (s : State) (v : Word × Nat) :
    (s.returned v).flt = s.flt := rfl
@[simp] theorem State.returned_inReset (s : State) (v : Word × Nat) :
    (s.returned v).inReset = s.inReset := rfl
@[simp] theorem State.returned_turns (s : State) (v : Word × Nat) :
    (s.returned v).turns = s.turns := rfl
@[simp] theorem State.returned_freeIdx (s : State) (v : Word × Nat) :
    (s.returned v).freeIdx = v.2 := rfl
@[simp] theorem State.returned_port (s : State) (v : Word × Nat) :
    (s.returned v).port = { s.port with readData := v.1 } := rfl

@[simp] theorem State.withInbox_cfg (s : State) (rest : List HostEvent) :
    (s.withInbox rest).cfg = s.cfg := rfl
@[simp] theorem State.withInbox_ctrl (s : State) (rest : List HostEvent) :
    (s.withInbox rest).ctrl = s.ctrl := rfl
@[simp] theorem State.withInbox_status (s : State) (rest : List HostEvent) :
    (s.withInbox rest).status = s.status := rfl
@[simp] theorem State.withInbox_cmd (s : State) (rest : List HostEvent) :
    (s.withInbox rest).cmd = s.cmd := rfl
@[simp] theorem State.withInbox_errCode (s : State) (rest : List HostEvent) :
    (s.withInbox rest).errCode = s.errCode := rfl
@[simp] theorem State.withInbox_errInfo (s : State) (rest : List HostEvent) :
    (s.withInbox rest).errInfo = s.errInfo := rfl
@[simp] theorem State.withInbox_crc (s : State) (rest : List HostEvent) :
    (s.withInbox rest).crc = s.crc := rfl
@[simp] theorem State.withInbox_ch (s : State) (rest : List HostEvent) :
    (s.withInbox rest).ch = s.ch := rfl
@[simp] theorem State.withInbox_img (s : State) (rest : List HostEvent) :
    (s.withInbox rest).img = s.img := rfl
@[simp] theorem State.withInbox_enc (s : State) (rest : List HostEvent) :
    (s.withInbox rest).enc = s.enc := rfl
@[simp] theorem State.withInbox_dec (s : State) (rest : List HostEvent) :
    (s.withInbox rest).dec = s.dec := rfl
@[simp] theorem State.withInbox_cnt (s : State) (rest : List HostEvent) :
    (s.withInbox rest).cnt = s.cnt := rfl
@[simp] theorem State.withInbox_mem (s : State) (rest : List HostEvent) :
    (s.withInbox rest).mem = s.mem := rfl
@[simp] theorem State.withInbox_str (s : State) (rest : List HostEvent) :
    (s.withInbox rest).str = s.str := rfl
@[simp] theorem State.withInbox_flt (s : State) (rest : List HostEvent) :
    (s.withInbox rest).flt = s.flt := rfl
@[simp] theorem State.withInbox_inReset (s : State) (rest : List HostEvent) :
    (s.withInbox rest).inReset = s.inReset := rfl
@[simp] theorem State.withInbox_turns (s : State) (rest : List HostEvent) :
    (s.withInbox rest).turns = s.turns := rfl
@[simp] theorem State.withInbox_freeIdx (s : State) (rest : List HostEvent) :
    (s.withInbox rest).freeIdx = s.freeIdx := rfl
@[simp] theorem State.withInbox_port (s : State) (rest : List HostEvent) :
    (s.withInbox rest).port = { s.port with inbox := rest } := rfl

@[simp] theorem State.afterIn_cfg (s : State) (n : Nat) :
    (s.afterIn n).cfg = s.cfg := rfl
@[simp] theorem State.afterIn_ctrl (s : State) (n : Nat) :
    (s.afterIn n).ctrl = s.ctrl := rfl
@[simp] theorem State.afterIn_status (s : State) (n : Nat) :
    (s.afterIn n).status = s.status := rfl
@[simp] theorem State.afterIn_cmd (s : State) (n : Nat) :
    (s.afterIn n).cmd = s.cmd := rfl
@[simp] theorem State.afterIn_errCode (s : State) (n : Nat) :
    (s.afterIn n).errCode = s.errCode := rfl
@[simp] theorem State.afterIn_errInfo (s : State) (n : Nat) :
    (s.afterIn n).errInfo = s.errInfo := rfl
@[simp] theorem State.afterIn_crc (s : State) (n : Nat) :
    (s.afterIn n).crc = s.crc := rfl
@[simp] theorem State.afterIn_ch (s : State) (n : Nat) :
    (s.afterIn n).ch = s.ch := rfl
@[simp] theorem State.afterIn_img (s : State) (n : Nat) :
    (s.afterIn n).img = s.img := rfl
@[simp] theorem State.afterIn_enc (s : State) (n : Nat) :
    (s.afterIn n).enc = s.enc := rfl
@[simp] theorem State.afterIn_dec (s : State) (n : Nat) :
    (s.afterIn n).dec = s.dec := rfl
@[simp] theorem State.afterIn_cnt (s : State) (n : Nat) :
    (s.afterIn n).cnt = { s.cnt with inPos := s.cnt.inPos + BitVec.ofNat 32 n } := rfl
@[simp] theorem State.afterIn_mem (s : State) (n : Nat) :
    (s.afterIn n).mem = s.mem := rfl
@[simp] theorem State.afterIn_str (s : State) (n : Nat) :
    (s.afterIn n).str = s.str := rfl
@[simp] theorem State.afterIn_flt (s : State) (n : Nat) :
    (s.afterIn n).flt = s.flt := rfl
@[simp] theorem State.afterIn_inReset (s : State) (n : Nat) :
    (s.afterIn n).inReset = s.inReset := rfl
@[simp] theorem State.afterIn_turns (s : State) (n : Nat) :
    (s.afterIn n).turns = s.turns := rfl
@[simp] theorem State.afterIn_freeIdx (s : State) (n : Nat) :
    (s.afterIn n).freeIdx = s.freeIdx := rfl
@[simp] theorem State.afterIn_port (s : State) (n : Nat) :
    (s.afterIn n).port = s.port := rfl

@[simp] theorem State.afterOut_cfg (s : State) (v : Bytes) :
    (s.afterOut v).cfg = s.cfg := rfl
@[simp] theorem State.afterOut_ctrl (s : State) (v : Bytes) :
    (s.afterOut v).ctrl = s.ctrl := rfl
@[simp] theorem State.afterOut_status (s : State) (v : Bytes) :
    (s.afterOut v).status = s.status := rfl
@[simp] theorem State.afterOut_cmd (s : State) (v : Bytes) :
    (s.afterOut v).cmd = s.cmd := rfl
@[simp] theorem State.afterOut_errCode (s : State) (v : Bytes) :
    (s.afterOut v).errCode = s.errCode := rfl
@[simp] theorem State.afterOut_errInfo (s : State) (v : Bytes) :
    (s.afterOut v).errInfo = s.errInfo := rfl
@[simp] theorem State.afterOut_crc (s : State) (v : Bytes) :
    (s.afterOut v).crc = s.crc := rfl
@[simp] theorem State.afterOut_ch (s : State) (v : Bytes) :
    (s.afterOut v).ch = s.ch := rfl
@[simp] theorem State.afterOut_img (s : State) (v : Bytes) :
    (s.afterOut v).img = s.img := rfl
@[simp] theorem State.afterOut_enc (s : State) (v : Bytes) :
    (s.afterOut v).enc = s.enc := rfl
@[simp] theorem State.afterOut_dec (s : State) (v : Bytes) :
    (s.afterOut v).dec = s.dec := rfl
@[simp] theorem State.afterOut_cnt (s : State) (v : Bytes) :
    (s.afterOut v).cnt = { s.cnt with outLen := s.cnt.outLen + BitVec.ofNat 32 v.length } := rfl
@[simp] theorem State.afterOut_mem (s : State) (v : Bytes) :
    (s.afterOut v).mem = s.mem.set .outp (s.mem.outp.writeBytes s.cnt.outLen.toNat v) := rfl
@[simp] theorem State.afterOut_str (s : State) (v : Bytes) :
    (s.afterOut v).str = s.str := rfl
@[simp] theorem State.afterOut_flt (s : State) (v : Bytes) :
    (s.afterOut v).flt = s.flt := rfl
@[simp] theorem State.afterOut_inReset (s : State) (v : Bytes) :
    (s.afterOut v).inReset = s.inReset := rfl
@[simp] theorem State.afterOut_turns (s : State) (v : Bytes) :
    (s.afterOut v).turns = s.turns := rfl
@[simp] theorem State.afterOut_freeIdx (s : State) (v : Bytes) :
    (s.afterOut v).freeIdx = s.freeIdx := rfl
@[simp] theorem State.afterOut_port (s : State) (v : Bytes) :
    (s.afterOut v).port = s.port := rfl

end Sys2Proof.Machine
end

