-- ==== Sys2Proof/Laws/Cmd.lean ====
section
/-! SUPPORT. Pieces of pseudocode: how each runs, what each shared operation can do, and a rule for each way of putting
pieces together (`Cmd.Triple`). -/

namespace Sys2Proof.Machine

/-! ## How the combinators run -/

@[simp] theorem Cmd.ret_run {α : Type} (a : α) (s : State) : Cmd.ret a s = .ok a s := rfl

@[simp] theorem Cmd.raise_run {α : Type} (e : Err) (info : Word) (s : State) :
    (Cmd.raise e info : Cmd α) s = .raised e info s := rfl

@[simp] theorem Cmd.look_run {α : Type} (f : State → α) (s : State) : Cmd.look f s = .ok (f s) s := rfl

@[simp] theorem Cmd.update_run (f : State → State) (s : State) : Cmd.update f s = .ok () (f s) := rfl

theorem Cmd.bind_run {α β : Type} (m : Cmd α) (f : α → Cmd β) (s : State) :
    m.bind f s =
      match m s with
      | .ok a t => f a t
      | .raised e info t => .raised e info t
      | .stuck x => .stuck x
      | .refuse r => .refuse r := rfl

theorem Cmd.bind_ok {α β : Type} {m : Cmd α} {f : α → Cmd β} {s t : State} {a : α} (h : m s = .ok a t) :
    m.bind f s = f a t := by simp [Cmd.bind_run, h]

theorem Cmd.bind_raised {α β : Type} {m : Cmd α} {f : α → Cmd β} {s t : State} {e : Err} {info : Word}
    (h : m s = .raised e info t) : m.bind f s = .raised e info t := by simp [Cmd.bind_run, h]

theorem Cmd.andThen_run {α β : Type} (m : Cmd α) (n : Cmd β) (s : State) :
    m.andThen n s =
      match m s with
      | .ok _ t => n t
      | .raised e info t => .raised e info t
      | .stuck x => .stuck x
      | .refuse r => .refuse r := rfl

theorem Cmd.andThen_ok {α β : Type} {m : Cmd α} {n : Cmd β} {s t : State} {a : α} (h : m s = .ok a t) :
    m.andThen n s = n t := by simp [Cmd.andThen_run, h]

theorem Cmd.andThen_raised {α β : Type} {m : Cmd α} {n : Cmd β} {s t : State} {e : Err} {info : Word}
    (h : m s = .raised e info t) : m.andThen n s = .raised e info t := by simp [Cmd.andThen_run, h]

theorem Cmd.onRaise_ok {α : Type} {m : Cmd α} {f : Err → State → State} {s t : State} {a : α} (h : m s = .ok a t) :
    m.onRaise f s = .ok a t := by simp [Cmd.onRaise, h]

theorem Cmd.onRaise_raised {α : Type} {m : Cmd α} {f : Err → State → State} {s t : State} {e : Err} {info : Word}
    (h : m s = .raised e info t) : m.onRaise f s = .raised e info (f e t) := by simp [Cmd.onRaise, h]

theorem Cmd.leaving_ok {α : Type} {m : Cmd α} {items : List Item} {s t : State} {a : α} (h : m s = .ok a t) :
    m.leaving items s = .ok a t := Cmd.onRaise_ok h

theorem Cmd.leaving_raised {α : Type} {m : Cmd α} {items : List Item} {s t : State} {e : Err} {info : Word}
    (h : m s = .raised e info t) : m.leaving items s = .raised e info (unspecified items t) := Cmd.onRaise_raised h

theorem Cmd.raiseIf_false {e : Err} {info : Word} {c : Bool} (h : c = false) (s : State) :
    Cmd.raiseIf c e info s = .ok () s := by simp [Cmd.raiseIf, h]

theorem Cmd.raiseIf_true {e : Err} {info : Word} {c : Bool} (h : c = true) (s : State) :
    Cmd.raiseIf c e info s = .raised e info s := by simp [Cmd.raiseIf, h]

/-- Sequencing associates. -/
theorem Cmd.andThen_assoc {α β γ : Type} (m : Cmd α) (n : Cmd β) (p : Cmd γ) :
    (m.andThen n).andThen p = m.andThen (n.andThen p) := by
  funext s
  simp only [Cmd.andThen_run]
  cases m s <;> rfl

theorem Cmd.bind_andThen {α β γ : Type} (m : Cmd α) (f : α → Cmd β) (p : Cmd γ) :
    (m.bind f).andThen p = m.bind fun a => (f a).andThen p := by
  funext s
  simp only [Cmd.andThen_run, Cmd.bind_run]
  cases m s <;> rfl

theorem runCommand_ok {fam : Family} {body : Cmd Unit} {s t : State} {a : Unit} (h : body s = .ok a t) :
    runCommand fam body s = .next (finish t) := by simp [runCommand, h]

theorem runCommand_raised {fam : Family} {body : Cmd Unit} {s t : State} {e : Err} {info : Word}
    (h : body s = .raised e info t) : runCommand fam body s = .next (errorEntry fam e info t) := by
  simp [runCommand, h]

/-! ## Triples -/

/-- From a state with `P`, the piece ends with `Q`, or raises an error with `R`, or the model refuses to go on; it never
waits for ever. -/
def Cmd.Triple {α : Type} (P : State → Prop) (m : Cmd α) (Q : α → State → Prop) (R : Err → State → Prop) : Prop :=
  ∀ s, P s →
    match m s with
    | .ok a t => Q a t
    | .raised e _ t => R e t
    | .stuck _ => False
    | .refuse r => r = .encodeConfigChanged

section Triples

variable {α β : Type} {P P' : State → Prop} {Q : α → State → Prop} {Q' : β → State → Prop} {R R' : Err → State → Prop}

theorem Cmd.Triple.conseq {Q₁ : α → State → Prop} {m : Cmd α} (h : Cmd.Triple P m Q R) (hp : ∀ s, P' s → P s)
    (hq : ∀ a s, Q a s → Q₁ a s) (hr : ∀ e s, R e s → R' e s) : Cmd.Triple P' m Q₁ R' := by
  intro s hs
  have := h s (hp s hs)
  revert this
  cases m s <;> simp only <;> intro h
  · exact hq _ _ h
  · exact hr _ _ h
  · exact h
  · exact h

theorem Cmd.Triple.ret (a : α) (h : ∀ s, P s → Q a s) : Cmd.Triple P (Cmd.ret a) Q R := h

theorem Cmd.Triple.raise (e : Err) (info : Word) (h : ∀ s, P s → R e s) :
    Cmd.Triple P (Cmd.raise e info : Cmd α) Q R := h

theorem Cmd.Triple.update (f : State → State) {Q : Unit → State → Prop} (h : ∀ s, P s → Q () (f s)) :
    Cmd.Triple P (Cmd.update f) Q R := h

theorem Cmd.Triple.look (f : State → α) (h : ∀ s, P s → Q (f s) s) : Cmd.Triple P (Cmd.look f) Q R := h

theorem Cmd.Triple.raiseIf {c : Bool} {e : Err} {info : Word} {Q : Unit → State → Prop}
    (h1 : c = true → ∀ s, P s → R e s) (h2 : c = false → ∀ s, P s → Q () s) :
    Cmd.Triple P (Cmd.raiseIf c e info) Q R := by
  intro s hs
  unfold Cmd.raiseIf
  cases hc : c
  · exact h2 hc s hs
  · exact h1 hc s hs

theorem Cmd.Triple.bind {m : Cmd α} {f : α → Cmd β} (h1 : Cmd.Triple P m Q R) (h2 : ∀ a, Cmd.Triple (Q a) (f a) Q' R) :
    Cmd.Triple P (m.bind f) Q' R := by
  intro s hs
  have := h1 s hs
  revert this
  simp only [Cmd.bind_run]
  cases m s <;> simp only <;> intro h
  · exact h2 _ _ h
  · exact h
  · exact h
  · exact h

theorem Cmd.Triple.andThen {m : Cmd α} {n : Cmd β} (h1 : Cmd.Triple P m Q R) (h2 : ∀ a, Cmd.Triple (Q a) n Q' R) :
    Cmd.Triple P (m.andThen n) Q' R := Cmd.Triple.bind h1 h2

theorem Cmd.Triple.onRaise {m : Cmd α} {f : Err → State → State} (h : Cmd.Triple P m Q R)
    (hf : ∀ e s, R e s → R' e (f e s)) : Cmd.Triple P (m.onRaise f) Q R' := by
  intro s hs
  have := h s hs
  revert this
  unfold Cmd.onRaise
  cases m s <;> simp only <;> intro h
  · exact h
  · exact hf _ _ h
  · exact h
  · exact h

theorem Cmd.Triple.leaving {m : Cmd α} {items : List Item} (h : Cmd.Triple P m Q R)
    (hf : ∀ e s, R e s → R' e (unspecified items s)) : Cmd.Triple P (m.leaving items) Q R' := h.onRaise hf

theorem Cmd.Triple.forEach {f : β → Cmd Unit} {l : List β} {P : State → Prop}
    (h : ∀ b ∈ l, Cmd.Triple P (f b) (fun _ => P) R) : Cmd.Triple P (Cmd.forEach f l) (fun _ => P) R := by
  induction l with
  | nil => exact fun s hs => hs
  | cons b rest ih =>
    exact Cmd.Triple.andThen (h b (List.mem_cons_self ..)) fun _ => ih fun c hc => h c (List.mem_cons_of_mem _ hc)

/-- A triple for a piece that looks at the state it starts in. -/
theorem Cmd.Triple.at {m : State → Cmd α} (h : ∀ s, P s → Cmd.Triple (· = s) (m s) Q R) :
    Cmd.Triple P (fun s => m s s) Q R := fun s hs => h s hs s rfl

end Triples

/-! ## What a piece that goes on does -/

/-- Where the piece goes on, the state before and the state after are related. -/
def Cmd.Steps {α : Type} (r : State → State → Prop) (m : Cmd α) : Prop := ∀ s a t, m s = .ok a t → r s t

section Steps

variable {α β : Type} {r r₁ r₂ : State → State → Prop}

theorem Cmd.Steps.ret (a : α) (h : ∀ s, r s s) : Cmd.Steps r (Cmd.ret a) := by
  intro s b t ht; cases ht; exact h s

theorem Cmd.Steps.look (f : State → α) (h : ∀ s, r s s) : Cmd.Steps r (Cmd.look f) := by
  intro s b t ht; cases ht; exact h s

theorem Cmd.Steps.update (f : State → State) (h : ∀ s, r s (f s)) : Cmd.Steps r (Cmd.update f) := by
  intro s b t ht; cases ht; exact h s

theorem Cmd.Steps.raise (e : Err) (info : Word) : Cmd.Steps r (Cmd.raise e info : Cmd α) := by
  intro s b t ht; cases ht

theorem Cmd.Steps.raiseIf (c : Bool) (e : Err) (info : Word) (h : ∀ s, r s s) : Cmd.Steps r (Cmd.raiseIf c e info) := by
  intro s b t ht
  unfold Cmd.raiseIf at ht
  split at ht
  · cases ht
  · cases ht; exact h s

theorem Cmd.Steps.bind {m : Cmd α} {f : α → Cmd β} (h1 : Cmd.Steps r₁ m) (h2 : ∀ a, Cmd.Steps r₂ (f a))
    (h : ∀ s t u, r₁ s t → r₂ t u → r s u) : Cmd.Steps r (m.bind f) := by
  intro s b u hu
  rw [Cmd.bind_run] at hu
  cases hm : m s with
  | ok a t => rw [hm] at hu; exact h s t u (h1 s a t hm) (h2 a t b u hu)
  | raised e info t => rw [hm] at hu; cases hu
  | stuck x => rw [hm] at hu; cases hu
  | refuse x => rw [hm] at hu; cases hu

theorem Cmd.Steps.andThen {m : Cmd α} {n : Cmd β} (h1 : Cmd.Steps r₁ m) (h2 : Cmd.Steps r₂ n)
    (h : ∀ s t u, r₁ s t → r₂ t u → r s u) : Cmd.Steps r (m.andThen n) := Cmd.Steps.bind h1 (fun _ => h2) h

theorem Cmd.Steps.onRaise {m : Cmd α} {f : Err → State → State} (h : Cmd.Steps r m) : Cmd.Steps r (m.onRaise f) := by
  intro s a t ht
  unfold Cmd.onRaise at ht
  cases hm : m s <;> rw [hm] at ht <;> cases ht
  exact h _ _ _ hm

theorem Cmd.Steps.leaving {m : Cmd α} {items : List Item} (h : Cmd.Steps r m) : Cmd.Steps r (m.leaving items) :=
  h.onRaise

theorem Cmd.Steps.forEach {f : β → Cmd Unit} (l : List β) (h : ∀ b ∈ l, Cmd.Steps r (f b)) (h0 : ∀ s, r s s)
    (ht : ∀ s t u, r s t → r t u → r s u) : Cmd.Steps r (Cmd.forEach f l) := by
  induction l with
  | nil => exact Cmd.Steps.ret _ h0
  | cons b rest ih =>
    exact Cmd.Steps.andThen (h b (List.mem_cons_self ..)) (ih fun c hc => h c (List.mem_cons_of_mem _ hc)) ht

end Steps

/-! ## What each shared operation can do -/

theorem memRead_run (sp : Space) (off n : Nat) (s : State) :
    memRead sp off n s =
      if sp.cap s.cfg < off + n then .raised .capacityExceeded sp.id s
      else .ok ((s.mem.get sp).readBytes off n) s := rfl

theorem memRead_ok {sp : Space} {off n : Nat} {s : State} (h : off + n ≤ sp.cap s.cfg) :
    memRead sp off n s = .ok ((s.mem.get sp).readBytes off n) s := by
  rw [memRead_run, if_neg (by omega)]

theorem memRead_raised {sp : Space} {off n : Nat} {s : State} (h : sp.cap s.cfg < off + n) :
    memRead sp off n s = .raised .capacityExceeded sp.id s := by
  rw [memRead_run, if_pos h]

theorem memWrite_run (sp : Space) (off : Nat) (v : Bytes) (s : State) :
    memWrite sp off v s =
      if sp.cap s.cfg < off + v.length then .raised .capacityExceeded sp.id s
      else .ok () (s.setSpace sp ((s.mem.get sp).writeBytes off v)) := rfl

theorem memWrite_ok {sp : Space} {off : Nat} {v : Bytes} {s : State} (h : off + v.length ≤ sp.cap s.cfg) :
    memWrite sp off v s = .ok () (s.setSpace sp ((s.mem.get sp).writeBytes off v)) := by
  rw [memWrite_run, if_neg (by omega)]

theorem readIn_run (n : Nat) (s : State) :
    readIn n s =
      if inAvail s < n then .raised .unexpectedEof 0 s
      else .ok (s.mem.inp.readBytes s.cnt.inPos.toNat n) (s.afterIn n) := rfl

theorem readIn_ok {n : Nat} {s : State} (h : n ≤ inAvail s) :
    readIn n s = .ok (s.mem.inp.readBytes s.cnt.inPos.toNat n) (s.afterIn n) := by
  rw [readIn_run, if_neg (by omega)]

theorem readIn_raised {n : Nat} {s : State} (h : inAvail s < n) : readIn n s = .raised .unexpectedEof 0 s := by
  rw [readIn_run, if_pos h]

theorem readU32_ok {s : State} (h : 4 ≤ inAvail s) :
    readU32 s = .ok (u32be (s.mem.inp.readBytes s.cnt.inPos.toNat 4)) (s.afterIn 4) := by
  rw [readU32, Cmd.bind_ok (readIn_ok h)]; rfl

theorem readU32_raised {s : State} (h : inAvail s < 4) : readU32 s = .raised .unexpectedEof 0 s := by
  rw [readU32, Cmd.bind_raised (readIn_raised h)]

theorem outWrite_run (v : Bytes) (s : State) :
    outWrite v s =
      if s.cfg.outCap < s.cnt.outLen.toNat + v.length then .raised .capacityExceeded Space.outp.id s
      else .ok () (s.afterOut v) := rfl

theorem outWrite_ok {v : Bytes} {s : State} (h : s.outFits v.length) : outWrite v s = .ok () (s.afterOut v) := by
  rw [outWrite_run, if_neg (by have := h; unfold State.outFits at this; omega)]

theorem outWrite_raised {v : Bytes} {s : State} (h : ¬s.outFits v.length) :
    outWrite v s = .raised .capacityExceeded Space.outp.id s := by
  rw [outWrite_run, if_pos (by unfold State.outFits at h; omega)]

theorem streamWrite_run (i : StreamId) (v : Bytes) (s : State) :
    streamWrite i v s =
      if (s.str.get i).closed then .raised .updatingClosedStream 0 s
      else if i.cap s.cfg < (s.str.get i).total + v.length then .raised .capacityExceeded i.id s
      else .ok () (s.setStream i ((s.str.get i).write v)) := rfl

theorem streamWrite_ok {i : StreamId} {v : Bytes} {s : State} (h1 : (s.str.get i).closed = false)
    (h2 : (s.str.get i).total + v.length ≤ i.cap s.cfg) :
    streamWrite i v s = .ok () (s.setStream i ((s.str.get i).write v)) := by
  rw [streamWrite_run, if_neg (by simp [h1]), if_neg (by omega)]

@[simp] theorem setFlt_run (u : FilterUnit) (s : State) : setFlt u s = .ok () { s with flt := u } := rfl

/-- A scanline that OUT takes: the engine's registers stand as at its write. -/
theorem writeRow_ok {u : FilterUnit} {v : Bytes} {s : State} (h : s.outFits v.length) :
    writeRow .outSpace (u, v) s = .ok () { s.afterOut v with flt := u } := by
  rw [writeRow, Cmd.andThen_ok (setFlt_run u s)]
  exact outWrite_ok (s := { s with flt := u }) h

/-- A scanline that OUT cannot take leaves OUT, and the engine's registers as at its write (42_filter.md R530). -/
theorem writeRow_raised {u : FilterUnit} {v : Bytes} {s : State} (h : ¬s.outFits v.length) :
    writeRow .outSpace (u, v) s = .raised .capacityExceeded Space.outp.id { s with flt := u } := by
  rw [writeRow, Cmd.andThen_ok (setFlt_run u s)]
  exact outWrite_raised (s := { s with flt := u }) h

theorem readAll_ok {i : StreamId} {s : State} (h : (s.str.get i).closed = true) :
    readAll i s =
      .ok (s.str.get i).unread (s.setStream i ((s.str.get i).advance (s.str.get i).unread.length)) := by
  simp [readAll, h]

/-! ## Cursors -/

theorem inAvail_afterIn {s : State} {n : Nat} (h : n ≤ inAvail s) : inAvail (s.afterIn n) = inAvail s - n := by
  have h1 := s.cnt.inLen.isLt
  unfold inAvail at h ⊢
  simp only [State.afterIn_cnt, BitVec.toNat_add, BitVec.toNat_ofNat]
  have : (s.cnt.inPos.toNat + n % 2 ^ 32) % 2 ^ 32 = s.cnt.inPos.toNat + n ∨ n = 0 := by
    rcases Nat.eq_zero_or_pos n with h0 | h0
    · exact Or.inr h0
    · left
      rw [Nat.mod_eq_of_lt (show n < 2 ^ 32 by omega), Nat.mod_eq_of_lt (by omega)]
  rcases this with h2 | h2
  · rw [h2]; omega
  · subst h2; simp [Nat.mod_eq_of_lt s.cnt.inPos.isLt]

theorem inPos_afterIn {s : State} {n : Nat} (h : n ≤ inAvail s) :
    (s.afterIn n).cnt.inPos.toNat = s.cnt.inPos.toNat + n := by
  have h1 := s.cnt.inLen.isLt
  have h3 := s.cnt.inPos.isLt
  unfold inAvail at h
  simp only [State.afterIn_cnt, BitVec.toNat_add, BitVec.toNat_ofNat]
  rcases Nat.eq_zero_or_pos n with h0 | h0
  · subst h0; simp; omega
  · rw [Nat.mod_eq_of_lt (show n < 2 ^ 32 by omega), Nat.mod_eq_of_lt (by omega)]

@[simp] theorem State.afterIn_zero (s : State) : s.afterIn 0 = s := by
  simp [State.afterIn]

theorem State.afterIn_afterIn (s : State) (a b : Nat) : (s.afterIn a).afterIn b = s.afterIn (a + b) := by
  simp [State.afterIn, BitVec.add_assoc, BitVec.ofNat_add]

theorem outLen_afterOut {s : State} {v : Bytes} (h : s.outFits v.length) (hw : s.cfg.outCap < 2 ^ 32) :
    (s.afterOut v).cnt.outLen.toNat = s.cnt.outLen.toNat + v.length := by
  unfold State.outFits at h
  simp only [State.afterOut_cnt, BitVec.toNat_add, BitVec.toNat_ofNat]
  rw [Nat.mod_eq_of_lt (show v.length < 2 ^ 32 by omega), Nat.mod_eq_of_lt (by omega)]

theorem State.afterOut_afterOut (s : State) (u v : Bytes) (h : s.outFits u.length) (hw : s.cfg.outCap < 2 ^ 32) :
    (s.afterOut u).afterOut v = s.afterOut (u ++ v) := by
  have h1 := outLen_afterOut h hw
  conv_lhs => rw [State.afterOut]
  conv_rhs => rw [State.afterOut]
  rw [h1]
  simp [State.afterOut, State.setSpace, Spaces.set, Memory.writeBytes_append, BitVec.add_assoc, BitVec.ofNat_add]

@[simp] theorem State.afterOut_nil (s : State) : s.afterOut [] = s := by
  simp [State.afterOut, State.setSpace, Spaces.set, Memory.writeBytes]

end Sys2Proof.Machine
end

