-- ==== Sys2Proof/Laws/Chunk.lean ====
section
/-! SUPPORT. Reading what IN holds: byte sequences, words and chunks (20_memory.md R211, 41_framer.md R450). -/

namespace Sys2Proof.Machine

/-- What IN holds can be read in two pieces. -/
theorem State.inHolds_append {s : State} {u v : Bytes} (h : s.inHolds (u ++ v)) :
    s.inHolds u ∧ (s.afterIn u.length).inHolds v := by
  obtain ⟨h1, h2⟩ := h
  rw [List.length_append] at h1 h2
  rw [Memory.readBytes_add] at h2
  have h3 := List.append_inj h2 (by simp)
  refine ⟨⟨by omega, h3.1⟩, ?_, ?_⟩
  · rw [inAvail_afterIn (by omega)]; omega
  · rw [inPos_afterIn (by omega)]; exact h3.2

/-- A strict read of what IN holds. -/
theorem readIn_holds {s : State} {v : Bytes} (h : s.inHolds v) : readIn v.length s = .ok v (s.afterIn v.length) := by
  rw [readIn_ok h.1, h.2]

/-- `ReadU32` of a word that IN holds. -/
theorem readU32_holds {s : State} {w : Word} (h : s.inHolds (be32 w)) : readU32 s = .ok w (s.afterIn 4) := by
  have h1 := h.1
  have h2 := h.2
  rw [length_be32] at h1 h2
  rw [readU32_ok h1, h2, u32be_be32]

@[simp] theorem setChLength_run (v : Word) (s : State) : setChLength v s = .ok () { s with ch.length := v } := rfl

@[simp] theorem setChType_run (v : Word) (s : State) : setChType v s = .ok () { s with ch.type := v } := rfl

@[simp] theorem setChCrc_run (v : Word) (s : State) : setChCrc v s = .ok () { s with ch.crc := v } := rfl

@[simp] theorem setCrcOut_run (v : Word) (s : State) : setCrcOut v s = .ok () { s with crc.out := v } := rfl

/-- What IN holds does not depend on the chunk registers. -/
theorem State.inHolds_ch {s : State} {v : Bytes} (c : ChunkRegs) (h : s.inHolds v) :
    ({ s with ch := c } : State).inHolds v := h

/-- The last two fields of a chunk that IN holds (41_framer.md R450). -/
theorem readChunkBody_holds {s : State} {typ crc : Word} {data : Bytes} {toStage fits : Bool}
    (hfit : toStage = false → fits = true → data.length ≤ s.cfg.dbufCap) (h : s.inHolds (data ++ be32 crc)) :
    readChunkBody data.length typ toStage fits s =
      .ok { len := data.length, typ := typ, data := data, crc := crc, toStage := toStage, fits := fits }
        { s with
          cnt := (s.afterIn (data.length + 4)).cnt
          ch := { s.ch with crc := crc }
          mem := if !toStage && fits then s.mem.set .dbuf (s.mem.dbuf.writeBytes 0 data) else s.mem } := by
  obtain ⟨h1, h2⟩ := State.inHolds_append h
  unfold readChunkBody
  rw [Cmd.bind_ok (readIn_holds h1), ← State.afterIn_afterIn]
  cases hc : !toStage && fits
  · rw [if_neg (by simp), Cmd.andThen_ok (Cmd.ret_run _ _), Cmd.bind_ok (readU32_holds h2),
      Cmd.andThen_ok (setChCrc_run _ _)]
    rfl
  · have hd : 0 + data.length ≤ Space.dbuf.cap (s.afterIn data.length).cfg := by
      have := hfit (by cases toStage <;> simp_all) (by cases fits <;> simp_all)
      simpa [Space.cap] using this
    rw [if_pos rfl]
    refine (Cmd.andThen_ok (memWrite_ok hd)).trans ((Cmd.bind_ok (readU32_holds ?_)).trans rfl)
    exact h2

/-- `ReadChunk(IN, AUTO)` of a chunk that IN holds: the chunk registers, IN_POS, and DBUF when the data belongs there and
fits (41_framer.md R450). -/
theorem readChunk_auto_holds {s : State} {typ crc : Word} {data : Bytes} (hl : data.length < 2 ^ 32)
    (h : s.inHolds (be32Len data.length ++ be32 typ ++ data ++ be32 crc)) :
    readChunk .auto s =
      .ok
        { len := data.length, typ := typ, data := data, crc := crc, toStage := typ == typeIDAT
          fits := chunkFits (typ == typeIDAT) data.length s }
        { s with
          cnt := (s.afterIn (12 + data.length)).cnt
          ch := { length := BitVec.ofNat 32 data.length, type := typ, crc := crc }
          mem :=
            if !(typ == typeIDAT) && chunkFits (typ == typeIDAT) data.length s then
              s.mem.set .dbuf (s.mem.dbuf.writeBytes 0 data)
            else s.mem } := by
  rw [List.append_assoc] at h
  obtain ⟨h, h3⟩ := State.inHolds_append h
  obtain ⟨h1, h2⟩ := State.inHolds_append h
  have hn : (BitVec.ofNat 32 data.length).toNat = data.length := by
    rw [BitVec.toNat_ofNat]; exact Nat.mod_eq_of_lt hl
  have ha : s.afterIn (12 + data.length) = ((s.afterIn 4).afterIn 4).afterIn (data.length + 4) := by
    rw [State.afterIn_afterIn, State.afterIn_afterIn]; congr 1; omega
  rw [List.length_append, length_be32Len, length_be32, ← State.afterIn_afterIn] at h3
  unfold readChunk
  refine (Cmd.bind_ok (Cmd.leaving_ok (readU32_holds h1))).trans ?_
  refine (Cmd.andThen_ok (setChLength_run _ _)).trans ?_
  refine (Cmd.bind_ok (Cmd.leaving_ok (readU32_holds (State.inHolds_ch _ h2)))).trans ?_
  refine (Cmd.andThen_ok (setChType_run _ _)).trans (Cmd.leaving_ok ?_)
  refine (Cmd.bind_ok (Cmd.look_run _ _)).trans ((Cmd.andThen_ok (Cmd.raiseIf_false rfl _)).trans ?_)
  rw [hn]
  refine (readChunkBody_holds (crc := crc) (data := data) ?_ (State.inHolds_ch _ h3)).trans ?_
  · intro h4 h5
    change chunkFits (typ == typeIDAT) data.length s = true at h5
    rw [show (typ == typeIDAT) = false from h4] at h5
    simpa [chunkFits] using h5
  · rw [ha]; rfl

/-- `ReadChunk(IN, DBUF)` of a chunk that IN holds and DBUF can hold (41_framer.md R450, R460). -/
theorem readChunk_dbuf_holds {s : State} {typ crc : Word} {data : Bytes} (hl : data.length < 2 ^ 32)
    (hd : data.length ≤ s.cfg.dbufCap) (h : s.inHolds (be32Len data.length ++ be32 typ ++ data ++ be32 crc)) :
    readChunk .dbuf s =
      .ok { len := data.length, typ := typ, data := data, crc := crc, toStage := false, fits := true }
        { s with
          cnt := (s.afterIn (12 + data.length)).cnt
          ch := { length := BitVec.ofNat 32 data.length, type := typ, crc := crc }
          mem := s.mem.set .dbuf (s.mem.dbuf.writeBytes 0 data) } := by
  rw [List.append_assoc] at h
  obtain ⟨h, h3⟩ := State.inHolds_append h
  obtain ⟨h1, h2⟩ := State.inHolds_append h
  have hn : (BitVec.ofNat 32 data.length).toNat = data.length := by
    rw [BitVec.toNat_ofNat]; exact Nat.mod_eq_of_lt hl
  have ha : s.afterIn (12 + data.length) = ((s.afterIn 4).afterIn 4).afterIn (data.length + 4) := by
    rw [State.afterIn_afterIn, State.afterIn_afterIn]; congr 1; omega
  have hf : chunkFits false data.length s = true := by simp [chunkFits, hd]
  rw [List.length_append, length_be32Len, length_be32, ← State.afterIn_afterIn] at h3
  unfold readChunk
  refine (Cmd.bind_ok (Cmd.leaving_ok (readU32_holds h1))).trans ?_
  refine (Cmd.andThen_ok (setChLength_run _ _)).trans ?_
  refine (Cmd.bind_ok (Cmd.leaving_ok (readU32_holds (State.inHolds_ch _ h2)))).trans ?_
  refine (Cmd.andThen_ok (setChType_run _ _)).trans (Cmd.leaving_ok ?_)
  refine (Cmd.bind_ok (Cmd.look_run _ _)).trans ?_
  rw [hn]
  refine (Cmd.andThen_ok (Cmd.raiseIf_false (c := !chunkFits false data.length s) (by simp [hf]) _)).trans ?_
  refine (readChunkBody_holds (crc := crc) (data := data) (toStage := false) (fits := chunkFits false data.length s)
    (fun _ _ => by exact hd) (State.inHolds_ch _ h3)).trans ?_
  rw [ha, hf]; rfl

/-! ## The chunk loop consumes IN and only adds to STAGE -/

/-- The parameters, the image registers and the filter engine's registers are as before. -/
def sameImage (s t : State) : Prop := t.cfg = s.cfg ∧ t.img = s.img ∧ t.flt = s.flt

theorem sameImage_trans (s t u : State) (h1 : sameImage s t) (h2 : sameImage t u) : sameImage s u :=
  ⟨h2.1.trans h1.1, h2.2.1.trans h1.2.1, h2.2.2.trans h1.2.2⟩

/-- `n` bytes of IN were consumed, and the internal streams, the parameters and the image are as before. -/
def consumes (n : Nat) (s t : State) : Prop := inAvail t + n ≤ inAvail s ∧ t.str = s.str ∧ sameImage s t

theorem consumes_refl (s : State) : consumes 0 s s := ⟨Nat.le_refl _, rfl, rfl, rfl, rfl⟩

theorem consumes_trans {m n : Nat} (s t u : State) (h1 : consumes m s t) (h2 : consumes n t u) : consumes (m + n) s u :=
  ⟨by have := h1.1; have := h2.1; omega, h2.2.1.trans h1.2.1, sameImage_trans s t u h1.2.2 h2.2.2⟩

theorem consumes_zero_trans (s t u : State) (h1 : consumes 0 s t) (h2 : consumes 0 t u) : consumes 0 s u :=
  consumes_trans s t u h1 h2

/-- An update that leaves what `consumes` speaks of. -/
theorem update_steps (f : State → State)
    (h : ∀ s, (f s).cnt.inLen = s.cnt.inLen ∧ (f s).cnt.inPos = s.cnt.inPos ∧ (f s).str = s.str ∧ sameImage s (f s)) :
    Cmd.Steps (consumes 0) (Cmd.update f) :=
  Cmd.Steps.update f fun s => ⟨by simp [inAvail, (h s).1, (h s).2.1], (h s).2.2⟩

theorem readIn_steps (n : Nat) : Cmd.Steps (consumes n) (readIn n) := by
  intro s a t ht
  rw [readIn_run] at ht
  split at ht
  · cases ht
  · cases ht
    exact ⟨by rw [inAvail_afterIn (by omega)]; omega, rfl, rfl, rfl, rfl⟩

theorem readU32_steps : Cmd.Steps (consumes 4) readU32 :=
  Cmd.Steps.bind (readIn_steps 4) (fun _ => Cmd.Steps.ret _ consumes_refl) consumes_trans

theorem memWrite_steps (sp : Space) (off : Nat) (v : Bytes) : Cmd.Steps (consumes 0) (memWrite sp off v) := by
  intro s a t ht
  rw [memWrite_run] at ht
  split at ht
  · cases ht
  · cases ht; exact ⟨Nat.le_refl _, rfl, rfl, rfl, rfl⟩

theorem readChunk_steps (sink : ChunkSink) : Cmd.Steps (consumes 12) (readChunk sink) := by
  have hu := readU32_steps
  unfold readChunk readChunkBody
  refine Cmd.Steps.bind (r₂ := consumes 8) hu.leaving (fun len => ?_) (consumes_trans (m := 4) (n := 8))
  refine Cmd.Steps.andThen (r₂ := consumes 8) (update_steps _ fun s => ⟨rfl, rfl, rfl, rfl, rfl, rfl⟩) ?_
    (fun s t u h1 h2 => by simpa using consumes_trans s t u h1 h2)
  refine Cmd.Steps.bind (r₂ := consumes 4) hu.leaving (fun typ => ?_) (consumes_trans (m := 4) (n := 4))
  refine Cmd.Steps.andThen (r₂ := consumes 4) (update_steps _ fun s => ⟨rfl, rfl, rfl, rfl, rfl, rfl⟩) (Cmd.Steps.leaving ?_)
    (fun s t u h1 h2 => by simpa using consumes_trans s t u h1 h2)
  refine Cmd.Steps.bind (r₂ := consumes 4) (Cmd.Steps.look _ consumes_refl) (fun fits => ?_)
    (fun s t u h1 h2 => by simpa using consumes_trans s t u h1 h2)
  refine Cmd.Steps.andThen (r₂ := consumes 4) (Cmd.Steps.raiseIf _ _ _ consumes_refl) ?_
    (fun s t u h1 h2 => by simpa using consumes_trans s t u h1 h2)
  refine Cmd.Steps.bind (r₂ := consumes 4) (readIn_steps _) (fun data => ?_)
    (fun s t u h1 h2 => by
      have := consumes_trans s t u h1 h2
      exact ⟨by have := this.1; omega, this.2⟩)
  refine Cmd.Steps.andThen (r₁ := consumes 0) (r₂ := consumes 4) ?_ ?_
    (fun s t u h1 h2 => by simpa using consumes_trans s t u h1 h2)
  · split
    · exact memWrite_steps _ _ _
    · exact Cmd.Steps.ret _ consumes_refl
  · refine Cmd.Steps.bind (r₂ := consumes 0) hu (fun crc => ?_) (consumes_trans (m := 4) (n := 0))
    exact Cmd.Steps.andThen (r₂ := consumes 0) (update_steps _ fun s => ⟨rfl, rfl, rfl, rfl, rfl, rfl⟩) (Cmd.Steps.ret _ consumes_refl)
      (fun s t u h1 h2 => by simpa using consumes_trans s t u h1 h2)

/-- STAGE, while open with nothing staged, stays so and has only grown at its readable end. -/
def stageGrows (s t : State) : Prop :=
  s.str.stage.closed = false → s.str.stage.staged = [] →
    t.str.stage.closed = false ∧ t.str.stage.staged = [] ∧ t.str.stage.rpos = s.str.stage.rpos ∧
      s.str.stage.readable <+: t.str.stage.readable

theorem stageGrows_trans (s t u : State) (h1 : stageGrows s t) (h2 : stageGrows t u) : stageGrows s u := by
  intro hc hs
  obtain ⟨a1, a2, a3, a4⟩ := h1 hc hs
  obtain ⟨b1, b2, b3, b4⟩ := h2 a1 a2
  exact ⟨b1, b2, b3.trans a3, a4.trans b4⟩

theorem stageGrows_of_str {s t : State} (h : t.str = s.str) : stageGrows s t := by
  intro hc hs
  rw [h]
  exact ⟨hc, hs, rfl, List.prefix_refl _⟩

/-- What a piece of the chunk loop does: it consumes `n` bytes of IN or more, STAGE only grows, the image is as before. -/
def chunkTurn (n : Nat) (s t : State) : Prop := inAvail t + n ≤ inAvail s ∧ stageGrows s t ∧ sameImage s t

theorem chunkTurn_of_consumes {n : Nat} {s t : State} (h : consumes n s t) : chunkTurn n s t :=
  ⟨h.1, stageGrows_of_str h.2.1, h.2.2⟩

theorem chunkTurn_trans {m n : Nat} (s t u : State) (h1 : chunkTurn m s t) (h2 : chunkTurn n t u) :
    chunkTurn (m + n) s u :=
  ⟨by have := h1.1; have := h2.1; omega, stageGrows_trans s t u h1.2.1 h2.2.1, sameImage_trans s t u h1.2.2 h2.2.2⟩

/-- A piece that consumes, as a piece of the chunk loop. -/
theorem Cmd.Steps.toChunkTurn {α : Type} {n : Nat} {m : Cmd α} (h : Cmd.Steps (consumes n) m) :
    Cmd.Steps (chunkTurn n) m := fun s a t ht => chunkTurn_of_consumes (h s a t ht)

/-- A piece that consumes nothing, with an update after it. -/
theorem Cmd.Steps.thenUpdate {m : Cmd Unit} {f : State → State} {a : Unit} {s t : State} (h : Cmd.Steps (consumes 0) m)
    (hf : ∀ s, (f s).cnt.inLen = s.cnt.inLen ∧ (f s).cnt.inPos = s.cnt.inPos ∧ (f s).str = s.str ∧ sameImage s (f s))
    (ht : m.andThen (Cmd.update f) s = .ok a t) : consumes 0 s t :=
  Cmd.Steps.andThen h (update_steps f hf) consumes_zero_trans s a t ht

theorem record_steps (typ : Word) (data : Bytes) : Cmd.Steps (consumes 0) (record typ data) := by
  intro s a t ht
  unfold record at ht
  simp only at ht
  split at ht
  · cases ht
  · exact Cmd.Steps.thenUpdate (memWrite_steps _ _ _) (by intro s; exact ⟨rfl, rfl, rfl, rfl, rfl, rfl⟩) ht

theorem doPlte_steps (data : Bytes) : Cmd.Steps (consumes 0) (doPlte data) := by
  intro s a t ht
  unfold doPlte at ht
  simp only at ht
  split at ht
  · cases ht
  split at ht
  · cases ht
  split at ht
  · cases ht
  split at ht
  · cases ht
  exact Cmd.Steps.thenUpdate (memWrite_steps _ _ _) (by intro s; exact ⟨rfl, rfl, rfl, rfl, rfl, rfl⟩) ht

theorem writeAlphas_steps (data : Bytes) : Cmd.Steps (consumes 0) (writeAlphas data) :=
  Cmd.Steps.forEach _ (fun _ _ => memWrite_steps _ _ _) consumes_refl consumes_zero_trans

theorem doTrns_steps (data : Bytes) : Cmd.Steps (consumes 0) (doTrns data) := by
  intro s a t ht
  unfold doTrns at ht
  split at ht
  · cases ht
  split at ht
  · cases ht
  split at ht
  · cases ht
  split at ht
  · split at ht
    · cases ht
    split at ht
    · cases ht
    exact Cmd.Steps.thenUpdate (writeAlphas_steps data)
      (by intro s; exact ⟨rfl, rfl, rfl, rfl, rfl, rfl⟩) ht
  · exact Cmd.Steps.thenUpdate (record_steps _ _) (by intro s; exact ⟨rfl, rfl, rfl, rfl, rfl, rfl⟩) ht

theorem doMeta_steps (ok : Bool) (e : Err) (typ : Word) (data : Bytes) : Cmd.Steps (consumes 0) (doMeta ok e typ data) :=
  Cmd.Steps.andThen (Cmd.Steps.raiseIf _ _ _ consumes_refl) (record_steps _ _) consumes_zero_trans

theorem doUnknown_steps (typ : Word) (data : Bytes) : Cmd.Steps (consumes 0) (doUnknown typ data) :=
  Cmd.Steps.andThen (Cmd.Steps.raiseIf _ _ _ consumes_refl) (record_steps _ _) consumes_zero_trans

theorem doIdat_steps (data : Bytes) : Cmd.Steps (chunkTurn 0) (doIdat data) := by
  intro s a t ht
  unfold doIdat at ht
  split at ht
  · cases ht
  · rw [Cmd.andThen_run, streamWrite_run] at ht
    split at ht
    · rename_i heq
      split at heq
      · cases heq
      · split at heq
        · cases heq
        · cases heq
          cases ht
          refine ⟨Nat.le_refl _, fun hc hs => ?_, rfl, rfl, rfl⟩
          exact ⟨hc, rfl, rfl, by simp [State.setStream, Streams.set, Streams.get, Stream.write, Stream.flush, hs]⟩
    · cases ht
    · cases ht
    · cases ht

theorem chunkCase_steps (typ : Word) (data : Bytes) : Cmd.Steps (chunkTurn 0) (chunkCase typ data) := by
  have done : ∀ {m : Cmd Unit}, Cmd.Steps (chunkTurn 0) m → ∀ b : Bool, Cmd.Steps (chunkTurn 0) (m.andThen (.ret b)) :=
    fun h b => Cmd.Steps.andThen h (Cmd.Steps.ret b fun s => chunkTurn_of_consumes (consumes_refl s))
      (chunkTurn_trans (m := 0) (n := 0))
  unfold chunkCase
  split
  · exact done (doIdat_steps data) _
  split
  · exact done (doPlte_steps data).toChunkTurn _
  split
  · exact done (doTrns_steps data).toChunkTurn _
  split
  · exact done (doMeta_steps _ _ _ data).toChunkTurn _
  split
  · exact done (doMeta_steps _ _ _ data).toChunkTurn _
  split
  · exact done (doMeta_steps _ _ _ data).toChunkTurn _
  split
  · exact done (doMeta_steps _ _ _ data).toChunkTurn _
  split
  · exact done (update_steps _ (by intro s; exact ⟨rfl, rfl, rfl, rfl, rfl, rfl⟩)).toChunkTurn _
  · exact done (doUnknown_steps _ data).toChunkTurn _

theorem checkCrcIfEnabled_steps (c : Chunk) : Cmd.Steps (consumes 0) (checkCrcIfEnabled c) := by
  intro s a t ht
  unfold checkCrcIfEnabled at ht
  split at ht
  · unfold checkCrc at ht
    exact Cmd.Steps.andThen (update_steps _ (by intro s; exact ⟨rfl, rfl, rfl, rfl, rfl, rfl⟩))
      (Cmd.Steps.raiseIf _ _ _ consumes_refl) consumes_zero_trans s a t ht
  · cases ht; exact consumes_refl s

/-- One turn of the chunk loop consumes 12 bytes or more (41_framer.md R450, 44_decode.md R660). -/
theorem decChunksStep_steps : Cmd.Steps (chunkTurn 12) decChunksStep := by
  refine Cmd.Steps.bind (readChunk_steps .auto).toChunkTurn (fun c => ?_) (chunkTurn_trans (m := 12) (n := 0))
  refine Cmd.Steps.andThen (checkCrcIfEnabled_steps c).toChunkTurn ?_ (chunkTurn_trans (m := 0) (n := 0))
  exact Cmd.Steps.andThen (Cmd.Steps.raiseIf _ _ _ fun s => chunkTurn_of_consumes (consumes_refl s))
    (chunkCase_steps _ _) (chunkTurn_trans (m := 0) (n := 0))

/-- The chunk loop does not depend on its bound, once there is more of it than bytes in IN. -/
theorem chunkLoop_bound : ∀ (m n : Nat) (s : State), inAvail s < m → inAvail s < n → chunkLoop m s = chunkLoop n s := by
  intro m
  induction m with
  | zero => intro n s h; omega
  | succ m ih =>
    intro n s hm hn
    obtain ⟨n, rfl⟩ : ∃ k, n = k + 1 := ⟨n - 1, by omega⟩
    unfold chunkLoop
    rw [Cmd.bind_run, Cmd.bind_run]
    cases hd : decChunksStep s with
    | ok last t =>
      have := (decChunksStep_steps s last t hd).1
      cases last
      · exact ih n t (by omega) (by omega)
      · rfl
    | raised e info t => rfl
    | stuck x => rfl
    | refuse x => rfl

theorem chunkLoop_steps (n : Nat) : Cmd.Steps (chunkTurn 0) (chunkLoop n) := by
  induction n with
  | zero => exact Cmd.Steps.raise _ _
  | succ n ih =>
    refine Cmd.Steps.bind (r₂ := chunkTurn 0) decChunksStep_steps (fun last => ?_)
      (fun s t u h1 h2 => by
        have := chunkTurn_trans s t u h1 h2
        exact ⟨by have := this.1; omega, this.2⟩)
    split
    · exact Cmd.Steps.ret _ fun s => chunkTurn_of_consumes (consumes_refl s)
    · exact ih

end Sys2Proof.Machine
end

