-- ==== Sys2Proof/Laws/PerInstr.lean ====
section
/-! SUPPORT. One lemma per command about its word (30_encoding.md R301, R302). -/

/-- The command's fields are legal (30_encoding.md R303), and its word is `OPCODE + 256 * PIPE` (R301). -/
def Sys2Proof.Laws.Format.Statement (i : Sys2Proof.Instr) : Prop :=
  i.fields.wf = true ∧ (Sys2Proof.encode i).toNat = i.opcode.toNat + 256 * i.pipe.toNat

theorem Sys2Proof.Laws.Format.nop : Sys2Proof.Laws.Format.Statement .nop := ⟨by decide, by decide⟩

theorem Sys2Proof.Laws.Format.clear : Sys2Proof.Laws.Format.Statement .clear := ⟨by decide, by decide⟩

theorem Sys2Proof.Laws.Format.crcCalc : Sys2Proof.Laws.Format.Statement .crcCalc := ⟨by decide, by decide⟩

theorem Sys2Proof.Laws.Format.crcUpd : Sys2Proof.Laws.Format.Statement .crcUpd := ⟨by decide, by decide⟩

theorem Sys2Proof.Laws.Format.crcUpd32 : Sys2Proof.Laws.Format.Statement .crcUpd32 := ⟨by decide, by decide⟩

theorem Sys2Proof.Laws.Format.sigCheck : Sys2Proof.Laws.Format.Statement .sigCheck := ⟨by decide, by decide⟩

theorem Sys2Proof.Laws.Format.sigWrite : Sys2Proof.Laws.Format.Statement .sigWrite := ⟨by decide, by decide⟩

theorem Sys2Proof.Laws.Format.chunkRead : Sys2Proof.Laws.Format.Statement .chunkRead := ⟨by decide, by decide⟩

theorem Sys2Proof.Laws.Format.chunkVerify : Sys2Proof.Laws.Format.Statement .chunkVerify := ⟨by decide, by decide⟩

theorem Sys2Proof.Laws.Format.chunkSetcrc : Sys2Proof.Laws.Format.Statement .chunkSetcrc := ⟨by decide, by decide⟩

theorem Sys2Proof.Laws.Format.chunkWrite : Sys2Proof.Laws.Format.Statement .chunkWrite := ⟨by decide, by decide⟩

theorem Sys2Proof.Laws.Format.unfilter : Sys2Proof.Laws.Format.Statement .unfilter := ⟨by decide, by decide⟩

theorem Sys2Proof.Laws.Format.filter : Sys2Proof.Laws.Format.Statement .filter := ⟨by decide, by decide⟩

theorem Sys2Proof.Laws.Format.deinterlace : Sys2Proof.Laws.Format.Statement .deinterlace := ⟨by decide, by decide⟩

theorem Sys2Proof.Laws.Format.interlace : Sys2Proof.Laws.Format.Statement .interlace := ⟨by decide, by decide⟩

theorem Sys2Proof.Laws.Format.decHeader : Sys2Proof.Laws.Format.Statement .decHeader := ⟨by decide, by decide⟩

theorem Sys2Proof.Laws.Format.decChunks : Sys2Proof.Laws.Format.Statement .decChunks := ⟨by decide, by decide⟩

theorem Sys2Proof.Laws.Format.decInflate : Sys2Proof.Laws.Format.Statement .decInflate := ⟨by decide, by decide⟩

theorem Sys2Proof.Laws.Format.decPixels : Sys2Proof.Laws.Format.Statement .decPixels := ⟨by decide, by decide⟩

theorem Sys2Proof.Laws.Format.decExpand : Sys2Proof.Laws.Format.Statement .decExpand := ⟨by decide, by decide⟩

theorem Sys2Proof.Laws.Format.decode (pipe : Bool) : Sys2Proof.Laws.Format.Statement (.decode pipe) := by
  cases pipe <;> exact ⟨by decide, by decide⟩

theorem Sys2Proof.Laws.Format.encValidate : Sys2Proof.Laws.Format.Statement .encValidate := ⟨by decide, by decide⟩

theorem Sys2Proof.Laws.Format.encHeader : Sys2Proof.Laws.Format.Statement .encHeader := ⟨by decide, by decide⟩

theorem Sys2Proof.Laws.Format.encData : Sys2Proof.Laws.Format.Statement .encData := ⟨by decide, by decide⟩

theorem Sys2Proof.Laws.Format.encTrailer : Sys2Proof.Laws.Format.Statement .encTrailer := ⟨by decide, by decide⟩

theorem Sys2Proof.Laws.Format.encode (pipe : Bool) : Sys2Proof.Laws.Format.Statement (.encode pipe) := by
  cases pipe <;> exact ⟨by decide, by decide⟩
end

