-- ==== Sys2Proof/Laws/Unfilter.lean ====
section
/-! SUPPORT. The unfilter engine on more bytes than it needs: once the bytes at hand decide its answer, further bytes stay
unread (42_filter.md R510, 43_adam7.md R602, 20_memory.md R212). And the packing of a legal format. -/

namespace Sys2Proof.Machine

/-- With 1, 2 or 4 pixel bits no sample crosses a byte, so no packed byte is free (42_filter.md R508). -/
theorem sampleBits_legal {pb : Nat} (hpb : pb ∈ [1, 2, 4]) (s : Bytes) (x : Nat) :
    sampleBits s pb x = (byteAt s x &&& sampleMask pb) <<< (8 - pb - x * pb % 8) := by
  have h : x * pb % 8 + pb ≤ 8 := by
    simp only [List.mem_cons, List.not_mem_nil, or_false] at hpb
    obtain rfl | rfl | rfl := hpb <;> omega
  rw [sampleBits, if_pos h]

/-- The answer with more bytes left unread. -/
def Unfiltered.extend (tail : Bytes) : Unfiltered → Unfiltered
  | .done out u rest => .done out u (rest ++ tail)
  | .failed e info u rest => .failed e info u (rest ++ tail)

@[simp] theorem Unfiltered.final_done (out : Bytes) (u : FilterUnit) (rest : Bytes) (x : Bool) :
    (Unfiltered.done out u rest).final x = true := rfl

@[simp] theorem Unfiltered.final_failed (e : Err) (info : Word) (u : FilterUnit) (rest : Bytes) :
    (Unfiltered.failed e info u rest).final false = (e != .unexpectedEof) := by simp [Unfiltered.final]

theorem unfilterRow_extend {f : Format} {w y : Nat} {u : FilterUnit} {inp : Bytes} (tail : Bytes)
    (h : (unfilterRow f w y u inp).final false = true) :
    unfilterRow f w y u (inp ++ tail) = (unfilterRow f w y u inp).extend tail := by
  cases inp with
  | nil => simp [unfilterRow] at h
  | cons ft body =>
    unfold unfilterRow at h ⊢
    simp only [List.cons_append] at h ⊢
    by_cases hb : body.length < f.rowBytes w
    · simp [hb] at h
    · have hb' : ¬(body ++ tail).length < f.rowBytes w := by rw [List.length_append]; omega
      rw [if_neg hb, if_neg hb', List.take_append_of_le_length (by omega), List.drop_append_of_le_length (by omega)]
      cases FilterType.ofByte ft <;> rfl

theorem unfilterRows_extend {f : Format} {w : Nat} (n : Nat) {y : Nat} {u : FilterUnit} {inp : Bytes} (tail : Bytes)
    (h : (unfilterRows f w n y u inp).final false = true) :
    unfilterRows f w n y u (inp ++ tail) = (unfilterRows f w n y u inp).extend tail := by
  induction n generalizing y u inp with
  | zero => rfl
  | succ n ih =>
    unfold unfilterRows at h ⊢
    cases hr : unfilterRow f w y u inp with
    | failed e info u' rest =>
      rw [hr] at h
      rw [unfilterRow_extend tail (by rw [hr]; exact h), hr]; rfl
    | done row u' rest =>
      rw [hr] at h
      rw [unfilterRow_extend tail (by rw [hr]; rfl), hr]
      simp only [Unfiltered.extend] at h ⊢
      cases hs : unfilterRows f w n (y + 1) u' rest with
      | failed e info u'' rest' =>
        rw [hs] at h
        rw [ih (by rw [hs]; exact h), hs]; rfl
      | done rows u'' rest' => rw [ih (by rw [hs]; rfl), hs]; rfl

theorem unfilterImage_extend {rowCap : Nat} {f : Format} {w h : Nat} {u : FilterUnit} {inp : Bytes} (tail : Bytes)
    (hf : (unfilterImage rowCap f w h u inp).final false = true) :
    unfilterImage rowCap f w h u (inp ++ tail) = (unfilterImage rowCap f w h u inp).extend tail := by
  unfold unfilterImage at hf ⊢
  split
  · rfl
  · rename_i hc
    rw [if_neg hc] at hf
    cases hr : unfilterRows f w h 0 (clearPrior rowCap (f.rowBytes w) u) inp with
    | failed e info u' rest =>
      rw [hr] at hf
      rw [unfilterRows_extend h tail (by rw [hr]; exact hf), hr]; rfl
    | done out u' rest => rw [unfilterRows_extend h tail (by rw [hr]; rfl), hr]; rfl

theorem deinterlacePasses_extend {rowCap : Nat} {f : Format} {w h : Nat} (ps : List Nat) {out : Bytes} {u : FilterUnit}
    {inp : Bytes} (tail : Bytes) (hf : (deinterlacePasses rowCap f w h ps out u inp).final false = true) :
    deinterlacePasses rowCap f w h ps out u (inp ++ tail) =
      (deinterlacePasses rowCap f w h ps out u inp).extend tail := by
  induction ps generalizing out u inp with
  | nil => rfl
  | cons p ps ih =>
    unfold deinterlacePasses at hf ⊢
    split
    · rename_i he; rw [if_pos he] at hf; exact ih hf
    · rename_i he
      rw [if_neg he] at hf
      cases hr : unfilterImage rowCap f (passW p w) (passH p h) { u with pass := Fin.ofNat 8 p } inp with
      | failed e info u' rest =>
        rw [hr] at hf
        rw [unfilterImage_extend tail (by rw [hr]; exact hf), hr]; rfl
      | done sub u' rest =>
        rw [hr] at hf
        rw [unfilterImage_extend tail (by rw [hr]; rfl), hr]
        exact ih hf

/-- Once the bytes at hand decide the deinterlacer's answer, further bytes stay unread. -/
theorem deinterlacePixels_extend {rowCap : Nat} {f : Format} {m : Byte} {w h : Nat} {u : FilterUnit} {inp : Bytes}
    (tail : Bytes) (hf : (deinterlacePixels rowCap f m w h u inp).final false = true) :
    deinterlacePixels rowCap f m w h u (inp ++ tail) = (deinterlacePixels rowCap f m w h u inp).extend tail := by
  unfold deinterlacePixels at hf ⊢
  split
  · rename_i hm; rw [if_pos hm] at hf; exact unfilterImage_extend tail hf
  · rename_i hm
    rw [if_neg hm] at hf
    split
    · rename_i hm1; rw [if_pos hm1] at hf; exact deinterlacePasses_extend _ tail hf
    · rfl

/-- The same for the stage of a pipelined DECODE, its checks before it included (44_decode.md R697). -/
theorem pixelsOn_extend {s : State} {inp : Bytes} (tail : Bytes) (hf : (pixelsOn s inp).final false = true) :
    pixelsOn s (inp ++ tail) = (pixelsOn s inp).extend tail := by
  unfold pixelsOn at hf ⊢
  split
  · rfl
  · rename_i hc; rw [hc] at hf; exact deinterlacePixels_extend tail hf

/-- The bytes not consumed are the end of the bytes given. -/
def Unfiltered.rest : Unfiltered → Bytes
  | .done _ _ r => r
  | .failed _ _ _ r => r

theorem unfilterRow_suffix (f : Format) (w y : Nat) (u : FilterUnit) (inp : Bytes) :
    (unfilterRow f w y u inp).rest <:+ inp := by
  cases inp with
  | nil => exact List.suffix_refl _
  | cons ft body =>
    simp only [unfilterRow]
    by_cases hb : body.length < f.rowBytes w
    · rw [if_pos hb]; exact List.suffix_cons ft body
    · rw [if_neg hb]
      cases FilterType.ofByte ft <;> exact (List.drop_suffix _ _).trans (List.suffix_cons ft body)

theorem unfilterRows_suffix (f : Format) (w n y : Nat) (u : FilterUnit) (inp : Bytes) :
    (unfilterRows f w n y u inp).rest <:+ inp := by
  induction n generalizing y u inp with
  | zero => exact List.suffix_refl _
  | succ n ih =>
    have h1 := unfilterRow_suffix f w y u inp
    unfold unfilterRows
    cases hr : unfilterRow f w y u inp with
    | failed e info u' rest => rw [hr] at h1; exact h1
    | done row u' rest =>
      rw [hr] at h1
      have h2 := ih (y + 1) u' rest
      simp only
      cases hs : unfilterRows f w n (y + 1) u' rest <;> rw [hs] at h2 <;> exact h2.trans h1

theorem unfilterImage_suffix (rowCap : Nat) (f : Format) (w h : Nat) (u : FilterUnit) (inp : Bytes) :
    (unfilterImage rowCap f w h u inp).rest <:+ inp := by
  unfold unfilterImage
  split
  · exact List.suffix_refl _
  · have h1 := unfilterRows_suffix f w h 0 (clearPrior rowCap (f.rowBytes w) u) inp
    cases hr : unfilterRows f w h 0 (clearPrior rowCap (f.rowBytes w) u) inp <;> rw [hr] at h1 <;> exact h1

theorem deinterlacePasses_suffix (rowCap : Nat) (f : Format) (w h : Nat) (ps : List Nat) (out : Bytes) (u : FilterUnit)
    (inp : Bytes) : (deinterlacePasses rowCap f w h ps out u inp).rest <:+ inp := by
  induction ps generalizing out u inp with
  | nil => exact List.suffix_refl _
  | cons p ps ih =>
    unfold deinterlacePasses
    split
    · exact ih _ _ _
    · have h1 := unfilterImage_suffix rowCap f (passW p w) (passH p h) { u with pass := Fin.ofNat 8 p } inp
      cases hr : unfilterImage rowCap f (passW p w) (passH p h) { u with pass := Fin.ofNat 8 p } inp <;> rw [hr] at h1
      · exact (ih _ _ _).trans h1
      · exact h1

/-- The deinterlacer leaves the end of the bytes given. -/
theorem deinterlacePixels_suffix (rowCap : Nat) (f : Format) (m : Byte) (w h : Nat) (u : FilterUnit) (inp : Bytes) :
    (deinterlacePixels rowCap f m w h u inp).rest <:+ inp := by
  unfold deinterlacePixels
  split
  · exact unfilterImage_suffix _ _ _ _ _ _
  · split
    · exact deinterlacePasses_suffix _ _ _ _ _ _ _ _
    · exact List.suffix_refl _

end Sys2Proof.Machine
end

