-- ==== Sys2Proof/Machine/HostProgram.lean ====
section
/-! DEFINITION. Host programs: the statements of 30_encoding.md R310 and the pseudo-statements of R311, each with the bus
transactions it stands for, and how a program is placed and run (log 1, log 31). -/

namespace Sys2Proof.Machine

/-- What no rule fixes of a `wait`: the `STATUS` reads made before the command ends (70_reset_and_hazards.md R1040), and
the interleaving of the command's stages (60_exceptions.md R951). -/
structure Pace where
  polls : Nat
  turns : List StageTurn
  deriving DecidableEq, Repr

/-- The statement forms of 30_encoding.md R310. `cmd MNEMONIC.P` is `cmd` of a command with PIPE 1. -/
inductive Stmt where
  /-- `wr NAME, v`. -/
  | wr (r : Reg) (v : Word)
  /-- `rd NAME`. -/
  | rd (r : Reg)
  /-- `ld SP, off, b0 b1 ...`. -/
  | ld (sp : Space) (off : Nat) (v : Bytes)
  /-- `cmd MNEMONIC` and `cmd MNEMONIC.P`. -/
  | cmd (i : Instr)
  /-- `wait`. -/
  | wait (p : Pace)
  /-- `; text`. -/
  | comment (text : String)
  deriving DecidableEq, Repr

/-- A line of a host program: a statement of 30_encoding.md R310 or a pseudo-statement of R311. -/
inductive Line where
  | stmt (t : Stmt)
  /-- `run MNEMONIC`. -/
  | run (i : Instr) (p : Pace)
  /-- `chunk.emit`. -/
  | chunkEmit (p q : Pace)
  /-- `expect NAME == v`. -/
  | expect (r : Reg) (v : Word)
  deriving DecidableEq, Repr

/-- `run MNEMONIC` is `cmd MNEMONIC` then `wait` (30_encoding.md R311). -/
def runStmts (i : Instr) (p : Pace) : List Stmt := [.cmd i, .wait p]

/-- The statements a line stands for (30_encoding.md R311). -/
def Line.expand : Line → List Stmt
  | .stmt t => [t]
  | .run i p => runStmts i p
  | .chunkEmit p q => runStmts .chunkSetcrc p ++ runStmts .chunkWrite q
  | .expect r _ => [.rd r]

/-- One byte write per byte, at rising offsets (30_encoding.md R310). -/
def loadEvents (sp : Space) : Nat → Bytes → List HostEvent
  | _, [] => []
  | off, b :: bs => .spaceWrite sp off b :: loadEvents sp (off + 1) bs

/-- The bus transactions of a statement (30_encoding.md R310), with the engine's turn at the `wait`: reads of `STATUS`
that find `BUSY = 1`, the command, and the read that finds `BUSY = 0`. That a command ends at the next `wait` and not before a
statement between is the model's choice (DESIGN CHOICE, log 31), since 70_reset_and_hazards.md R1040 leaves the latency
open. -/
def Stmt.events : Stmt → List HostEvent
  | .wr r v => [.regWrite .word r.offset v]
  | .rd r => [.regRead .word r.offset]
  | .ld sp off v => loadEvents sp off v
  | .cmd i => [.regWrite .word Reg.cmd.offset (encode i)]
  | .wait p => List.replicate p.polls (.regRead .word Reg.status.offset) ++ [.engine p.turns, .regRead .word Reg.status.offset]
  | .comment _ => []

/-- The bus transactions of a program. -/
def programEvents (prog : List Line) : List HostEvent := prog.flatMap fun l => l.expand.flatMap Stmt.events

/-- What a line's comparison asks of the state after its transactions: `expect` compares the value read and has no effect
on the block (30_encoding.md R311). -/
def Line.meets (l : Line) (s : State) : Bool :=
  match l with
  | .expect _ v => s.port.readData == v
  | .stmt _ | .run _ _ | .chunkEmit _ _ => true

/-- A program placed for a state to run: its transactions come after those already to come (log 1). -/
def State.withProgram (s : State) (prog : List Line) : State :=
  { s with port.inbox := s.port.inbox ++ programEvents prog }

/-- `n` steps. -/
def steps : Nat → State → Host.Outcome State Fault Refusal
  | 0, s => .next s
  | n + 1, s =>
    match step s with
    | .next t => steps n t
    | .fault f => .fault f
    | .refused r => .refused r

/-- Run a program to its end. -/
def State.runProgram (s : State) (prog : List Line) : Host.Outcome State Fault Refusal :=
  steps (s.withProgram prog).port.inbox.length (s.withProgram prog)

end Sys2Proof.Machine
end

