-- ==== Sys2Proof/Tests/Slice0.lean ====
section
/-! SUPPORT. Tests: what each well-formedness check refuses, words written out from 30_encoding.md R302, one step per
command on the vectors of 95_test_vectors.md, and states that meet the hypotheses of the statements. -/

namespace Sys2Proof.Tests

open Sys2Proof Sys2Proof.Machine
open Host (Outcome)

set_option Elab.async false

/-! ## Small states -/

/-- Memory that holds `b` from offset 0 on. -/
def holding (b : Bytes) : Memory := Memory.writeBytes [] 0 b

/-- The reset state with `b` in IN. -/
def input (b : Bytes) : State :=
  { State.reset with mem.inp := holding b, cnt.inLen := BitVec.ofNat 32 b.length }

/-- The image registers of a `w` by `h` image. -/
def image (w h : Word) (ct bd m level : Byte) : ImgRegs :=
  { width := w, height := h, bitDepth := bd, colorType := ct, compression := 0, filter := 0, interlace := m,
    level := level }

/-- The state after one step that runs the word `w`. -/
def run (w : Nat) (s : State) : Option State :=
  match step (s.withFetchWord 32 w) with
  | .next t => some t
  | .fault _ => none
  | .refused _ => none

/-- Registers after the word `w`. -/
def regs (w : Nat) (s : State) (rs : List Reg) : Option (List Word) := (run w s).map fun t => rs.map t.readReg

/-- Bytes of a space after the word `w`. -/
def bytes (w : Nat) (s : State) (sp : Space) (n : Nat) : Option Bytes :=
  (run w s).map fun t => (t.mem.get sp).readBytes 0 n

/-- `IHDR` of a 1 by 1 grey image (95_test_vectors.md P4). -/
def ihdrP4 : Bytes :=
  [0x00, 0x00, 0x00, 0x0D, 0x49, 0x48, 0x44, 0x52, 0x00, 0x00, 0x00, 0x01, 0x00, 0x00, 0x00, 0x01] ++
  [0x08, 0x00, 0x00, 0x00, 0x00, 0x3A, 0x7E, 0x9B, 0x55]

/-- The stored zlib stream of `00 80` (95_test_vectors.md section 3). -/
def zlibP4 : Bytes := [0x78, 0x01, 0x01, 0x02, 0x00, 0xFD, 0xFF, 0x00, 0x80, 0x00, 0x82, 0x00, 0x81]

/-- The `IDAT` chunk of P4. -/
def idatP4 : Bytes :=
  [0x00, 0x00, 0x00, 0x0D, 0x49, 0x44, 0x41, 0x54] ++ zlibP4 ++ [0xC3, 0x6E, 0x25, 0xE0]

/-- The `IEND` chunk (95_test_vectors.md S1). -/
def iend : Bytes := [0x00, 0x00, 0x00, 0x00, 0x49, 0x45, 0x4E, 0x44, 0xAE, 0x42, 0x60, 0x82]

/-- The file of P4. -/
def fileP4 : Bytes := pngSignature ++ ihdrP4 ++ idatP4 ++ iend

/-- A state that holds P4's file and knows P4's answer of `INFLATE` (95_test_vectors.md section 3). -/
def stateP4 : State := { input fileP4 with cfg.inflateTable := [(zlibP4, some [0x00, 0x80])] }

/-- The signature and `IHDR` of the 2 by 2 red image (95_test_vectors.md S2). -/
def headerP5 : Bytes :=
  pngSignature ++
  [0x00, 0x00, 0x00, 0x0D, 0x49, 0x48, 0x44, 0x52, 0x00, 0x00, 0x00, 0x02, 0x00, 0x00, 0x00, 0x02] ++
  [0x08, 0x06, 0x00, 0x00, 0x00, 0x72, 0xB6, 0x0D, 0x24]

/-- The filtered stream of the red image at level 3 (95_test_vectors.md S2). -/
def filteredP5 : Bytes :=
  [0x01, 0xFF, 0x00, 0x00, 0xFF, 0x00, 0x00, 0x00, 0x00] ++
  [0x02, 0x00, 0x00, 0x00, 0x00, 0x00, 0x00, 0x00, 0x00]

/-- Its stored zlib stream (95_test_vectors.md section 3). -/
def zlibP5 : Bytes :=
  [0x78, 0x01, 0x01, 0x12, 0x00, 0xED, 0xFF] ++ filteredP5 ++ [0x1F, 0x17, 0x02, 0x02]

/-- The `IDAT` chunk of P5. -/
def idatP5 : Bytes :=
  [0x00, 0x00, 0x00, 0x1D, 0x49, 0x44, 0x41, 0x54] ++ zlibP5 ++ [0x9C, 0x63, 0x50, 0xF4]

/-- The red image, and P5's answer of `DEFLATE` at level 9. -/
def stateP5 : State :=
  { State.reset with
    cfg.deflateTable := [((filteredP5, 9), zlibP5)]
    img := image 2 2 6 8 0 3
    mem.raw :=
      holding [0xFF, 0x00, 0x00, 0xFF, 0xFF, 0x00, 0x00, 0xFF, 0xFF, 0x00, 0x00, 0xFF, 0xFF, 0x00, 0x00, 0xFF] }

/-- P3's state: the filtered rows of a 4 by 2 grey image in IN. -/
def stateP3 : State :=
  { input [0x01, 0x0A, 0x05, 0x05, 0x05, 0x02, 0x01, 0x02, 0x03, 0x04] with img := image 4 2 0 8 0 3 }

/-- P3's image. -/
def rawP3 : Bytes := [0x0A, 0x0F, 0x14, 0x19, 0x0B, 0x11, 0x17, 0x1D]

/-- The 3 by 3 grey image of 95_test_vectors.md 2.4. -/
def raw33 : Bytes := [1, 2, 3, 4, 5, 6, 7, 8, 9]

/-- Its Adam7 stream at level 0. -/
def stream33 : Bytes := [0, 1, 0, 3, 0, 7, 9, 0, 2, 0, 8, 0, 4, 5, 6]

/-- The state of an outcome that is a next state. -/
def next : Outcome State Fault Refusal → State
  | .next t => t
  | .fault _ => State.reset
  | .refused _ => State.reset

/-- The outcome is a next state. -/
def isNext : Outcome State Fault Refusal → Bool
  | .next _ => true
  | .fault _ => false
  | .refused _ => false

theorem eq_next (o : Outcome State Fault Refusal) (h : isNext o = true) : o = .next (next o) := by
  cases o <;> first | rfl | cases h

/-! ## Well-formedness refuses (30_encoding.md R303, 10_state.md R100, R140, 00_scope.md R9) -/

theorem test_opcodeOk_refuses : (CommandFields.opcodeOk { opcode := 0x02, pipe := false, reserved := 0 }) = false := by
  decide +kernel

theorem test_reservedOk_refuses :
    (CommandFields.reservedOk { opcode := 0x00, pipe := false, reserved := 1 }) = false := by decide +kernel

theorem test_pipeOk_refuses : (CommandFields.pipeOk { opcode := 0x40, pipe := true, reserved := 0 }) = false := by
  decide +kernel

theorem test_inWindow_refuses : inWindow 0x100 = false := by decide +kernel

theorem test_windowAccessOk_refuses :
    windowAccessOk .half 0x010 = false ∧ windowAccessOk .double 0x010 = false ∧ windowAccessOk .word 0x011 = false := by
  decide +kernel

theorem test_spaceWidthOk_refuses : spaceWidthOk .word = false := by decide +kernel

theorem test_minimumsOk_refuses : ({ Config.default with dbufCap := 767 } : Config).minimumsOk = false := by decide +kernel

theorem test_countersFit_refuses : ({ Config.default with outCap := 2 ^ 32 } : Config).countersFit = false := by decide +kernel

/-! ## Words (30_encoding.md R301, R302) -/

theorem test_decode_system : decode 0x00000000 = .ok .nop ∧ decode 0x00000001 = .ok .clear := by decide +kernel

theorem test_decode_crc :
    decode 0x00000010 = .ok .crcCalc ∧ decode 0x00000011 = .ok .crcUpd ∧ decode 0x00000012 = .ok .crcUpd32 := by decide +kernel

theorem test_decode_framer :
    decode 0x00000020 = .ok .sigCheck ∧ decode 0x00000021 = .ok .sigWrite ∧ decode 0x00000022 = .ok .chunkRead ∧
    decode 0x00000023 = .ok .chunkVerify ∧ decode 0x00000024 = .ok .chunkSetcrc ∧
    decode 0x00000025 = .ok .chunkWrite := by decide +kernel

theorem test_decode_filter_adam7 :
    decode 0x00000030 = .ok .unfilter ∧ decode 0x00000031 = .ok .filter ∧ decode 0x00000038 = .ok .deinterlace ∧
    decode 0x00000039 = .ok .interlace := by decide +kernel

theorem test_decode_decoder :
    decode 0x00000040 = .ok .decHeader ∧ decode 0x00000041 = .ok .decChunks ∧ decode 0x00000042 = .ok .decInflate ∧
    decode 0x00000043 = .ok .decPixels ∧ decode 0x00000044 = .ok .decExpand ∧ decode 0x0000004F = .ok (.decode false) ∧
    decode 0x0000014F = .ok (.decode true) := by decide +kernel

theorem test_decode_encoder :
    decode 0x00000050 = .ok .encValidate ∧ decode 0x00000051 = .ok .encHeader ∧ decode 0x00000052 = .ok .encData ∧
    decode 0x00000053 = .ok .encTrailer ∧ decode 0x0000005F = .ok (.encode false) ∧
    decode 0x0000015F = .ok (.encode true) := by decide +kernel

theorem test_decode_illegal :
    decode 0x00000002 = .error .reservedOpcode ∧ decode 0x00000140 = .error .pipeNotAllowed ∧
    decode 0x00010010 = .error .reservedBits ∧ decodeTableWord 32 0x140 = none := by decide +kernel

/-! ## One step per command (95_test_vectors.md) -/

/-- P7. -/
theorem test_nop : regs 0x00 State.reset [.status, .errcode, .cmd] = some [0x00000002, 0, 0] := by decide +kernel

/-- P7. -/
theorem test_illegal :
    regs 0x140 State.reset [.status, .errcode, .errinfo, .decStatus] = some [0x00004004, 0x50, 0x140, 0] := by decide +kernel

/-- P6. -/
theorem test_clear :
    regs 0x01 { stateP4 with dec.state := .failed, img := image 1 1 3 8 0 0 } [.status, .decStatus, .imgFormat] =
      some [0x00000102, 0, 0x00000308] := by decide +kernel

/-- P1. -/
theorem test_crcCalc :
    regs 0x10 { State.reset with mem.dbuf := holding [0x49, 0x45, 0x4E, 0x44], crc.len := 4 } [.crcOut] =
      some [0xAE426082] := by decide +kernel

/-- 95_test_vectors.md 2.1. -/
theorem test_crcUpd :
    regs 0x11
      { State.reset with
        mem.dbuf := holding [0, 0, 0, 2, 0, 0, 0, 2, 8, 6, 0, 0, 0], crc.len := 13, crc.input := 0x575E51F5 }
      [.crcOut] = some [0x8D49F2DB] := by decide +kernel

/-- P1. -/
theorem test_crcUpd32 :
    regs 0x12 { State.reset with crc.input := 0xFFFFFFFF, crc.val := 0x49454E44 } [.crcOut, .status] =
      some [0x51BD9F7D, 0x00001202] := by decide +kernel

/-- 95_test_vectors.md 2.2. -/
theorem test_sigCheck : regs 0x20 (input pngSignature) [.inPos, .errcode] = some [8, 0] := by decide +kernel

/-- 95_test_vectors.md 2.2: seven bytes. -/
theorem test_sigCheck_short : regs 0x20 (input (pngSignature.take 7)) [.inPos, .errcode] = some [0, 0x02] := by decide +kernel

/-- P2. -/
theorem test_sigWrite : bytes 0x21 State.reset .outp 8 = some pngSignature := by decide +kernel

/-- 95_test_vectors.md 2.2. -/
theorem test_chunkRead :
    regs 0x22 (input iend) [.chLength, .chType, .chCrc, .chFlags, .inPos] = some [0, 0x49454E44, 0xAE426082, 0, 12] := by
  decide +kernel

/-- 95_test_vectors.md 2.2: an oversized chunk. -/
theorem test_chunkRead_oversized :
    regs 0x22 { input [0, 0, 4, 0, 0x49, 0x44, 0x41, 0x54] with cfg.dbufCap := 768 }
      [.errcode, .errinfo, .chLength, .inPos] = some [0x51, 2, 0x400, 8] := by decide +kernel

/-- 95_test_vectors.md 2.2. -/
theorem test_chunkVerify :
    regs 0x23 { State.reset with ch := { length := 0, type := 0x49454E44, crc := 0xAE426083 } }
      [.errcode, .errinfo, .crcOut] = some [0x18, 0x49454E44, 0xAE426082] := by decide +kernel

/-- 95_test_vectors.md 2.2. -/
theorem test_chunkSetcrc :
    regs 0x24 { State.reset with ch.type := 0x49444154 } [.chCrc, .crcOut] = some [0x35AF061E, 0x35AF061E] := by decide +kernel

/-- P2. -/
theorem test_chunkWrite :
    bytes 0x25 { State.reset with ch := { length := 0, type := 0x49454E44, crc := 0xAE426082 } } .outp 12 =
      some iend := by decide +kernel

/-- P3. -/
theorem test_unfilter : bytes 0x30 stateP3 .raw 8 = some rawP3 ∧ regs 0x30 stateP3 [.rawLen, .inPos] = some [8, 10] := by
  decide +kernel

/-- 95_test_vectors.md 2.3: the type is checked after the row is read. -/
theorem test_unfilter_type :
    regs 0x30 { input [0x05, 0x00] with img := image 1 1 0 8 0 0 } [.errcode, .errinfo] = some [0x30, 5] := by decide +kernel

/-- P3. -/
theorem test_filter :
    bytes 0x31 { State.reset with img := image 4 2 0 8 0 3, mem.raw := holding rawP3 } .outp 10 =
      some [0x01, 0x0A, 0x05, 0x05, 0x05, 0x02, 0x01, 0x02, 0x03, 0x04] := by decide +kernel

/-- 95_test_vectors.md 2.3: a 1-bit row at level 3. -/
theorem test_filter_packed :
    bytes 0x31 { State.reset with img := image 10 1 0 1 0 3, mem.raw := holding [1, 0, 1, 1, 0, 0, 1, 0, 1, 1] } .outp 3 =
      some [0x01, 0xB2, 0x0E] := by decide +kernel

/-- 42_filter.md R508 at 3 pixel bits, which a failed DEC.HEADER may leave: no sample of these rows crosses a byte. -/
theorem test_packRow_three_bits :
    packRow (formatOf 0 3) 1 [0x0D] = [0xA0] ∧ packRow (formatOf 0 3) 2 [0x05, 0x0B] = [0xAC] := by decide +kernel

/-- 95_test_vectors.md 2.4. -/
theorem test_deinterlace :
    bytes 0x38 { input stream33 with img := image 3 3 0 8 1 0 } .raw 9 = some raw33 := by decide +kernel

/-- 95_test_vectors.md 2.4. -/
theorem test_interlace :
    bytes 0x39 { State.reset with img := image 3 3 0 8 1 0, mem.raw := holding raw33 } .outp 15 = some stream33 := by
  decide +kernel

/-- 95_test_vectors.md 2.5. -/
theorem test_decHeader :
    regs 0x40 (input headerP5) [.imgWidth, .imgFormat, .chCrc, .crcOut, .inPos, .decStatus] =
      some [2, 0x00000608, 0x72B60D24, 0x72B60D24, 33, 1] := by decide +kernel

/-- P8: the CRC is compared before the type is acted on. -/
theorem test_decHeader_flip :
    regs 0x40 (input (pngSignature ++ ihdrP4.set 4 0x69)) [.errcode, .errinfo, .crcOut, .chCrc] =
      some [0x18, 0x69484452, 0x14DDA9AF, 0x3A7E9B55] := by decide +kernel

/-- 44_decode.md R710, 60_exceptions.md R930: a wrong signature leaves DBUF. -/
theorem test_decHeader_keeps_dbuf :
    (run 0x40 { input (zeros 8) with mem.dbuf := Memory.write [] 13 7 }).map (fun t => (t.errCode, t.mem.dbuf.read 13)) =
      some (0x10, 7) := by decide +kernel

/-- 41_framer.md R450: an `IDAT` whose CRC IN does not hold leaves DBUF. -/
theorem test_decHeader_cut_idat :
    (run 0x40 { input (pngSignature ++ idatP4.take (idatP4.length - 1)) with mem.dbuf := Memory.write [] 0 7 }).map
        (fun t => (t.errCode, t.ch.type, t.mem.dbuf)) =
      some (0x02, 0x49444154, Memory.write [] 0 7) := by decide +kernel

/-- 95_test_vectors.md 2.5, P4. -/
theorem test_decChunks :
    regs 0x41 { input (idatP4 ++ iend) with dec.state := .header } [.stageLen, .idatCount, .inPos, .decStatus] =
      some [13, 1, 37, 0x00000C02] := by decide +kernel

/-- 95_test_vectors.md 2.5: a month of 13. -/
theorem test_decChunks_time :
    regs 0x41
      { input [0, 0, 0, 7, 0x74, 0x49, 0x4D, 0x45, 0x07, 0xE6, 0x0D, 0x01, 0, 0, 0, 0, 0, 0, 0] with
        dec.state := .header, ctrl.crcCheckEn := false }
      [.errcode, .errinfo] = some [0x29, 0x74494D45] := by decide +kernel

/-- 44_decode.md R711, 60_exceptions.md R930: an error of the chunk loop leaves PAL where no entry was written. -/
theorem test_decChunks_keeps_pal :
    (run 0x41 { input [0x00] with dec.state := .header, mem.pal := Memory.write [] 3 7 }).map
      (fun t => (t.errCode, t.mem.pal.read 3)) = some (0x02, 7) := by decide +kernel

/-- 95_test_vectors.md 2.5. -/
theorem test_decInflate :
    (run 0x42 { stateP4 with dec.state := .chunks, str.stage := .holding zlibP4 0 }).map
      (fun t => (t.str.infl.unread, t.cnt.inflLen, t.dec.state)) = some ([0x00, 0x80], 2, .inflated) := by decide +kernel

/-- 95_test_vectors.md 2.5. -/
theorem test_decInflate_sequence : regs 0x42 State.reset [.errcode, .errinfo, .decStatus] = some [0x52, 0, 15] := by decide +kernel

/-- 95_test_vectors.md 2.5. -/
theorem test_decPixels :
    bytes 0x43
      { stateP4 with dec.state := .inflated, img := image 1 1 0 8 0 0, str.infl := .holding [0x00, 0x80] 0 } .raw 1 =
      some [0x80] := by decide +kernel

/-- 95_test_vectors.md 2.5. -/
theorem test_decExpand :
    bytes 0x44 { State.reset with dec.state := .pixels, img := image 1 1 0 8 0 0, mem.raw := holding [0x80] } .pix 8 =
      some [0x00, 0x80, 0x00, 0x80, 0x00, 0x80, 0x00, 0xFF] := by decide +kernel

/-- 95_test_vectors.md 2.5: a palette index beyond the palette. -/
theorem test_decExpand_index :
    regs 0x44
      { State.reset with
        dec.state := .pixels, dec.palCount := 3, img := image 1 1 3 8 0 0, mem.raw := holding [0x03] }
      [.errcode, .errinfo] = some [0x26, 3] := by decide +kernel

/-- P4. -/
theorem test_decode :
    regs 0x4F stateP4 [.inPos, .pixLen, .pixMax, .decStatus, .status] = some [70, 8, 255, 0x00000C05, 0x00004F02] := by
  decide +kernel

/-- P4 pipelined, under an interleaving: the inflater and the deinterlacer get turns before the chunk reader ends. -/
theorem test_decode_pipelined :
    (match exec (.decode true)
        { stateP4 with turns := [.first, .second 5, .third 1, .second 99, .first, .second 1, .second 1, .third 1] } with
      | .next t => some (t.mem.pix.readBytes 0 8, t.cnt.inPos)
      | .fault _ => none
      | .refused _ => none) = some ([0x00, 0x80, 0x00, 0x80, 0x00, 0x80, 0x00, 0xFF], 70) := by decide +kernel

/-- 95_test_vectors.md 2.6. -/
theorem test_encValidate : regs 0x50 stateP5 [.outLen, .encStatus, .errcode] = some [0, 1, 0] := by decide +kernel

/-- 95_test_vectors.md 2.6. -/
theorem test_encValidate_palette :
    regs 0x50 { State.reset with img := image 4 1 3 2 0 0, enc.palCount := 5 } [.errcode, .encStatus] = some [0x22, 15] := by
  decide +kernel

/-- 95_test_vectors.md 2.6, S2. -/
theorem test_encHeader : bytes 0x51 { stateP5 with enc.state := .valid } .outp 33 = some headerP5 := by decide +kernel

/-- 95_test_vectors.md 2.2, 45_encode.md R806: `PLTE` and `tRNS`. -/
theorem test_encHeader_palette :
    (run 0x51
        { State.reset with
          img := image 4 1 3 2 0 0, enc.state := .valid, enc.palCount := 3, enc.emitAlpha := true
          mem.pal := holding [0xFF, 0, 0, 0xFF, 0, 0xFF, 0, 0x80, 0, 0, 0xFF, 0xFF] }).map
      (fun t => t.mem.outp.readBytes 33 35) =
      some ([0x00, 0x00, 0x00, 0x09, 0x50, 0x4C, 0x54, 0x45, 0xFF, 0x00, 0x00, 0x00, 0xFF, 0x00, 0x00, 0x00, 0xFF] ++
        [0x2D, 0x4A, 0xCD, 0x8A] ++
        [0x00, 0x00, 0x00, 0x02, 0x74, 0x52, 0x4E, 0x53, 0xFF, 0x80, 0x08, 0x0F, 0xB3, 0x6A]) := by decide +kernel

/-- 95_test_vectors.md 2.6, P5. -/
theorem test_encData : bytes 0x52 { stateP5 with enc.state := .header } .outp 41 = some idatP5 := by decide +kernel

/-- 95_test_vectors.md 2.6. -/
theorem test_encTrailer : bytes 0x53 { State.reset with enc.state := .data } .outp 12 = some iend := by decide +kernel

/-- P5. -/
theorem test_encode : bytes 0x5F stateP5 .outp 86 = some (headerP5 ++ idatP5 ++ iend) := by decide +kernel

/-- P5's variant, pipelined: three `IDAT` chunks. -/
theorem test_encode_pipelined :
    regs 0x15F { stateP5 with enc.maxIdat := 10 } [.outLen, .idatCount, .filtLen, .deflLen, .encStatus, .status] =
      some [110, 3, 18, 29, 4, 0x00005F02] := by decide +kernel

/-! ## States that meet the hypotheses of the statements -/

/-- The reset state while it runs NOP. -/
def busy : State := State.reset.accept 0

/-- The spaces of the reset state are canonical and within their sizes. -/
theorem reset_spaces_ok (c : Config) : State.reset.mem.ok c := by
  intro sp; cases sp <;> exact ⟨Memory.wf_nil, fun _ h => nomatch h⟩

theorem reset_inv : Inv State.reset := by
  refine ⟨by decide, reset_spaces_ok _, ⟨by decide, by decide⟩, ?_, ?_⟩ <;> constructor <;> decide

theorem busy_inv : Inv busy := by
  refine ⟨by decide, reset_spaces_ok _, ⟨by decide, by decide⟩, ?_, ?_⟩ <;> constructor <;> decide

theorem witness_ResetAbandonsCommand :
    let s := { busy with port.inbox := [.resetAssert, .resetRelease Spaces.empty] }
    s.status.busy = true ∧ Spaces.empty.ok s.cfg ∧
      s.port.inbox = .resetAssert :: .resetRelease Spaces.empty :: [] :=
  ⟨rfl, reset_spaces_ok _, rfl⟩

theorem witness_ReservedAndReadOnly :
    Reg.ofOffset 0x01C = none ∧ Reg.ofOffset 0x0F0 = none ∧ Reg.ofOffset 0x0FC = none ∧
      Reg.idatCount ∈ ([.id, .idatCount] : List Reg) := by decide

/-- A write of `IN_LEN` above the size of IN, and one of another register. -/
theorem witness_RegisterReadBack :
    State.reset.cfg.wf = true ∧ State.reset.status.busy = false ∧ State.reset.cfg.inCap < (0xFFFFFFFF : Word).toNat ∧
      Reg.inPos ≠ Reg.inLen ∧ ¬(Reg.inLen = .chType ∧ Reg.inPos = .chFlags) ∧
      ¬(Reg.inLen = .imgFormat ∧ Reg.inPos = .imgDerived) := by decide

/-- A palette type of depth 8 is legal, of depth 16 it is not. -/
theorem witness_ComputedRegisters :
    ((3 : Byte).toNat = 3 ∧ (8 : Byte).toNat ∈ [1, 2, 4, 8]) ∧
      ¬(((3 : Byte).toNat = 0 ∧ (16 : Byte).toNat ∈ [1, 2, 4, 8, 16]) ∨ ((3 : Byte).toNat = 3 ∧ (16 : Byte).toNat ∈ [1, 2, 4, 8]) ∨
        ((3 : Byte).toNat ∈ [2, 4, 6] ∧ (16 : Byte).toNat ∈ [8, 16])) := by decide

theorem witness_CommandAcceptance : State.reset.status.busy = false ∧ pipeActiveOf 0x14F = true ∧
    pipeActiveOf 0x140 = false := by decide

theorem witness_BusyWrites : busy.status.busy = true ∧ Reg.imgWidth ≠ .status ∧ Reg.imgWidth ≠ .cmd := by decide

/-- A block that is idle, one that runs a pipelined DECODE, and one with an illegal word. -/
theorem witness_HostRegisterReads :
    let s := State.reset.accept 0x14F
    let t := State.reset.accept 0x140
    State.reset.status.busy = false ∧ decode t.cmd = .error .pipeNotAllowed ∧ s.status.busy = true ∧
      decode s.cmd = .ok (.decode true) ∧ Reg.outLen ∉ resultRegs s.ctrl.crcCheckEn (.decode true) ∧
      Reg.decStatus ∈ resultRegs s.ctrl.crcCheckEn (.decode true) ∧ Reg.errinfo ∈ [Reg.status, .cmd, .errcode, .errinfo] ∧
      ∃ t, s.regRead .word Reg.decStatus.offset = .next t :=
  ⟨rfl, by decide, rfl, by decide, by decide, by decide, by decide, _, rfl⟩

/-- 44_decode.md R662: with `CRC_CHECK_EN = 0` a busy block's `CRC_OUT` reads its value during a decode command. -/
theorem test_crcOut_read_while_busy :
    (match ({ State.reset.accept 0x4F with ctrl.crcCheckEn := false, crc.out := 7 } : State).regRead .word
        Reg.crcOut.offset with
      | .next t => some t.port.readData
      | .fault _ => none
      | .refused _ => none) = some 7 := by decide +kernel

/-- The first offset outside the window, a byte and a misaligned access inside, the last word; and platform addresses at the
edges of the window and of PAL. -/
theorem witness_WindowAccesses :
    (256 ≤ 256 ∧ (255 < 256 ∧ (AccessWidth.byte ≠ .word ∨ 255 % 4 ≠ 0)) ∧ (252 < 256 ∧ 252 % 4 = 0)) ∧
    let c := State.reset.cfg
    let inSpace := fun (sp : Space) (a : Nat) => spaceBase c.platform sp ≤ a ∧ a < spaceBase c.platform sp + sp.cap c
    (c.platform.windowBase ≤ 255 ∧ 255 < c.platform.windowBase + 256) ∧
      (¬(c.platform.windowBase ≤ 0x5003FF ∧ 0x5003FF < c.platform.windowBase + 256) ∧ inSpace .pal 0x5003FF ∧
        ∀ sq, sq ≠ .pal → ¬inSpace sq 0x5003FF) ∧
      (¬(c.platform.windowBase ≤ 0x500400 ∧ 0x500400 < c.platform.windowBase + 256) ∧ ∀ sq, ¬inSpace sq 0x500400) := by
  refine ⟨by decide, by decide, ⟨by decide, by decide, fun sq => ?_⟩, by decide, fun sq => ?_⟩ <;> cases sq <;> decide

/-- 10_state.md R100, 92_eei_decisions.md D2: an aligned word outside the window. -/
theorem test_outside_window :
    State.reset.regWrite .word 0x100 0 = .refused .outsideInterface ∧
      State.reset.regRead .word 0x100 = .refused .outsideInterface := ⟨rfl, rfl⟩

theorem witness_SpaceAccesses :
    State.reset.mem.ok State.reset.cfg ∧ 1023 < Space.pal.cap State.reset.cfg ∧ State.reset.status.busy = false ∧
      busy.mem.ok busy.cfg ∧ 1023 < Space.pal.cap busy.cfg ∧ busy.status.busy = true ∧
      Space.pal.cap State.reset.cfg ≤ 1024 :=
  ⟨reset_spaces_ok _, by decide, rfl, reset_spaces_ok _, by decide, rfl, by decide⟩

theorem witness_InterruptOutput :
    ({ State.reset with ctrl.irqEn := true } : State).ctrl.irqEn = true ∧ busy.status.busy = true ∧
      ∃ t, busy.regWrite .word 0x010 0 = .next t := ⟨rfl, rfl, _, rfl⟩

theorem witness_EncodeDecodeAgree : decode 0x15F = .ok (.encode true) := by decide

theorem witness_IllegalWords :
    let s := State.reset.accept 0x140
    let t := { s with port.inbox := [.engine []] }
    s.port.inbox = [] ∧ t.port.inbox = .engine [] :: [] ∧ s.inReset = false ∧ s.status.busy = true ∧
      decode s.cmd = .error .pipeNotAllowed := by decide

theorem witness_StepRunsDecodedCommand :
    let s := State.reset.accept 0x15F
    let t := { s with port.inbox := [.engine [.first]] }
    s.inReset = false ∧ s.status.busy = true ∧ decode s.cmd = .ok (.encode true) ∧ s.port.inbox = [] ∧
      t.port.inbox = .engine [.first] :: [] := by decide

/-- An idle block, one in reset, and an event of each kind of access. -/
theorem witness_StepRunsDecodedCommand_access :
    State.reset.status.busy = false ∧ State.reset.assertReset.inReset = true ∧
    ∀ e ∈ [HostEvent.regWrite .word 0x008 1, .spaceWrite .pal 0 1, .busWrite .byte 0 1, .regRead .word 0x000,
        .spaceRead .pal 0, .busRead .byte 0],
      ({ State.reset with port.inbox := [e] } : State).port.inbox = e :: [] := by decide

/-- NOP leaves `OUT_LEN`. -/
theorem witness_HostRegisterReads_frame :
    (∃ t, exec .nop State.reset = .next t) ∧ Reg.outLen ∉ resultRegs State.reset.ctrl.crcCheckEn .nop ∧
      Reg.outLen ∉ ([.status, .errcode, .errinfo] : List Reg) := ⟨⟨_, rfl⟩, by decide, by decide⟩

/-- DEC.INFLATE after reset. -/
theorem witness_ErrorEntryEffect :
    State.reset.status.err = false ∧ ∃ t, exec .decInflate State.reset = .next t ∧ t.status.err = true :=
  ⟨rfl, _, rfl, rfl⟩

theorem witness_SequenceErrors :
    ((Instr.decExpand, DecState.pixels) ∈ [(Instr.decChunks, DecState.header), (.decExpand, .pixels)] ∧
      State.reset.dec.state ≠ .header ∧ State.reset.dec.state ≠ .chunks ∧ State.reset.dec.state ≠ .inflated ∧
      State.reset.dec.state ≠ .pixels) ∧
    (Instr.encTrailer, EncState.data) ∈ [(Instr.encHeader, EncState.valid), (.encTrailer, .data)] ∧
      State.reset.enc.state ≠ .valid ∧ State.reset.enc.state ≠ .header ∧ State.reset.enc.state ≠ .data := by decide

/-- A write that changes a register of a staged encode; a step that keeps the mark; a state with the mark. -/
theorem witness_ChangedEncodeConfigRefused (e : EncState) (he : e.staged = true) :
    let s := { State.reset with enc.state := e }
    let t := s.hostWrite .imgWidth 1
    (s.status.busy = false ∧ t.readReg .imgWidth ≠ s.readReg .imgWidth ∧
      s.enc.state ∈ [EncState.valid, .header, .data]) ∧
    (t.enc.configChanged = true ∧ ∃ u, step t = .next u) ∧ t.enc.state = e := by
  cases e <;> first | exact ⟨by decide, ⟨rfl, _, rfl⟩, rfl⟩ | cases he

/-- A range that ends at the end of DBUF, and one that passes it by one byte (95_test_vectors.md 2.1). -/
theorem witness_CrcResults :
    let s : State := { State.reset with cfg.dbufCap := 768, crc.off := 760, crc.len := 8 }
    s.crc.off.toNat + s.crc.len.toNat ≤ s.cfg.dbufCap ∧
      ({ s with crc.len := 9 } : State).cfg.dbufCap < s.crc.off.toNat + ({ s with crc.len := 9 } : State).crc.len.toNat := by
  decide

theorem witness_CrcDetectsChangedByte :
    let s : State := { State.reset with ch := { length := 1, type := 0x49454E44, crc := chunkCrc 0x49454E44 [0] } }
    s.mem.ok s.cfg ∧ s.ch.length.toNat ≤ s.cfg.dbufCap ∧ 0 < s.ch.length.toNat ∧ (1 : Byte) ≠ s.mem.dbuf.read 0 ∧
      s.ch.crc = chunkCrc s.ch.type (s.mem.dbuf.readBytes 0 s.ch.length.toNat) :=
  ⟨reset_spaces_ok _, by decide, by decide, by decide, by decide +kernel⟩

theorem witness_SignatureCommands :
    (input pngSignature).inHolds pngSignature ∧
      (8 ≤ inAvail (input (zeros 8)) ∧ (input (zeros 8)).mem.inp.readBytes 0 8 ≠ pngSignature) ∧
      inAvail (input (zeros 7)) < 8 ∧ State.reset.outFits 8 ∧
      ¬({ State.reset with cfg.outCap := 12, cnt.outLen := 5 } : State).outFits 8 := by
  unfold State.inHolds State.outFits; decide +kernel

/-- 95_test_vectors.md 2.2: the data field that does not fit consumes nothing. -/
theorem test_chunkRead_eof :
    regs 0x22 (input [0, 0, 0, 5, 0x49, 0x44, 0x41, 0x54, 1, 2]) [.errcode, .inPos, .chLength, .chType] =
      some [0x02, 8, 5, 0x49444154] := by decide +kernel

/-- A chunk of one byte; a chunk of a byte more than DBUF holds; an input that ends in the length, the type, the data and
the CRC. -/
theorem witness_ChunkReadResults :
    (([1] : Bytes).length ≤ (input []).cfg.dbufCap ∧
      (input [0, 0, 0, 1, 0x49, 0x44, 0x41, 0x54, 1, 0, 0, 0, 2]).inHolds (rawChunk 0x49444154 [1] 2)) ∧
    (let s : State := { input [0, 0, 3, 1, 0x49, 0x44, 0x41, 0x54] with cfg.dbufCap := 768 }
     s.inHolds (be32 769 ++ be32 0x49444154) ∧ s.cfg.dbufCap < (769 : Word).toNat) ∧
    inAvail (input (zeros 3)) < 4 ∧ (inAvail (input (zeros 7)) < 8 ∧ 4 ≤ inAvail (input (zeros 7))) ∧
    (∀ n ∈ [8, 12],
      let s := input (([0, 0, 0, 1, 0x49, 0x44, 0x41, 0x54, 1, 0, 0, 0] : Bytes).take n)
      let len := u32be (s.mem.inp.readBytes s.cnt.inPos.toNat 4)
      len.toNat ≤ s.cfg.dbufCap ∧ inAvail s < 12 + len.toNat ∧ 8 ≤ inAvail s ∧
        (inAvail s < 8 + len.toNat ↔ n = 8)) := by
  unfold State.inHolds; decide +kernel

theorem witness_ChunkVerifyResult :
    let s : State := { State.reset with ch := { length := 0, type := 0x49454E44, crc := 0xAE426082 } }
    s.ch.length.toNat ≤ s.cfg.dbufCap ∧ s.cfg.dbufCap < (4097 : Word).toNat ∧
      chunkCrc s.ch.type (s.mem.dbuf.readBytes 0 s.ch.length.toNat) = s.ch.crc ∧
      chunkCrc s.ch.type (s.mem.dbuf.readBytes 0 s.ch.length.toNat) ≠ 0xAE426083 := by decide +kernel

/-- A chunk that fills OUT exactly, and one that is a byte too long. -/
theorem witness_ChunkWriteResults :
    let s : State := { State.reset with cfg.outCap := 20, cnt.outLen := 8 }
    let t : State := { s with cnt.outLen := 9 }
    s.cfg.dbufCap < ({ s with ch.length := 4097 } : State).ch.length.toNat ∧ s.ch.length.toNat ≤ s.cfg.dbufCap ∧
      s.outFits (12 + s.ch.length.toNat) ∧ ¬t.outFits (12 + t.ch.length.toNat) := by
  unfold State.outFits; decide

/-- A row of six samples that fit their two bits, with four bits of padding, and a row of samples that do not fit. -/
theorem witness_RowTransforms :
    (([0xFF, 4, 1, 2, 3, 0x80] : Bytes).length = 6 ∧ 6 * 2 % 8 ≠ 0 ∧ pack [0xFF, 4, 1, 2, 3, 0x80] 6 2 = [0xC6, 0xC0]) ∧
    0 < 1 ∧ (4 ∈ [1, 2, 4] ∧ 2 < 3) ∧ 2 ∈ [1, 2, 4] ∧ ([0, 1, 2, 3, 3, 2] : Bytes).length = 6 ∧
      ∀ b ∈ ([0, 1, 2, 3, 3, 2] : Bytes), b.toNat < 2 ^ 2 := by decide

/-- 95_test_vectors.md 2.3. -/
theorem witness_BestSizeIsFirstMinimum :
    selectFilter 3 1 [0x0A, 0x0F, 0x14, 0x19] (zeros 4) = some .sub ∧
      FilterType.none.code.toNat < FilterType.sub.code.toNat := by decide +kernel

/-- Scanlines of type 0 whose bodies are the rows. -/
theorem isUnfiltered_none (f : Format) (w h : Nat) (rows : List Bytes) (hh : rows.length = h)
    (hr : ∀ r ∈ rows, r.length = f.rowBytes w) :
    IsUnfiltered f w h (rows.map (0 :: ·)) (rows.flatMap fun r => if f.pixelBits < 8 then unpack r w f.pixelBits else r) := by
  refine ⟨rows, by simpa, hh, rfl, fun y hy => ?_⟩
  obtain ⟨r, hy'⟩ : ∃ r, rows[y]? = some r := ⟨_, List.getElem?_eq_getElem (hh ▸ hy)⟩
  refine ⟨.none, r, r, by simp [hy', FilterType.code], hy', hr r (List.mem_of_getElem? hy'), rfl, fun i _ => ?_⟩
  simp [predictor]

/-- P3: a row of type Sub and a row of type Up. -/
theorem p3_isUnfiltered :
    IsUnfiltered (formatOf 0 8) 4 2 [[0x01, 0x0A, 0x05, 0x05, 0x05], [0x02, 0x01, 0x02, 0x03, 0x04]] rawP3 := by
  refine ⟨[[0x0A, 0x0F, 0x14, 0x19], [0x0B, 0x11, 0x17, 0x1D]], rfl, rfl, by decide +kernel, fun y hy => ?_⟩
  unfold IsReconstructed
  match y, hy with
  | 0, _ => exact ⟨.sub, _, _, rfl, rfl, rfl, by decide +kernel⟩
  | 1, _ => exact ⟨.up, _, _, rfl, rfl, rfl, by decide +kernel⟩

theorem witness_UnfilterResult :
    let s := stateP3
    let lines : List Bytes := [[0x01, 0x0A, 0x05, 0x05, 0x05], [0x02, 0x01, 0x02, 0x03, 0x04]]
    (s.img.formatOk ∧ s.img.rawBytes ≤ s.cfg.rawCap ∧
      rowsFit s.cfg.rowCap s.img.format 0 s.img.width.toNat s.img.height.toNat ∧ s.inHolds lines.flatten) ∧
    IsUnfiltered s.img.format s.img.width.toNat s.img.height.toNat lines rawP3 := by
  refine ⟨?_, p3_isUnfiltered⟩
  unfold ImgRegs.formatOk rowsFit passEmpty State.inHolds; decide +kernel

/-- The 3 by 3 image of 95_test_vectors.md 2.4, pass by pass. -/
theorem stream33_isDeinterlaced :
    IsDeinterlaced (formatOf 0 8) 1 3 3 [[0, 1], [0, 3], [0, 7, 9], [0, 2], [0, 8], [0, 4, 5, 6]] raw33 := by
  refine .inr ⟨rfl, by decide, fun p => ([[1], [], [], [3], [7, 9], [2, 8], [4, 5, 6]] : List Bytes).getD p [],
    fun p => ([[[0, 1]], [], [], [[0, 3]], [[0, 7, 9]], [[0, 2], [0, 8]], [[0, 4, 5, 6]]] : List (List Bytes)).getD p [],
    rfl, fun p hp => ?_⟩
  unfold passEmpty IsPass
  match p, hp with
  | 0, _ => exact ⟨by decide, fun _ => ⟨by decide, isUnfiltered_none _ _ _ [[1]] rfl (by decide)⟩⟩
  | 1, _ => exact ⟨fun _ => rfl, fun h => absurd (by decide) h⟩
  | 2, _ => exact ⟨fun _ => rfl, fun h => absurd (by decide) h⟩
  | 3, _ => exact ⟨by decide, fun _ => ⟨by decide, isUnfiltered_none _ _ _ [[3]] rfl (by decide)⟩⟩
  | 4, _ => exact ⟨by decide, fun _ => ⟨by decide, isUnfiltered_none _ _ _ [[7, 9]] rfl (by decide)⟩⟩
  | 5, _ => exact ⟨by decide, fun _ => ⟨by decide, isUnfiltered_none _ _ _ [[2], [8]] rfl (by decide)⟩⟩
  | 6, _ => exact ⟨by decide, fun _ => ⟨by decide, isUnfiltered_none _ _ _ [[4, 5, 6]] rfl (by decide)⟩⟩

/-- A 1 by 2 image whose first scanline is good: with no more input, a byte short of the second scanline, and with a second
scanline of type 5. The sequencer stands where DEC.PIXELS runs, which the others do not look at. -/
theorem witness_ScanlineErrors (i : Instr) (hi : i ∈ [Instr.unfilter, .deinterlace, .decPixels]) :
    let state := fun v : Bytes =>
      { input v with img := image 1 2 0 8 0 0, dec.state := .inflated, str.infl := .holding v 0 }
    let inp := fun s : State => if i = .decPixels then s.str.infl.unread else s.mem.inp.readBytes s.cnt.inPos.toNat (inAvail s)
    let s := state [0, 1]
    ((i = .unfilter ∧ (0 : Byte) = 0) ∨ (i = .deinterlace ∧ 0 = s.img.interlace) ∨
      (i = .decPixels ∧ 0 = s.img.interlace ∧ s.dec.state = .inflated ∧ s.str.infl.closed = true ∧ s.img.headerOk)) ∧
    (s.img.formatOk ∧ s.img.rawBytes ≤ s.cfg.rawCap ∧
      rowsFit s.cfg.rowCap s.img.format 0 s.img.width.toNat s.img.height.toNat) ∧
    IsDeinterlaced s.img.format 0 s.img.width.toNat s.img.height.toNat
      ([[0, 1]] ++ (FilterType.none.code :: [2]) :: []) [1, 2] ∧
    (∀ v ∈ [[0, 1], [0, 1, 0], [0, 1, 5, 2]], (inp (state v)).take 2 = [0, 1]) ∧
    ((inp (state [0, 1])).length < 2 + (1 + 1)) ∧ ((inp (state [0, 1, 0])).length < 2 + (1 + 1)) ∧
    (2 + (1 + 1) ≤ (inp (state [0, 1, 5, 2])).length ∧ 4 < (byteAt (inp (state [0, 1, 5, 2])) 2).toNat) := by
  unfold ImgRegs.headerOk ImgRegs.formatOk rowsFit passEmpty
  refine ⟨?_, by decide, .inl ⟨rfl, isUnfiltered_none _ _ _ [[1], [2]] rfl (by decide)⟩, ?_⟩ <;>
  · simp only [List.mem_cons, List.not_mem_nil, or_false] at hi
    obtain rfl | rfl | rfl := hi <;> decide +kernel

/-- P5's image, in an OUT that takes both scanlines and in one that takes one. -/
theorem witness_FilterResult :
    let s := stateP5
    let t : State := { s with cfg.outCap := 17 }
    let size := 1 + s.img.format.rowBytes s.img.width.toNat
    s.img.formatOk ∧ s.img.level.toNat ≤ 3 ∧ s.img.rawBytes ≤ s.cfg.rawCap ∧ s.cfg.wf = true ∧ t.cfg.wf = true ∧
      rowsFit s.cfg.rowCap s.img.format 0 s.img.width.toNat s.img.height.toNat ∧
      s.outFits (s.img.height.toNat * size) ∧ t.lengthsOk ∧ ¬t.outFits (t.img.height.toNat * size) := by
  unfold ImgRegs.formatOk State.outFits State.lengthsOk rowsFit passEmpty; decide +kernel

/-- A bad depth, an interlace method of 2, a level of 4, a RAW that is too small, and a row that is too long. -/
theorem witness_FilterCommandErrors :
    let s : State := { State.reset with img := image 2 2 0 8 0 0 }
    ({ s with img.bitDepth := 3 } : State).filterError false false = some (.invalidBitDepth, 0) ∧
    ({ s with img.interlace := 2 } : State).filterError true false = some (.unknownInterlaceMethod, 0) ∧
    ({ s with img.level := 4 } : State).filterError false true = some (.unknownCompressionLevel, 0) ∧
    ({ s with cfg.rawCap := 3 } : State).filterError true true = some (.capacityExceeded, 3) ∧
    (let t : State := { s with cfg.rowCap := 1 }
     t.filterError false false = none ∧ 0 < t.img.width.toNat ∧ 0 < t.img.height.toNat ∧
       t.cfg.rowCap < t.img.format.rowBytes t.img.width.toNat) := by decide +kernel

/-- A 3 by 3 grey image: passes 0 and 3 have rows of one byte, and pass 4 a row of two. -/
theorem wide_pass : IsWidePass 1 (formatOf 0 8) 3 3 4 ∧ IsPassesBefore (formatOf 0 8) 3 3 4 [[0, 1], [0, 3]] := by
  refine ⟨by unfold IsWidePass passEmpty; decide, fun q => if q = 0 then [[0, 1]] else if q = 3 then [[0, 3]] else [], rfl, ?_⟩
  intro q hq
  interval_cases q
  · exact ⟨fun h => absurd h (by unfold passEmpty; decide), fun _ => ⟨rfl, fun l hl => ⟨.none, [1], by simpa [FilterType.code] using hl, rfl⟩⟩⟩
  · exact ⟨fun _ => rfl, fun h => absurd (by unfold passEmpty; decide) h⟩
  · exact ⟨fun _ => rfl, fun h => absurd (by unfold passEmpty; decide) h⟩
  · exact ⟨fun h => absurd h (by unfold passEmpty; decide), fun _ => ⟨rfl, fun l hl => ⟨.none, [3], by simpa [FilterType.code] using hl, rfl⟩⟩⟩

/-- Row buffers of one byte, in a DEINTERLACE that has read the passes before, and in an INTERLACE that has written them. -/
theorem witness_FilterCommandErrors_pass :
    let s : State := { input stream33 with img := image 3 3 0 8 1 0, cfg.rowCap := 1 }
    (∀ level, s.filterError true level = none) ∧ s.img.interlace = 1 ∧
      IsWidePass s.cfg.rowCap s.img.format s.img.width.toNat s.img.height.toNat 4 ∧ s.cfg.wf = true ∧
      s.outFits (bytesBefore s.img.format s.img.width.toNat s.img.height.toNat 4) ∧
      IsPassesBefore s.img.format s.img.width.toNat s.img.height.toNat 4 [[0, 1], [0, 3]] ∧
      s.inHolds ([[0, 1], [0, 3]] : List Bytes).flatten :=
  ⟨by decide +kernel, rfl, wide_pass.1, by decide +kernel, by unfold State.outFits; decide +kernel, wide_pass.2,
    by unfold State.inHolds; decide +kernel⟩

/-- 43_adam7.md R610, R620: a row of pass 4 that the row buffers cannot take. -/
theorem test_wide_pass :
    ([0x38, 0x39].map fun w =>
      regs w { input stream33 with img := image 3 3 0 8 1 0, cfg.rowCap := 1 } [.errcode, .errinfo]) =
      [some [0x51, 12], some [0x51, 12]] := by decide +kernel

/-- 42_filter.md R530: a second row that OUT cannot take leaves the engine at that row, at its write. -/
theorem test_filter_row_after_error :
    (run 0x31
        { State.reset with
          cfg.outCap := 12, cnt.outLen := 4, img := image 4 2 0 8 0 3, mem.raw := holding rawP3 }).map
      (fun t => (t.flt.row, t.flt.fstate, t.cnt.outLen)) = some (1, .writeFilt, 9) := by decide +kernel

theorem witness_Adam7Coverage : 2 < 3 ∧ 0 < 1 := by decide

/-- 1-bit samples, interlaced, at the level that chooses filters. -/
theorem witness_InterlaceRoundTrip :
    legalPair 0 1 = true ∧ (1 : Byte).toNat ≤ 1 ∧ (3 : Byte).toNat ≤ 3 ∧ (formatOf 0 1).rowBytes 3 ≤ 1 ∧
      ([1, 0, 1, 0, 1, 0] : Bytes).length = 3 * 2 * (formatOf 0 1).ups ∧ samplesFit 1 [1, 0, 1, 0, 1, 0] := by
  unfold samplesFit; decide +kernel

theorem witness_DeinterlaceResult :
    let s : State := { input stream33 with img := image 3 3 0 8 1 0 }
    let lines : List Bytes := [[0, 1], [0, 3], [0, 7, 9], [0, 2], [0, 8], [0, 4, 5, 6]]
    (s.img.formatOk ∧ s.img.rawBytes ≤ s.cfg.rawCap ∧
      rowsFit s.cfg.rowCap s.img.format s.img.interlace s.img.width.toNat s.img.height.toNat ∧
      s.inHolds lines.flatten) ∧
    IsDeinterlaced s.img.format s.img.interlace s.img.width.toNat s.img.height.toNat lines raw33 := by
  refine ⟨?_, stream33_isDeinterlaced⟩
  unfold ImgRegs.formatOk State.inHolds rowsFit passEmpty; decide +kernel

/-- In an OUT that the stream fills, and in one that is a byte short. -/
theorem witness_InterlaceResult :
    let s : State := { State.reset with cfg.outCap := 15, img := image 3 3 0 8 1 0, mem.raw := holding raw33 }
    let t : State := { s with cfg.outCap := 14 }
    s.img.formatOk ∧ s.img.interlace.toNat ≤ 1 ∧ s.img.level.toNat ≤ 3 ∧ s.img.rawBytes ≤ s.cfg.rawCap ∧
      s.cfg.wf = true ∧ t.cfg.wf = true ∧
      rowsFit s.cfg.rowCap s.img.format s.img.interlace s.img.width.toNat s.img.height.toNat ∧
      s.outFits s.encFiltered.length ∧ t.lengthsOk ∧ ¬t.outFits t.encFiltered.length := by
  unfold ImgRegs.formatOk State.outFits State.lengthsOk rowsFit passEmpty; decide +kernel

theorem witness_DecHeaderResult :
    let s := stateP4
    let data := ihdrData (image 1 1 0 8 0 0)
    13 ≤ data.length ∧ data.length ≤ s.cfg.dbufCap ∧ 20 + data.length ≤ s.cnt.inLen.toNat ∧
      s.mem.inp.readBytes 0 (20 + data.length) =
        pngSignature ++ (be32Len data.length ++ be32 typeIHDR ++ data ++ be32 0x3A7E9B55) ∧
      (s.ctrl.crcCheckEn = true → 0x3A7E9B55 = chunkCrc typeIHDR data) ∧ (parseIhdr data s.img).headerOk := by
  unfold ImgRegs.headerOk ImgRegs.formatOk; decide +kernel

/-- 95_test_vectors.md S5: a width of 0, and S4: a bit depth of 3. -/
theorem witness_HeaderErrors_fields (zero : Bool) :
    let data := ihdrData (if zero then image 0 1 0 8 0 0 else image 1 1 6 3 0 0)
    let s := input (pngSignature ++ chunkBytes typeIHDR data)
    13 ≤ data.length ∧ data.length ≤ s.cfg.dbufCap ∧ 20 + data.length ≤ s.cnt.inLen.toNat ∧
      s.mem.inp.readBytes 0 (20 + data.length) =
        pngSignature ++ rawChunk 0x49484452 data (chunkCrc 0x49484452 data) ∧
      ¬(parseIhdr data s.img).headerOk ∧
      (if zero then u32be (slice data 0 4) = 0
       else u32be (slice data 0 4) ≠ 0 ∧ u32be (slice data 4 4) ≠ 0 ∧ byteAt data 8 = 3) := by
  unfold ImgRegs.headerOk ImgRegs.formatOk; cases zero <;> decide +kernel

/-- A signature of seven bytes, a wrong one, seven bytes of a chunk and a chunk a byte short; a wrong CRC; `IEND` first; an
`IHDR` of 12 bytes; an `IHDR` of a byte more than DBUF holds. -/
theorem witness_HeaderErrors :
    (input (pngSignature.take 7)).cnt.inLen.toNat < 8 ∧
    (8 ≤ (input (zeros 8)).cnt.inLen.toNat ∧ (input (zeros 8)).mem.inp.readBytes 0 8 ≠ pngSignature) ∧
    (let s := input (pngSignature ++ zeros 7)
     8 ≤ s.cnt.inLen.toNat ∧ s.mem.inp.readBytes 0 8 = pngSignature ∧ s.cnt.inLen.toNat < 16) ∧
    (let s := input (pngSignature ++ iend.take 11)
     s.mem.inp.readBytes 0 8 = pngSignature ∧ s.cnt.inLen.toNat < 20 + (u32be (s.mem.inp.readBytes 8 4)).toNat) ∧
    (∀ q ∈ [(typeIHDR, (0 : Word), zeros 13), (0x49454E44, 0xAE426082, []), (typeIHDR, chunkCrc typeIHDR (zeros 12), zeros 12)],
      let s := input (pngSignature ++ rawChunk q.1 q.2.2 q.2.1)
      20 + q.2.2.length ≤ s.cnt.inLen.toNat ∧
        s.mem.inp.readBytes 0 (20 + q.2.2.length) = pngSignature ++ rawChunk q.1 q.2.2 q.2.1) ∧
    (0 : Word) ≠ chunkCrc typeIHDR (zeros 13) ∧ (0xAE426082 : Word) = chunkCrc 0x49454E44 [] ∧
    (let s : State := { input (pngSignature ++ rawChunk typeIHDR (zeros 769) 0) with cfg.dbufCap := 768, ctrl.crcCheckEn := false }
     20 + (zeros 769).length ≤ s.cnt.inLen.toNat ∧
       s.mem.inp.readBytes 0 (20 + (zeros 769).length) = pngSignature ++ rawChunk typeIHDR (zeros 769) 0 ∧
       s.cfg.dbufCap < (zeros 769).length) := by decide +kernel

/-- A first chunk that is cut short: an `IDAT`, and one of a byte more than DBUF holds. -/
theorem witness_HeaderErrors_cut (idat : Bool) :
    let s : State :=
      { input (pngSignature ++
          if idat then idatP4.take (idatP4.length - 1) else (rawChunk typeIHDR (zeros 769) 0).take 8) with
        cfg.dbufCap := 768 }
    16 ≤ s.cnt.inLen.toNat ∧ s.mem.inp.readBytes 0 8 = pngSignature ∧
      s.cnt.inLen.toNat < 20 + (u32be (s.mem.inp.readBytes 8 4)).toNat ∧
      (if idat then u32be (s.mem.inp.readBytes 12 4) = 0x49444154
       else s.cfg.dbufCap < (u32be (s.mem.inp.readBytes 8 4)).toNat) := by cases idat <;> decide +kernel

theorem witness_DecChunksResult :
    let s : State := { input (idatP4 ++ iend) with dec.state := .header }
    s.dec.state = .header ∧ (s.img.colorType = 3 → s.dec.seenPlte = true) ∧
      [zlibP4].flatten.length ≤ s.cfg.stageCap ∧
      s.inHolds ([zlibP4].flatMap (chunkBytes typeIDAT) ++ chunkBytes typeIEND []) := by
  unfold State.inHolds; decide +kernel

/-- A palette of the greatest size at depth 2; as many alphas as entries; records that just fit META, by type. -/
theorem witness_AcceptedChunks :
    let s : State := { State.reset with img := image 1 1 3 2 0 0, cfg.metaCap := 10 }
    let t : State := { s with dec.seenPlte := true, dec.palCount := 4 }
    (s.dec.seenPlte = false ∧ s.dec.seenIdat = false ∧ s.img.colorType ≠ 0 ∧ s.img.colorType ≠ 4 ∧
      (zeros 12).length / 3 ≤ 256 ∧ (s.img.colorType = 3 → (zeros 12).length / 3 ≤ 2 ^ s.img.bitDepth.toNat)) ∧
    (t.dec.seenTrns = false ∧ t.dec.seenIdat = false ∧ t.img.colorType = 3 ∧ t.dec.seenPlte = true ∧
      (zeros 4).length ≤ t.dec.palCount.toNat ∧ t.dec.palCount.toNat ≤ 256) ∧
    (State.reset.dec.seenTrns = false ∧ State.reset.dec.seenIdat = false ∧ State.reset.img.colorType = 0) ∧
    s.cnt.metaLen.toNat + (8 + ([0x41, 0x00] : Bytes).length) ≤ s.cfg.metaCap ∧
    ((0x624B4744 : Word) ∉ ([typeIDAT, typePLTE, typeTRNS, typeTEXT, typeZTXT, typeITXT, typeTIME, typeIEND] : List Word) ∧
      (0x624B4744 : Word).getLsbD 29 = true) := by decide +kernel

/-- A keyword of one byte. -/
theorem keyword_A (rest : Bytes) : IsKeywordEnd (0x41 :: 0x00 :: rest) 1 :=
  ⟨⟨by decide, rfl, fun j _ hj => by obtain rfl : j = 0 := by omega
                                     simp⟩, by decide, by decide⟩

/-- A turn that goes on, and one that ends the loop; an `IDAT` that just fits STAGE. -/
theorem witness_AcceptedChunks_end :
    (let s : State := { input (idatP4 ++ iend) with dec.state := .header }
     s.dec.state = .header ∧ ∃ u v, chunkTurns 1 s.chunksStart = some u ∧ decChunksStep u = .ok true v) ∧
    (let s : State := { State.reset with cfg.stageCap := 13 }
     (s.img.colorType = 3 → s.dec.seenPlte = true) ∧ s.str.stage.closed = false ∧
       s.str.stage.total + zlibP4.length ≤ s.cfg.stageCap) := by
  refine ⟨⟨rfl, ?_⟩, by decide⟩
  have h : ((chunkTurns 1 ({ input (idatP4 ++ iend) with dec.state := .header } : State).chunksStart).map decChunksStep).any
      (fun r => match r with | .ok b _ => b | .raised _ _ _ | .stuck _ | .refuse _ => false) = true := by decide +kernel
  obtain ⟨r, hr, h⟩ := (Option.any_eq_true ..).mp h
  obtain ⟨u, hu, rfl⟩ := Option.map_eq_some_iff.mp hr
  split at h
  · next b v hv => exact ⟨u, v, hu, by rw [hv, h]⟩
  all_goals cases h

/-- The layouts at their shortest, and a time at the upper ends of its ranges. -/
theorem witness_AcceptedChunks_layout :
    hasLayout typeTEXT [0x41, 0x00] ∧ hasLayout typeZTXT [0x41, 0x00, 0x00] ∧
      hasLayout typeITXT [0x41, 0x00, 0x00, 0x00, 0x00, 0x00] ∧
      hasLayout typeTIME [0x07, 0xE6, 0x0C, 0x1F, 0x17, 0x3B, 0x3C] := by
  refine ⟨⟨fun _ => ⟨1, keyword_A _⟩, fun h => absurd h (by decide), fun h => absurd h (by decide),
      fun h => absurd h (by decide)⟩,
    ⟨fun h => absurd h (by decide), fun _ => ⟨1, keyword_A _, by decide⟩, fun h => absurd h (by decide),
      fun h => absurd h (by decide)⟩,
    ⟨fun h => absurd h (by decide), fun h => absurd h (by decide),
      fun _ => ⟨1, 4, 5, keyword_A _, by decide, ⟨by decide, rfl, fun j h1 h2 => by omega⟩, by decide, rfl⟩,
      fun h => absurd h (by decide)⟩,
    ⟨fun h => absurd h (by decide), fun h => absurd h (by decide), fun h => absurd h (by decide), fun _ => by decide⟩⟩

/-- 95_test_vectors.md 2.5: for each clause on the image, the flags and the sizes, a state and a chunk that meet it. -/
theorem witness_RejectedChunks :
    let grey : State := { State.reset with img := image 1 1 0 8 0 0 }
    let pal : State := { State.reset with img := image 1 1 3 2 0 0 }
    let pal4 : State := { pal with dec.seenPlte := true, dec.palCount := 4 }
    (pal.img.colorType = 3 ∧ pal.dec.seenPlte = false) ∧ pal4.dec.seenPlte = true ∧
    (grey.dec.seenPlte = false ∧ (grey.dec.seenIdat = true ∨ grey.img.colorType = 0 ∨ grey.img.colorType = 4)) ∧
    (pal.dec.seenPlte = false ∧ pal.dec.seenIdat = false ∧ pal.img.colorType ≠ 0 ∧ pal.img.colorType ≠ 4 ∧
      (256 < (zeros 15).length / 3 ∨ (pal.img.colorType = 3 ∧ 2 ^ pal.img.bitDepth.toNat < (zeros 15).length / 3))) ∧
    (pal4.img.colorType = 3 ∧ pal4.dec.seenTrns = false ∧ pal4.dec.seenIdat = false ∧ pal4.dec.seenPlte = true ∧
      pal4.dec.palCount.toNat < (zeros 5).length) ∧
    (0x41424344 : Word).getLsbD 29 = false := by decide +kernel

/-- No layout: an empty keyword, and a month of 13. -/
theorem witness_RejectedChunks_layout :
    ¬hasLayout 0x74455874 [0x00] ∧ ¬hasLayout 0x7A545874 [0x00] ∧ ¬hasLayout 0x69545874 [0x00] ∧
      ¬hasLayout 0x74494D45 [0x07, 0xE6, 0x0D, 0x01, 0x00, 0x00, 0x00] := by
  have none : ∀ k, ¬IsKeywordEnd [0x00] k := fun k h => by
    have h0 : 0 < k := h.2.1
    exact h.1.2.2 0 (Nat.zero_le _) h0 rfl
  refine ⟨fun h => ?_, fun h => ?_, fun h => ?_, fun h => absurd (h.2.2.2 rfl).2.2.1 (by decide)⟩
  · obtain ⟨k, hk⟩ := h.1 rfl
    exact none k hk
  · obtain ⟨k, hk, _⟩ := h.2.1 rfl
    exact none k hk
  · obtain ⟨k, _, _, hk, _⟩ := h.2.2.1 rfl
    exact none k hk

/-- A turn that goes on, and one that meets the end of the input. -/
theorem chunk_loop_turns :
    let s : State := { input (idatP4 ++ [0x00]) with dec.state := .header }
    ∃ u v, chunkTurns 1 s.chunksStart = some u ∧ decChunksStep u = .raised .unexpectedEof 0 v := by
  intro s
  have h1 : (chunkTurns 1 s.chunksStart).isSome = true := by decide +kernel
  obtain ⟨u, hu⟩ := Option.isSome_iff_exists.mp h1
  have h2 : (chunkTurns 1 s.chunksStart).all (fun u => decide (inAvail u < 4)) = true := by decide +kernel
  have h3 : inAvail u < 4 := by simpa [hu] using h2
  exact ⟨u, unspecified [.chLength, .chType, .chCrc] u, hu, by
    simp only [decChunksStep, readChunk, readU32, readIn, Cmd.bind, Cmd.leaving, Cmd.onRaise, if_pos h3]⟩

/-- The loop's second turn after a first that went on; an input that ends; a wrong CRC; an `IDAT` that STAGE and a `tEXt`
that DBUF cannot take; a record that META cannot take. -/
theorem witness_ChunkLoopErrors :
    (let s : State := { input (idatP4 ++ [0x00]) with dec.state := .header }
     s.dec.state = .header ∧ s.cfg.wf = true ∧ ∃ u v, chunkTurns 1 s.chunksStart = some u ∧
       decChunksStep u = .raised .unexpectedEof 0 v) ∧
    inAvail (input (zeros 7)) < 8 ∧
    (let s := input (iend.take 11)
     s.inHolds (be32 0 ++ be32 0x49454E44) ∧ inAvail s < 12 + (0 : Word).toNat) ∧
    (([] : Bytes).length < 2 ^ 32 ∧ (input (rawChunk 0x49454E44 [] 0)).inHolds (rawChunk 0x49454E44 [] 0) ∧
      State.reset.ctrl.crcCheckEn = true ∧ (0 : Word) ≠ chunkCrc 0x49454E44 []) ∧
    (let s : State := { input idatP4 with cfg.stageCap := 12 }
     s.inHolds (rawChunk 0x49444154 zlibP4 0xC36E25E0) ∧ (0xC36E25E0 : Word) = chunkCrc 0x49444154 zlibP4 ∧
       s.cfg.stageCap < s.str.stage.total + zlibP4.length) ∧
    (let s : State := { input (rawChunk 0x74455874 (zeros 769) 0) with cfg.dbufCap := 768, ctrl.crcCheckEn := false }
     s.inHolds (rawChunk 0x74455874 (zeros 769) 0) ∧ s.cfg.dbufCap < (zeros 769).length) ∧
    (let s : State := { State.reset with cfg.metaCap := 9 }
     s.dec.seenTrns = false ∧ s.dec.seenIdat = false ∧ s.img.colorType = 0 ∧
       s.cfg.metaCap < s.cnt.metaLen.toNat + (8 + (zeros 2).length)) := by
  refine ⟨⟨rfl, by decide, chunk_loop_turns⟩, ?_⟩
  unfold State.inHolds; decide +kernel

theorem witness_ChunkLoopErrors_spaces : (input (idatP4 ++ [0x00])).mem.ok State.reset.cfg := by
  intro sp
  cases sp <;> first | exact ⟨Memory.wf_nil, fun _ h => nomatch h⟩ | (unfold Spaces.okAt; decide +kernel)

/-- An answer that just fits INFL, and each of the three errors. -/
theorem witness_DecInflateResult :
    let s : State := { stateP4 with dec.state := .chunks, str.stage := .holding zlibP4 0, cfg.inflCap := 2 }
    s.dec.state = .chunks ∧ s.str.stage.closed = true ∧ s.cfg.zlibPresent = true ∧
      Config.inflateOf s.cfg s.str.stage.unread = some [0x00, 0x80] ∧ ([0x00, 0x80] : Bytes).length ≤ s.cfg.inflCap ∧
      ({ s with cfg.zlibPresent := false } : State).cfg.zlibPresent = false ∧
      Config.inflateOf { s.cfg with inflateTable := [(zlibP4, none)] } s.str.stage.unread = none ∧
      ({ s with cfg.inflCap := 1 } : State).cfg.inflCap < ([0x00, 0x80] : Bytes).length := by decide +kernel

/-- The Adam7 stream and a byte after it. -/
theorem witness_DecPixelsResult :
    let s : State :=
      { State.reset with
        dec.state := .inflated, img := image 3 3 0 8 1 0, str.infl := .holding (stream33 ++ [0x07]) 0 }
    let lines : List Bytes := [[0, 1], [0, 3], [0, 7, 9], [0, 2], [0, 8], [0, 4, 5, 6]]
    (s.dec.state = .inflated ∧ s.img.headerOk ∧ s.img.rawBytes ≤ s.cfg.rawCap ∧
      rowsFit s.cfg.rowCap s.img.format s.img.interlace s.img.width.toNat s.img.height.toNat ∧
      s.str.infl.unread = lines.flatten ++ [0x07]) ∧
    IsDeinterlaced s.img.format s.img.interlace s.img.width.toNat s.img.height.toNat lines raw33 := by
  refine ⟨?_, stream33_isDeinterlaced⟩
  unfold ImgRegs.headerOk ImgRegs.formatOk rowsFit passEmpty; decide +kernel

/-- A depth of 3, an interlace method of 2, a RAW that is a byte short, and a row buffer that is a byte short. -/
theorem witness_DecPixelsResult_errors :
    let s : State := { State.reset with dec.state := .inflated, img := image 2 2 0 8 0 0 }
    s.dec.state = .inflated ∧ ({ s with img.bitDepth := 3 } : State).headerError = some .invalidBitDepth ∧
      s.headerError = none ∧ 1 < ({ s with img.interlace := 2 } : State).img.interlace.toNat ∧
      s.img.interlace.toNat ≤ 1 ∧ ({ s with cfg.rawCap := 3 } : State).cfg.rawCap < s.img.rawBytes ∧
      s.img.rawBytes ≤ s.cfg.rawCap ∧
      ({ s with cfg.rowCap := 1 } : State).cfg.rowCap < s.img.format.rowBytes s.img.width.toNat := by decide +kernel

/-- Row buffers of one byte: pass 4 does not fit them, after the passes before. -/
theorem witness_DecPixelsResult_pass :
    let s : State :=
      { State.reset with
        dec.state := .inflated, img := image 3 3 0 8 1 0, str.infl := .holding stream33 0, cfg.rowCap := 1 }
    s.dec.state = .inflated ∧ s.headerError = none ∧ s.img.interlace = 1 ∧ s.img.rawBytes ≤ s.cfg.rawCap ∧
      IsWidePass s.cfg.rowCap s.img.format s.img.width.toNat s.img.height.toNat 4 ∧
      IsPassesBefore s.img.format s.img.width.toNat s.img.height.toNat 4 [[0, 1], [0, 3]] ∧
      s.str.infl.unread = ([[0, 1], [0, 3]] : List Bytes).flatten ++ stream33.drop 4 :=
  ⟨rfl, by decide +kernel, rfl, by decide +kernel, wide_pass.1, wide_pass.2, by decide +kernel⟩

/-- A palette image whose largest index is the last entry, in a PIX that it fills. -/
theorem witness_DecExpandResult :
    let s : State :=
      { State.reset with
        dec.state := .pixels, dec.palCount := 3, img := image 2 1 3 8 0 0, mem.raw := holding [0, 2], cfg.pixCap := 16 }
    s.dec.state = .pixels ∧ s.img.headerOk ∧ s.img.pixels * 8 ≤ s.cfg.pixCap ∧ s.img.rawBytes ≤ s.cfg.rawCap ∧
      s.indicesOk := by
  unfold ImgRegs.headerOk ImgRegs.formatOk State.indicesOk; decide +kernel

/-- A height of 0, and a PIX that is a byte short. -/
theorem witness_DecExpandResult_errors :
    let s : State := { State.reset with dec.state := .pixels, img := image 2 1 0 8 0 0, cfg.pixCap := 15 }
    s.dec.state = .pixels ∧ ({ s with img.height := 0 } : State).headerError = some .invalidImageSize ∧
      s.headerError = none ∧ s.cfg.pixCap < s.img.pixels * 8 := by decide +kernel

theorem witness_FirstBadIndexReported :
    let s : State :=
      { State.reset with
        dec.state := .pixels, dec.palCount := 3, img := image 2 1 3 8 0 0, mem.raw := holding [2, 3] }
    s.dec.state = .pixels ∧ s.img.headerOk ∧ s.img.colorType = 3 ∧ s.img.pixels * 8 ≤ s.cfg.pixCap ∧
      s.img.rawBytes ≤ s.cfg.rawCap ∧ s.dec.palCount.toNat ≤ 256 ∧ 1 < s.img.pixels ∧
      (∀ j < 1, s.sample j 0 < s.dec.palCount.toNat) ∧ s.dec.palCount.toNat ≤ s.sample 1 0 := by
  unfold ImgRegs.headerOk ImgRegs.formatOk; decide +kernel

/-- Log 32: a grey sample of depth 2 in a byte of RAW whose higher bits are not 0. -/
theorem test_decExpand_masks :
    bytes 0x44 { State.reset with dec.state := .pixels, img := image 1 1 0 2 0 0, mem.raw := holding [0xFE] } .pix 8 =
      some [0x00, 0x02, 0x00, 0x02, 0x00, 0x02, 0x00, 0x03] := by decide +kernel

/-- P4, stage by stage. -/
theorem witness_DecodeEqualsStages :
    ∃ s1 s2 s3 s4 s5 : State,
      exec .decHeader stateP4 = .next s1 ∧ s1.dec.state = .header ∧ exec .decChunks s1 = .next s2 ∧
      s2.dec.state = .chunks ∧ exec .decInflate s2 = .next s3 ∧ s3.dec.state = .inflated ∧
      exec .decPixels s3 = .next s4 ∧ s4.dec.state = .pixels ∧ exec .decExpand s4 = .next s5 ∧
      s5.dec.state = .expanded := by
  have h1 := eq_next (exec .decHeader stateP4) (by decide +kernel)
  have h2 := eq_next (exec .decChunks _) (by decide +kernel : isNext (exec .decChunks (next (exec .decHeader stateP4))))
  have h3 := eq_next (exec .decInflate _) (by decide +kernel : isNext (exec .decInflate (next (exec .decChunks
    (next (exec .decHeader stateP4))))))
  have h4 := eq_next (exec .decPixels _) (by decide +kernel : isNext (exec .decPixels (next (exec .decInflate
    (next (exec .decChunks (next (exec .decHeader stateP4))))))))
  have h5 := eq_next (exec .decExpand _) (by decide +kernel : isNext (exec .decExpand (next (exec .decPixels
    (next (exec .decInflate (next (exec .decChunks (next (exec .decHeader stateP4))))))))))
  exact ⟨_, _, _, _, _, h1, by decide +kernel, h2, by decide +kernel, h3, by decide +kernel, h4, by decide +kernel, h5,
    by decide +kernel⟩

theorem runInTurn_one {failed : State → Bool} {i : Instr} {s t : State} (h : exec i s = .next t) (hf : failed t = false) :
    runInTurn failed [i] s = some t := by
  simp only [runInTurn, h, hf, Bool.false_eq_true, if_false]

/-- The file of P6: `IDAT` before any `PLTE` in a palette image. -/
def stateP6 : State :=
  input (pngSignature ++
    [0x00, 0x00, 0x00, 0x0D, 0x49, 0x48, 0x44, 0x52, 0x00, 0x00, 0x00, 0x01, 0x00, 0x00, 0x00, 0x01] ++
    [0x08, 0x03, 0x00, 0x00, 0x00, 0x28, 0xCB, 0x34, 0xBB] ++ idatP4 ++ iend)

/-- P6. -/
theorem test_decode_paletteNotFound :
    regs 0x4F stateP6 [.status, .errcode, .errinfo, .imgFormat, .chType, .crcOut] =
      some [0x00004F04, 0x23, 0x49444154, 0x00000308, 0x49444154, 0xC36E25E0] := by decide +kernel

/-- P6: DEC.HEADER finishes, and DEC.CHUNKS fails. -/
theorem witness_DecodeEqualsStages_fail :
    ∃ u t, runInTurn (fun v => v.dec.state == .failed) (decodeStages.take 1) stateP6 = some u ∧
      decodeStages[1]? = some .decChunks ∧ exec .decChunks u = .next t ∧ t.dec.state = .failed ∧ t.errCode = 0x23 := by
  have h1 := eq_next (exec .decHeader stateP6) (by decide +kernel)
  have h2 := eq_next (exec .decChunks _) (by decide +kernel : isNext (exec .decChunks (next (exec .decHeader stateP6))))
  refine ⟨_, _, ?_, rfl, h2, by decide +kernel, by decide +kernel⟩
  have h3 : ((next (exec .decHeader stateP6)).dec.state == DecState.failed) = false := by decide +kernel
  exact runInTurn_one h1 h3

/-- P4. -/
theorem witness_DecodeFile :
    let s := stateP4
    let r := image 1 1 0 8 0 0
    let file := pngSignature ++ chunkBytes typeIHDR (ihdrData r) ++ [] ++ [zlibP4].flatMap (chunkBytes typeIDAT) ++
      chunkBytes typeIEND []
    (s.cfg.wf = true ∧ r.headerOk ∧ rowsFit s.cfg.rowCap r.format r.interlace r.width.toNat r.height.toNat ∧
      file.length ≤ s.cnt.inLen.toNat ∧ s.mem.inp.readBytes 0 file.length = file ∧ r.colorType ≠ 3 ∧
      [zlibP4].flatten.length ≤ s.cfg.stageCap ∧ s.cfg.zlibPresent = true ∧
      Config.inflateOf s.cfg [zlibP4].flatten = some ([[0x00, 0x80]].flatten ++ []) ∧
      ([[0x00, 0x80]].flatten ++ ([] : Bytes)).length ≤ s.cfg.inflCap ∧ r.rawBytes ≤ s.cfg.rawCap ∧
      r.pixels * 8 ≤ s.cfg.pixCap) ∧
    s.mem.inp.wf ∧ s.mem.inp.below s.cfg.inCap ∧
    IsDeinterlaced r.format r.interlace r.width.toNat r.height.toNat [[0x00, 0x80]] [0x80] := by
  refine ⟨?_, by decide +kernel, by decide +kernel, .inl ⟨rfl, isUnfiltered_none _ _ _ [[0x80]] rfl (by decide)⟩⟩
  unfold ImgRegs.headerOk ImgRegs.formatOk rowsFit passEmpty; decide +kernel

theorem witness_DecodeFile_spaces : stateP4.mem.ok stateP4.cfg := by
  intro sp
  cases sp <;> first | exact ⟨Memory.wf_nil, fun _ h => nomatch h⟩ | (unfold Spaces.okAt; decide +kernel)

/-- A 2 by 1 palette image of depth 2 with a palette of three entries, two alphas, and a byte after the scanline. -/
theorem witness_DecodeFile_palette :
    let r := image 2 1 3 2 0 0
    let entries : List (Byte × Byte × Byte) := [(0xFF, 0, 0), (0, 0xFF, 0), (0, 0, 0xFF)]
    let file := pngSignature ++ chunkBytes typeIHDR (ihdrData r) ++
      (chunkBytes typePLTE (entries.flatMap fun c => [c.1, c.2.1, c.2.2]) ++ chunkBytes typeTRNS [0x80, 0xFF]) ++
      [[0x01], [0x02]].flatMap (chunkBytes typeIDAT) ++ chunkBytes typeIEND []
    let s : State := { input file with cfg.inflateTable := [([0x01, 0x02], some [0x00, 0x20, 0x99])] }
    (r.headerOk ∧ rowsFit s.cfg.rowCap r.format r.interlace r.width.toNat r.height.toNat ∧
      file.length ≤ s.cnt.inLen.toNat ∧ s.mem.inp.readBytes 0 file.length = file ∧
      (entries.length ≤ 2 ^ r.bitDepth.toNat ∧ ([0x80, 0xFF] : Bytes).length ≤ entries.length ∧
        ∀ b ∈ ([0, 2] : Bytes), b.toNat < entries.length) ∧
      Config.inflateOf s.cfg [[0x01], [0x02]].flatten = some ([[0x00, 0x20]].flatten ++ [0x99]) ∧
      r.rawBytes ≤ s.cfg.rawCap ∧ r.pixels * 8 ≤ s.cfg.pixCap) ∧
    s.mem.inp.wf ∧ s.mem.inp.below s.cfg.inCap ∧
    IsDeinterlaced r.format r.interlace r.width.toNat r.height.toNat [[0x00, 0x20]] [0, 2] := by
  refine ⟨?_, by decide +kernel, by decide +kernel, .inl ⟨rfl, isUnfiltered_none _ _ _ [[0x20]] rfl (by decide)⟩⟩
  unfold ImgRegs.headerOk ImgRegs.formatOk rowsFit passEmpty; decide +kernel

/-- The same file: both palette indices through DECODE (44_decode.md R682, R683, R700). -/
theorem test_decode_palette :
    bytes 0x4F
      { input (pngSignature ++ chunkBytes typeIHDR (ihdrData (image 2 1 3 2 0 0)) ++
          chunkBytes typePLTE [0xFF, 0, 0, 0, 0xFF, 0, 0, 0, 0xFF] ++ chunkBytes typeTRNS [0x80, 0xFF] ++
          chunkBytes typeIDAT [0x01, 0x02] ++ chunkBytes typeIEND []) with
        cfg.inflateTable := [([0x01, 0x02], some [0x00, 0x20])] } .pix 16 =
      some ([0x00, 0xFF, 0x00, 0x00, 0x00, 0x00, 0x00, 0x80] ++ [0x00, 0x00, 0x00, 0x00, 0x00, 0xFF, 0x00, 0xFF]) := by
  decide +kernel

/-- A palette image with alphas; an OUT that `IEND` fills, and one that is a byte short. -/
theorem witness_EncHeaderAndTrailer :
    (let s : State :=
      { State.reset with
        img := image 4 1 3 2 0 0, enc.state := .valid, enc.palCount := 3, enc.emitAlpha := true
        mem.pal := holding [0xFF, 0, 0, 0xFF, 0, 0xFF, 0, 0x80, 0, 0, 0xFF, 0xFF] }
     s.enc.state = .valid ∧ s.enc.configChanged = false ∧ s.cfg.wf = true ∧
      (s.img.colorType = 3 → s.enc.palCount.toNat ≤ 256) ∧ s.outFits s.headerBytes.length) ∧
    (let s : State := { State.reset with enc.state := .data, cfg.outCap := 20, cnt.outLen := 8 }
     s.enc.state = .data ∧ s.enc.configChanged = false ∧ s.outFits 12 ∧
      ¬({ s with cnt.outLen := 9 } : State).outFits 12) := by
  unfold State.outFits; decide +kernel

/-- The palette of 45_encode.md R806, whose second of three alphas is the last that is not 255. -/
theorem witness_EncHeaderAndTrailer_palette :
    let s : State :=
      { State.reset with
        img := image 4 1 3 2 0 0, enc.palCount := 3, enc.emitAlpha := true
        mem.pal := holding [0xFF, 0, 0, 0xFF, 0, 0xFF, 0, 0x80, 0, 0, 0xFF, 0xFF] }
    let n := s.enc.palCount.toNat
    let rgb : Bytes := [0xFF, 0, 0, 0, 0xFF, 0, 0, 0, 0xFF]
    let alphas : Bytes := [0xFF, 0x80]
    rgb.length = 3 * n ∧ (∀ i < n, ∀ j < 3, byteAt rgb (3 * i + j) = s.mem.pal.read (4 * i + j)) ∧ alphas.length ≤ n ∧
      (∀ i < alphas.length, byteAt alphas i = s.mem.pal.read (4 * i + 3)) ∧
      (∀ i < n, alphas.length ≤ i → s.mem.pal.read (4 * i + 3) = 255) ∧ alphas.getLast? ≠ some 255 := by decide +kernel

/-- An OUT that is a byte short of the red image's `IHDR`. -/
theorem witness_EncHeaderAndTrailer_short :
    let s : State := { stateP5 with enc.state := .valid, cfg.outCap := 32 }
    s.enc.state = .valid ∧ s.enc.configChanged = false ∧ s.cfg.wf = true ∧ s.img.colorType ≠ 3 ∧ s.lengthsOk ∧
      ¬s.outFits s.headerBytes.length := by
  unfold State.outFits State.lengthsOk; decide +kernel

/-- 45_encode.md R760: the signature stays in OUT when the `IHDR` does not fit. -/
theorem test_encHeader_short :
    regs 0x51 { stateP5 with enc.state := .valid, cfg.outCap := 32 } [.outLen, .errcode, .errinfo, .encStatus] =
      some [8, 0x51, 1, 15] := by decide +kernel

theorem stateP5_fits : EncDataFits stateP5 := by constructor <;> decide +kernel

/-- P5's variant. -/
theorem witness_EncDataResult :
    let s : State := { stateP5 with enc.state := .header, enc.maxIdat := 10 }
    s.enc.state = .header ∧ s.enc.configChanged = false ∧ s.cfg.wf = true ∧ EncDataFits s ∧
      s.outFits (idatBytes s.enc.maxIdat.toNat s.encDeflated).length := by
  refine ⟨rfl, rfl, by decide, ?_, ?_⟩
  · constructor <;> decide +kernel
  · unfold State.outFits; decide +kernel

/-- P5's image with a FILT a byte short, a row buffer a byte short, no zlib, a DEFL a byte short, and an OUT that takes two
of the three chunks. -/
theorem witness_EncDataResult_errors :
    let s : State := { stateP5 with enc.state := .header, enc.maxIdat := 10 }
    let rows := fun t : State =>
      rowsFit t.cfg.rowCap t.img.format t.img.interlace t.img.width.toNat t.img.height.toNat
    (s.enc.state = .header ∧ s.enc.configChanged = false ∧ s.cfg.wf = true ∧ s.lengthsOk ∧ s.img.interlace.toNat ≤ 1 ∧
      s.img.level.toNat ≤ 3 ∧ s.img.rawBytes ≤ s.cfg.rawCap) ∧
    (let t : State := { s with cfg.filtCap := 17 }
     t.cfg.filtCap < t.encFiltered.length) ∧
    (let t : State := { s with cfg.rowCap := 7 }
     t.encFiltered.length ≤ t.cfg.filtCap ∧ ¬rows t) ∧
    (s.encFiltered.length ≤ s.cfg.filtCap ∧ rows s) ∧
    (let t : State := { s with cfg.deflCap := 28 }
     t.cfg.zlibPresent = true ∧ t.cfg.deflCap < t.encDeflated.length) ∧
    (let t : State := { s with cfg.outCap := 64 }
     let pieces := t.encDeflated.toChunks t.enc.maxIdat.toNat
     2 < pieces.length ∧ t.lengthsOk ∧ t.outFits ((pieces.take 2).flatMap (chunkBytes typeIDAT)).length ∧
       ¬t.outFits ((pieces.take 3).flatMap (chunkBytes typeIDAT)).length) := by
  unfold rowsFit passEmpty State.lengthsOk State.outFits; decide +kernel

/-- P5's deflated stream in pieces of 10 bytes, in an OUT that the three chunks fill and in one that is a byte short. -/
theorem witness_IdatPieces :
    let s : State := { stateP5 with enc.maxIdat := 10, str.defl := .holding zlibP5 0, cfg.outCap := 65 }
    let t : State := { s with cfg.outCap := 64 }
    s.cfg.wf = true ∧ t.cfg.wf = true ∧ s.lengthsOk ∧ t.lengthsOk ∧ s.enc.maxIdat ≠ 0 ∧ s.str.defl.closed = true ∧
      s.str.defl.unread = zlibP5 ∧ zlibP5.length = 29 ∧ s.outFits (29 + 3 * 12) ∧ ¬t.outFits (29 + 3 * 12) := by
  unfold State.outFits State.lengthsOk; decide +kernel

/-- P5, into an OUT that the file fills. -/
theorem witness_EncodeFile :
    let s : State := { stateP5 with cfg.outCap := 86 }
    (s.cfg.wf = true ∧ s.validationError = none ∧
      (s.headerBytes ++ idatBytes s.enc.maxIdat.toNat s.encDeflated ++ chunkBytes typeIEND []).length ≤ s.cfg.outCap) ∧
    EncDataFits s ∧ s.mem.ok s.cfg := by
  refine ⟨by decide +kernel, by constructor <;> decide +kernel, fun sp => ?_⟩
  cases sp <;> first | exact ⟨Memory.wf_nil, fun _ h => nomatch h⟩ | (unfold Spaces.okAt; decide +kernel)

/-- A split size of 0; and an OUT that cannot take the `IHDR`: ENC.VALIDATE finishes, and ENC.HEADER fails. -/
theorem witness_EncodeFile_fail :
    ({ stateP5 with enc.maxIdat := 0 } : State).validationError = some (.invalidChunkSplitSize, 0) ∧
    let s : State := { stateP5 with cfg.outCap := 32 }
    ∃ u t, runInTurn (fun v => v.enc.state == .failed) (encodeStages.take 1) s = some u ∧
      encodeStages[1]? = some .encHeader ∧ exec .encHeader u = .next t ∧ t.enc.state = .failed := by
  refine ⟨by decide +kernel, ?_⟩
  have h1 := eq_next (exec .encValidate { stateP5 with cfg.outCap := 32 }) (by decide +kernel)
  have h2 := eq_next (exec .encHeader _)
    (by decide +kernel : isNext (exec .encHeader (next (exec .encValidate { stateP5 with cfg.outCap := 32 }))))
  refine ⟨_, _, ?_, rfl, h2, by decide +kernel⟩
  have h3 : ((next (exec .encValidate { stateP5 with cfg.outCap := 32 })).enc.state == EncState.failed) = false := by
    decide +kernel
  exact runInTurn_one h1 h3

theorem witness_InvariantKept : Inv busy ∧ ∃ t, step busy = .next t := ⟨busy_inv, _, rfl⟩

/-- With no event to come, and with an engine event. -/
theorem witness_NoCommandWaitsForever :
    Inv busy ∧ busy.status.busy = true ∧ busy.port.inbox = [] ∧
      (let s : State := { busy with port.inbox := [.engine [.first]] }
       Inv s ∧ s.status.busy = true ∧ s.port.inbox = .engine [.first] :: []) :=
  ⟨busy_inv, rfl, rfl,
    ⟨busy_inv.cfg, busy_inv.spaces, busy_inv.lengths, by constructor <;> decide, by constructor <;> decide⟩, rfl, rfl⟩

/-- For reads that can be met and reads that cannot, and for an empty stream. -/
theorem witness_StreamsAreFifo :
    2 ≤ ([[1], [2, 3]] : List Bytes).flatten.length ∧ ([[1], [2, 3]] : List Bytes).flatten.length < 4 ∧
      ([] : List Bytes).flatten = [] := by decide

/-! ## Host programs -/

/-- `chunk.emit` writes 0x24 and then 0x25 to `CMD` at 0x010, reading `STATUS` at 0x00C after each (30_encoding.md R310,
R311; 95_test_vectors.md P2). -/
theorem test_chunk_emit_transactions :
    programEvents [.chunkEmit { polls := 0, turns := [] } { polls := 0, turns := [] }] =
      [.regWrite .word 0x010 0x24, .engine [], .regRead .word 0x00C,
       .regWrite .word 0x010 0x25, .engine [], .regRead .word 0x00C] := by decide +kernel

/-- `ld` writes one byte per byte, and `cmd DECODE.P` writes 0x14F (30_encoding.md R310; 95_test_vectors.md P1, P4). -/
theorem test_load_and_piped_command_transactions :
    programEvents [.stmt (.ld .dbuf 0 [0x49, 0x45]), .stmt (.cmd (.decode true))] =
      [.spaceWrite .dbuf 0 0x49, .spaceWrite .dbuf 1 0x45, .regWrite .word 0x010 0x14F] := by decide +kernel

end Sys2Proof.Tests
end

section
/-! SUPPORT. What a command's pseudocode leaves: the registers outside its write set, the parameters, `CTRL`, the reset input
and `STATUS` but for CMD_LOST (30_encoding.md R306, 60_exceptions.md R930). -/

namespace Sys2Proof.Machine

/-- Between `s` and `t` nothing of the register window has changed but the registers of `L`, which may depend on
`CTRL.CRC_CHECK_EN` (44_decode.md R662), and `STATUS.CMD_LOST`. -/
structure Frame (L : Bool → List Reg) (s t : State) : Prop where
  cfg : t.cfg = s.cfg
  ctrl : t.ctrl = s.ctrl
  status : t.status = { s.status with cmdLost := t.status.cmdLost }
  inReset : t.inReset = s.inReset
  regs : ∀ r, r ∉ L s.ctrl.crcCheckEn → r ≠ .status → t.readReg r = s.readReg r

theorem Frame.refl {L : Bool → List Reg} (s : State) : Frame L s s := ⟨rfl, rfl, rfl, rfl, fun _ _ _ => rfl⟩

theorem Frame.trans {L : Bool → List Reg} {s t u : State} (h : Frame L s t) (k : Frame L t u) : Frame L s u where
  cfg := k.cfg.trans h.cfg
  ctrl := k.ctrl.trans h.ctrl
  status := by rw [k.status, h.status]
  inReset := k.inReset.trans h.inReset
  regs r hr hs := (k.regs r (by rwa [h.ctrl]) hs).trans (h.regs r hr hs)

theorem Frame.mono {L L' : Bool → List Reg} {s t : State} (h : Frame L s t) (hL : ∀ en, L en ⊆ L' en) : Frame L' s t :=
  ⟨h.cfg, h.ctrl, h.status, h.inReset, fun r hr => h.regs r fun hm => hr (hL _ hm)⟩

/-- A change that leaves `STATUS` and what is no register of the window, register by register. -/
theorem Frame.of_regs {L : Bool → List Reg} {s t : State} (cfg : t.cfg = s.cfg) (ctrl : t.ctrl = s.ctrl)
    (status : t.status = s.status) (inReset : t.inReset = s.inReset)
    (regs : ∀ r, r ∈ L s.ctrl.crcCheckEn ∨ t.readReg r = s.readReg r) : Frame L s t :=
  ⟨cfg, ctrl, by rw [status], inReset, fun r hr _ => (regs r).resolve_left hr⟩

/-- Where the piece has come to a state, ended or with an error, the state meets `P`. -/
def Res.Within {α : Type} (P : State → Prop) : Res α → Prop
  | .ok _ t => P t
  | .raised _ _ t => P t
  | .stuck _ => True
  | .refuse _ => True

theorem Res.Within.imp {α : Type} {P Q : State → Prop} {r : Res α} (h : r.Within P) (hPQ : ∀ t, P t → Q t) :
    r.Within Q := by
  cases r with
  | ok a t => exact hPQ t h
  | raised e info t => exact hPQ t h
  | stuck x => exact h
  | refuse x => exact h

/-- Where the piece ends or raises an error, only the registers of `L` have changed. -/
def Cmd.Frames {α : Type} (L : Bool → List Reg) (m : Cmd α) : Prop := ∀ s, (m s).Within (Frame L s)

section Frames

variable {α β : Type} {L L' : Bool → List Reg}

theorem Cmd.Frames.mono {m : Cmd α} (h : Cmd.Frames L m) (hL : ∀ en, L en ⊆ L' en) : Cmd.Frames L' m :=
  fun s => (h s).imp fun _ ht => ht.mono hL

theorem Cmd.Frames.ret (a : α) : Cmd.Frames L (Cmd.ret a) := Frame.refl

theorem Cmd.Frames.raise (e : Err) (info : Word) : Cmd.Frames L (Cmd.raise e info : Cmd α) := Frame.refl

theorem Cmd.Frames.look (f : State → α) : Cmd.Frames L (Cmd.look f) := Frame.refl

theorem Cmd.Frames.update {f : State → State} (h : ∀ s, Frame L s (f s)) : Cmd.Frames L (Cmd.update f) := h

theorem Cmd.Frames.bind {m : Cmd α} {f : α → Cmd β} (h : Cmd.Frames L m) (k : ∀ a, Cmd.Frames L (f a)) :
    Cmd.Frames L (m.bind f) := by
  intro s
  have hm := h s
  rw [Cmd.bind_run]
  cases hr : m s with
  | ok a t => rw [hr] at hm; exact (k a t).imp fun _ => hm.trans
  | raised e info t => rw [hr] at hm; exact hm
  | stuck x => trivial
  | refuse x => trivial

theorem Cmd.Frames.andThen {m : Cmd α} {n : Cmd β} (h : Cmd.Frames L m) (k : Cmd.Frames L n) :
    Cmd.Frames L (m.andThen n) := h.bind fun _ => k

theorem Cmd.Frames.onRaise {m : Cmd α} {f : Err → State → State} (h : Cmd.Frames L m) (hf : ∀ e s, Frame L s (f e s)) :
    Cmd.Frames L (m.onRaise f) := by
  intro s
  have hm := h s
  unfold Cmd.onRaise
  cases hr : m s with
  | ok a t => rw [hr] at hm; exact hm
  | raised e info t => rw [hr] at hm; exact hm.trans (hf _ _)
  | stuck x => trivial
  | refuse x => trivial

theorem Cmd.Frames.forEach {f : β → Cmd Unit} (h : ∀ b, Cmd.Frames L (f b)) (l : List β) :
    Cmd.Frames L (Cmd.forEach f l) := by
  induction l with
  | nil => exact .ret ()
  | cons b rest ih => exact (h b).andThen ih

/-- A piece that looks at the state it starts in. -/
theorem Cmd.Frames.at {m : State → Cmd α} (h : ∀ s, Cmd.Frames L (m s)) : Cmd.Frames L (fun s => m s s) := fun s => h s s

end Frames

/-! ## Values an error leaves unspecified -/

/-- The registers that hold a free value once the item is free (60_exceptions.md R930). -/
def Item.regs : Item → List Reg
  | .inPos => [.inPos]
  | .outLen => [.outLen]
  | .chLength => [.chLength]
  | .chType => [.chType, .chFlags]
  | .chCrc => [.chCrc]
  | .imgWidth => [.imgWidth]
  | .imgHeight => [.imgHeight]
  | .imgFormat => [.imgFormat, .imgDerived]
  | .imgInterlace => [.imgMode]
  | .decSeen => [.decStatus]
  | .palCount => [.palCount]
  | .trnsCount => [.trnsCount]
  | .pixMax => [.pixMax]
  | .stageLen => [.stageLen]
  | .inflLen => [.inflLen]
  | .filtLen => [.filtLen]
  | .deflLen => [.deflLen]
  | .rawLen => [.rawLen]
  | .pixLen => [.pixLen]
  | .metaLen => [.metaLen]
  | .metaCount => [.metaCount]
  | .idatCount => [.idatCount]
  | .space _ | .bytes _ _ _ | .stream _ => []

theorem Item.free_frame (k : Nat) (it : Item) (s : State) : Frame (fun _ => it.regs) s (it.free k s) := by
  cases it <;> refine .of_regs rfl rfl rfl rfl fun r => ?_ <;> cases r <;> first | exact .inr rfl | exact .inl (by simp [Item.regs])

/-! ## Pieces that change nothing -/

/-- The piece changes nothing: it answers, or raises an error that a command may report (60_exceptions.md R901). -/
def Cmd.Examines {α : Type} (m : Cmd α) : Prop :=
  ∀ s, (∃ a, m s = .ok a s) ∨ ∃ e info, e.code ∈ reportedCodes ∧ m s = .raised e info s

section Examines

variable {α β : Type}

theorem Cmd.Examines.frames {m : Cmd α} {L : Bool → List Reg} (h : m.Examines) : Cmd.Frames L m := by
  intro s
  obtain ⟨a, hs⟩ | ⟨e, info, -, hs⟩ := h s <;> rw [hs] <;> exact Frame.refl s

theorem Cmd.Examines.ret (a : α) : (Cmd.ret a).Examines := fun _ => .inl ⟨a, rfl⟩

theorem Cmd.Examines.raise {e : Err} {info : Word} (he : e.code ∈ reportedCodes) : (Cmd.raise e info : Cmd α).Examines :=
  fun _ => .inr ⟨e, info, he, rfl⟩

theorem Cmd.Examines.raiseIf (c : Bool) {e : Err} {info : Word} (he : e.code ∈ reportedCodes) :
    (Cmd.raiseIf c e info).Examines := by
  intro s
  cases c
  · exact .inl ⟨(), Cmd.raiseIf_false rfl s⟩
  · exact .inr ⟨e, info, he, Cmd.raiseIf_true rfl s⟩

theorem Cmd.Examines.bind {m : Cmd α} {f : α → Cmd β} (h : m.Examines) (k : ∀ a, (f a).Examines) : (m.bind f).Examines := by
  intro s
  obtain ⟨a, hs⟩ | ⟨e, info, he, hs⟩ := h s
  · rw [Cmd.bind_ok hs]; exact k a s
  · exact .inr ⟨e, info, he, Cmd.bind_raised hs⟩

theorem Cmd.Examines.andThen {m : Cmd α} {n : Cmd β} (h : m.Examines) (k : n.Examines) : (m.andThen n).Examines :=
  h.bind fun _ => k

/-- `if c: raise E(info)`, and then `m`. -/
theorem Cmd.Examines.raiseIte {c : State → Prop} [DecidablePred c] {e : Err} {info : State → Word} {m : Cmd α}
    (he : e.code ∈ reportedCodes) (h : m.Examines) :
    Cmd.Examines (fun s => if c s then .raised e (info s) s else m s) := by
  intro s
  by_cases hc : c s
  · exact .inr ⟨e, info s, he, if_pos hc⟩
  · simp only [if_neg hc]; exact h s

/-- A choice between two such pieces. -/
theorem Cmd.Examines.ite {c : State → Prop} [DecidablePred c] {m n : Cmd α} (h : m.Examines) (k : n.Examines) :
    Cmd.Examines (fun s => if c s then m s else n s) := by
  intro s
  by_cases hc : c s
  · simp only [if_pos hc]; exact h s
  · simp only [if_neg hc]; exact k s

/-- Such a piece that looks at the state it starts in. -/
theorem Cmd.Examines.at {m : State → Cmd α} (h : ∀ s, (m s).Examines) : Cmd.Examines (fun s => m s s) := fun s => h s s

end Examines

theorem Cmd.Examines.okUnit : Cmd.Examines (fun s => .ok () s) := .ret ()

theorem memRead_examines (sp : Space) (off n : Nat) : (memRead sp off n).Examines := by
  intro s
  by_cases h : sp.cap s.cfg < off + n
  · exact .inr ⟨_, _, by decide, memRead_raised h⟩
  · exact .inl ⟨_, memRead_ok (by omega)⟩

theorem checkColor_examines : checkColor.Examines :=
  .raiseIte (info := fun _ => 0) (by decide) <| .raiseIte (info := fun _ => 0) (by decide) <|
  .raiseIte (info := fun _ => 0) (by decide) .okUnit

theorem checkFilterMethod_examines : checkFilterMethod.Examines := .raiseIte (info := fun _ => 0) (by decide) .okUnit

theorem checkFormat_examines : checkFormat.Examines := checkColor_examines.andThen checkFilterMethod_examines

theorem checkSize_examines : checkSize.Examines := .raiseIte (info := fun _ => 0) (by decide) .okUnit

theorem checkCompressionMethod_examines : checkCompressionMethod.Examines :=
  .raiseIte (info := fun _ => 0) (by decide) .okUnit

theorem checkHeader_examines : checkHeader.Examines :=
  checkSize_examines.andThen <| checkColor_examines.andThen <|
  checkCompressionMethod_examines.andThen checkFilterMethod_examines

theorem checkInterlace_examines : checkInterlace.Examines := .raiseIte (info := fun _ => 0) (by decide) .okUnit

theorem checkLevel_examines : checkLevel.Examines := .raiseIte (info := fun _ => 0) (by decide) .okUnit

theorem checkRawRange_examines : checkRawRange.Examines :=
  .raiseIte (info := fun _ => Space.raw.id) (by decide) .okUnit

theorem crcOperand_examines : crcOperand.Examines := fun s => memRead_examines .dbuf _ _ s

theorem chunkData_examines : chunkData.Examines := fun s => memRead_examines .dbuf _ _ s

theorem requireDecState_examines (v : DecState) : (requireDecState v).Examines := by
  intro s
  by_cases h : s.dec.state = v
  · exact .inl ⟨(), if_pos h⟩
  · exact .inr ⟨.sequenceError, _, by decide, if_neg h⟩

theorem requireEncState_examines (v : EncState) : (requireEncState v).Examines := by
  intro s
  by_cases h : s.enc.state = v
  · exact .inl ⟨(), if_pos h⟩
  · exact .inr ⟨.sequenceError, _, by decide, if_neg h⟩

theorem checkIhdrChunk_examines (c : Chunk) : (checkIhdrChunk c).Examines :=
  .andThen (.raiseIf _ (by decide)) <| .andThen (.raiseIf _ (by decide)) <| .raiseIf _ (by decide)

theorem callInflate_examines (z : Bytes) : (callInflate z).Examines := by
  refine .raiseIte (info := fun _ => 0) (by decide) fun s => ?_
  cases Config.inflateOf s.cfg z with
  | some d => exact .inl ⟨d, rfl⟩
  | none => exact .inr ⟨_, _, by decide, rfl⟩

theorem callDeflate_examines (f : Bytes) : (callDeflate f).Examines :=
  .raiseIte (info := fun _ => 0) (by decide) fun _ => .inl ⟨_, rfl⟩

theorem checkPixels_examines : checkPixels.Examines :=
  checkHeader_examines.andThen <| checkInterlace_examines.andThen checkRawRange_examines

theorem expandPixel_examines (px : Bytes) : (expandPixel px).Examines := by
  refine .ite (.raiseIte (info := fun s => (rawSample s.img.bitDepth px 0).setWidth 32) (by decide) ?_)
    fun _ => .inl ⟨_, rfl⟩
  exact .at fun _ => (memRead_examines _ _ _).bind fun _ => .ret _

theorem checkPixRange_examines : checkPixRange.Examines :=
  .raiseIte (info := fun _ => Space.pix.id) (by decide) .okUnit

theorem checkEncPalette_examines : checkEncPalette.Examines :=
  .ite
    (.raiseIte (info := fun _ => 0) (by decide) <| .raiseIte (info := fun _ => 0) (by decide) .okUnit)
    (.raiseIte (info := fun _ => 0) (by decide) .okUnit)

theorem checkSplitSize_examines : checkSplitSize.Examines := .raiseIte (info := fun _ => 0) (by decide) .okUnit

theorem encChecks_examines : encChecks.Examines :=
  checkSize_examines.andThen <| checkColor_examines.andThen <| checkEncPalette_examines.andThen <|
  checkSplitSize_examines.andThen <| checkInterlace_examines.andThen <|
  checkLevel_examines.andThen checkRawRange_examines

end Sys2Proof.Machine
end

section
/-! SUPPORT. The write set of every piece of pseudocode (30_encoding.md R306). -/

namespace Sys2Proof.Machine

/-! ## Accesses -/

theorem readIn_frames (n : Nat) : Cmd.Frames (fun _ => [.inPos]) (readIn n) := by
  intro s
  rw [readIn_run]
  split
  · exact .refl s
  · exact .of_regs rfl rfl rfl rfl fun r => by cases r <;> simp [State.readReg]

theorem readU32_frames : Cmd.Frames (fun _ => [.inPos]) readU32 := (readIn_frames 4).bind fun _ => .ret _

theorem setSpace_frame (L : Bool → List Reg) (s : State) (sp : Space) (v : Memory) : Frame L s (s.setSpace sp v) :=
  .of_regs rfl rfl rfl rfl fun r => .inr (by cases r <;> rfl)

theorem setStream_frame (L : Bool → List Reg) (s : State) (i : StreamId) (v : Stream) : Frame L s (s.setStream i v) :=
  .of_regs rfl rfl rfl rfl fun r => .inr (by cases r <;> rfl)

theorem memWrite_frames (L : Bool → List Reg) (sp : Space) (off : Nat) (v : Bytes) :
    Cmd.Frames L (memWrite sp off v) := by
  intro s
  rw [memWrite_run]
  split
  · exact .refl s
  · exact setSpace_frame L s _ _

theorem streamWrite_frames (L : Bool → List Reg) (i : StreamId) (v : Bytes) : Cmd.Frames L (streamWrite i v) := by
  intro s
  rw [streamWrite_run]
  split
  · exact .refl s
  split
  · exact .refl s
  · exact setStream_frame L s _ _

theorem flushStream_frames (L : Bool → List Reg) (i : StreamId) : Cmd.Frames L (flushStream i) :=
  .update fun s => setStream_frame L s _ _

theorem closeStream_frames (L : Bool → List Reg) (i : StreamId) : Cmd.Frames L (closeStream i) :=
  .update fun s => setStream_frame L s _ _

theorem resetStream_frames (L : Bool → List Reg) (i : StreamId) : Cmd.Frames L (resetStream i) :=
  .update fun s => setStream_frame L s _ _

theorem readAll_frames (L : Bool → List Reg) (i : StreamId) : Cmd.Frames L (readAll i) := by
  intro s
  unfold readAll
  simp only
  split
  · exact setStream_frame L s _ _
  · trivial

theorem outWrite_frames (v : Bytes) : Cmd.Frames (fun _ => [.outLen]) (outWrite v) := by
  intro s
  rw [outWrite_run]
  split
  · exact .refl s
  · exact .of_regs rfl rfl rfl rfl fun r => by cases r <;> simp [State.readReg]

/-! ## Values an error leaves unspecified -/

theorem unspecified_frame {L : Bool → List Reg} {items : List Item} (h : ∀ en, ∀ it ∈ items, it.regs ⊆ L en) (s : State) :
    Frame L s (unspecified items s) := by
  have all : ∀ (k : Nat) (l : List Item), (∀ it ∈ l, it ∈ items) → ∀ t,
      Frame L t (l.foldl (fun t it => it.free k t) t) := by
    intro k l
    induction l with
    | nil => exact fun _ => Frame.refl
    | cons it l ih =>
      intro hl t
      have hit := hl it (List.mem_cons_self ..)
      exact ((it.free_frame k t).mono fun en => h en it hit).trans (ih (fun j hj => hl j (List.mem_cons_of_mem _ hj)) _)
  have bump : Frame L s { s with freeIdx := s.freeIdx + 1 } :=
    .of_regs rfl rfl rfl rfl fun r => .inr (by cases r <;> rfl)
  exact bump.trans (all _ items (fun _ => id) _)

theorem Cmd.Frames.leaving {α : Type} {L : Bool → List Reg} {m : Cmd α} {items : List Item} (h : Cmd.Frames L m)
    (hi : ∀ en, ∀ it ∈ items, it.regs ⊆ L en) : Cmd.Frames L (m.leaving items) :=
  h.onRaise fun _ s => unspecified_frame hi s

/-! ## The framer -/

theorem setChLength_frames (v : Word) : Cmd.Frames (fun _ => [.chLength]) (setChLength v) :=
  .update fun _ => .of_regs rfl rfl rfl rfl fun r => by cases r <;> simp [State.readReg]

theorem setChType_frames (v : Word) : Cmd.Frames (fun _ => [.chType, .chFlags]) (setChType v) :=
  .update fun _ => .of_regs rfl rfl rfl rfl fun r => by cases r <;> simp [State.readReg]

theorem setChCrc_frames (v : Word) : Cmd.Frames (fun _ => [.chCrc]) (setChCrc v) :=
  .update fun _ => .of_regs rfl rfl rfl rfl fun r => by cases r <;> simp [State.readReg]

theorem setCrcOut_frames (v : Word) : Cmd.Frames (fun _ => [.crcOut]) (setCrcOut v) :=
  .update fun _ => .of_regs rfl rfl rfl rfl fun r => by cases r <;> simp [State.readReg]

/-- The registers of `ReadChunk` (41_framer.md R450). -/
def readChunkRegs (_ : Bool) : List Reg := [.inPos, .chLength, .chType, .chFlags, .chCrc]

theorem readChunkBody_frames (len : Nat) (typ : Word) (toStage fits : Bool) :
    Cmd.Frames readChunkRegs (readChunkBody len typ toStage fits) := by
  refine ((readIn_frames len).mono (by decide)).bind fun data => .andThen ?_ ?_
  · split
    · exact memWrite_frames _ _ _ _
    · exact .ret ()
  · exact (readU32_frames.mono (by decide)).bind fun crc => ((setChCrc_frames crc).mono (by decide)).andThen (.ret _)

theorem readChunk_frames (sink : ChunkSink) : Cmd.Frames readChunkRegs (readChunk sink) := by
  have word : Cmd.Frames readChunkRegs readU32 := readU32_frames.mono (by decide)
  refine (word.leaving (by decide)).bind fun len => ((setChLength_frames len).mono (by decide)).andThen ?_
  refine (word.leaving (by decide)).bind fun typ => ((setChType_frames typ).mono (by decide)).andThen ?_
  refine .leaving ?_ (by decide)
  exact (Cmd.Frames.look _).bind fun _ => (Cmd.Examines.raiseIf _ (by decide)).frames.andThen (readChunkBody_frames _ _ _ _)

theorem leaveChunkData_frame (L : Bool → List Reg) (toStage : Bool) (e : Err) (s : State) :
    Frame L s (leaveChunkData toStage e s) := by
  unfold leaveChunkData
  split
  · exact unspecified_frame (by simp [Item.regs]) s
  · exact .refl s

theorem checkCrc_frames (typ : Word) (data : Bytes) (crc : Word) :
    Cmd.Frames (fun _ => [.crcOut]) (checkCrc typ data crc) :=
  (setCrcOut_frames _).andThen (Cmd.Examines.raiseIf _ (by decide)).frames

theorem checkSignature_frames : Cmd.Frames (fun _ => [.inPos]) checkSignature :=
  (readIn_frames 8).bind fun _ => (Cmd.Examines.raiseIf _ (by decide)).frames

/-! ## The filter engine -/

theorem setFlt_frames (L : Bool → List Reg) (u : FilterUnit) : Cmd.Frames L (setFlt u) :=
  .update fun _ => .of_regs rfl rfl rfl rfl fun r => .inr (by cases r <;> rfl)

theorem unfilterIn_frames (engine : FilterUnit → Bytes → Unfiltered) :
    Cmd.Frames (fun _ => [.inPos]) (unfilterIn engine) := by
  intro s
  unfold unfilterIn
  cases engine s.flt (s.mem.inp.readBytes s.cnt.inPos.toNat (inAvail s)) <;>
    exact .of_regs rfl rfl rfl rfl fun r => by cases r <;> simp [State.readReg]

theorem setRawLen_frame (s : State) (v : Word) : Frame (fun _ => [.rawLen]) s { s with cnt.rawLen := v } :=
  .of_regs rfl rfl rfl rfl fun r => by cases r <;> simp [State.readReg]

theorem storeRaw_frames (out : Bytes) : Cmd.Frames (fun _ => [.rawLen]) (storeRaw out) :=
  (memWrite_frames _ _ _ _).andThen (.update fun s => setRawLen_frame s _)

theorem clearRawLen_frames : Cmd.Frames (fun _ => [.rawLen]) clearRawLen := .update fun s => setRawLen_frame s _

/-- The register that a sink writes. -/
def Sink.regs : Sink → List Reg
  | .outSpace => [.outLen]
  | .filtStream => []

theorem writeRow_frames (k : Sink) (row : FilterUnit × Bytes) : Cmd.Frames (fun _ => k.regs) (writeRow k row) := by
  refine (setFlt_frames _ _).andThen ?_
  cases k with
  | outSpace => exact outWrite_frames _
  | filtStream => exact (streamWrite_frames _ _ _).andThen (flushStream_frames _ _)

theorem raiseErr_frames (L : Bool → List Reg) (e : Option (Err × Word)) : Cmd.Frames L (raiseErr e) := by
  cases e with
  | none => exact .ret ()
  | some p => exact .raise _ _

theorem emit_frames {k : Sink} {leave : Cmd Unit → Cmd Unit} (engine : FilterUnit → Filtered)
    (hl : ∀ m, Cmd.Frames (fun _ => k.regs) m → Cmd.Frames (fun _ => k.regs) (leave m)) :
    Cmd.Frames (fun _ => k.regs) (emit k leave engine) := by
  refine .at (m := fun s => (Cmd.forEach (writeRow k) (engine s.flt).rows).andThen <|
    (setFlt (engine s.flt).u).andThen <| leave (raiseErr (engine s.flt).err)) fun s => ?_
  exact (Cmd.Frames.forEach (writeRow_frames k) _).andThen <|
    (setFlt_frames _ _).andThen (hl _ (raiseErr_frames _ _))

end Sys2Proof.Machine
end

section
/-! SUPPORT. The write sets of the decode and encode sequences. -/

namespace Sys2Proof.Machine

/-! ## Decoding -/

theorem setDecState_frames (v : DecState) : Cmd.Frames (fun _ => [.decStatus]) (setDecState v) :=
  .update fun _ => .of_regs rfl rfl rfl rfl fun r => by cases r <;> simp [State.readReg]

/-- `CheckCRC` writes `CRC_OUT` only when `CTRL.CRC_CHECK_EN = 1` (44_decode.md R662). -/
theorem checkCrcIfEnabled_frames (c : Chunk) : Cmd.Frames checkedCrcOut (checkCrcIfEnabled c) := by
  intro s
  unfold checkCrcIfEnabled
  cases hc : s.ctrl.crcCheckEn
  · exact .refl s
  · refine (checkCrc_frames c.typ c.data c.crc s).imp fun t h => ⟨h.cfg, h.ctrl, h.status, h.inReset, ?_⟩
    rw [hc]
    exact h.regs

theorem decStart_frames : Cmd.Frames headerResults decStart :=
  .update fun s => .of_regs rfl rfl rfl rfl fun r => by
    cases r <;> simp [State.readReg, headerResults, decStartState]

theorem parseIhdr_frame (data : Bytes) (s : State) : Frame headerResults s { s with img := parseIhdr data s.img } :=
  .of_regs rfl rfl rfl rfl fun r => by cases r <;> simp [State.readReg, headerResults]

theorem readHeader_frames : Cmd.Frames headerResults readHeader := by
  refine .andThen ?_ (.at fun s => .onRaise ((readChunk_frames .auto).mono (by decide)) (leaveChunkData_frame _ _))
  refine (((readIn_frames 8).mono (by decide)).leaving (by decide)).bind fun sg => ?_
  exact (Cmd.Examines.raiseIf _ (by decide)).frames.leaving (by decide)

/-- The registers among what an error behind the chunk read leaves unspecified. -/
theorem Chunk.dbufItems_regs (c : Chunk) : ∀ it ∈ c.dbufItems, it.regs = [] := by
  unfold Chunk.dbufItems
  split <;> simp [Item.regs]

theorem Chunk.headerLeaves_regs (c : Chunk) (en : Bool) : ∀ it ∈ c.headerLeaves, it.regs ⊆ headerResults en := by
  intro it hit
  rw [Chunk.headerLeaves, List.mem_append] at hit
  obtain h | h := hit
  · rw [c.dbufItems_regs it h]; exact List.nil_subset _
  · revert it; revert en; decide

theorem headerLeaves_append_regs (c : Chunk) {items : List Item} {en : Bool}
    (h : ∀ it ∈ items, it.regs ⊆ headerResults en) : ∀ it ∈ c.headerLeaves ++ items, it.regs ⊆ headerResults en := by
  intro it hit
  rw [List.mem_append] at hit
  exact hit.elim (c.headerLeaves_regs en it) (h it)

theorem decHeader_frames : Cmd.Frames headerResults decHeader := by
  refine (readHeader_frames.leaving (by decide)).bind fun c => ?_
  refine .andThen (((checkCrcIfEnabled_frames c).mono (by decide)).leaving fun en => headerLeaves_append_regs c ?_) ?_
  · revert en; decide
  refine .andThen ((checkIhdrChunk_examines c).frames.leaving fun en => headerLeaves_append_regs c ?_) ?_
  · revert en; decide
  refine .andThen (.update (parseIhdr_frame c.data)) ?_
  refine .andThen (checkHeader_examines.frames.leaving fun en => headerLeaves_append_regs c ?_) ?_
  · revert en; decide
  exact (setDecState_frames _).mono (by decide)

theorem record_frames (typ : Word) (data : Bytes) : Cmd.Frames (fun _ => [.metaLen, .metaCount]) (record typ data) := by
  intro s
  unfold record
  simp only
  split
  · exact .refl s
  · refine Cmd.Frames.andThen (memWrite_frames _ _ _ _) (.update fun t => ?_) s
    exact .of_regs rfl rfl rfl rfl fun r => by cases r <;> simp [State.readReg]

theorem doIdat_frames (data : Bytes) :
    Cmd.Frames (fun _ => [.stageLen, .idatCount, .decStatus]) (doIdat data) := by
  intro s
  unfold doIdat
  split
  · exact .refl s
  · refine Cmd.Frames.andThen (streamWrite_frames _ _ _) (.andThen (flushStream_frames _ _) (.update fun t => ?_)) s
    exact .of_regs rfl rfl rfl rfl fun r => by cases r <;> simp [State.readReg]

theorem doPlte_frames (data : Bytes) : Cmd.Frames (fun _ => [.palCount, .decStatus]) (doPlte data) := by
  intro s
  unfold doPlte
  simp only
  split
  · exact .refl s
  split
  · exact .refl s
  split
  · exact .refl s
  split
  · exact .refl s
  refine Cmd.Frames.andThen (memWrite_frames _ _ _ _) (.update fun t => ?_) s
  exact .of_regs rfl rfl rfl rfl fun r => by cases r <;> simp [State.readReg]

theorem doTrns_frames (data : Bytes) :
    Cmd.Frames (fun _ => [.trnsCount, .decStatus, .metaLen, .metaCount]) (doTrns data) := by
  intro s
  unfold doTrns
  split
  · exact .refl s
  split
  · exact .refl s
  split
  · exact .refl s
  split
  · split
    · exact .refl s
    split
    · exact .refl s
    refine Cmd.Frames.andThen (.forEach (fun _ => memWrite_frames _ _ _ _) _) (.update fun t => ?_) s
    exact .of_regs rfl rfl rfl rfl fun r => by cases r <;> simp [State.readReg]
  · refine Cmd.Frames.andThen ((record_frames _ _).mono (by decide)) (.update fun t => ?_) s
    exact .of_regs rfl rfl rfl rfl fun r => by cases r <;> simp [State.readReg]

theorem doMeta_frames (ok : Bool) {e : Err} (he : e.code ∈ reportedCodes) (typ : Word) (data : Bytes) :
    Cmd.Frames (fun _ => [.metaLen, .metaCount]) (doMeta ok e typ data) :=
  (Cmd.Examines.raiseIf _ he).frames.andThen (record_frames _ _)

theorem doUnknown_frames (typ : Word) (data : Bytes) :
    Cmd.Frames (fun _ => [.metaLen, .metaCount]) (doUnknown typ data) :=
  (Cmd.Examines.raiseIf _ (by decide)).frames.andThen (record_frames _ _)

theorem chunkCase_frames (typ : Word) (data : Bytes) : Cmd.Frames chunksResults (chunkCase typ data) := by
  unfold chunkCase
  split
  · exact ((doIdat_frames data).mono (by decide)).andThen (.ret _)
  split
  · exact ((doPlte_frames data).mono (by decide)).andThen (.ret _)
  split
  · exact ((doTrns_frames data).mono (by decide)).andThen (.ret _)
  split
  · exact ((doMeta_frames _ (by decide) _ data).mono (by decide)).andThen (.ret _)
  split
  · exact ((doMeta_frames _ (by decide) _ data).mono (by decide)).andThen (.ret _)
  split
  · exact ((doMeta_frames _ (by decide) _ data).mono (by decide)).andThen (.ret _)
  split
  · exact ((doMeta_frames _ (by decide) _ data).mono (by decide)).andThen (.ret _)
  split
  · refine .andThen (.update fun _ => .of_regs rfl rfl rfl rfl fun r => ?_) (.ret _)
    cases r <;> simp [State.readReg, chunksResults]
  · exact ((doUnknown_frames _ data).mono (by decide)).andThen (.ret _)

theorem decChunksStep_frames : Cmd.Frames chunksResults decChunksStep := by
  refine ((readChunk_frames .auto).mono (by decide)).bind fun c => ?_
  refine ((checkCrcIfEnabled_frames c).mono (by decide)).andThen ?_
  exact (Cmd.Examines.raiseIf _ (by decide)).frames.andThen (chunkCase_frames _ _)

theorem chunkLoop_frames (fuel : Nat) : Cmd.Frames chunksResults (chunkLoop fuel) := by
  induction fuel with
  | zero => exact .raise _ _
  | succ n ih =>
    refine decChunksStep_frames.bind fun last => ?_
    cases last
    · exact ih
    · exact .ret ()

theorem endChunks_frames (L : Bool → List Reg) : Cmd.Frames L endChunks := closeStream_frames _ _

theorem decChunks_frames : Cmd.Frames chunksResults decChunks := by
  refine (resetStream_frames _ _).andThen (.andThen ?_ ((setDecState_frames _).mono (by decide)))
  exact fun s => ((chunkLoop_frames (inAvail s + 1)).andThen (endChunks_frames _)) s

theorem setInflLen_frame (s : State) (v : Word) : Frame (fun _ => [.inflLen, .decStatus]) s { s with cnt.inflLen := v } :=
  .of_regs rfl rfl rfl rfl fun r => by cases r <;> simp [State.readReg]

theorem decInflate_frames : Cmd.Frames (fun _ => [.inflLen, .decStatus]) decInflate := by
  refine .leaving ?_ (by decide)
  refine (resetStream_frames _ _).andThen (.andThen (.update fun s => setInflLen_frame s _) ?_)
  refine (readAll_frames _ _).bind fun z => (callInflate_examines z).frames.bind fun d => ?_
  refine (streamWrite_frames _ _ _).andThen (.andThen (.update fun s => setInflLen_frame s _) ?_)
  exact (closeStream_frames _ _).andThen ((setDecState_frames _).mono (by decide))

theorem setFltStream_frame (L : Bool → List Reg) (s : State) (i : StreamId) (t : Stream) (u : FilterUnit) :
    Frame L s { s.setStream i t with flt := u } :=
  .of_regs rfl rfl rfl rfl fun r => .inr (by cases r <;> rfl)

theorem unfilterInfl_frames (L : Bool → List Reg) (engine : FilterUnit → Bytes → Unfiltered) :
    Cmd.Frames L (unfilterInfl engine) := by
  intro s
  unfold unfilterInfl
  simp only
  cases engine s.flt s.str.infl.unread with
  | done out u rest => exact setFltStream_frame L s _ _ _
  | failed e info u rest =>
    simp only
    split
    · trivial
    · exact setFltStream_frame L s _ _ _

theorem pixelsLeaves_regs (r : ImgRegs) : ∀ it ∈ pixelsLeaves r, it.regs ⊆ [.rawLen, .decStatus] := by
  simp [pixelsLeaves, Item.regs]

theorem decPixels_frames : Cmd.Frames (fun _ => [.rawLen, .decStatus]) decPixels := by
  refine .at (m := fun s => Cmd.leaving (items := pixelsLeaves s.img) _) fun s =>
    .leaving ?_ fun _ => pixelsLeaves_regs s.img
  refine checkPixels_examines.frames.andThen ((clearRawLen_frames.mono (by decide)).andThen ?_)
  refine (unfilterInfl_frames _ _).bind fun out => ?_
  exact ((storeRaw_frames out).mono (by decide)).andThen ((setDecState_frames _).mono (by decide))

theorem expandOne_frames (L : Bool → List Reg) (k : Nat) : Cmd.Frames L (expandOne k) := by
  intro s
  refine (memRead_examines _ _ _).frames.bind (fun px => ?_) s
  exact (expandPixel_examines px).frames.bind fun v => memWrite_frames _ _ _ _

theorem expandLeaves_regs (r : ImgRegs) : ∀ it ∈ expandLeaves r, it.regs ⊆ [.pixLen, .pixMax, .decStatus] := by
  simp [expandLeaves, Item.regs]

theorem decExpand_frames : Cmd.Frames (fun _ => [.pixLen, .pixMax, .decStatus]) decExpand := by
  refine .at (m := fun s => Cmd.leaving (items := expandLeaves s.img) _) fun s =>
    .leaving ?_ fun _ => expandLeaves_regs s.img
  refine checkHeader_examines.frames.andThen (checkPixRange_examines.frames.andThen ?_)
  refine .andThen (.update fun _ => .of_regs rfl rfl rfl rfl fun r => ?_) ?_
  · cases r <;> simp [State.readReg]
  refine (Cmd.Frames.forEach (expandOne_frames _) _).andThen (.andThen (.update fun _ => .of_regs rfl rfl rfl rfl fun r => ?_) ?_)
  · cases r <;> simp [State.readReg]
  · exact (setDecState_frames _).mono (by decide)

/-! ## Encoding -/

theorem setEncState_frames (v : EncState) : Cmd.Frames (fun _ => [.encStatus]) (setEncState v) :=
  .update fun _ => .of_regs rfl rfl rfl rfl fun r => by cases r <;> simp [State.readReg]

theorem requireSameConfig_frames (L : Bool → List Reg) : Cmd.Frames L requireSameConfig := by
  intro s
  unfold requireSameConfig
  split
  · trivial
  · exact .refl s

theorem encValidate_frames : Cmd.Frames (fun _ => [.outLen, .encStatus]) encValidate :=
  encChecks_examines.frames.andThen <|
    .update fun _ => .of_regs rfl rfl rfl rfl fun r => by cases r <;> simp [State.readReg]

theorem paletteChunks_frames : Cmd.Frames (fun _ => [.outLen]) paletteChunks := by
  intro s
  refine (memRead_examines _ _ _).frames.andThen ((outWrite_frames _).andThen ?_) s
  split
  · exact outWrite_frames _
  · exact .ret ()

theorem encHeader_frames : Cmd.Frames (fun _ => [.outLen, .encStatus]) encHeader := by
  have write : ∀ v, Cmd.Frames (fun _ => [.outLen, .encStatus]) (outWrite v) := fun v => (outWrite_frames v).mono (by decide)
  intro s
  refine (write _).andThen ((write _).andThen (.andThen ?_ ((setEncState_frames _).mono (by decide)))) s
  split
  · exact paletteChunks_frames.mono (by decide)
  · exact .ret ()

theorem dataStart_frame (s : State) : Frame (fun _ => dataResults) s (dataStartState s) :=
  .of_regs rfl rfl rfl rfl fun r => by cases r <;> simp [State.readReg, dataResults, dataStartState]

theorem filterStage_frames : Cmd.Frames (fun _ => [.filtLen]) filterStage := by
  intro s
  refine (memRead_examines _ _ _).frames.bind (fun src => ?_) s
  refine .andThen ((emit_frames (k := .filtStream) (leave := id) _ fun _ => id).mono (by decide)) ?_
  refine (closeStream_frames _ _).andThen (.update fun _ => .of_regs rfl rfl rfl rfl fun r => ?_)
  cases r <;> simp [State.readReg]

theorem deflateStage_frames : Cmd.Frames (fun _ => [.deflLen]) deflateStage := by
  refine (readAll_frames _ _).bind fun f => (callDeflate_examines f).frames.bind fun d => ?_
  refine (streamWrite_frames _ _ _).andThen ((closeStream_frames _ _).andThen ?_)
  exact .update fun _ => .of_regs rfl rfl rfl rfl fun r => by cases r <;> simp [State.readReg]

theorem placeIdat_frames (held : Bytes) : Cmd.Frames (fun _ => [.outLen, .idatCount]) (placeIdat held) :=
  ((outWrite_frames _).mono (by decide)).andThen <|
    .update fun _ => .of_regs rfl rfl rfl rfl fun r => by cases r <;> simp [State.readReg, EncRegs.statusWord]

theorem splitLoop_frames (fuel : Nat) (held : Bytes) : Cmd.Frames (fun _ => [.outLen, .idatCount]) (splitLoop fuel held) := by
  induction fuel generalizing held with
  | zero => exact .ret ()
  | succ n ih =>
    intro s
    unfold splitLoop
    cases s.str.defl.readPartial (s.enc.maxIdat.toNat - held.length) with
    | data v t =>
      have start := setStream_frame (fun _ => [Reg.outLen, Reg.idatCount]) s .defl t
      simp only
      split
      · exact ((placeIdat_frames _).andThen (ih []) _).imp fun _ => start.trans
      · exact (ih _ _).imp fun _ => start.trans
    | endOfFile =>
      simp only
      split
      · exact placeIdat_frames held s
      · exact .refl s
    | unexpectedEof => exact .refl s
    | wait => trivial

theorem splitIdat_frames : Cmd.Frames (fun _ => [.outLen, .idatCount]) splitIdat := by
  intro s
  unfold splitIdat
  split
  · trivial
  · exact splitLoop_frames _ _ s

theorem dataStages_frames : Cmd.Frames (fun _ => dataResults) dataStages :=
  (filterStage_frames.mono (by decide)).andThen <|
    (deflateStage_frames.mono (by decide)).andThen (splitIdat_frames.mono (by decide))

theorem encDataWith_frames {stages : Cmd Unit} (h : Cmd.Frames (fun _ => dataResults) stages) :
    Cmd.Frames (fun _ => dataResults) (encDataWith stages) :=
  (Cmd.Frames.update dataStart_frame).andThen (h.andThen ((setEncState_frames _).mono (by decide)))

theorem encTrailer_frames : Cmd.Frames (fun _ => [.outLen, .encStatus]) encTrailer :=
  ((outWrite_frames _).mono (by decide)).andThen ((setEncState_frames _).mono (by decide))

end Sys2Proof.Machine
end

section
/-! SUPPORT. The write sets of the pipelined stages, and of every command (30_encoding.md R306). -/

namespace Sys2Proof.Machine

/-! ## The stages of DECODE -/

/-- The states the chunk reader has come to meet `P`. -/
def ReaderStage.Within (P : State → Prop) : ReaderStage → Prop
  | .running s => P s
  | .ended r => r.Within P

theorem ReaderStage.turn_within {a : State} {p : ReaderStage} (h : p.Within (Frame chunksResults a)) :
    p.turn.Within (Frame chunksResults a) := by
  cases p with
  | ended r => exact h
  | running s =>
    have hs := (decChunksStep_frames s).imp fun _ => Frame.trans h
    simp only [ReaderStage.turn]
    cases hr : decChunksStep s with
    | ok last t =>
      rw [hr] at hs
      cases last
      · exact hs
      · exact (endChunks_frames _ t).imp fun _ => Frame.trans hs
    | raised e info t => rw [hr] at hs; exact hs
    | stuck x => trivial
    | refuse x => trivial

theorem ReaderStage.drain_within {a : State} {p : ReaderStage} (h : p.Within (Frame chunksResults a)) :
    p.drain.Within (Frame chunksResults a) := by
  cases p with
  | ended r => exact h
  | running s =>
    exact ((chunkLoop_frames (inAvail s + 1)).andThen (endChunks_frames _) s).imp fun _ => Frame.trans h

theorem DecPipe.turn_reader (a : State) (p : DecPipe) (t : StageTurn) :
    (p.turn a t).reader = p.reader ∨ (p.turn a t).reader = p.reader.turn := by
  cases t with
  | first => exact .inr rfl
  | second n => exact .inl rfl
  | third n => exact .inl rfl

/-- What the turns of the chunk reader keep, every turn of a stage keeps of the chunk reader. -/
theorem DecPipe.foldl_reader {P : ReaderStage → Prop} (hP : ∀ r, P r → P r.turn) (a : State) (turns : List StageTurn)
    (p : DecPipe) (h : P p.reader) : P (turns.foldl (DecPipe.turn a) p).reader := by
  induction turns generalizing p with
  | nil => exact h
  | cons t rest ih =>
    refine ih _ ?_
    obtain ht | ht := p.turn_reader a t <;> rw [ht]
    · exact h
    · exact hP _ h

theorem DecPipe.run_reader_within (a : State) : (DecPipe.run a).reader.Within (Frame chunksResults a) :=
  ReaderStage.drain_within <|
    DecPipe.foldl_reader (P := (·.Within (Frame chunksResults a))) (fun _ => ReaderStage.turn_within) a a.turns (.start a)
      (Frame.refl a)

theorem setInflStream_frame (s : State) (t : Stream) (v : Word) :
    Frame (fun _ => [.inflLen, .decStatus]) s { s.setStream .infl t with cnt.inflLen := v } :=
  .of_regs rfl rfl rfl rfl fun r => by cases r <;> simp [State.readReg]

theorem commitInflater_frames (m : MidStage) : Cmd.Frames (fun _ => [.inflLen, .decStatus]) (commitInflater m) := by
  refine .leaving ?_ (by decide)
  refine (resetStream_frames _ _).andThen (.andThen (.update fun s => setInflLen_frame s _) ?_)
  refine (readAll_frames _ _).andThen ?_
  cases m with
  | done out => exact .andThen (.update fun s => setInflStream_frame s _ _) ((setDecState_frames _).mono (by decide))
  | failed e info out => exact .raise e info
  | reading got => exact fun _ => trivial
  | writing rest out => exact fun _ => trivial

theorem commitPixels_frames (p : PixelsStage) : Cmd.Frames (fun _ => [.rawLen, .decStatus]) (commitPixels p) := by
  intro s
  refine Cmd.Frames.leaving ?_ (fun _ => pixelsLeaves_regs s.img) s
  match p with
  | .ended got (.done out u rest) =>
    refine (clearRawLen_frames.mono (by decide)).andThen (.andThen (.update fun s => setFltStream_frame _ s _ _ _) ?_)
    exact ((storeRaw_frames out).mono (by decide)).andThen ((setDecState_frames _).mono (by decide))
  | .ended got (.failed e info u rest) =>
    exact .andThen (.update fun s => setFltStream_frame _ s _ _ _) (.raise e info)
  | .reading got => exact fun _ => trivial

/-- The registers of steps 3 to 5 of DECODE. -/
def pixelsResults (en : Bool) : List Reg := chunksResults en ++ [.inflLen, .rawLen]

theorem decPipelined_frames : Cmd.Frames pixelsResults decPipelined := by
  refine (resetStream_frames _ _).andThen fun s => ?_
  have hr := DecPipe.run_reader_within s
  show Res.Within _ ((DecPipe.run s).commit s)
  unfold DecPipe.commit
  cases hp : (DecPipe.run s).reader with
  | running t => trivial
  | ended r =>
    rw [hp] at hr
    have tail : Cmd.Frames pixelsResults ((setDecState .chunks).andThen <|
        (commitInflater (DecPipe.run s).inflater).andThen (commitPixels (DecPipe.run s).pixels)) :=
      ((setDecState_frames _).mono (by decide)).andThen <|
        ((commitInflater_frames _).mono (by decide)).andThen ((commitPixels_frames _).mono (by decide))
    have hr' : r.Within (Frame pixelsResults s) := Res.Within.imp hr fun _ h => h.mono (by decide)
    simp only
    cases r with
    | ok a t => exact (tail t).imp fun _ => Frame.trans hr'
    | raised e info t => exact hr'
    | stuck x => trivial
    | refuse x => trivial

theorem decSequential_frames : Cmd.Frames pixelsResults decSequential :=
  (decChunks_frames.mono (by decide)).andThen <|
    (decInflate_frames.mono (by decide)).andThen (decPixels_frames.mono (by decide))

theorem decStartHeader_frames : Cmd.Frames headerResults (decStart.andThen decHeader) :=
  decStart_frames.andThen decHeader_frames

/-- The registers of DECODE. -/
def decodeResults (en : Bool) : List Reg := headerResults en ++ [.rawLen, .pixLen, .pixMax]

theorem decodeLeaves_regs (r : ImgRegs) (en : Bool) : ∀ it ∈ decodeLeaves r, it.regs ⊆ decodeResults en := by
  simp [decodeLeaves, headerLeaves, Item.regs, decodeResults, headerResults]

theorem chunksLeaves_regs (s : State) (en : Bool) : ∀ it ∈ chunksLeaves s, it.regs ⊆ chunksResults en := by
  simp [chunksLeaves, Item.regs, chunksResults]

theorem cursorLeaves_regs (cut : Bool) (e : Err) (en : Bool) : ∀ it ∈ cursorLeaves cut e, it.regs ⊆ chunksResults en := by
  unfold cursorLeaves
  split
  · simp
  · split <;> simp [Item.regs, chunksResults]

theorem leaveChunks_frame (a : State) (e : Err) (s : State) : Frame chunksResults s (leaveChunks a e s) := by
  refine unspecified_frame (fun en it hit => ?_) s
  simp only [List.mem_append, List.mem_cons] at hit
  obtain h | rfl | h := hit
  · exact cursorLeaves_regs _ _ en it h
  · exact List.nil_subset _
  · exact chunksLeaves_regs s en it h

theorem leaveDecodeHeader_frame (e : Err) (s : State) : Frame decodeResults s (leaveDecodeHeader e s) := by
  refine unspecified_frame (fun en it hit => ?_) s
  rw [List.mem_append] at hit
  obtain h | h := hit
  · revert it
    split <;> simp [Item.regs, decodeResults, headerResults]
  · exact decodeLeaves_regs s.img en it h

theorem leaveDecode_frame (h : State) (e : Err) (s : State) : Frame decodeResults s (leaveDecode h e s) := by
  have chunks : ∀ en, chunksResults en ⊆ decodeResults en := by decide
  refine unspecified_frame (fun en it hit => ?_) s
  simp only [List.mem_append, List.mem_cons] at hit
  obtain ((((hc | hf) | rfl | hl) | hd) | hi) := hit
  · exact List.Subset.trans (cursorLeaves_regs _ _ en it hc) (chunks en)
  · revert it
    split <;> simp [Item.regs, decodeResults, headerResults]
  · exact List.nil_subset _
  · exact List.Subset.trans (chunksLeaves_regs s en it hl) (chunks en)
  · exact decodeLeaves_regs h.img en it hd
  · revert it
    simp [Item.regs, decodeResults, headerResults]

theorem decodeWith_frames {stages : Cmd Unit} (h : Cmd.Frames pixelsResults stages) :
    Cmd.Frames decodeResults (decodeWith stages) := by
  refine .andThen ((decStartHeader_frames.mono (by decide)).onRaise leaveDecodeHeader_frame) (.at fun s => ?_)
  refine .onRaise ?_ (leaveDecode_frame s)
  exact (h.mono (by decide)).andThen (decExpand_frames.mono (by decide))

/-! ## The stages of ENCODE -/

theorem commitFilter_frames (p : FilterStage) : Cmd.Frames (fun _ => [.filtLen]) (commitFilter p) := by
  intro s
  cases p with
  | done out => exact .of_regs rfl rfl rfl rfl fun r => by cases r <;> simp [State.readReg]
  | failed e info u out => exact setFltStream_frame _ s _ _ _
  | running rest out => trivial

theorem commitDeflater_frames (m : MidStage) : Cmd.Frames (fun _ => [.deflLen]) (commitDeflater m) := by
  refine (readAll_frames _ _).andThen fun s => ?_
  cases m with
  | done out => exact .of_regs rfl rfl rfl rfl fun r => by cases r <;> simp [State.readReg]
  | failed e info out => exact .refl s
  | reading got => trivial
  | writing rest out => trivial

theorem withOutSide_frame (s : State) (i : StreamId) (t : Stream) (o : OutSide) :
    Frame (fun _ => [.outLen, .idatCount]) s ((s.setStream i t).withOutSide o) :=
  .of_regs rfl rfl rfl rfl fun r => by cases r <;> simp [State.readReg, State.withOutSide, State.setStream, EncRegs.statusWord]

theorem commitSplitter_frames (p : SplitStage) : Cmd.Frames (fun _ => [.outLen, .idatCount]) (commitSplitter p) := by
  intro s
  cases p with
  | done got o => exact withOutSide_frame s _ _ o
  | failed e info got o => exact withOutSide_frame s _ _ o
  | running got held o => trivial

theorem pipelinedStages_frames : Cmd.Frames (fun _ => dataResults) pipelinedStages := by
  intro s
  unfold pipelinedStages
  split
  · trivial
  · exact ((commitFilter_frames _).mono (by decide)).andThen
      (((commitDeflater_frames _).mono (by decide)).andThen ((commitSplitter_frames _).mono (by decide))) s

theorem encodeWith_frames {stages : Cmd Unit} (h : Cmd.Frames (fun _ => dataResults) stages) :
    Cmd.Frames (fun _ => dataResults) (encodeWith stages) := by
  refine .leaving ?_ (by decide)
  refine (encValidate_frames.mono (by decide)).andThen ((encHeader_frames.mono (by decide)).andThen ?_)
  exact (encDataWith_frames h).andThen (encTrailer_frames.mono (by decide))

/-! ## Commands -/

/-- Which sequencer an error of a command marks as failed (60_exceptions.md R930). -/
def Instr.family : Instr → Family
  | .decHeader | .decChunks | .decInflate | .decPixels | .decExpand | .decode _ => .decode
  | .encValidate | .encHeader | .encData | .encTrailer | .encode _ => .encode
  | .nop | .clear | .crcCalc | .crcUpd | .crcUpd32 | .sigCheck | .sigWrite | .chunkRead | .chunkVerify => .other
  | .chunkSetcrc | .chunkWrite | .unfilter | .filter | .deinterlace | .interlace => .other

/-- The pseudocode of a command that starts in `s`. -/
def Instr.body (s : State) : Instr → Cmd Unit
  | .nop => .ret ()
  | .clear => .update clearState
  | .crcCalc => crcOperand.bind fun d => setCrcOut (crc32 d)
  | .crcUpd => crcOperand.bind fun d => setCrcOut (crcUpdate s.crc.input d)
  | .crcUpd32 => setCrcOut (crcUpdate32 s.crc.input s.crc.val)
  | .sigCheck => checkSignature
  | .sigWrite => outWrite pngSignature
  | .chunkRead => ((readChunk .dbuf).onRaise (leaveChunkData false)).bind fun _ => .ret ()
  | .chunkVerify => chunkData.bind fun d => checkCrc s.ch.type d s.ch.crc
  | .chunkSetcrc =>
    chunkData.bind fun d => (setChCrc (chunkCrc s.ch.type d)).andThen (setCrcOut (chunkCrc s.ch.type d))
  | .chunkWrite =>
    (chunkData.leaving [.bytes .outp s.cnt.outLen.toNat (12 + s.ch.length.toNat), .outLen]).bind fun d =>
      outWrite (be32 s.ch.length ++ be32 s.ch.type ++ d ++ be32 s.ch.crc)
  | .unfilter =>
    Cmd.leaving (items := unfilterLeaves) <|
      checkFormat.andThen <| checkRawRange.andThen <| clearRawLen.andThen <|
      (unfilterIn (unfilterImage s.cfg.rowCap s.img.format s.img.width.toNat s.img.height.toNat)).bind storeRaw
  | .filter =>
    let leaves := filterLeaves s (s.img.format.scanlineBytes s.img.width.toNat s.img.height.toNat)
    (Cmd.leaving (items := leaves) <|
        checkFormat.andThen <| checkLevel.andThen <| checkRawRange.andThen <| memRead .raw 0 s.img.rawBytes).bind
      fun src =>
        emit .outSpace (Cmd.leaving · leaves)
          (filterImage s.cfg.rowCap s.img.format src s.img.width.toNat s.img.height.toNat s.img.level)
  | .deinterlace =>
    Cmd.leaving (items := unfilterLeaves) <|
      checkFormat.andThen <| checkInterlace.andThen <| checkRawRange.andThen <| clearRawLen.andThen <|
      (unfilterIn (deinterlacer s)).bind storeRaw
  | .interlace =>
    let leaves := filterLeaves s (s.img.format.streamBytes s.img.interlace s.img.width.toNat s.img.height.toNat)
    (Cmd.leaving (items := leaves) <|
        checkFormat.andThen <| checkInterlace.andThen <| checkLevel.andThen <| checkRawRange.andThen <|
        memRead .raw 0 s.img.rawBytes).bind
      fun src => emit .outSpace (Cmd.leaving · leaves) (interlacer s src)
  | .decHeader => (decStart.andThen decHeader).leaving Machine.headerLeaves
  | .decChunks => (requireDecState .header).andThen (Machine.decChunks.onRaise (leaveChunks s))
  | .decInflate => (requireDecState .chunks).andThen Machine.decInflate
  | .decPixels => (requireDecState .inflated).andThen Machine.decPixels
  | .decExpand => (requireDecState .pixels).andThen Machine.decExpand
  | .decode pipe => decodeWith (if pipe then decPipelined else decSequential)
  | .encValidate => Machine.encValidate
  | .encHeader => (requireEncState .valid).andThen <| requireSameConfig.andThen Machine.encHeader
  | .encData => (requireEncState .header).andThen <| requireSameConfig.andThen <| Machine.encData.leaving dataLeaves
  | .encTrailer => (requireEncState .data).andThen <| requireSameConfig.andThen Machine.encTrailer
  | .encode pipe => encodeWith (if pipe then pipelinedStages else dataStages)

/-- Every command runs its pseudocode. -/
theorem exec_eq_runCommand (i : Instr) (s : State) : exec i s = runCommand (Instr.family i) (Instr.body s i) s := by
  cases i <;> rfl

theorem clearState_frame (s : State) : Frame (fun en => resultRegs en .clear) s (clearState s) :=
  ⟨rfl, rfl, rfl, rfl, fun r hr hs => by
    cases r <;> first | rfl | exact absurd rfl hs | exact absurd (by simp [resultRegs]) hr⟩

theorem filterLeaves_regs (s : State) (n : Nat) : ∀ it ∈ filterLeaves s n, it.regs ⊆ [Reg.outLen] := by
  simp [filterLeaves, Item.regs]

theorem emitOut_frames {items : List Item} (hi : ∀ it ∈ items, it.regs ⊆ [Reg.outLen]) (engine : FilterUnit → Filtered) :
    Cmd.Frames (fun _ => [.outLen]) (emit .outSpace (Cmd.leaving · items) engine) :=
  emit_frames (k := .outSpace) engine fun _ h => h.leaving fun _ => hi

/-- A command's pseudocode writes no register but those of `resultRegs` (30_encoding.md R306). -/
theorem body_frames (i : Instr) (s : State) : Cmd.Frames (fun en => resultRegs en i) (Instr.body s i) := by
  cases i with
  | nop => exact .ret ()
  | clear => exact .update clearState_frame
  | crcCalc => exact crcOperand_examines.frames.bind fun _ => setCrcOut_frames _
  | crcUpd => exact crcOperand_examines.frames.bind fun _ => setCrcOut_frames _
  | crcUpd32 => exact setCrcOut_frames _
  | sigCheck => exact checkSignature_frames
  | sigWrite => exact outWrite_frames _
  | chunkRead =>
    exact (((readChunk_frames _).mono (by decide)).onRaise (leaveChunkData_frame _ _)).bind fun _ => .ret ()
  | chunkVerify => exact chunkData_examines.frames.bind fun _ => checkCrc_frames _ _ _
  | chunkSetcrc =>
    exact chunkData_examines.frames.bind fun _ =>
      ((setChCrc_frames _).mono (by decide)).andThen ((setCrcOut_frames _).mono (by decide))
  | chunkWrite =>
    exact (chunkData_examines.frames.leaving (by simp [Item.regs, resultRegs])).bind fun _ => outWrite_frames _
  | unfilter =>
    refine .leaving ?_ (by decide)
    refine checkFormat_examines.frames.andThen (checkRawRange_examines.frames.andThen ?_)
    refine (clearRawLen_frames.mono (by decide)).andThen (((unfilterIn_frames _).mono (by decide)).bind fun _ => ?_)
    exact (storeRaw_frames _).mono (by decide)
  | filter =>
    refine .bind (.leaving ?_ fun _ => filterLeaves_regs s _) fun _ => emitOut_frames (filterLeaves_regs s _) _
    exact (checkFormat_examines.andThen <| checkLevel_examines.andThen <| checkRawRange_examines.andThen <|
      memRead_examines _ _ _).frames
  | deinterlace =>
    refine .leaving ?_ (by decide)
    refine checkFormat_examines.frames.andThen (checkInterlace_examines.frames.andThen ?_)
    refine checkRawRange_examines.frames.andThen ((clearRawLen_frames.mono (by decide)).andThen ?_)
    exact ((unfilterIn_frames _).mono (by decide)).bind fun _ => (storeRaw_frames _).mono (by decide)
  | interlace =>
    refine .bind (.leaving ?_ fun _ => filterLeaves_regs s _) fun _ => emitOut_frames (filterLeaves_regs s _) _
    exact (checkFormat_examines.andThen <| checkInterlace_examines.andThen <| checkLevel_examines.andThen <|
      checkRawRange_examines.andThen <| memRead_examines _ _ _).frames
  | decHeader => exact decStartHeader_frames.leaving (by decide)
  | decChunks => exact (requireDecState_examines _).frames.andThen (decChunks_frames.onRaise (leaveChunks_frame s))
  | decInflate => exact (requireDecState_examines _).frames.andThen decInflate_frames
  | decPixels => exact (requireDecState_examines _).frames.andThen decPixels_frames
  | decExpand => exact (requireDecState_examines _).frames.andThen decExpand_frames
  | decode pipe =>
    refine decodeWith_frames ?_
    cases pipe
    · exact decSequential_frames
    · exact decPipelined_frames
  | encValidate => exact encValidate_frames
  | encHeader => exact (requireEncState_examines _).frames.andThen ((requireSameConfig_frames _).andThen encHeader_frames)
  | encData =>
    refine (requireEncState_examines _).frames.andThen ((requireSameConfig_frames _).andThen ?_)
    exact (encDataWith_frames dataStages_frames).leaving (by decide)
  | encTrailer => exact (requireEncState_examines _).frames.andThen ((requireSameConfig_frames _).andThen encTrailer_frames)
  | encode pipe =>
    refine encodeWith_frames ?_
    cases pipe
    · exact dataStages_frames
    · exact pipelinedStages_frames

/-- The three registers that completion and error entry write beside a command's own (60_exceptions.md R930, R931). -/
def endRegs : List Reg := [.status, .errcode, .errinfo]

theorem family_decode_regs (en : Bool) (i : Instr) : Instr.family i = .decode → Reg.decStatus ∈ resultRegs en i := by
  cases i with
  | decode pipe | encode pipe => cases pipe <;> cases en <;> decide
  | _ => cases en <;> decide

theorem family_encode_regs (en : Bool) (i : Instr) : Instr.family i = .encode → Reg.encStatus ∈ resultRegs en i := by
  cases i with
  | decode pipe | encode pipe => cases pipe <;> cases en <;> decide
  | _ => cases en <;> decide

/-- Registers that the host or the command engine writes, and no command's pseudocode (30_encoding.md R306). -/
def controlRegs : List Reg := [.status, .cmd, .errcode, .errinfo, .inLen]

theorem control_not_result (en : Bool) (i : Instr) : ∀ r ∈ controlRegs, r ∉ resultRegs en i := by
  cases i with
  | decode pipe | encode pipe => cases pipe <;> cases en <;> decide
  | _ => cases en <;> decide

theorem finish_readReg (s : State) {r : Reg} (hr : r ∉ endRegs) : (finish s).readReg r = s.readReg r := by
  cases r <;> first | rfl | exact absurd (by decide) hr

/-- Error entry writes, beside its three registers, the sequencer that the command's failure marks. -/
theorem errorEntry_readReg (fam : Family) (e : Err) (info : Word) (s : State) {r : Reg} (hr : r ∉ endRegs)
    (hd : r = .decStatus → fam ≠ .decode) (he : r = .encStatus → fam ≠ .encode) :
    (errorEntry fam e info s).readReg r = s.readReg r := by
  cases r with
  | decStatus => simp [State.readReg, hd rfl]
  | encStatus => simp [State.readReg, EncRegs.statusWord, he rfl]
  | _ => first | rfl | exact absurd (by decide) hr

/-- A command leaves every register but `STATUS`, `ERRCODE`, `ERRINFO` and those it writes (30_encoding.md R306,
60_exceptions.md R930). -/
theorem exec_readReg {i : Instr} {s t : State} {r : Reg} (h : exec i s = .next t)
    (hr : r ∉ resultRegs s.ctrl.crcCheckEn i) (he : r ∉ endRegs) : t.readReg r = s.readReg r := by
  have hs : r ≠ .status := fun h => he (by rw [h]; decide)
  have hb := body_frames i s s
  rw [exec_eq_runCommand, runCommand] at h
  cases hrun : Instr.body s i s with
  | ok a u =>
    rw [hrun] at h hb
    cases h
    exact (finish_readReg u he).trans (hb.regs r hr hs)
  | raised e info u =>
    rw [hrun] at h hb
    cases h
    refine (errorEntry_readReg _ e info u he ?_ ?_).trans (hb.regs r hr hs)
    · rintro rfl hf; exact hr (family_decode_regs _ i hf)
    · rintro rfl hf; exact hr (family_encode_regs _ i hf)
  | stuck x => rw [hrun] at h; cases h
  | refuse x => rw [hrun] at h; cases h

end Sys2Proof.Machine
end

section
/-! SUPPORT. Host accesses to the register window, register by register (10_state.md section 2). -/

namespace Sys2Proof.Machine

/-! ## The window -/

@[simp] theorem Reg.ofOffset_offset (r : Reg) : Reg.ofOffset r.offset = some r := by cases r <;> rfl

theorem Reg.offset_lt (r : Reg) : r.offset < 256 := by cases r <;> decide

theorem Reg.offset_aligned (r : Reg) : r.offset % 4 = 0 := by cases r <;> rfl

theorem regWrite_outside (s : State) (w : AccessWidth) {off : Nat} (v : Word) (h : 256 ≤ off) :
    s.regWrite w off v = .refused .outsideInterface := by
  simp [State.regWrite, inWindow, h]

theorem regRead_outside (s : State) (w : AccessWidth) {off : Nat} (h : 256 ≤ off) :
    s.regRead w off = .refused .outsideInterface := by
  simp [State.regRead, inWindow, h]

theorem regWrite_bad (s : State) {w : AccessWidth} {off : Nat} (v : Word) (h : off < 256) (hw : w ≠ .word ∨ off % 4 ≠ 0) :
    s.regWrite w off v = .refused .badWindowAccess := by
  have hb : ¬(w = .word ∧ off % 4 = 0) := fun k => hw.elim (· k.1) (· k.2)
  simp [State.regWrite, inWindow, windowAccessOk, h, hb]

theorem regRead_bad (s : State) {w : AccessWidth} {off : Nat} (h : off < 256) (hw : w ≠ .word ∨ off % 4 ≠ 0) :
    s.regRead w off = .refused .badWindowAccess := by
  have hb : ¬(w = .word ∧ off % 4 = 0) := fun k => hw.elim (· k.1) (· k.2)
  simp [State.regRead, inWindow, windowAccessOk, h, hb]

theorem regWrite_word (s : State) {off : Nat} (v : Word) (h : off < 256) (ha : off % 4 = 0) :
    s.regWrite .word off v = .next (s.windowWrite off v) := by
  simp [State.regWrite, inWindow, windowAccessOk, h, ha]

theorem regRead_word (s : State) {off : Nat} (h : off < 256) (ha : off % 4 = 0) :
    s.regRead .word off = .next (s.windowRead off) := by
  simp [State.regRead, inWindow, windowAccessOk, h, ha]

@[simp] theorem windowWrite_offset (s : State) (r : Reg) (v : Word) : s.windowWrite r.offset v = s.hostWrite r v := by
  simp [State.windowWrite]

theorem regWrite_offset (s : State) (r : Reg) (v : Word) : s.regWrite .word r.offset v = .next (s.hostWrite r v) := by
  rw [regWrite_word s v r.offset_lt r.offset_aligned, windowWrite_offset]

theorem regRead_offset (s : State) (r : Reg) : s.regRead .word r.offset = .next (s.returned (s.hostRead r)) := by
  rw [regRead_word s r.offset_lt r.offset_aligned]
  simp [State.windowRead]

/-! ## Writes -/

theorem hostWrite_cmd (s : State) (w : Word) : s.hostWrite .cmd w = s.writeCmd w := rfl

theorem hostWrite_idle {s : State} {r : Reg} (v : Word) (hb : s.status.busy = false) (hr : r ≠ .cmd) :
    s.hostWrite r v = s.writeReg r v := by
  simp [State.hostWrite, hb, hr]

theorem hostWrite_busy {s : State} {r : Reg} (v : Word) (hb : s.status.busy = true) (hr : r ≠ .cmd) (hs : r ≠ .status) :
    s.hostWrite r v = s := by
  simp [State.hostWrite, hb, hr, hs]

/-- The mark of 70_reset_and_hazards.md R1023 is the one thing a register write adds to what it stores. -/
theorem writeReg_cases (s : State) (r : Reg) (v : Word) :
    s.writeReg r v = s.storeReg r v ∨
      s.writeReg r v = { s.storeReg r v with enc.configChanged := true } := by
  unfold State.writeReg
  simp only
  split
  · exact .inr rfl
  · exact .inl rfl

theorem writeReg_readReg (s : State) (r q : Reg) (v : Word) :
    (s.writeReg r v).readReg q = (s.storeReg r v).readReg q := by
  obtain h | h := writeReg_cases s r v <;> rw [h]
  cases q <;> rfl

theorem writeReg_mem (s : State) (r : Reg) (v : Word) : (s.writeReg r v).mem = (s.storeReg r v).mem := by
  obtain h | h := writeReg_cases s r v <;> rw [h]

theorem storeReg_mem (s : State) (r : Reg) (v : Word) : (s.storeReg r v).mem = s.mem := by cases r <;> rfl

/-- A write that stores nothing changes nothing. -/
theorem writeReg_eq_self {s : State} {r : Reg} {v : Word} (h : s.storeReg r v = s) : s.writeReg r v = s := by
  simp [State.writeReg, h]

theorem writeReg_congr {s : State} {r : Reg} {v w : Word} (h : s.storeReg r v = s.storeReg r w) :
    s.writeReg r v = s.writeReg r w := by
  simp [State.writeReg, h]

theorem hostWrite_congr {s : State} {r : Reg} {v w : Word} (hr : r ≠ .cmd) (h : s.storeReg r v = s.storeReg r w) :
    s.hostWrite r v = s.hostWrite r w := by
  simp [State.hostWrite, hr, writeReg_congr h]

theorem writeReg_status (s : State) (v : Word) : s.writeReg .status v = { s with status := s.status.w1c v } := rfl

theorem hostWrite_status (s : State) (v : Word) : s.hostWrite .status v = { s with status := s.status.w1c v } := by
  simp [State.hostWrite, writeReg_status]

/-! ## Implemented bits -/

/-- A word whose bits outside a mask are 0. -/
theorem and_not_eq_zero {x m : Word} (h : ∀ i < 32, m.getLsbD i = false → x.getLsbD i = false) : x &&& ~~~m = 0 := by
  apply BitVec.eq_of_getLsbD_eq
  intro i hi
  rw [BitVec.getLsbD_and, BitVec.getLsbD_not]
  cases hm : m.getLsbD i
  · simp [h i hi hm]
  · simp

/-- The registers that implement every bit. -/
def Reg.full (r : Reg) : Bool := r.mask == 0xFFFFFFFF

theorem Reg.mask_of_full {r : Reg} (h : r.full = true) : r.mask = 0xFFFFFFFF := by simpa [Reg.full] using h

theorem and_full (v : Word) : v &&& 0xFFFFFFFF = v := BitVec.and_allOnes

/-- A reserved bit reads 0 (10_state.md R102). -/
theorem readReg_reserved (s : State) (r : Reg) : s.readReg r &&& ~~~r.mask = 0 := by
  refine and_not_eq_zero fun i hi => ?_
  cases hf : r.full with
  | true => rw [Reg.mask_of_full hf]; interval_cases i <;> simp
  | false =>
    cases r <;> first | exact absurd hf (by decide) | skip
    case imgDerived =>
      simp only [State.readReg, ImgRegs.derivedWord]
      split
      · simp only [BitVec.getLsbD_append]; interval_cases i <;> simp [Reg.mask]
      · simp
    all_goals
      simp only [State.readReg, Ctrl.word, Status.word, chFlags, ImgRegs.modeWord, EncRegs.statusWord, DecRegs.statusWord,
        BitVec.getLsbD_append]
      interval_cases i <;> simp [Reg.mask]

/-- Reserved bits ignore writes (10_state.md R102). -/
theorem storeReg_mask (s : State) (r : Reg) (v : Word) : s.storeReg r (v &&& r.mask) = s.storeReg r v := by
  cases hf : r.full with
  | true => rw [Reg.mask_of_full hf, and_full]
  | false =>
    cases r <;> first | exact absurd hf (by decide) | rfl | skip
    case ctrl => simp [State.storeReg, Ctrl.ofWord, Reg.mask]
    case status => simp [State.storeReg, Status.w1c, Reg.mask]
    case imgMode =>
      have full (x : Byte) : x &&& 255#8 = x := BitVec.and_allOnes
      simp [State.storeReg, Reg.mask, BitVec.extractLsb'_and, full]
    case encPalCount =>
      have full (x : BitVec 9) : x &&& 511#9 = x := BitVec.and_allOnes
      simp [State.storeReg, Reg.mask, BitVec.extractLsb'_and, full]
    case encCfg => simp [State.storeReg, Reg.mask]

/-- A write to a register other than `CMD` reaches its implemented bits only (10_state.md R102). -/
theorem hostWrite_mask (s : State) (r : Reg) (v : Word) : s.hostWrite r (v &&& r.mask) = s.hostWrite r v := by
  by_cases hr : r = .cmd
  · subst hr; rw [show Reg.cmd.mask = 0xFFFFFFFF from rfl, and_full]
  · exact hostWrite_congr hr (storeReg_mask s r v)

/-- Registers that the host may only read (10_state.md R102). -/
def readOnlyRegs : List Reg :=
  [.id, .version, .errcode, .errinfo, .crcOut, .chFlags, .imgDerived, .encStatus, .decStatus, .palCount, .trnsCount, .pixMax,
   .stageLen, .inflLen, .filtLen, .deflLen, .rawLen, .pixLen, .metaLen, .metaCount, .idatCount]

theorem storeReg_readOnly (s : State) {r : Reg} (v : Word) (h : r ∈ readOnlyRegs) : s.storeReg r v = s := by
  unfold readOnlyRegs at h
  fin_cases h <;> rfl

theorem hostWrite_readOnly (s : State) {r : Reg} (v : Word) (h : r ∈ readOnlyRegs) : s.hostWrite r v = s := by
  have hr : r ≠ .cmd := by rintro rfl; exact absurd h (by decide)
  rw [State.hostWrite, if_neg hr, writeReg_eq_self (storeReg_readOnly s v h), ite_self]

/-! ## What a write reads back -/

/-- Registers that the host reads and writes (10_state.md R104). -/
def readWriteRegs : List Reg :=
  [.ctrl, .crcIn, .crcVal, .crcOff, .crcLen, .chLength, .chType, .chCrc, .imgWidth, .imgHeight, .imgFormat, .imgMode,
   .encPalCount, .encCfg, .encMaxIdat, .inLen, .inPos, .outLen]

/-- The value a read-write register holds after a write: `IN_LEN` and `OUT_LEN` are WARL (10_state.md R126, R128). -/
def Reg.stored (c : Config) (r : Reg) (v : Word) : Word :=
  if r = .inLen then BitVec.ofNat 32 (min v.toNat c.inCap)
  else if r = .outLen then BitVec.ofNat 32 (min v.toNat c.outCap)
  else v &&& r.mask

theorem storeReg_readReg_same (s : State) {r : Reg} (v : Word) (h : r ∈ readWriteRegs) :
    (s.storeReg r v).readReg r = r.stored s.cfg v := by
  cases r <;> first | exact absurd h (by decide) | rfl | exact (and_full v).symm | skip
  case imgFormat => exact (u32be_be32 v).trans (and_full v).symm
  all_goals
    apply BitVec.eq_of_getLsbD_eq
    intro i hi
    simp only [State.readReg, State.storeReg, Reg.stored, Ctrl.word, Ctrl.ofWord, ImgRegs.modeWord, BitVec.getLsbD_append]
    interval_cases i <;> simp [Reg.mask]

/-- A write to a read-write register changes no other register but the computed ones (10_state.md R113, R117). -/
theorem storeReg_readReg_other (s : State) {r q : Reg} (v : Word) (h : r ∈ readWriteRegs) (hq : q ≠ r)
    (hf : ¬(r = .chType ∧ q = .chFlags)) (hd : ¬(r = .imgFormat ∧ q = .imgDerived)) :
    (s.storeReg r v).readReg q = s.readReg q := by
  unfold readWriteRegs at h
  fin_cases h <;> cases q <;> first | rfl | exact absurd rfl hq | exact absurd ⟨rfl, rfl⟩ hf | exact absurd ⟨rfl, rfl⟩ hd

end Sys2Proof.Machine
end

section
/-! SUPPORT. Command words, host reads, the computed registers and the platform's addresses. -/

namespace Sys2Proof.Machine

/-! ## Command words -/

/-- The command of an opcode has the opcode, and the PIPE bit where the opcode takes one (30_encoding.md R301, R302). -/
theorem instrOfOpcode_some {op : Byte} {p : Bool} {i : Instr} (h : instrOfOpcode op p = some i) :
    i.opcode = op ∧ i.pipe = (p && takesPipe op) := by
  unfold instrOfOpcode at h
  split at h <;> cases h <;> exact ⟨rfl, by simp [Instr.pipe, takesPipe]⟩

/-- The fields of a word that decodes to a command (30_encoding.md R304). -/
theorem fieldsOf_decode {w : Word} {i : Instr} (h : decode w = .ok i) : fieldsOf w = i.fields := by
  unfold decode at h
  cases hi : instrOfOpcode (opcodeOf w) (pipeOf w) with
  | none => rw [hi] at h; cases h
  | some j =>
    rw [hi] at h
    simp only at h
    split at h
    · cases h
    rename_i hr
    split at h
    · cases h
    rename_i hp
    cases h
    obtain ⟨ho, hpipe⟩ := instrOfOpcode_some hi
    have hpw : i.pipe = pipeOf w := by rw [hpipe]; revert hp; cases pipeOf w <;> cases takesPipe (opcodeOf w) <;> decide
    simp [fieldsOf, Instr.fields, ho, hpw, not_not.1 hr]

/-- A word is its fields put together (30_encoding.md R301). -/
theorem toWord_fieldsOf (w : Word) : (fieldsOf w).toWord = w := by
  apply BitVec.eq_of_getLsbD_eq
  intro i hi
  simp only [CommandFields.toWord, fieldsOf, BitVec.getLsbD_cast, BitVec.getLsbD_append, opcodeOf, pipeOf, reservedOf,
    BitVec.getLsbD_extractLsb']
  interval_cases i <;> simp

/-- A word that decodes to a command is the command's word (30_encoding.md R304). -/
theorem encode_of_decode {w : Word} {i : Instr} (h : decode w = .ok i) : encode i = w := by
  rw [encode, ← fieldsOf_decode h, toWord_fieldsOf]

/-- `STATUS.PIPE_ACTIVE` is set by the two words of DECODE and ENCODE with PIPE 1 only (10_state.md R108). -/
theorem pipeActiveOf_iff (w : Word) : pipeActiveOf w = true ↔ w = 0x14F ∨ w = 0x15F := by
  constructor
  · intro h
    unfold pipeActiveOf at h
    cases hd : decode w with
    | error e => rw [hd] at h; cases h
    | ok i =>
      rw [hd] at h
      rw [← encode_of_decode hd]
      cases i <;> first | exact absurd h (by decide) | skip
      case decode p => rw [show p = true from h]; exact .inl (by decide)
      case encode p => rw [show p = true from h]; exact .inr (by decide)
  · rintro (rfl | rfl) <;> decide

/-! ## Host reads -/

theorem hostRead_idle {s : State} (r : Reg) (h : s.status.busy = false) : s.hostRead r = (s.readReg r, s.freeIdx) := by
  simp [State.hostRead, h]

theorem hostRead_illegal {s : State} (r : Reg) {e : DecodeError} (h : decode s.cmd = .error e) :
    s.hostRead r = (s.readReg r, s.freeIdx) := by
  simp [State.hostRead, h]

theorem hostRead_kept {s : State} {r : Reg} {i : Instr} (h : decode s.cmd = .ok i)
    (hr : r ∉ resultRegs s.ctrl.crcCheckEn i) : s.hostRead r = (s.readReg r, s.freeIdx) := by
  simp [State.hostRead, h, hr]

theorem hostRead_written {s : State} {r : Reg} {i : Instr} (hb : s.status.busy = true) (h : decode s.cmd = .ok i)
    (hr : r ∈ resultRegs s.ctrl.crcCheckEn i) : s.hostRead r = (s.readWhileWritten i r, s.freeIdx + 1) := by
  simp [State.hostRead, hb, h, hr]

theorem and_mask_and_not (x m : Word) : x &&& m &&& ~~~m = 0 := by
  simp [BitVec.and_assoc, BitVec.and_not_self]

/-- The free value of a register that is being written stays in its implemented bits (log 13). -/
theorem readWhileWritten_reserved (s : State) (i : Instr) (r : Reg) : s.readWhileWritten i r &&& ~~~r.mask = 0 := by
  unfold State.readWhileWritten
  simp only
  split
  · rw [BitVec.and_assoc, BitVec.and_comm 0x00000F01, ← BitVec.and_assoc, and_mask_and_not]
    exact BitVec.zero_and
  · exact and_mask_and_not _ _

/-- In a pipelined DECODE, `DEC_STATE` reads D_IDLE or D_HEADER (70_reset_and_hazards.md R1021). -/
theorem readWhileWritten_decState (s : State) :
    (s.readWhileWritten (.decode true) .decStatus).toNat % 16 ≤ 1 := by
  have low : ∀ x : Word, (x &&& 0x00000F01).toNat % 16 ≤ 1 := by
    intro x
    rw [BitVec.toNat_and, show (16 : Nat) = 2 ^ 4 from rfl, Nat.and_mod_two_pow]
    exact Nat.and_le_right
  exact low _

/-! ## The computed registers -/

/-- The bits of `CH_FLAGS` (10_state.md R113). -/
theorem chFlags_getLsbD (typ : Word) (i : Nat) :
    (chFlags typ).getLsbD i =
      (if i = 0 then typ.getLsbD 29 else if i = 1 then typ.getLsbD 21 else if i = 2 then typ.getLsbD 13
       else if i = 3 then typ.getLsbD 5 else false) := by
  by_cases hi : i < 4
  · simp only [chFlags, BitVec.getLsbD_append]
    interval_cases i <;> simp
  · rw [if_neg (by omega), if_neg (by omega), if_neg (by omega), if_neg (by omega)]
    simp only [chFlags, BitVec.getLsbD_append]
    simp [show ¬i < 1 by omega, show ¬i - 1 < 1 by omega, show ¬i - 1 - 1 < 1 by omega, show ¬i - 1 - 1 - 1 < 1 by omega]

/-- The legal pairs of 00_scope.md R17, by number. -/
theorem legalPair_iff (ct bd : Byte) :
    legalPair ct bd = true ↔
      (ct.toNat = 0 ∧ bd.toNat ∈ [1, 2, 4, 8, 16]) ∨ (ct.toNat = 3 ∧ bd.toNat ∈ [1, 2, 4, 8]) ∨
        (ct.toNat ∈ [2, 4, 6] ∧ bd.toNat ∈ [8, 16]) := by
  simp only [legalPair, bitDepthKnown, ← BitVec.toNat_inj]
  split
  · simp_all [← BitVec.toNat_inj, or_assoc]
  split
  · simp_all [← BitVec.toNat_inj, or_assoc]
  split <;> simp_all [← BitVec.toNat_inj, or_assoc]

/-- Samples per pixel of a legal pair, and its largest bit depth (00_scope.md R17). -/
theorem legalPair_bounds {ct bd : Byte} (h : legalPair ct bd = true) :
    samplesPerPixel ct =
        (if ct.toNat = 0 ∨ ct.toNat = 3 then 1 else if ct.toNat = 2 then 3 else if ct.toNat = 4 then 2 else 4) ∧
      samplesPerPixel ct ≤ 4 ∧ bd.toNat ≤ 16 := by
  have hl := (legalPair_iff ct bd).1 h
  simp only [List.mem_cons, List.not_mem_nil, or_false] at hl
  simp only [samplesPerPixel, ← BitVec.toNat_inj]
  refine ⟨?_, ?_, by omega⟩ <;> obtain ⟨hc, -⟩ | ⟨hc, -⟩ | ⟨hc | hc | hc, -⟩ := hl <;> simp [hc]

/-- The packed fields of `IMG_DERIVED`, as a number (10_state.md R117). -/
theorem derivedFields_toNat (a b c : Byte) :
    ((0#7 ++ 1#1 ++ a ++ b ++ c : BitVec (7 + 1 + 8 + 8 + 8)) : Word).toNat =
      c.toNat + 256 * b.toNat + 65536 * a.toNat + 16777216 := by
  rw [BitVec.toNat_append, BitVec.toNat_append, BitVec.toNat_append, ← Nat.shiftLeft_add_eq_or_of_lt c.isLt,
    ← Nat.shiftLeft_add_eq_or_of_lt b.isLt, ← Nat.shiftLeft_add_eq_or_of_lt a.isLt]
  simp only [Nat.shiftLeft_eq]
  show ((1 * 2 ^ 8 + a.toNat) * 2 ^ 8 + b.toNat) * 2 ^ 8 + c.toNat = _
  omega

/-- `IMG_DERIVED` of a legal pair (10_state.md R117): every field fits its byte. -/
theorem derivedWord_legal {r : ImgRegs} (h : legalPair r.colorType r.bitDepth = true) :
    r.derivedWord.toNat =
      samplesPerPixel r.colorType + 256 * (samplesPerPixel r.colorType * r.bitDepth.toNat) +
        65536 * ((samplesPerPixel r.colorType * r.bitDepth.toNat + 7) / 8) + 16777216 := by
  obtain ⟨-, hs, hb⟩ := legalPair_bounds h
  have hp : samplesPerPixel r.colorType * r.bitDepth.toNat ≤ 4 * 16 := Nat.mul_le_mul hs hb
  rw [ImgRegs.derivedWord, if_pos (show r.format.legal = true from h)]
  refine (derivedFields_toNat _ _ _).trans ?_
  simp only [ImgRegs.format, formatOf, ceilDiv, BitVec.toNat_ofNat]
  omega

/-! ## The platform's addresses -/

theorem touches_of_mem {base size addr : Nat} (w : AccessWidth) (h : base ≤ addr ∧ addr < base + size) :
    touches base size addr w = true := by
  have : 0 < widthBytes w := by cases w <;> decide
  simp only [touches, Bool.and_eq_true, decide_eq_true_eq]
  omega

theorem touches_byte (base size addr : Nat) : touches base size addr .byte = true ↔ base ≤ addr ∧ addr < base + size := by
  have : widthBytes .byte = 1 := rfl
  simp only [touches, Bool.and_eq_true, decide_eq_true_eq]
  omega

/-- Where the platform places the window, an access that begins there is one to the window (20_memory.md R240, log 26). -/
theorem target_window (c : Config) (w : AccessWidth) {addr : Nat}
    (h : c.platform.windowBase ≤ addr ∧ addr < c.platform.windowBase + 256) :
    target c w addr = .window (addr - c.platform.windowBase) := by
  rw [target, if_pos (touches_of_mem w h), if_pos h.1]

/-- An access that does not begin in the window is none to the window. -/
theorem target_not_window (c : Config) (w : AccessWidth) {addr : Nat}
    (h : ¬(c.platform.windowBase ≤ addr ∧ addr < c.platform.windowBase + 256)) :
    target c w addr = .outside ∨ target c w addr = findSpace c w addr allSpaces := by
  rw [target]
  split
  · rename_i ht
    refine .inl (if_neg fun hle => h ⟨hle, ?_⟩)
    simp only [touches, Bool.and_eq_true, decide_eq_true_eq] at ht
    exact ht.1
  · exact .inr rfl

/-- A byte access that begins outside the window is one to a space or to nothing. -/
theorem target_byte (c : Config) {addr : Nat}
    (h : ¬(c.platform.windowBase ≤ addr ∧ addr < c.platform.windowBase + 256)) :
    target c .byte addr = findSpace c .byte addr allSpaces := by
  rw [target, if_neg fun ht => h ((touches_byte _ _ _).1 ht)]

theorem findSpace_cons (c : Config) (addr : Nat) (w : AccessWidth) (sp : Space) (l : List Space) :
    findSpace c w addr (sp :: l) =
      if touches (spaceBase c.platform sp) (sp.cap c) addr w then
        (if spaceWidthOk w then .space sp (addr - spaceBase c.platform sp) else .outside)
      else findSpace c w addr l := rfl

/-- An address that no space of the list holds. -/
theorem findSpace_byte_none {c : Config} {addr : Nat} {l : List Space}
    (h : ∀ sp ∈ l, ¬(spaceBase c.platform sp ≤ addr ∧ addr < spaceBase c.platform sp + sp.cap c)) :
    findSpace c .byte addr l = .outside := by
  induction l with
  | nil => rfl
  | cons sp l ih =>
    rw [findSpace_cons, if_neg fun ht => h sp (List.mem_cons_self ..) ((touches_byte _ _ _).1 ht)]
    exact ih fun sq hq => h sq (List.mem_cons_of_mem _ hq)

/-- An address that one space of the list holds, and no other. -/
theorem findSpace_byte_some {c : Config} {addr : Nat} {l : List Space} {sp : Space} (hm : sp ∈ l)
    (hs : spaceBase c.platform sp ≤ addr ∧ addr < spaceBase c.platform sp + sp.cap c)
    (ho : ∀ sq, sq ≠ sp → ¬(spaceBase c.platform sq ≤ addr ∧ addr < spaceBase c.platform sq + sq.cap c)) :
    findSpace c .byte addr l = .space sp (addr - spaceBase c.platform sp) := by
  induction l with
  | nil => cases hm
  | cons sq l ih =>
    rw [findSpace_cons]
    by_cases hq : sq = sp
    · subst hq
      rw [if_pos (touches_of_mem _ hs)]
      rfl
    · rw [if_neg fun ht => ho sq hq ((touches_byte _ _ _).1 ht)]
      exact ih ((List.mem_cons.1 hm).resolve_left (Ne.symm hq))

/-- A space takes accesses of one byte only (10_state.md R140). -/
theorem findSpace_wide (c : Config) {w : AccessWidth} (addr : Nat) (hw : w ≠ .byte) (l : List Space) :
    findSpace c w addr l = .outside := by
  induction l with
  | nil => rfl
  | cons sp l ih =>
    have hb : ¬spaceWidthOk w = true := by simpa [spaceWidthOk] using hw
    rw [findSpace_cons, if_neg hb, ih, ite_self]

theorem mem_allSpaces (sp : Space) : sp ∈ allSpaces := by cases sp <;> decide

/-- Nothing else is addressable (20_memory.md R240). -/
theorem target_outside {c : Config} {w : AccessWidth} {addr : Nat}
    (h : ¬(c.platform.windowBase ≤ addr ∧ addr < c.platform.windowBase + 256))
    (ho : w ≠ .byte ∨ ∀ sp, ¬(spaceBase c.platform sp ≤ addr ∧ addr < spaceBase c.platform sp + sp.cap c)) :
    target c w addr = .outside := by
  obtain ht | ht := target_not_window c w h
  · exact ht
  by_cases hw : w = .byte
  · subst hw
    rw [ht]
    exact findSpace_byte_none fun sp _ => ho.resolve_left (· rfl) sp
  · rw [ht, findSpace_wide c addr hw]

/-! ## Spaces -/

theorem Spaces.ok_set {c : Config} {m : Spaces} (hm : m.ok c) (sp : Space) {v : Memory} (hw : v.wf)
    (hb : v.below (sp.cap c)) : (m.set sp v).ok c := by
  intro sq
  unfold Spaces.okAt
  by_cases h : sq = sp
  · subst h; rw [Spaces.get_set_same]; exact ⟨hw, hb⟩
  · rw [Spaces.get_set_other _ _ _ _ h]; exact hm sq

theorem spaceWrite_idle {s : State} {sp : Space} {off : Nat} (v : Byte) (ho : off < sp.cap s.cfg)
    (hb : s.status.busy = false) : s.spaceWrite sp off v = .next (s.setSpace sp ((s.mem.get sp).write off v)) := by
  simp [State.spaceWrite, ho, hb]

theorem spaceRead_idle {s : State} {sp : Space} {off : Nat} (ho : off < sp.cap s.cfg) (hb : s.status.busy = false) :
    s.spaceRead sp off = .next (s.returned (((s.mem.get sp).read off).setWidth 32, s.freeIdx)) := by
  simp [State.spaceRead, ho, hb]

theorem spaceWrite_busy {s : State} {sp : Space} {off : Nat} (v : Byte) (ho : off < sp.cap s.cfg)
    (hb : s.status.busy = true) : s.spaceWrite sp off v = .refused .spaceWriteWhileBusy := by
  simp [State.spaceWrite, ho, hb]

theorem spaceRead_busy {s : State} {sp : Space} {off : Nat} (ho : off < sp.cap s.cfg) (hb : s.status.busy = true) :
    s.spaceRead sp off =
      .next (s.returned ((Config.freeByte s.freeIdx (410 + sp.id.toNat) off).setWidth 32, s.freeIdx + 1)) := by
  simp [State.spaceRead, ho, hb]

theorem spaceWrite_beyond {s : State} {sp : Space} {off : Nat} (v : Byte) (ho : sp.cap s.cfg ≤ off) :
    s.spaceWrite sp off v = .refused .outsideInterface := by simp [State.spaceWrite, ho]

theorem spaceRead_beyond {s : State} {sp : Space} {off : Nat} (ho : sp.cap s.cfg ≤ off) :
    s.spaceRead sp off = .refused .outsideInterface := by simp [State.spaceRead, ho]

end Sys2Proof.Machine
end

section
/-! SUPPORT. The obligations of 10_state.md about the host interface, and about a step at an event. -/

namespace Sys2Proof.Machine

/-- Settles O3: the two reads of a reserved offset are those of `Reg.ofOffset`; the masks and the read-only registers are
lemmas about `State.readReg` and `State.storeReg`. -/
theorem reservedAndReadOnly : Obligations.ReservedAndReadOnly := by
  unfold Obligations.ReservedAndReadOnly
  refine ⟨fun s off v h => ?_, readReg_reserved, fun s r v h => ?_, fun s r v => ?_, fun s v => ?_⟩
  · simp [State.windowWrite, State.windowRead, h]
  · rw [windowWrite_offset, hostWrite_readOnly s v h]
  · rw [windowWrite_offset, windowWrite_offset, hostWrite_mask]
  · rw [windowWrite_offset, windowWrite_offset, hostWrite_status, hostWrite_status]
    simp [Status.w1c]

/-- Settles O4: an idle write is `State.storeReg` up to the mark of R1023, which no register shows. -/
theorem registerReadBack : Obligations.RegisterReadBack := by
  unfold Obligations.RegisterReadBack
  intro s r q v _ hb hr
  have hc : r ≠ .cmd := by rintro rfl; exact absurd hr (by decide)
  rw [hostWrite_idle v hb hc]
  simp only [writeReg_readReg]
  refine ⟨storeReg_readReg_same s v hr, storeReg_readReg_other s v hr, ?_⟩
  rw [writeReg_mem, storeReg_mem]

/-- Settles O5: `CH_FLAGS` bit by bit, and `IMG_DERIVED` pair by legal pair. -/
theorem computedRegisters : Obligations.ComputedRegisters := by
  unfold Obligations.ComputedRegisters
  intro s
  refine ⟨chFlags_getLsbD s.ch.type, fun h => ?_, fun h => ?_⟩
  · have hl := (legalPair_iff s.img.colorType s.img.bitDepth).2 h
    obtain ⟨hspp, -, -⟩ := legalPair_bounds hl
    rw [← hspp]
    exact derivedWord_legal hl
  · have hl : legalPair s.img.colorType s.img.bitDepth = false := by
      rw [Bool.eq_false_iff]
      exact fun hl => h ((legalPair_iff _ _).1 hl)
    simp [State.readReg, ImgRegs.derivedWord, ImgRegs.format, formatOf, hl]

/-- Settles O6. -/
theorem statusWriteOneToClear : Obligations.StatusWriteOneToClear := by
  unfold Obligations.StatusWriteOneToClear
  intro s v
  exact (regWrite_offset s .status v).trans (congrArg _ (hostWrite_status s v))

/-- Settles O7: which words set `PIPE_ACTIVE` follows from the decoder (`pipeActiveOf_iff`). -/
theorem commandAcceptance : Obligations.CommandAcceptance := by
  unfold Obligations.CommandAcceptance
  intro s w hb
  refine ⟨s.accept w, ?_, rfl, pipeActiveOf_iff w, rfl, ?_⟩
  · refine (regWrite_offset s .cmd w).trans ?_
    simp [hostWrite_cmd, State.writeCmd, hb]
  · simp [State.irq]

/-- Settles O8. -/
theorem busyWrites : Obligations.BusyWrites := by
  unfold Obligations.BusyWrites
  intro s v hb
  refine ⟨fun r hs hc => ?_, ?_⟩
  · rw [regWrite_offset, hostWrite_busy v hb hc hs]
  · refine (regWrite_offset s .cmd v).trans ?_
    simp [hostWrite_cmd, State.writeCmd, hb]

/-- Settles O9: a command's writes are those of `resultRegs` (`exec_readReg`); a host read is `State.hostRead`, case by
case. -/
theorem hostRegisterReads : Obligations.HostRegisterReads := by
  unfold Obligations.HostRegisterReads
  refine ⟨by decide, fun i s t r h hr he => exec_readReg h hr he, fun s r => ?_⟩
  have control : ([.status, .cmd, .errcode, .errinfo] : List Reg) ⊆ controlRegs := by decide
  have value (h : s.hostRead r = (s.readReg r, s.freeIdx)) :
      s.regRead .word r.offset = .next { s with port.readData := s.readReg r } := by
    rw [regRead_offset, h]; rfl
  refine ⟨fun hb => value (hostRead_idle r hb), fun e he => value (hostRead_illegal r he), fun i hb hd => ?_⟩
  refine ⟨fun hr => value (hostRead_kept hd hr), fun hr => control_not_result _ i r (control hr), ?_, ?_⟩
  · refine ⟨(s.hostRead r).1, (s.hostRead r).2, regRead_offset s r, ?_⟩
    by_cases hr : r ∈ resultRegs s.ctrl.crcCheckEn i
    · rw [hostRead_written hb hd hr]; exact readWhileWritten_reserved s i r
    · rw [hostRead_kept hd hr]; exact readReg_reserved s r
  · rintro rfl rfl t ht
    have hr : Reg.decStatus ∈ resultRegs s.ctrl.crcCheckEn (.decode true) := family_decode_regs _ _ rfl
    rw [regRead_offset, hostRead_written hb hd hr] at ht
    cases ht
    exact readWhileWritten_decState s

/-- Settles O10: `target` finds the window first, and then the one space that holds the address. -/
theorem windowAccesses : Obligations.WindowAccesses := by
  unfold Obligations.WindowAccesses
  refine ⟨fun r => ⟨r.offset_lt, r.offset_aligned⟩, fun s w off v => ⟨fun h => ?_, fun h hw => ?_, ?_⟩, fun s w addr v => ?_⟩
  · exact ⟨regWrite_outside s w v h, regRead_outside s w h⟩
  · exact ⟨regWrite_bad s v h hw, regRead_bad s h hw⟩
  · rintro h rfl ha
    exact ⟨⟨_, regWrite_word s v h ha⟩, _, regRead_word s h ha⟩
  · refine ⟨fun h => ?_, fun sp h hw hs ho => ?_, fun h ho => ?_⟩
    · simp [State.busWrite, State.busRead, target_window s.cfg w h]
    · subst hw
      simp [State.busWrite, State.busRead, target_byte s.cfg h, findSpace_byte_some (mem_allSpaces sp) hs ho]
    · simp [State.busWrite, State.busRead, target_outside h ho]

/-- Settles O11: a byte write keeps the canonical form of its space and changes that byte only. -/
theorem spaceAccesses : Obligations.SpaceAccesses := by
  unfold Obligations.SpaceAccesses
  intro s sp off v hm
  obtain ⟨hwf, hbelow⟩ := hm sp
  refine ⟨fun ho hb => ⟨⟨_, spaceWrite_idle v ho hb, ?_⟩, spaceRead_idle ho hb⟩, fun ho hb => ?_, fun ho => ?_⟩
  · simp only [State.setSpace_mem, Spaces.get_set_same, State.setSpace_cfg]
    exact ⟨Memory.read_write_same _ _ _ hwf, fun a => Memory.read_write_other _ _ a v hwf,
      fun sq => Spaces.get_set_other _ _ sq _, trivial,
      Spaces.ok_set hm sp (Memory.wf_write _ _ _ hwf) (Memory.below_write _ _ _ _ hbelow ho)⟩
  · exact ⟨spaceWrite_busy v ho hb, _, _, spaceRead_busy ho hb⟩
  · exact ⟨spaceWrite_beyond v ho, spaceRead_beyond ho⟩

/-- The engine runs the command of a word that decodes. -/
theorem runEngine_ok {s : State} {i : Instr} (turns : List StageTurn) (hr : s.inReset = false) (hb : s.status.busy = true)
    (hd : decode s.cmd = .ok i) : runEngine turns s = exec i { s with turns := turns } := by
  simp [runEngine, hr, hb, hd]

/-- The engine does nothing while the block is idle or in reset. -/
theorem runEngine_idle {s : State} (turns : List StageTurn) (h : s.inReset = true ∨ s.status.busy = false) :
    runEngine turns s = .next s := by
  obtain h | h := h <;> simp [runEngine, h]

theorem step_nil {s : State} (h : s.port.inbox = []) : step s = runEngine [] s := by simp [step, stepOnce, h]

theorem step_cons {s : State} {e : HostEvent} {rest : List HostEvent} (h : s.port.inbox = e :: rest) :
    step s = handleEvent e (s.withInbox rest) := by simp [step, stepOnce, h]

/-- Settles O16: a step is the engine's turn or the event's access, by the event in front of the inbox. -/
theorem stepRunsDecodedCommand : Obligations.StepRunsDecodedCommand := by
  unfold Obligations.StepRunsDecodedCommand
  refine ⟨fun s i hr hb hd => ⟨fun turns rest h => ?_, fun h => ?_⟩, fun s hs => ⟨fun h => ?_, fun turns rest h => ?_⟩,
    fun s e rest h => ?_⟩
  · rw [step_cons h]; exact runEngine_ok (s := s.withInbox rest) turns hr hb hd
  · rw [step_nil h, runEngine_ok [] hr hb hd]
  · rw [step_nil h, runEngine_idle [] hs]
  · rw [step_cons h]; exact runEngine_idle (s := s.withInbox rest) turns hs
  · simp only [step_cons h]
    refine ⟨?_, ?_, ?_, ?_, ?_, ?_⟩
    · rintro w off v rfl; rfl
    · rintro sp off v rfl; rfl
    · rintro w addr v rfl; rfl
    all_goals
      intros
      subst e
      split
      · rename_i hr; exact ⟨_, _, if_pos hr⟩
      · rename_i hr; exact if_neg hr

end Sys2Proof.Machine
end

section
/-! SUPPORT. What every piece of pseudocode keeps of the invariant: the spaces, the bound of `OUT_LEN`, and a condition on the
streams and the decoder's registers; and that an error it raises is one that is reported (60_exceptions.md R901, R930). -/

namespace Sys2Proof.Machine

/-- Spaces within their sizes, `OUT_LEN` within OUT, and `Z` of the streams and the decoder's registers. -/
def Sound (Z : Streams → DecRegs → Prop) (t : State) : Prop :=
  t.mem.ok t.cfg ∧ t.cnt.outLen.toNat ≤ t.cfg.outCap ∧ Z t.str t.dec

/-- The state of an error that may be reported; error entry closes the streams, so only `D` of the decoder's registers is
asked. -/
def Failed (D : DecRegs → Prop) (e : Err) (t : State) : Prop :=
  e.code ∈ reportedCodes ∧ Sound (fun _ d => D d) t

/-- The piece takes states with `Z` to states with `Z'`, and its errors are reported and leave `D`. -/
abbrev Cmd.Carries {α : Type} (D : DecRegs → Prop) (Z : Streams → DecRegs → Prop) (m : Cmd α)
    (Z' : Streams → DecRegs → Prop) : Prop :=
  Cmd.Triple (Sound Z) m (fun _ => Sound Z') (Failed D)

theorem Sound.imp {Z Z' : Streams → DecRegs → Prop} {t : State} (h : Sound Z t) (hZ : ∀ str d, Z str d → Z' str d) :
    Sound Z' t := ⟨h.1, h.2.1, hZ _ _ h.2.2⟩

theorem Sound.failed {Z : Streams → DecRegs → Prop} {D : DecRegs → Prop} {e : Err} {t : State} (h : Sound Z t)
    (he : e.code ∈ reportedCodes) (hD : ∀ str d, Z str d → D d) : Failed D e t := ⟨he, h.imp hD⟩

theorem Cmd.Carries.conseq {α : Type} {D D' : DecRegs → Prop} {Z Z' Z₁ Z₁' : Streams → DecRegs → Prop} {m : Cmd α}
    (h : Cmd.Carries D Z m Z') (hpre : ∀ str d, Z₁ str d → Z str d) (hpost : ∀ str d, Z' str d → Z₁' str d)
    (hD : ∀ d, D d → D' d) : Cmd.Carries D' Z₁ m Z₁' :=
  Cmd.Triple.conseq h (fun _ h => h.imp hpre) (fun _ _ h => h.imp hpost) fun _ _ h => ⟨h.1, h.2.imp fun _ d => hD d⟩

theorem Cmd.Carries.bind {α β : Type} {D : DecRegs → Prop} {Z Z₁ Z₂ : Streams → DecRegs → Prop} {m : Cmd α} {f : α → Cmd β}
    (h : Cmd.Carries D Z m Z₁) (k : ∀ a, Cmd.Carries D Z₁ (f a) Z₂) : Cmd.Carries D Z (m.bind f) Z₂ := Cmd.Triple.bind h k

theorem Cmd.Carries.andThen {α β : Type} {D : DecRegs → Prop} {Z Z₁ Z₂ : Streams → DecRegs → Prop} {m : Cmd α} {n : Cmd β}
    (h : Cmd.Carries D Z m Z₁) (k : Cmd.Carries D Z₁ n Z₂) : Cmd.Carries D Z (m.andThen n) Z₂ := h.bind fun _ => k

/-- What a piece's outcome has to meet (`Cmd.Triple`), as a predicate of the outcome. -/
def Res.Meets {α : Type} (Q : α → State → Prop) (R : Err → State → Prop) : Res α → Prop
  | .ok a t => Q a t
  | .raised e _ t => R e t
  | .stuck _ => False
  | .refuse r => r = .encodeConfigChanged

theorem Cmd.Triple.meets {α : Type} {P : State → Prop} {m : Cmd α} {Q : α → State → Prop} {R : Err → State → Prop}
    (h : Cmd.Triple P m Q R) {s : State} (hs : P s) : (m s).Meets Q R := h s hs

theorem Cmd.Triple.of_meets {α : Type} {P : State → Prop} {m : Cmd α} {Q : α → State → Prop} {R : Err → State → Prop}
    (h : ∀ s, P s → (m s).Meets Q R) : Cmd.Triple P m Q R := h

section Leaves

variable {α : Type} {D : DecRegs → Prop} {Z Z' : Streams → DecRegs → Prop}

/-- A change of the state outside the spaces, `OUT_LEN`, the streams and the decoder's registers. -/
theorem Cmd.Carries.update {f : State → State} (h : ∀ s, Sound Z s → Sound Z' (f s)) :
    Cmd.Carries D Z (Cmd.update f) Z' := Cmd.Triple.update f h

theorem Cmd.Carries.updateThen {f : State → State} {n : Cmd α} (h : ∀ s, Sound Z s → Sound Z (f s))
    (k : Cmd.Carries D Z n Z') : Cmd.Carries D Z ((Cmd.update f).andThen n) Z' := (Cmd.Carries.update h).andThen k

theorem Cmd.Carries.look (f : State → α) : Cmd.Carries D Z (Cmd.look f) Z := Cmd.Triple.look f fun _ => id

theorem Cmd.Carries.ret (a : α) : Cmd.Carries D Z (Cmd.ret a) Z := Cmd.Triple.ret a fun _ => id

/-! ## Values an error leaves unspecified -/

/-- The item is one of the decoder's registers that the invariant speaks of. -/
def Item.freesDec : Item → Bool
  | .decSeen | .palCount | .trnsCount | .pixMax => true
  | .inPos | .outLen | .chLength | .chType | .chCrc | .imgWidth | .imgHeight | .imgFormat | .imgInterlace => false
  | .stageLen | .inflLen | .filtLen | .deflLen | .rawLen | .pixLen | .metaLen | .metaCount | .idatCount => false
  | .space _ | .bytes _ _ _ | .stream _ => false

theorem Item.free_dec {it : Item} (h : it.freesDec = false) (k : Nat) (s : State) : (it.free k s).dec = s.dec := by
  cases it <;> first | rfl | exact absurd h (by decide)

theorem Item.free_sound {it : Item} {k : Nat} {s : State} (h : Sound (fun _ d => D d) s) (hd : D (it.free k s).dec) :
    Sound (fun _ d => D d) (it.free k s) := by
  obtain ⟨hm, ho, -⟩ := h
  cases it
  case outLen =>
    refine ⟨hm, ?_, hd⟩
    show (BitVec.ofNat 32 (min _ s.cfg.outCap)).toNat ≤ s.cfg.outCap
    rw [BitVec.toNat_ofNat]
    exact (Nat.mod_le _ _).trans (Nat.min_le_right _ _)
  case space sp =>
    refine ⟨Spaces.ok_set hm sp (Memory.wf_fill _ _ _ Memory.wf_nil (by simp)) ?_, ho, hd⟩
    exact Memory.below_fill _ _ _ _ (by simp) (Nat.le_refl _)
  case bytes sp off n =>
    exact ⟨Spaces.ok_set hm sp (freeRange_wf _ _ _ _ _ _ _ (hm sp).1) (freeRange_below _ _ _ _ _ _ _ (hm sp).2), ho, hd⟩
  all_goals exact ⟨hm, ho, hd⟩

theorem unspecified_sound {items : List Item} (hi : ∀ it ∈ items, ∀ k t, D t.dec → D (it.free k t).dec) {s : State}
    (h : Sound (fun _ d => D d) s) : Sound (fun _ d => D d) (unspecified items s) := by
  have all : ∀ (k : Nat) (l : List Item), (∀ it ∈ l, it ∈ items) → ∀ t, Sound (fun _ d => D d) t →
      Sound (fun _ d => D d) (l.foldl (fun t it => it.free k t) t) := by
    intro k l
    induction l with
    | nil => exact fun _ _ => id
    | cons it l ih =>
      intro hl t ht
      refine ih (fun j hj => hl j (List.mem_cons_of_mem _ hj)) _ (Item.free_sound ht ?_)
      exact hi it (hl it (List.mem_cons_self ..)) k t ht.2.2
  exact all _ items (fun _ => id) _ h

theorem Cmd.Carries.leaving {m : Cmd α} {items : List Item} (h : Cmd.Carries D Z m Z')
    (hi : ∀ it ∈ items, ∀ k t, D t.dec → D (it.free k t).dec) : Cmd.Carries D Z (m.leaving items) Z' :=
  Cmd.Triple.leaving h fun _ _ hf => ⟨hf.1, unspecified_sound hi hf.2⟩

/-- Items that are none of the decoder's registers leave what is asked of them. -/
theorem keepsDec_of_freesDec {items : List Item} (h : ∀ it ∈ items, it.freesDec = false) :
    ∀ it ∈ items, ∀ k (t : State), D t.dec → D (it.free k t).dec := by
  intro it hit k t ht
  rwa [Item.free_dec (h it hit)]

/-! ## Accesses -/

/-- A write to OUT keeps the bound of `OUT_LEN` (10_state.md R128, 20_memory.md R213). -/
theorem afterOut_sound {s : State} {v : Bytes} (hs : Sound Z s) (h : s.outFits v.length) : Sound Z (s.afterOut v) := by
  obtain ⟨hm, ho, hz⟩ := hs
  unfold State.outFits at h
  refine ⟨Spaces.ok_set hm .outp (Memory.wf_writeBytes _ _ _ (hm .outp).1) ?_, ?_, hz⟩
  · exact Memory.below_writeBytes _ _ _ _ (hm .outp).2 h
  · show (s.cnt.outLen + BitVec.ofNat 32 v.length).toNat ≤ s.cfg.outCap
    rw [BitVec.toNat_add, BitVec.toNat_ofNat]
    have := Nat.mod_le v.length (2 ^ 32)
    exact (Nat.mod_le _ _).trans (by omega)

/-- A read of a closed stream to its end never waits (20_memory.md R212). -/
theorem readAll_carries {i : StreamId} (hc : ∀ str d, Z str d → (str.get i).closed = true)
    (hw : ∀ str d, Z str d → Z (str.set i ((str.get i).advance (str.get i).unread.length)) d) :
    Cmd.Carries D Z (readAll i) Z := by
  intro s hs
  rw [readAll_ok (hc _ _ hs.2.2)]
  exact ⟨hs.1, hs.2.1, hw _ _ hs.2.2⟩

variable (hD : ∀ str d, Z str d → D d)
include hD

theorem Cmd.Carries.raise {e : Err} (he : e.code ∈ reportedCodes) (info : Word) :
    Cmd.Carries D Z (Cmd.raise e info : Cmd α) Z' := Cmd.Triple.raise e info fun _ h => h.failed he hD

theorem Cmd.Examines.carries {m : Cmd α} (h : m.Examines) : Cmd.Carries D Z m Z := by
  intro s hs
  obtain ⟨a, hr⟩ | ⟨e, info, he, hr⟩ := h s <;> rw [hr]
  · exact hs
  · exact hs.failed he hD

theorem requireDecState_carries (v : DecState) :
    Cmd.Carries D Z (requireDecState v) (fun str d => Z str d ∧ d.state = v) := by
  intro s hs
  unfold requireDecState
  by_cases h : s.dec.state = v
  · rw [if_pos h]; exact ⟨hs.1, hs.2.1, hs.2.2, h⟩
  · rw [if_neg h]; exact hs.failed (by decide) hD

theorem readIn_carries (n : Nat) : Cmd.Carries D Z (readIn n) Z := by
  intro s hs
  rw [readIn_run]
  by_cases h : inAvail s < n
  · rw [if_pos h]; exact hs.failed (by decide) hD
  · rw [if_neg h]; exact hs

theorem readU32_carries : Cmd.Carries D Z readU32 Z :=
  Cmd.Carries.bind (readIn_carries hD 4) fun _ => Cmd.Carries.ret _

theorem memWrite_carries (sp : Space) (off : Nat) (v : Bytes) : Cmd.Carries D Z (memWrite sp off v) Z := by
  intro s hs
  rw [memWrite_run]
  by_cases h : sp.cap s.cfg < off + v.length
  · rw [if_pos h]; exact hs.failed (by decide) hD
  · rw [if_neg h]
    obtain ⟨hm, ho, hz⟩ := hs
    refine ⟨Spaces.ok_set hm sp (Memory.wf_writeBytes _ _ _ (hm sp).1) ?_, ho, hz⟩
    exact Memory.below_writeBytes _ _ _ _ (hm sp).2 (by omega)

theorem outWrite_carries (v : Bytes) : Cmd.Carries D Z (outWrite v) Z := by
  intro s hs
  by_cases h : s.outFits v.length
  · rw [outWrite_ok h]; exact afterOut_sound hs h
  · rw [outWrite_raised h]; exact hs.failed (by decide) hD

theorem streamWrite_carries {i : StreamId} {v : Bytes} (ho : ∀ str d, Z str d → (str.get i).closed = false)
    (hw : ∀ str d, Z str d → Z' (str.set i ((str.get i).write v)) d) : Cmd.Carries D Z (streamWrite i v) Z' := by
  intro s hs
  have hopen := ho _ _ hs.2.2
  rw [streamWrite_run, if_neg (by simp [hopen])]
  by_cases h : i.cap s.cfg < (s.str.get i).total + v.length
  · rw [if_pos h]; exact hs.failed (by decide) hD
  · rw [if_neg h]; exact ⟨hs.1, hs.2.1, hw _ _ hs.2.2⟩

end Leaves

end Sys2Proof.Machine
end

section
/-! SUPPORT. The errors of the filter engine, and what the framer, the filter commands and the decode sequence keep. -/

namespace Sys2Proof.Machine

/-! ## The errors of the filter engine -/

/-- An error of the unfilter engine is one that is reported. -/
def Unfiltered.Reported : Unfiltered → Prop
  | .done _ _ _ => True
  | .failed e _ _ _ => e.code ∈ reportedCodes

theorem unfilterRow_reported (f : Format) (w y : Nat) (u : FilterUnit) (inp : Bytes) :
    (unfilterRow f w y u inp).Reported := by
  cases inp with
  | nil => show Err.code .unexpectedEof ∈ reportedCodes; decide
  | cons ft body =>
    simp only [unfilterRow]
    split
    · show Err.code .unexpectedEof ∈ reportedCodes; decide
    cases FilterType.ofByte ft with
    | none => show Err.code .unknownFilterType ∈ reportedCodes; decide
    | some t => trivial

theorem unfilterRows_reported (f : Format) (w n y : Nat) (u : FilterUnit) (inp : Bytes) :
    (unfilterRows f w n y u inp).Reported := by
  induction n generalizing y u inp with
  | zero => trivial
  | succ n ih =>
    have h1 := unfilterRow_reported f w y u inp
    unfold unfilterRows
    cases hr : unfilterRow f w y u inp with
    | failed e info u' rest => rw [hr] at h1; exact h1
    | done row u' rest =>
      have h2 := ih (y + 1) u' rest
      simp only
      cases hs : unfilterRows f w n (y + 1) u' rest with
      | failed e info u'' rest' => rw [hs] at h2; exact h2
      | done rows u'' rest' => trivial

theorem unfilterImage_reported (rowCap : Nat) (f : Format) (w h : Nat) (u : FilterUnit) (inp : Bytes) :
    (unfilterImage rowCap f w h u inp).Reported := by
  unfold unfilterImage
  split
  · show Err.code .capacityExceeded ∈ reportedCodes; decide
  · have h1 := unfilterRows_reported f w h 0 (clearPrior rowCap (f.rowBytes w) u) inp
    cases hr : unfilterRows f w h 0 (clearPrior rowCap (f.rowBytes w) u) inp with
    | failed e info u' rest => rw [hr] at h1; exact h1
    | done out u' rest => trivial

theorem deinterlacePasses_reported (rowCap : Nat) (f : Format) (w h : Nat) (ps : List Nat) (out : Bytes) (u : FilterUnit)
    (inp : Bytes) : (deinterlacePasses rowCap f w h ps out u inp).Reported := by
  induction ps generalizing out u inp with
  | nil => trivial
  | cons p ps ih =>
    unfold deinterlacePasses
    split
    · exact ih _ _ _
    · have h1 := unfilterImage_reported rowCap f (passW p w) (passH p h) { u with pass := Fin.ofNat 8 p } inp
      cases hr : unfilterImage rowCap f (passW p w) (passH p h) { u with pass := Fin.ofNat 8 p } inp with
      | failed e info u' rest => rw [hr] at h1; exact h1
      | done sub u' rest => exact ih _ _ _

theorem deinterlacer_reported (s : State) (u : FilterUnit) (inp : Bytes) : (deinterlacer s u inp).Reported := by
  unfold deinterlacer deinterlacePixels
  split
  · exact unfilterImage_reported _ _ _ _ _ _
  split
  · exact deinterlacePasses_reported _ _ _ _ _ _ _ _
  · show Err.code .unknownInterlaceMethod ∈ reportedCodes; decide

/-- The error that follows the scanlines, if any, is one that is reported. -/
def Filtered.Reported (r : Filtered) : Prop := ∀ p, r.err = some p → p.1.code ∈ reportedCodes

theorem filterRows_reported (f : Format) (w : Nat) (level : Byte) (src : Bytes) (n y : Nat) (u : FilterUnit) :
    (filterRows f w level src n y u).Reported := by
  induction n generalizing y u with
  | zero => rintro p ⟨⟩
  | succ n ih =>
    unfold filterRows
    simp only
    split
    · rintro p ⟨⟩; decide
    · exact ih _ _

theorem filterImage_reported (rowCap : Nat) (f : Format) (src : Bytes) (w h : Nat) (level : Byte) (u : FilterUnit) :
    (filterImage rowCap f src w h level u).Reported := by
  unfold filterImage
  split
  · rintro p ⟨⟩; decide
  · have := filterRows_reported f w level src h 0 (clearPrior rowCap (f.rowBytes w) u)
    simp only
    split <;> exact this

theorem interlacePasses_reported (rowCap : Nat) (f : Format) (src : Bytes) (w h : Nat) (level : Byte) (ps : List Nat)
    (u : FilterUnit) : (interlacePasses rowCap f src w h level ps u).Reported := by
  induction ps generalizing u with
  | nil => rintro p ⟨⟩
  | cons q ps ih =>
    unfold interlacePasses
    split
    · exact ih _
    · simp only
      split
      · exact filterImage_reported _ _ _ _ _ _ _
      · exact ih _

theorem interlacer_reported (s : State) (src : Bytes) (u : FilterUnit) : (interlacer s src u).Reported := by
  unfold interlacer interlacePixels
  split
  · exact filterImage_reported _ _ _ _ _ _ _
  split
  · exact interlacePasses_reported _ _ _ _ _ _ _ _
  · rintro p ⟨⟩; decide

section Pieces

variable {D : DecRegs → Prop} {Z : Streams → DecRegs → Prop} (hD : ∀ str d, Z str d → D d)
include hD

/-! ## The framer -/

theorem readChunkBody_carries (len : Nat) (typ : Word) (toStage fits : Bool) :
    Cmd.Carries D Z (readChunkBody len typ toStage fits) Z := by
  refine Cmd.Carries.bind (readIn_carries hD len) fun data => Cmd.Carries.andThen (Z₁ := Z) ?_ ?_
  · split
    · exact memWrite_carries hD _ _ _
    · exact Cmd.Carries.ret ()
  · refine Cmd.Carries.bind (readU32_carries hD) fun crc => ?_
    exact Cmd.Carries.andThen (Cmd.Carries.update fun _ h => h) <| Cmd.Carries.ret _

/-- Freeing chunk registers leaves the decoder's. -/
theorem readChunk_carries (sink : ChunkSink) : Cmd.Carries D Z (readChunk sink) Z := by
  have word := readU32_carries hD
  refine Cmd.Carries.bind (word.leaving (keepsDec_of_freesDec (by decide))) fun len => ?_
  refine Cmd.Carries.andThen (Cmd.Carries.update fun _ h => h) <| ?_
  refine Cmd.Carries.bind (word.leaving (keepsDec_of_freesDec (by decide))) fun typ => ?_
  refine Cmd.Carries.andThen (Cmd.Carries.update fun _ h => h) <| ?_
  refine Cmd.Carries.leaving ?_ (keepsDec_of_freesDec (by decide))
  refine Cmd.Carries.bind (Cmd.Carries.look _) fun fits => ?_
  refine Cmd.Carries.andThen ((Cmd.Examines.raiseIf _ (by decide)).carries hD) <| ?_
  exact readChunkBody_carries hD _ _ _ _

theorem checkCrc_carries (typ : Word) (data : Bytes) (crc : Word) : Cmd.Carries D Z (checkCrc typ data crc) Z :=
  Cmd.Carries.andThen (Cmd.Carries.update fun _ h => h) <| (Cmd.Examines.raiseIf _ (by decide)).carries hD

theorem checkSignature_carries : Cmd.Carries D Z checkSignature Z :=
  Cmd.Carries.bind (readIn_carries hD 8) fun _ => (Cmd.Examines.raiseIf _ (by decide)).carries hD

omit hD in
theorem leaveChunkData_failed (toStage : Bool) {e e' : Err} {s : State} (h : Failed D e s) :
    Failed D e (leaveChunkData toStage e' s) := by
  unfold leaveChunkData
  split
  · exact ⟨h.1, unspecified_sound (keepsDec_of_freesDec (by simp [Item.freesDec])) h.2⟩
  · exact h

/-! ## The filter engine -/

theorem unfilterIn_carries {engine : FilterUnit → Bytes → Unfiltered} (h : ∀ u inp, (engine u inp).Reported) :
    Cmd.Carries D Z (unfilterIn engine) Z := by
  intro s hs
  have he := h s.flt (s.mem.inp.readBytes s.cnt.inPos.toNat (inAvail s))
  unfold unfilterIn
  cases hr : engine s.flt (s.mem.inp.readBytes s.cnt.inPos.toNat (inAvail s)) with
  | done out u rest => exact hs
  | failed e info u rest =>
    rw [hr] at he
    exact hs.failed he hD

theorem storeRaw_carries (out : Bytes) : Cmd.Carries D Z (storeRaw out) Z :=
  Cmd.Carries.andThen (memWrite_carries hD _ _ _) <| Cmd.Carries.update fun _ h => h

theorem raiseErr_carries {e : Option (Err × Word)} (h : ∀ p, e = some p → p.1.code ∈ reportedCodes) :
    Cmd.Carries D Z (raiseErr e) Z := by
  cases e with
  | none => exact Cmd.Carries.ret ()
  | some p => exact Cmd.Carries.raise hD (h p rfl) p.2

omit hD in
/-- A sink that takes every scanline takes what the engine gives, and then raises the engine's error. -/
theorem emit_carries {k : Sink} {leave : Cmd Unit → Cmd Unit} {engine : FilterUnit → Filtered}
    (hw : ∀ line, Cmd.Carries D Z (writeLine k line) Z)
    (hl : ∀ u, Cmd.Carries D Z (leave (raiseErr (engine u).err)) Z) : Cmd.Carries D Z (emit k leave engine) Z := by
  intro s hs
  refine Cmd.Carries.andThen (Cmd.Triple.forEach fun row _ => ?_) ?_ s hs
  · exact Cmd.Carries.andThen (Cmd.Carries.update fun _ h => h) <| hw row.2
  · exact Cmd.Carries.andThen (Cmd.Carries.update fun _ h => h) <| hl s.flt

/-- FILTER and INTERLACE write to OUT (42_filter.md R550, 43_adam7.md R620). -/
theorem emitOut_carries {items : List Item} (hi : ∀ it ∈ items, it.freesDec = false) {engine : FilterUnit → Filtered}
    (he : ∀ u, (engine u).Reported) : Cmd.Carries D Z (emit .outSpace (Cmd.leaving · items) engine) Z :=
  emit_carries (fun line => outWrite_carries hD line) fun u =>
    (raiseErr_carries hD (he u)).leaving (keepsDec_of_freesDec hi)

end Pieces

end Sys2Proof.Machine
end

section
/-! SUPPORT. What the decode sequence keeps (44_decode.md): STAGE is open while the chunk reader writes it, a stream is closed
when the next step reads it, and the palette counts stay within 256. -/

namespace Sys2Proof.Machine

/-- PAL holds at most 256 entries (10_state.md R145). -/
def paletteBound (d : DecRegs) : Prop := d.palCount.toNat ≤ 256 ∧ d.trnsCount.toNat ≤ 256

/-- While the chunk loop runs. -/
def chunking (str : Streams) (d : DecRegs) : Prop := str.stage.closed = false ∧ paletteBound d

/-- After the step of a decode that leaves `DEC_STATE` at `v`, where the stream `closed` is closed. -/
def decodedTo (v : DecState) (closed : Streams → Prop) (str : Streams) (d : DecRegs) : Prop :=
  (closed str ∧ paletteBound d) ∧ d.state = v

/-- A failing decode command leaves the decoder's registers with any values (60_exceptions.md R930). -/
abbrev Cmd.Decodes {α : Type} (Z : Streams → DecRegs → Prop) (m : Cmd α) (Z' : Streams → DecRegs → Prop) : Prop :=
  Cmd.Carries (fun _ => True) Z m Z'

theorem anyDec {Z : Streams → DecRegs → Prop} : ∀ str d, Z str d → True := fun _ _ _ => trivial

theorem keepsAnyDec {items : List Item} : ∀ it ∈ items, Nat → State → True → True := fun _ _ _ _ => id

theorem Failed.unspecified {e : Err} {s : State} (h : Failed (fun _ => True) e s) (items : List Item) :
    Failed (fun _ => True) e (unspecified items s) := ⟨h.1, unspecified_sound keepsAnyDec h.2⟩

section AnyPhase

variable {Z : Streams → DecRegs → Prop}

theorem setDecState_carries (v : DecState) {closed : Streams → Prop} :
    Cmd.Decodes (fun str d => closed str ∧ paletteBound d) (setDecState v) (decodedTo v closed) :=
  Cmd.Carries.update fun _ h => ⟨h.1, h.2.1, h.2.2, rfl⟩

theorem checkCrcIfEnabled_carries (c : Chunk) : Cmd.Decodes Z (checkCrcIfEnabled c) Z := by
  refine Cmd.Triple.of_meets fun s hs => ?_
  unfold checkCrcIfEnabled
  cases s.ctrl.crcCheckEn
  · exact hs
  · exact checkCrc_carries anyDec _ _ _ s hs

/-! ## Header -/

theorem decStart_carries : Cmd.Decodes Z decStart chunking :=
  Cmd.Carries.update fun _ h => ⟨h.1, h.2.1, rfl, Nat.zero_le _, Nat.zero_le _⟩

theorem readHeader_carries : Cmd.Decodes Z readHeader Z := by
  refine Cmd.Carries.andThen (Z₁ := Z) ?_ fun s => ?_
  · refine ((readIn_carries anyDec 8).leaving keepsAnyDec).bind fun sg => ?_
    exact ((Cmd.Examines.raiseIf _ (by decide)).carries anyDec).leaving keepsAnyDec
  · exact Cmd.Triple.onRaise (readChunk_carries anyDec .auto) (fun _ _ h => leaveChunkData_failed _ h) s

theorem decHeader_carries {closed : Streams → Prop} :
    Cmd.Decodes (fun str d => closed str ∧ paletteBound d) decHeader (decodedTo .header closed) := by
  refine (readHeader_carries.leaving keepsAnyDec).bind fun c => ?_
  refine ((checkCrcIfEnabled_carries c).leaving keepsAnyDec).andThen ?_
  refine (((checkIhdrChunk_examines c).carries anyDec).leaving keepsAnyDec).andThen ?_
  refine Cmd.Carries.updateThen (fun _ h => h) ?_
  exact ((checkHeader_examines.carries anyDec).leaving keepsAnyDec).andThen (setDecState_carries .header)

/-! ## Chunk loop -/

theorem record_carries (typ : Word) (data : Bytes) : Cmd.Decodes Z (record typ data) Z := by
  refine Cmd.Triple.of_meets fun s hs => ?_
  unfold record
  simp only
  split
  · exact hs.failed (by decide) anyDec
  · refine Cmd.Triple.meets (Cmd.Carries.andThen (memWrite_carries anyDec _ _ _) (Cmd.Carries.update fun _ h => ?_)) hs
    exact h

theorem doMeta_carries (ok : Bool) {e : Err} (he : e.code ∈ reportedCodes) (typ : Word) (data : Bytes) :
    Cmd.Decodes Z (doMeta ok e typ data) Z :=
  ((Cmd.Examines.raiseIf _ he).carries anyDec).andThen (record_carries _ _)

theorem doUnknown_carries (typ : Word) (data : Bytes) : Cmd.Decodes Z (doUnknown typ data) Z :=
  ((Cmd.Examines.raiseIf _ (by decide)).carries anyDec).andThen (record_carries _ _)

theorem writeAlphas_carries (data : Bytes) : Cmd.Decodes Z (writeAlphas data) Z :=
  Cmd.Triple.forEach fun _ _ => memWrite_carries anyDec _ _ _

end AnyPhase

theorem doIdat_carries (data : Bytes) : Cmd.Decodes chunking (doIdat data) chunking := by
  refine Cmd.Triple.of_meets fun s hs => ?_
  unfold doIdat
  split
  · exact hs.failed (by decide) anyDec
  · refine Cmd.Triple.meets (Cmd.Carries.andThen (Z₁ := chunking) (streamWrite_carries anyDec (fun _ _ h => h.1) fun _ _ h => h) ?_) hs
    exact Cmd.Carries.updateThen (fun _ h => h) (Cmd.Carries.update fun _ h => h)

theorem toNat_ofNat_nine {n m : Nat} (h : n ≤ m) : (BitVec.ofNat 9 n).toNat ≤ m := by
  rw [BitVec.toNat_ofNat]
  exact (Nat.mod_le _ _).trans h

theorem doPlte_carries (data : Bytes) : Cmd.Decodes chunking (doPlte data) chunking := by
  refine Cmd.Triple.of_meets fun s hs => ?_
  unfold doPlte
  simp only
  split
  · exact hs.failed (by decide) anyDec
  split
  · exact hs.failed (by decide) anyDec
  split
  · exact hs.failed (by decide) anyDec
  split
  · exact hs.failed (by decide) anyDec
  rename_i hn
  refine Cmd.Triple.meets (Cmd.Carries.andThen (memWrite_carries anyDec _ _ _) (Cmd.Carries.update fun t h => ?_)) hs
  obtain ⟨hm, ho, hc, -, ht⟩ := h
  exact ⟨hm, ho, hc, toNat_ofNat_nine (by omega), ht⟩

theorem doTrns_carries (data : Bytes) : Cmd.Decodes chunking (doTrns data) chunking := by
  refine Cmd.Triple.of_meets fun s hs => ?_
  unfold doTrns
  split
  · exact hs.failed (by decide) anyDec
  split
  · exact hs.failed (by decide) anyDec
  split
  · exact hs.failed (by decide) anyDec
  split
  · split
    · exact hs.failed (by decide) anyDec
    split
    · exact hs.failed (by decide) anyDec
    rename_i hn
    have hp : s.dec.palCount.toNat ≤ 256 := hs.2.2.2.1
    refine Cmd.Triple.meets (Cmd.Carries.andThen (writeAlphas_carries data) (Cmd.Carries.update fun t h => ?_)) hs
    obtain ⟨hm, ho, hc, hb, -⟩ := h
    exact ⟨hm, ho, hc, hb, toNat_ofNat_nine (by omega)⟩
  · refine Cmd.Triple.meets (Cmd.Carries.andThen (record_carries _ _) (Cmd.Carries.update fun _ h => ?_)) hs
    exact h

theorem chunkCase_carries (typ : Word) (data : Bytes) : Cmd.Decodes chunking (chunkCase typ data) chunking := by
  unfold chunkCase
  split
  · exact (doIdat_carries data).andThen (Cmd.Carries.ret _)
  split
  · exact (doPlte_carries data).andThen (Cmd.Carries.ret _)
  split
  · exact (doTrns_carries data).andThen (Cmd.Carries.ret _)
  split
  · exact (doMeta_carries _ (by decide) _ data).andThen (Cmd.Carries.ret _)
  split
  · exact (doMeta_carries _ (by decide) _ data).andThen (Cmd.Carries.ret _)
  split
  · exact (doMeta_carries _ (by decide) _ data).andThen (Cmd.Carries.ret _)
  split
  · exact (doMeta_carries _ (by decide) _ data).andThen (Cmd.Carries.ret _)
  split
  · exact Cmd.Carries.updateThen (fun _ h => h) (Cmd.Carries.ret _)
  · exact (doUnknown_carries _ data).andThen (Cmd.Carries.ret _)

theorem decChunksStep_carries : Cmd.Decodes chunking decChunksStep chunking := by
  refine (readChunk_carries anyDec .auto).bind fun c => (checkCrcIfEnabled_carries c).andThen ?_
  exact ((Cmd.Examines.raiseIf _ (by decide)).carries anyDec).andThen (chunkCase_carries _ _)

theorem chunkLoop_carries (fuel : Nat) : Cmd.Decodes chunking (chunkLoop fuel) chunking := by
  induction fuel with
  | zero => exact Cmd.Carries.raise anyDec (by decide) 0
  | succ n ih =>
    refine decChunksStep_carries.bind fun last => ?_
    cases last
    · exact ih
    · exact Cmd.Carries.ret ()

/-- STAGE is closed, for the inflater to read (44_decode.md R660). -/
def stageClosed (str : Streams) : Prop := str.stage.closed = true

/-- INFL is closed, for the deinterlacer to read (44_decode.md R695). -/
def inflClosed (str : Streams) : Prop := str.infl.closed = true

/-- No stream is asked to be closed. -/
def noneClosed (_ : Streams) : Prop := True

@[simp] theorem Stream.close_closed (t : Stream) : t.close.closed = true := by
  unfold Stream.close
  split
  · assumption
  · rfl

theorem endChunks_carries : Cmd.Decodes chunking endChunks (fun str d => stageClosed str ∧ paletteBound d) :=
  Cmd.Carries.update fun s h => ⟨h.1, h.2.1, s.str.stage.close_closed, h.2.2.2⟩

theorem resetStage_carries {closed : Streams → Prop} :
    Cmd.Decodes (fun str d => closed str ∧ paletteBound d) (resetStream .stage) chunking :=
  Cmd.Carries.update fun _ h => ⟨h.1, h.2.1, rfl, h.2.2.2⟩

theorem decChunks_carries {closed : Streams → Prop} :
    Cmd.Decodes (fun str d => closed str ∧ paletteBound d) decChunks (decodedTo .chunks stageClosed) := by
  refine resetStage_carries.andThen (Cmd.Carries.andThen (fun s => ?_) (setDecState_carries .chunks))
  exact (chunkLoop_carries _).andThen endChunks_carries s

/-! ## Decompression, pixels, expansion -/

/-- INFL open, beside STAGE closed. -/
def inflating (str : Streams) (d : DecRegs) : Prop := (stageClosed str ∧ str.infl.closed = false) ∧ paletteBound d

/-- The inflater's start (44_decode.md R695): INFL reset, and all of STAGE read. -/
theorem resetInfl_carries :
    Cmd.Decodes (fun str d => stageClosed str ∧ paletteBound d) (resetStream .infl) inflating :=
  Cmd.Carries.update fun _ h => ⟨h.1, h.2.1, ⟨h.2.2.1, rfl⟩, h.2.2.2⟩

theorem readStage_carries : Cmd.Decodes inflating (readAll .stage) inflating :=
  readAll_carries (fun _ _ h => h.1.1) fun _ _ h => h

theorem decInflate_carries :
    Cmd.Decodes (fun str d => stageClosed str ∧ paletteBound d) decInflate (decodedTo .inflated inflClosed) := by
  refine Cmd.Carries.leaving ?_ keepsAnyDec
  refine resetInfl_carries.andThen (Cmd.Carries.updateThen (fun _ h => h) ?_)
  refine readStage_carries.bind fun z => ((callInflate_examines z).carries anyDec).bind fun d => ?_
  refine Cmd.Carries.andThen (Z₁ := inflating) (streamWrite_carries anyDec (fun _ _ h => h.1.2) fun _ _ h => h) ?_
  refine Cmd.Carries.updateThen (fun _ h => h) (Cmd.Carries.andThen ?_ (setDecState_carries .inflated))
  exact Cmd.Carries.update fun s h => ⟨h.1, h.2.1, s.str.infl.close_closed, h.2.2.2⟩

theorem unfilterInfl_carries {engine : FilterUnit → Bytes → Unfiltered} (h : ∀ u inp, (engine u inp).Reported) :
    Cmd.Decodes (fun str d => inflClosed str ∧ paletteBound d) (unfilterInfl engine)
      (fun str d => inflClosed str ∧ paletteBound d) := by
  intro s hs
  have he := h s.flt s.str.infl.unread
  have hc : s.str.infl.closed = true := hs.2.2.1
  unfold unfilterInfl
  simp only
  cases hr : engine s.flt s.str.infl.unread with
  | done out u rest => exact hs
  | failed e info u rest =>
    rw [hr] at he
    simp only [hc, Bool.true_eq_false, and_false, if_false]
    exact ⟨he, hs.1, hs.2.1, trivial⟩

theorem decPixels_carries :
    Cmd.Decodes (fun str d => inflClosed str ∧ paletteBound d) decPixels (decodedTo .pixels inflClosed) := by
  intro s hs
  refine Cmd.Carries.leaving ?_ keepsAnyDec s hs
  refine (checkPixels_examines.carries anyDec).andThen (Cmd.Carries.updateThen (fun _ h => h) ?_)
  refine (unfilterInfl_carries (deinterlacer_reported s)).bind fun out => ?_
  exact (storeRaw_carries anyDec out).andThen (setDecState_carries .pixels)

theorem expandOne_carries {Z : Streams → DecRegs → Prop} (k : Nat) : Cmd.Decodes Z (expandOne k) Z := by
  intro s hs
  refine ((memRead_examines _ _ _).carries anyDec).bind (fun px => ?_) s hs
  exact ((expandPixel_examines px).carries anyDec).bind fun v => memWrite_carries anyDec _ _ _

theorem decExpand_carries {closed : Streams → Prop} :
    Cmd.Decodes (fun str d => closed str ∧ paletteBound d) decExpand (decodedTo .expanded closed) := by
  intro s hs
  refine Cmd.Carries.leaving ?_ keepsAnyDec s hs
  refine (checkHeader_examines.carries anyDec).andThen ((checkPixRange_examines.carries anyDec).andThen ?_)
  refine Cmd.Carries.updateThen (fun _ h => h) (Cmd.Carries.andThen (Cmd.Triple.forEach fun k _ => expandOne_carries k) ?_)
  exact Cmd.Carries.updateThen (fun _ h => h) (setDecState_carries .expanded)

end Sys2Proof.Machine
end

section
/-! SUPPORT. What the encode serializer keeps (45_encode.md): FILT and DEFL are open while they are written and closed when
they are read, and the decode sequencer is left alone. -/

namespace Sys2Proof.Machine

/-- The decode sequencer is ready for its next step (`DecodeOk`), as a condition of the streams and its registers. -/
def decodeReady (str : Streams) (d : DecRegs) : Prop :=
  (d.state = .chunks → str.stage.closed = true) ∧ (d.state = .inflated → str.infl.closed = true) ∧
    (d.state ≠ .failed → paletteBound d)

/-- What an error outside the decode family leaves of the decoder's registers: error entry closes the streams itself. -/
def paletteOk (d : DecRegs) : Prop := d.state ≠ .failed → paletteBound d

theorem decodeReady.palette : ∀ str d, decodeReady str d → paletteOk d := fun _ _ h => h.2.2

/-- While ENC.DATA runs: whether FILT and DEFL are closed. -/
def encoding (filt defl : Bool) (str : Streams) (d : DecRegs) : Prop :=
  decodeReady str d ∧ str.filt.closed = filt ∧ str.defl.closed = defl

theorem encoding.palette {f e : Bool} : ∀ str d, encoding f e str d → paletteOk d := fun _ _ h => h.1.2.2

/-- A failing encode command leaves the decoder's registers (60_exceptions.md R930). -/
abbrev Cmd.Encodes {α : Type} (Z : Streams → DecRegs → Prop) (m : Cmd α) (Z' : Streams → DecRegs → Prop) : Prop :=
  Cmd.Carries paletteOk Z m Z'

section AnyPhase

variable {Z : Streams → DecRegs → Prop}

theorem requireSameConfig_carries : Cmd.Encodes Z requireSameConfig Z := by
  refine Cmd.Triple.of_meets fun s hs => ?_
  unfold requireSameConfig
  split
  · rfl
  · exact hs

variable (hZ : ∀ str d, Z str d → paletteOk d)
include hZ

theorem encValidate_carries : Cmd.Encodes Z encValidate Z :=
  (encChecks_examines.carries hZ).andThen (Cmd.Carries.update fun _ h => ⟨h.1, Nat.zero_le _, h.2.2⟩)

theorem paletteChunks_carries : Cmd.Encodes Z paletteChunks Z := by
  intro s hs
  refine Cmd.Carries.andThen ((memRead_examines _ _ _).carries hZ) ((outWrite_carries hZ _).andThen ?_) s hs
  split
  · exact outWrite_carries hZ _
  · exact Cmd.Carries.ret ()

theorem encHeader_carries : Cmd.Encodes Z encHeader Z := by
  intro s hs
  refine (outWrite_carries hZ _).andThen ((outWrite_carries hZ _).andThen (Cmd.Carries.andThen (Z₁ := Z) ?_ ?_)) s hs
  · split
    · exact paletteChunks_carries hZ
    · exact Cmd.Carries.ret ()
  · exact Cmd.Carries.update fun _ h => h

theorem encTrailer_carries : Cmd.Encodes Z encTrailer Z :=
  (outWrite_carries hZ _).andThen (Cmd.Carries.update fun _ h => h)

theorem placeIdat_carries (held : Bytes) : Cmd.Encodes Z (placeIdat held) Z :=
  (outWrite_carries hZ _).andThen (Cmd.Carries.update fun _ h => h)

end AnyPhase

/-! ## Image data -/

theorem dataStart_carries : Cmd.Encodes decodeReady (Cmd.update dataStartState) (encoding false false) :=
  Cmd.Carries.update fun _ h => ⟨h.1, h.2.1, h.2.2, rfl, rfl⟩

theorem writeFilt_carries (line : Bytes) :
    Cmd.Encodes (encoding false false) (writeLine .filtStream line) (encoding false false) :=
  Cmd.Carries.andThen (Z₁ := encoding false false)
    (streamWrite_carries encoding.palette (fun _ _ h => h.2.1) fun _ _ h => h) (Cmd.Carries.update fun _ h => h)

theorem filterStage_carries : Cmd.Encodes (encoding false false) filterStage (encoding true false) := by
  intro s hs
  refine Cmd.Carries.bind ((memRead_examines _ _ _).carries encoding.palette) (fun src => ?_) s hs
  refine Cmd.Carries.andThen (Z₁ := encoding false false) ?_ (Cmd.Carries.andThen (Z₁ := encoding true false) ?_ ?_)
  · exact emit_carries writeFilt_carries fun u => raiseErr_carries encoding.palette (interlacer_reported s src u)
  · exact Cmd.Carries.update fun t h => ⟨h.1, h.2.1, h.2.2.1, t.str.filt.close_closed, h.2.2.2.2⟩
  · exact Cmd.Carries.update fun _ h => h

theorem readFilt_carries : Cmd.Encodes (encoding true false) (readAll .filt) (encoding true false) :=
  readAll_carries (fun _ _ h => h.2.1) fun _ _ h => h

theorem deflateStage_carries : Cmd.Encodes (encoding true false) deflateStage (encoding true true) := by
  refine readFilt_carries.bind fun f => ((callDeflate_examines f).carries encoding.palette).bind fun d => ?_
  refine Cmd.Carries.andThen (Z₁ := encoding true false) ?_ (Cmd.Carries.andThen (Z₁ := encoding true true) ?_ ?_)
  · exact streamWrite_carries encoding.palette (fun _ _ h => h.2.2) fun _ _ h => h
  · exact Cmd.Carries.update fun t h => ⟨h.1, h.2.1, h.2.2.1, h.2.2.2.1, t.str.defl.close_closed⟩
  · exact Cmd.Carries.update fun _ h => h

/-- A partial read of a closed stream never waits, and leaves it closed (20_memory.md R212). -/
theorem readPartial_closed {t : Stream} (h : t.closed = true) (n : Nat) :
    t.readPartial n = .endOfFile ∨ ∃ v k, t.readPartial n = .data v (t.advance k) := by
  unfold Stream.readPartial
  by_cases hu : t.unread = []
  · exact .inl (by rw [if_pos hu, if_pos h])
  · exact .inr ⟨_, _, if_neg hu⟩

theorem splitLoop_carries (fuel : Nat) (held : Bytes) :
    Cmd.Encodes (encoding true true) (splitLoop fuel held) (encoding true true) := by
  induction fuel generalizing held with
  | zero => exact Cmd.Carries.ret ()
  | succ n ih =>
    refine Cmd.Triple.of_meets fun s hs => ?_
    have hc : s.str.defl.closed = true := hs.2.2.2.2
    unfold splitLoop
    obtain h | ⟨v, k, h⟩ := readPartial_closed hc (s.enc.maxIdat.toNat - held.length) <;> rw [h] <;> simp only
    · split
      · exact (placeIdat_carries encoding.palette held).meets hs
      · exact hs
    · have ht : Sound (encoding true true) (s.setStream .defl (s.str.defl.advance k)) := hs
      split
      · exact ((placeIdat_carries encoding.palette _).andThen (ih [])).meets ht
      · exact (ih _).meets ht

theorem splitIdat_carries : Cmd.Encodes (encoding true true) splitIdat (encoding true true) := by
  refine Cmd.Triple.of_meets fun s hs => ?_
  unfold splitIdat
  split
  · rfl
  · exact (splitLoop_carries _ _).meets hs

theorem dataStages_carries : Cmd.Encodes (encoding false false) dataStages (encoding true true) :=
  filterStage_carries.andThen (deflateStage_carries.andThen splitIdat_carries)

theorem encDataWith_carries {stages : Cmd Unit} (h : Cmd.Encodes (encoding false false) stages (encoding true true)) :
    Cmd.Encodes decodeReady (encDataWith stages) decodeReady :=
  dataStart_carries.andThen (h.andThen (Cmd.Carries.update fun _ h => ⟨h.1, h.2.1, h.2.2.1⟩))

theorem dataLeaves_keepsDec : ∀ it ∈ dataLeaves, ∀ k (t : State), paletteOk t.dec → paletteOk (it.free k t).dec :=
  keepsDec_of_freesDec (by decide)

theorem encodeWith_carries {stages : Cmd Unit} (h : Cmd.Encodes (encoding false false) stages (encoding true true)) :
    Cmd.Encodes decodeReady (encodeWith stages) decodeReady := by
  refine Cmd.Carries.leaving ?_ dataLeaves_keepsDec
  refine (encValidate_carries decodeReady.palette).andThen ((encHeader_carries decodeReady.palette).andThen ?_)
  exact (encDataWith_carries h).andThen (encTrailer_carries decodeReady.palette)

end Sys2Proof.Machine
end

section
/-! SUPPORT. The stages of a pipelined DECODE or ENCODE: after the drain each has ended, with an error that is reported or
with what its consumer needs, whatever the turns were (60_exceptions.md R921, R951, R952). -/

namespace Sys2Proof.Machine

/-! ## The middle stage -/

/-- The stage's conversion raises errors that are reported. -/
def MidJob.Reported (j : MidJob) : Prop := ∀ z e info, j.convert z = .error (e, info) → e.code ∈ reportedCodes

/-- What a middle stage keeps: a finished one has closed its output, a failed one has an error that is reported. -/
def MidStage.Good : MidStage → Prop
  | .reading _ => True
  | .writing _ _ => True
  | .done out => out.closed = true
  | .failed e _ _ => e.code ∈ reportedCodes

/-- A middle stage that has ended so. -/
def MidStage.Final : MidStage → Prop
  | .reading _ => False
  | .writing _ _ => False
  | .done out => out.closed = true
  | .failed e _ _ => e.code ∈ reportedCodes

theorem MidJob.start_good {j : MidJob} (hj : j.Reported) (z : Bytes) : (j.start z).Good := by
  unfold MidJob.start
  split
  · trivial
  · rename_i h; exact hj z _ _ h

theorem MidJob.turn_good {j : MidJob} (hj : j.Reported) (n : Nat) (up : Stream) {m : MidStage} (h : m.Good) :
    (j.turn n up m).Good := by
  cases m with
  | reading got =>
    simp only [MidJob.turn]
    split
    · split
      · exact j.start_good hj got
      · trivial
    · trivial
  | writing rest out =>
    simp only [MidJob.turn, MidJob.write]
    split
    · exact out.close_closed
    split
    · show Err.code .capacityExceeded ∈ reportedCodes; decide
    · trivial
  | done out => exact h
  | failed e info out => exact h

theorem MidJob.flushAll_final {j : MidJob} {m : MidStage} (h : m.Good) (hr : ∀ got, m ≠ .reading got) :
    (j.flushAll m).Final := by
  cases m with
  | reading got => exact absurd rfl (hr got)
  | writing rest out =>
    simp only [MidJob.flushAll]
    split
    · show Err.code .capacityExceeded ∈ reportedCodes; decide
    · exact (out.write rest).close_closed
  | done out => exact h
  | failed e info out => exact h

theorem MidJob.start_ne_reading (j : MidJob) (z got : Bytes) : j.start z ≠ .reading got := by
  unfold MidJob.start
  split <;> simp

theorem MidJob.drain_final {j : MidJob} (hj : j.Reported) (up : Stream) {m : MidStage} (h : m.Good) :
    (j.drain up m).Final := by
  cases m with
  | reading got => exact MidJob.flushAll_final (j.start_good hj _) (j.start_ne_reading _)
  | writing rest out => exact MidJob.flushAll_final (j := j) (m := .writing rest out) h (by simp)
  | done out => exact MidJob.flushAll_final (j := j) (m := .done out) h (by simp)
  | failed e info out => exact MidJob.flushAll_final (j := j) (m := .failed e info out) h (by simp)

theorem inflateJob_reported (c : Config) : (inflateJob c).Reported := by
  intro z e info h
  simp only [inflateJob] at h
  split at h
  · cases h; decide
  · split at h <;> cases h
    decide

theorem deflateJob_reported (s : State) : (deflateJob s).Reported := by
  intro z e info h
  simp only [deflateJob] at h
  split at h <;> cases h
  decide

/-! ## The stages of DECODE -/

/-- The chunk reader in its loop, or at its end. -/
def ReaderStage.Good : ReaderStage → Prop
  | .running s => Sound chunking s
  | .ended r => r.Meets (fun _ => Sound fun str d => stageClosed str ∧ paletteBound d) (Failed fun _ => True)

theorem ReaderStage.turn_good {p : ReaderStage} (h : p.Good) : p.turn.Good := by
  cases p with
  | ended r => exact h
  | running s =>
    have hs := decChunksStep_carries.meets h
    simp only [ReaderStage.turn]
    cases hr : decChunksStep s with
    | ok last t =>
      rw [hr] at hs
      cases last
      · exact hs
      · exact endChunks_carries.meets hs
    | raised e info t => rw [hr] at hs; exact hs
    | stuck x => rw [hr] at hs; exact hs
    | refuse x => rw [hr] at hs; exact hs

/-- The chunk reader after its drain: its end, which meets what `DecChunks()` has to. -/
theorem ReaderStage.drain_good {p : ReaderStage} (h : p.Good) :
    ∃ r, p.drain = .ended r ∧ (ReaderStage.ended r).Good := by
  cases p with
  | ended r => exact ⟨r, rfl, h⟩
  | running s => exact ⟨_, rfl, ((chunkLoop_carries _).andThen endChunks_carries).meets h⟩

theorem pixelsOn_reported (s : State) (inp : Bytes) : (pixelsOn s inp).Reported := by
  unfold pixelsOn
  obtain ⟨a, h⟩ | ⟨e, info, he, h⟩ := checkPixels_examines s <;> rw [h]
  · exact deinterlacer_reported s s.flt inp
  · exact he

/-- An error of the deinterlacer is one that is reported. -/
def PixelsStage.Good : PixelsStage → Prop
  | .reading _ => True
  | .ended _ r => r.Reported

theorem PixelsStage.turn_good (s : State) (n : Nat) (infl : Stream) {p : PixelsStage} (h : p.Good) :
    (p.turn s n infl).Good := by
  cases p with
  | ended got r => exact h
  | reading got =>
    simp only [PixelsStage.turn, PixelsStage.take]
    split
    · exact pixelsOn_reported s _
    · trivial

theorem PixelsStage.drain_good (s : State) (infl : Stream) {p : PixelsStage} (h : p.Good) :
    ∃ got r, p.drain s infl = .ended got r ∧ r.Reported := by
  cases p with
  | ended got r => exact ⟨got, r, rfl, h⟩
  | reading got => exact ⟨_, _, rfl, pixelsOn_reported s _⟩

/-- Every stage of a pipelined DECODE as it should be. -/
structure DecPipe.Good (p : DecPipe) : Prop where
  reader : p.reader.Good
  inflater : p.inflater.Good
  pixels : p.pixels.Good

theorem DecPipe.turn_good (s : State) {p : DecPipe} (h : p.Good) (t : StageTurn) : (p.turn s t).Good := by
  cases t with
  | first => exact ⟨ReaderStage.turn_good h.reader, h.inflater, h.pixels⟩
  | second n => exact ⟨h.reader, MidJob.turn_good (inflateJob_reported s.cfg) n _ h.inflater, h.pixels⟩
  | third n => exact ⟨h.reader, h.inflater, PixelsStage.turn_good s n _ h.pixels⟩

theorem DecPipe.foldl_good (s : State) (turns : List StageTurn) {p : DecPipe} (h : p.Good) :
    (turns.foldl (DecPipe.turn s) p).Good := by
  induction turns generalizing p with
  | nil => exact h
  | cons t rest ih => exact ih (DecPipe.turn_good s h t)

theorem commitInflater_carries {m : MidStage} (h : m.Final) :
    Cmd.Decodes (fun str d => stageClosed str ∧ paletteBound d) (commitInflater m) (decodedTo .inflated noneClosed) := by
  refine Cmd.Carries.leaving ?_ keepsAnyDec
  refine resetInfl_carries.andThen (Cmd.Carries.updateThen (fun _ h => h) (readStage_carries.andThen ?_))
  cases m with
  | reading got => exact h.elim
  | writing rest out => exact h.elim
  | failed e info out => exact Cmd.Carries.raise anyDec h info
  | done out =>
    refine Cmd.Carries.andThen (Z₁ := fun str d => noneClosed str ∧ paletteBound d) ?_ (setDecState_carries .inflated)
    exact Cmd.Carries.update fun _ h => ⟨h.1, h.2.1, trivial, h.2.2.2⟩

theorem commitPixels_carries {got : Bytes} {r : Unfiltered} (h : r.Reported) :
    Cmd.Decodes (fun str d => noneClosed str ∧ paletteBound d) (commitPixels (.ended got r))
      (decodedTo .pixels noneClosed) := by
  intro s hs
  refine Cmd.Carries.leaving ?_ keepsAnyDec s hs
  cases r with
  | done out u rest =>
    refine Cmd.Carries.updateThen (fun _ h => h) (Cmd.Carries.updateThen (fun _ h => h) ?_)
    exact (storeRaw_carries anyDec out).andThen (setDecState_carries .pixels)
  | failed e info u rest => exact Cmd.Carries.updateThen (fun _ h => h) (Cmd.Carries.raise anyDec h info)

theorem decodedTo.bound {v : DecState} {closed closed' : Streams → Prop} (hc : ∀ str, closed str → closed' str) :
    ∀ str d, decodedTo v closed str d → closed' str ∧ paletteBound d := fun str _ h => ⟨hc str h.1.1, h.1.2⟩

/-- The three stages of a pipelined DECODE (44_decode.md R721). -/
theorem decPipelined_carries {closed : Streams → Prop} :
    Cmd.Decodes (fun str d => closed str ∧ paletteBound d) decPipelined (decodedTo .pixels noneClosed) := by
  refine resetStage_carries.andThen (Cmd.Triple.of_meets fun s hs => ?_)
  have hp : (s.turns.foldl (DecPipe.turn s) (.start s)).Good := DecPipe.foldl_good s s.turns ⟨hs, trivial, trivial⟩
  obtain ⟨r, hr, hgood⟩ := ReaderStage.drain_good hp.reader
  have hm := MidJob.drain_final (inflateJob_reported s.cfg) (ReaderStage.ended r).view hp.inflater
  obtain ⟨got, q, hq, hrep⟩ := PixelsStage.drain_good s
    ((inflateJob s.cfg).drain (ReaderStage.ended r).view (s.turns.foldl (DecPipe.turn s) (.start s)).inflater).view hp.pixels
  simp only [DecPipe.run, DecPipe.drain, DecPipe.commit, hr, hq]
  refine Cmd.Triple.meets (P := (· = s)) (Cmd.Triple.andThen (Q := fun _ => Sound fun str d => stageClosed str ∧ paletteBound d)
    (fun t ht => hgood) fun _ => ?_) rfl
  refine Cmd.Carries.andThen (Z₁ := fun str d => stageClosed str ∧ paletteBound d) (Cmd.Carries.update fun _ h => h) ?_
  refine (commitInflater_carries hm).andThen ?_
  exact (commitPixels_carries hrep).conseq (decodedTo.bound fun _ => id) (fun _ _ h => h) fun _ h => h

theorem decSequential_carries {closed : Streams → Prop} :
    Cmd.Decodes (fun str d => closed str ∧ paletteBound d) decSequential (decodedTo .pixels noneClosed) := by
  refine decChunks_carries.andThen (Cmd.Carries.andThen (Z₁ := decodedTo .inflated inflClosed) ?_ ?_)
  · exact decInflate_carries.conseq (decodedTo.bound fun _ => id) (fun _ _ h => h) fun _ h => h
  · exact decPixels_carries.conseq (decodedTo.bound fun _ => id) (fun _ _ h => ⟨⟨trivial, h.1.2⟩, h.2⟩) fun _ h => h

/-- DECODE, with either form of steps 3 to 5 (44_decode.md R720). -/
theorem decodeWith_carries {stages : Cmd Unit} {Z : Streams → DecRegs → Prop}
    (h : Cmd.Decodes (fun str d => noneClosed str ∧ paletteBound d) stages (decodedTo .pixels noneClosed)) :
    Cmd.Decodes Z (decodeWith stages) (decodedTo .expanded noneClosed) := by
  have header : Cmd.Decodes Z (decStart.andThen decHeader) (fun str d => noneClosed str ∧ paletteBound d) :=
    decStart_carries.andThen <| decHeader_carries.conseq (fun _ _ h => h) (decodedTo.bound fun _ _ => trivial) fun _ h => h
  refine Cmd.Carries.andThen (Cmd.Triple.onRaise header fun _ _ h => h.unspecified _) fun s hs => ?_
  refine Cmd.Triple.onRaise (h.andThen ?_) (fun _ _ h => h.unspecified _) s hs
  exact decExpand_carries.conseq (decodedTo.bound fun _ => id) (fun _ _ h => h) fun _ h => h

end Sys2Proof.Machine
end

section
/-! SUPPORT. The stages of a pipelined ENCODE. -/

namespace Sys2Proof.Machine

/-! ## The interlacer-filter -/

/-- A finished interlacer-filter has closed FILT, a failed one has an error that is reported. -/
def FilterStage.Good : FilterStage → Prop
  | .running _ _ => True
  | .done out => out.closed = true
  | .failed e _ _ _ => e.code ∈ reportedCodes

/-- An interlacer-filter that has ended so. -/
def FilterStage.Final : FilterStage → Prop
  | .running _ _ => False
  | .done out => out.closed = true
  | .failed e _ _ _ => e.code ∈ reportedCodes

theorem filterJob_reported (s : State) : (filterJob s).Reported := interlacer_reported s _ _

theorem filterEnd_final {r : Filtered} (h : r.Reported) (out : Stream) : (filterEnd r out).Final := by
  unfold filterEnd
  split
  · rename_i he; exact h _ he
  · exact out.close_closed

theorem FilterStage.Final.good {p : FilterStage} (h : p.Final) : p.Good := by
  cases p with
  | running rest out => trivial
  | done out => exact h
  | failed e info u out => exact h

theorem FilterStage.start_good (s : State) : (FilterStage.start s).Good := by
  unfold FilterStage.start
  split
  · show Err.code .capacityExceeded ∈ reportedCodes; decide
  · trivial

theorem FilterStage.turn_good (s : State) {p : FilterStage} (h : p.Good) : (p.turn s).Good := by
  cases p with
  | done out => exact h
  | failed e info u out => exact h
  | running rest out =>
    cases rest with
    | nil => exact (filterEnd_final (filterJob_reported s) out).good
    | cons row rest =>
      simp only [FilterStage.turn]
      split
      · show Err.code .capacityExceeded ∈ reportedCodes; decide
      · trivial

theorem filterAll_final (s : State) (rows : List (FilterUnit × Bytes)) (out : Stream) : (filterAll s rows out).Final := by
  induction rows generalizing out with
  | nil => exact filterEnd_final (filterJob_reported s) out
  | cons row rest ih =>
    simp only [filterAll]
    split
    · show Err.code .capacityExceeded ∈ reportedCodes; decide
    · exact ih _

theorem FilterStage.drain_final (s : State) {p : FilterStage} (h : p.Good) : (p.drain s).Final := by
  cases p with
  | running rest out => exact filterAll_final s rest out
  | done out => exact h
  | failed e info u out => exact h

/-! ## The splitter -/

/-- The splitter's part keeps OUT in its size and `OUT_LEN` in its bound. -/
structure OutSide.Good (c : Config) (o : OutSide) : Prop where
  wf : o.outp.wf
  below : o.outp.below c.outCap
  len : o.outLen.toNat ≤ c.outCap

/-- The splitter holds less than a chunk while it runs (45_encode.md R782). -/
def SplitStage.Good (s : State) : SplitStage → Prop
  | .running _ held o => held.length < s.enc.maxIdat.toNat ∧ o.Good s.cfg
  | .done _ o => o.Good s.cfg
  | .failed e _ _ o => e.code ∈ reportedCodes ∧ o.Good s.cfg

/-- The splitter has ended. -/
def SplitStage.Ended : SplitStage → Prop
  | .running _ _ _ => False
  | .done _ _ => True
  | .failed _ _ _ _ => True

theorem OutSide.place_good {c : Config} {o o' : OutSide} {held : Bytes} (h : o.Good c)
    (hp : o.place c.outCap held = some o') : o'.Good c := by
  unfold OutSide.place at hp
  split at hp
  · cases hp
  rename_i hfit
  cases hp
  refine ⟨Memory.wf_writeBytes _ _ _ h.wf, Memory.below_writeBytes _ _ _ _ h.below (by omega), ?_⟩
  show (o.outLen + BitVec.ofNat 32 (chunkBytes typeIDAT held).length).toNat ≤ c.outCap
  rw [BitVec.toNat_add, BitVec.toNat_ofNat]
  have := Nat.mod_le (chunkBytes typeIDAT held).length (2 ^ 32)
  exact (Nat.mod_le _ _).trans (by omega)

theorem SplitStage.hold_good {s : State} {got : Nat} {held : Bytes} {o : OutSide} (hm : s.enc.maxIdat ≠ 0)
    (hl : held.length ≤ s.enc.maxIdat.toNat) (ho : o.Good s.cfg) : (SplitStage.hold s got held o).Good s := by
  have hpos : 0 < s.enc.maxIdat.toNat := Nat.pos_of_ne_zero fun h => hm (BitVec.eq_of_toNat_eq h)
  unfold SplitStage.hold
  split
  · split
    · rename_i hp; exact ⟨hpos, OutSide.place_good ho hp⟩
    · exact ⟨by decide, ho⟩
  · exact ⟨by omega, ho⟩

theorem SplitStage.last_good {s : State} {got : Nat} {held : Bytes} {o : OutSide} (ho : o.Good s.cfg) :
    (SplitStage.last s got held o).Good s := by
  unfold SplitStage.last
  split
  · split
    · rename_i hp; exact OutSide.place_good ho hp
    · exact ⟨by decide, ho⟩
  · exact ho

theorem SplitStage.last_ended (s : State) (got : Nat) (held : Bytes) (o : OutSide) : (SplitStage.last s got held o).Ended := by
  unfold SplitStage.last
  split
  · split <;> trivial
  · trivial

/-- What `hold` answers has read as far as it says. -/
theorem SplitStage.hold_got {s : State} {got k : Nat} {held h' : Bytes} {o o' : OutSide}
    (h : SplitStage.hold s got held o = .running k h' o') : k = got := by
  unfold SplitStage.hold at h
  split at h
  · split at h <;> cases h
    rfl
  · cases h; rfl

theorem SplitStage.turn_good {s : State} (hm : s.enc.maxIdat ≠ 0) (n : Nat) (defl : Stream) {p : SplitStage}
    (h : p.Good s) : (p.turn s n defl).Good s := by
  cases p with
  | done got o => exact h
  | failed e info got o => exact h
  | running got held o =>
    obtain ⟨hl, ho⟩ := h
    simp only [SplitStage.turn]
    split
    · split
      · exact SplitStage.last_good ho
      · exact ⟨hl, ho⟩
    · refine SplitStage.hold_good hm ?_ ho
      rw [List.length_append, List.length_take]
      omega

/-- A turn on closed DEFL ends the splitter, or reads a byte or more (45_encode.md R782). -/
theorem SplitStage.turn_progress {s : State} {defl : Stream} (hc : defl.closed = true) {got : Nat} {held : Bytes}
    {o : OutSide} (hl : held.length < s.enc.maxIdat.toNat) :
    ((SplitStage.running got held o).turn s s.enc.maxIdat.toNat defl).Ended ∨
      got < defl.readable.length ∧
        ∀ k h' o', (SplitStage.running got held o).turn s s.enc.maxIdat.toNat defl = .running k h' o' → got < k := by
  by_cases hd : defl.readable.drop got = []
  · left
    simp only [SplitStage.turn, hd, hc, if_true]
    exact SplitStage.last_ended s got held o
  · have hlt : got < defl.readable.length := by
      rw [← not_le]; exact fun hle => hd (List.drop_eq_nil_of_le hle)
    refine .inr ⟨hlt, fun k h' o' hk => ?_⟩
    simp only [SplitStage.turn, if_neg hd] at hk
    rw [SplitStage.hold_got hk, List.length_take, List.length_drop]
    omega

/-- With more turns than bytes left the splitter comes to its end. -/
theorem SplitStage.drain_final {s : State} (hm : s.enc.maxIdat ≠ 0) {defl : Stream} (hc : defl.closed = true) (fuel : Nat)
    {p : SplitStage} (h : p.Good s)
    (hf : ∀ got held o, p = .running got held o → defl.readable.length - got < fuel) :
    (p.drain s defl fuel).Good s ∧ (p.drain s defl fuel).Ended := by
  induction fuel generalizing p with
  | zero =>
    refine ⟨h, ?_⟩
    cases p with
    | running got held o => exact absurd (hf got held o rfl) (by omega)
    | done got o => trivial
    | failed e info got o => trivial
  | succ n ih =>
    refine ih (SplitStage.turn_good hm _ defl h) fun k h' o' hk => ?_
    cases p with
    | done got o => cases hk
    | failed e info got o => cases hk
    | running got held o =>
      have := hf got held o rfl
      obtain he | ⟨hlt, hp⟩ := SplitStage.turn_progress hc h.1
      · rw [hk] at he; exact he.elim
      · have := hp k h' o' hk; omega

/-! ## The three stages -/

/-- Every stage of a pipelined ENCODE as it should be. -/
structure EncPipe.Good (s : State) (p : EncPipe) : Prop where
  filter : p.filter.Good
  deflater : p.deflater.Good
  splitter : p.splitter.Good s

theorem EncPipe.turn_good {s : State} (hm : s.enc.maxIdat ≠ 0) {p : EncPipe} (h : p.Good s) (t : StageTurn) :
    (p.turn s t).Good s := by
  cases t with
  | first => exact ⟨FilterStage.turn_good s h.filter, h.deflater, h.splitter⟩
  | second n => exact ⟨h.filter, MidJob.turn_good (deflateJob_reported s) n _ h.deflater, h.splitter⟩
  | third n => exact ⟨h.filter, h.deflater, SplitStage.turn_good hm n _ h.splitter⟩

theorem EncPipe.foldl_good {s : State} (hm : s.enc.maxIdat ≠ 0) (turns : List StageTurn) {p : EncPipe} (h : p.Good s) :
    (turns.foldl (EncPipe.turn s) p).Good s := by
  induction turns generalizing p with
  | nil => exact h
  | cons t rest ih => exact ih (EncPipe.turn_good hm h t)

theorem EncPipe.start_good {s : State} (hm : s.enc.maxIdat ≠ 0) {Z : Streams → DecRegs → Prop} (hs : Sound Z s) :
    (EncPipe.start s).Good s := by
  refine ⟨FilterStage.start_good s, trivial, ?_, (hs.1 .outp).1, (hs.1 .outp).2, hs.2.1⟩
  exact Nat.pos_of_ne_zero fun h => hm (BitVec.eq_of_toNat_eq h)

theorem MidStage.Final.view_closed {m : MidStage} (h : m.Final) : m.view.closed = true := by
  cases m with
  | reading got => exact h.elim
  | writing rest out => exact h.elim
  | done out => exact h
  | failed e info out => exact out.close_closed

/-- The stages of a pipelined ENCODE after the drain. -/
theorem EncPipe.drain_final {s : State} (hm : s.enc.maxIdat ≠ 0) {p : EncPipe} (h : p.Good s) :
    (p.drain s).filter.Final ∧ (p.drain s).deflater.Final ∧ (p.drain s).splitter.Good s ∧ (p.drain s).splitter.Ended := by
  have hd := MidJob.drain_final (deflateJob_reported s) (p.filter.drain s).view h.deflater
  exact ⟨FilterStage.drain_final s h.filter, hd,
    SplitStage.drain_final hm hd.view_closed _ h.splitter fun got _ _ _ => by show _ - got < _ + 1; omega⟩

theorem commitFilter_carries {p : FilterStage} (h : p.Final) :
    Cmd.Encodes (encoding false false) (commitFilter p) (encoding true false) := by
  refine Cmd.Triple.of_meets fun s hs => ?_
  cases p with
  | running rest out => exact h.elim
  | done out => exact ⟨hs.1, hs.2.1, hs.2.2.1, h, hs.2.2.2.2⟩
  | failed e info u out => exact ⟨h, hs.1, hs.2.1, hs.2.2.1.2.2⟩

theorem commitDeflater_carries {m : MidStage} (h : m.Final) :
    Cmd.Encodes (encoding true false) (commitDeflater m) (encoding true true) := by
  refine readFilt_carries.andThen (Cmd.Triple.of_meets fun s hs => ?_)
  cases m with
  | reading got => exact h.elim
  | writing rest out => exact h.elim
  | done out => exact ⟨hs.1, hs.2.1, hs.2.2.1, hs.2.2.2.1, h⟩
  | failed e info out => exact hs.failed h encoding.palette

/-- OUT as the splitter leaves it. -/
theorem withOutSide_sound {s : State} {o : OutSide} (hs : Sound (encoding true true) s) (ho : o.Good s.cfg) (n : Nat) :
    Sound (encoding true true) ((s.setStream .defl (s.str.defl.advance n)).withOutSide o) :=
  ⟨Spaces.ok_set hs.1 .outp ho.wf ho.below, ho.len, hs.2.2⟩

theorem commitSplitter_meets {a s : State} {p : SplitStage} (hc : s.cfg = a.cfg) (hs : Sound (encoding true true) s)
    (h : p.Good a) (he : p.Ended) :
    (commitSplitter p s).Meets (fun _ => Sound (encoding true true)) (Failed paletteOk) := by
  cases p with
  | running got held o => exact he.elim
  | done got o => exact withOutSide_sound hs (hc ▸ h) got
  | failed e info got o => exact (withOutSide_sound hs (hc ▸ h.2) got).failed h.1 encoding.palette

/-- A piece that changes no more than registers keeps the parameters. -/
theorem Cmd.Triple.keepsCfg {α : Type} {P : State → Prop} {m : Cmd α} {Q : α → State → Prop} {R : Err → State → Prop}
    {L : Bool → List Reg} (h : Cmd.Triple P m Q R) (hf : Cmd.Frames L m) (c : Config) :
    Cmd.Triple (fun t => P t ∧ t.cfg = c) m (fun a t => Q a t ∧ t.cfg = c) R := by
  refine Cmd.Triple.of_meets fun s hs => ?_
  have hm := h.meets hs.1
  have hr := hf s
  cases hrun : m s with
  | ok a t => rw [hrun] at hm hr; exact ⟨hm, hr.cfg.trans hs.2⟩
  | raised e info t => rw [hrun] at hm; exact hm
  | stuck x => rw [hrun] at hm; exact hm
  | refuse x => rw [hrun] at hm; exact hm

/-- The three stages of a pipelined ENCODE (45_encode.md R804, R805). -/
theorem pipelinedStages_carries : Cmd.Encodes (encoding false false) pipelinedStages (encoding true true) := by
  refine Cmd.Triple.of_meets fun s hs => ?_
  unfold pipelinedStages
  split
  · rfl
  rename_i hm
  obtain ⟨hf, hd, hg, he⟩ := EncPipe.drain_final hm (EncPipe.foldl_good hm s.turns (EncPipe.start_good hm hs))
  refine Cmd.Triple.meets (Cmd.Triple.andThen ((commitFilter_carries hf).keepsCfg (commitFilter_frames _) s.cfg) fun _ => ?_)
    ⟨hs, rfl⟩
  refine Cmd.Triple.andThen ((commitDeflater_carries hd).keepsCfg (commitDeflater_frames _) s.cfg) fun _ => ?_
  exact Cmd.Triple.of_meets fun t ht => commitSplitter_meets ht.2 ht.1 hg he

end Sys2Proof.Machine
end

section
/-! SUPPORT. Every command keeps the invariant, or is refused, and never waits; and so does every host access and reset. -/

namespace Sys2Proof.Machine

/-! ## Commands -/

/-- What an error of the command leaves of the decoder's registers (60_exceptions.md R930). -/
def Family.leavesDec (fam : Family) (d : DecRegs) : Prop := fam = .decode ∨ paletteOk d

/-- A decode command that goes from one state of the sequencer to another. -/
theorem Cmd.Decodes.ready {α : Type} {m : Cmd α} {Z : Streams → DecRegs → Prop} (v : DecState) (closed : Streams → Prop)
    (h : Cmd.Decodes Z m (decodedTo v closed)) (hc : v = .chunks → ∀ str, closed str → str.stage.closed = true)
    (hi : v = .inflated → ∀ str, closed str → str.infl.closed = true) : Cmd.Decodes Z m decodeReady := by
  refine h.conseq (fun _ _ h => h) (fun str d hd => ?_) fun _ => id
  obtain ⟨⟨hcl, hb⟩, rfl⟩ := hd
  exact ⟨fun hs => hc hs str hcl, fun hs => hi hs str hcl, fun _ => hb⟩

/-- `require DEC_STATE = v`, and the step that may follow (44_decode.md R709). -/
theorem requireThen_carries {v w : DecState} {m : Cmd Unit} {closed closed' : Streams → Prop}
    (hv : ∀ str d, decodeReady str d ∧ d.state = v → closed str ∧ paletteBound d)
    (h : Cmd.Decodes (fun str d => closed str ∧ paletteBound d) m (decodedTo w closed')) :
    Cmd.Decodes decodeReady ((requireDecState v).andThen m) (decodedTo w closed') :=
  (requireDecState_carries anyDec v).andThen (h.conseq hv (fun _ _ h => h) fun _ h => h)

theorem filterLeaves_freesDec (s : State) (n : Nat) : ∀ it ∈ filterLeaves s n, it.freesDec = false := by
  simp [filterLeaves, Item.freesDec]

theorem clearState_sound {Z : Streams → DecRegs → Prop} {s : State} (h : Sound Z s) : Sound decodeReady (clearState s) :=
  ⟨h.1, h.2.1, nofun, nofun, fun _ => ⟨Nat.zero_le _, Nat.zero_le _⟩⟩

/-- A command of neither sequencer leaves the decode sequencer ready, however it ends. -/
theorem body_carries_other {i : Instr} (hi : Instr.family i = .other) (s : State) :
    Cmd.Carries paletteOk decodeReady (Instr.body s i) decodeReady := by
  have hZ := decodeReady.palette
  cases i with
  | nop => exact Cmd.Carries.ret ()
  | clear => exact Cmd.Carries.update fun _ => clearState_sound
  | crcCalc => exact (crcOperand_examines.carries hZ).bind fun _ => Cmd.Carries.update fun _ h => h
  | crcUpd => exact (crcOperand_examines.carries hZ).bind fun _ => Cmd.Carries.update fun _ h => h
  | crcUpd32 => exact Cmd.Carries.update fun _ h => h
  | sigCheck => exact checkSignature_carries hZ
  | sigWrite => exact outWrite_carries hZ _
  | chunkRead =>
    refine Cmd.Carries.bind (Z₁ := decodeReady) ?_ fun _ => Cmd.Carries.ret ()
    exact Cmd.Triple.onRaise (readChunk_carries hZ .dbuf) fun _ _ h => leaveChunkData_failed _ h
  | chunkVerify => exact (chunkData_examines.carries hZ).bind fun _ => checkCrc_carries hZ _ _ _
  | chunkSetcrc =>
    refine (chunkData_examines.carries hZ).bind fun _ => ?_
    exact Cmd.Carries.updateThen (fun _ h => h) (Cmd.Carries.update fun _ h => h)
  | chunkWrite =>
    refine Cmd.Carries.bind (Z₁ := decodeReady) ?_ fun _ => outWrite_carries hZ _
    exact (chunkData_examines.carries hZ).leaving (keepsDec_of_freesDec (by simp [Item.freesDec]))
  | unfilter =>
    refine Cmd.Carries.leaving ?_ (keepsDec_of_freesDec (by decide))
    refine (checkFormat_examines.carries hZ).andThen ((checkRawRange_examines.carries hZ).andThen ?_)
    refine Cmd.Carries.updateThen (fun _ h => h) (Cmd.Carries.bind ?_ fun _ => storeRaw_carries hZ _)
    exact unfilterIn_carries hZ fun u inp => unfilterImage_reported _ _ _ _ u inp
  | filter =>
    have checks : Cmd.Examines (checkFormat.andThen <| checkLevel.andThen <| checkRawRange.andThen <|
        memRead .raw 0 s.img.rawBytes) :=
      checkFormat_examines.andThen <| checkLevel_examines.andThen <| checkRawRange_examines.andThen <| memRead_examines _ _ _
    refine Cmd.Carries.bind (Z₁ := decodeReady) ?_ fun src => ?_
    · exact (checks.carries hZ).leaving (keepsDec_of_freesDec (filterLeaves_freesDec s _))
    · exact emitOut_carries hZ (filterLeaves_freesDec s _) fun u => filterImage_reported _ _ _ _ _ _ u
  | deinterlace =>
    refine Cmd.Carries.leaving ?_ (keepsDec_of_freesDec (by decide))
    refine (checkFormat_examines.carries hZ).andThen ((checkInterlace_examines.carries hZ).andThen ?_)
    refine (checkRawRange_examines.carries hZ).andThen (Cmd.Carries.updateThen (fun _ h => h) ?_)
    exact (unfilterIn_carries hZ (deinterlacer_reported s)).bind fun _ => storeRaw_carries hZ _
  | interlace =>
    have checks : Cmd.Examines (checkFormat.andThen <| checkInterlace.andThen <| checkLevel.andThen <|
        checkRawRange.andThen <| memRead .raw 0 s.img.rawBytes) :=
      checkFormat_examines.andThen <| checkInterlace_examines.andThen <| checkLevel_examines.andThen <|
      checkRawRange_examines.andThen <| memRead_examines _ _ _
    refine Cmd.Carries.bind (Z₁ := decodeReady) ?_ fun src => ?_
    · exact (checks.carries hZ).leaving (keepsDec_of_freesDec (filterLeaves_freesDec s _))
    · exact emitOut_carries hZ (filterLeaves_freesDec s _) (interlacer_reported s src)
  | _ => cases hi

/-- An encode command leaves the decode sequencer ready, however it ends. -/
theorem body_carries_encode {i : Instr} (hi : Instr.family i = .encode) (s : State) :
    Cmd.Carries paletteOk decodeReady (Instr.body s i) decodeReady := by
  have hZ := decodeReady.palette
  have staged {v : EncState} {m : Cmd Unit} (h : Cmd.Encodes decodeReady m decodeReady) :
      Cmd.Encodes decodeReady ((requireEncState v).andThen (requireSameConfig.andThen m)) decodeReady :=
    ((requireEncState_examines v).carries hZ).andThen (requireSameConfig_carries.andThen h)
  cases i with
  | encValidate => exact encValidate_carries hZ
  | encHeader => exact staged (encHeader_carries hZ)
  | encData => exact staged ((encDataWith_carries dataStages_carries).leaving dataLeaves_keepsDec)
  | encTrailer => exact staged (encTrailer_carries hZ)
  | encode pipe =>
    refine encodeWith_carries ?_
    cases pipe
    · exact dataStages_carries
    · exact pipelinedStages_carries
  | _ => cases hi

/-- A decode command that succeeds leaves the decode sequencer ready. -/
theorem body_carries_decode {i : Instr} (hi : Instr.family i = .decode) (s : State) :
    Cmd.Decodes decodeReady (Instr.body s i) decodeReady := by
  have bound {v : DecState} (hv : v ≠ .failed) : ∀ str d, decodeReady str d ∧ d.state = v → noneClosed str ∧ paletteBound d := by
    rintro str d ⟨hd, rfl⟩; exact ⟨trivial, hd.2.2 hv⟩
  cases i with
  | decHeader =>
    refine Cmd.Decodes.ready .header noneClosed (Cmd.Carries.leaving ?_ keepsAnyDec) nofun nofun
    exact decStart_carries.andThen <|
      decHeader_carries.conseq (fun _ _ h => h) (fun _ _ h => ⟨⟨trivial, h.1.2⟩, h.2⟩) fun _ h => h
  | decChunks =>
    refine Cmd.Decodes.ready .chunks stageClosed (requireThen_carries (bound (by decide)) ?_) (fun _ _ h => h) nofun
    exact Cmd.Triple.onRaise decChunks_carries fun _ _ h => Failed.unspecified h _
  | decInflate =>
    refine Cmd.Decodes.ready .inflated inflClosed (requireThen_carries (closed := stageClosed) ?_ decInflate_carries) nofun
      fun _ _ h => h
    exact fun str d h => ⟨h.1.1 h.2, (bound (by decide) str d h).2⟩
  | decPixels =>
    refine Cmd.Decodes.ready .pixels inflClosed (requireThen_carries (closed := inflClosed) ?_ decPixels_carries) nofun nofun
    exact fun str d h => ⟨h.1.2.1 h.2, (bound (by decide) str d h).2⟩
  | decExpand =>
    exact Cmd.Decodes.ready .expanded noneClosed (requireThen_carries (bound (by decide)) decExpand_carries) nofun nofun
  | decode pipe =>
    refine Cmd.Decodes.ready .expanded noneClosed (decodeWith_carries ?_) nofun nofun
    cases pipe
    · exact decSequential_carries
    · exact decPipelined_carries
  | _ => cases hi

/-- A command's pseudocode, from a state of the invariant. -/
theorem body_carries (i : Instr) (s : State) :
    Cmd.Carries (Instr.family i).leavesDec decodeReady (Instr.body s i) decodeReady := by
  cases hf : Instr.family i with
  | decode => exact (body_carries_decode hf s).conseq (fun _ _ h => h) (fun _ _ h => h) fun _ _ => .inl rfl
  | encode => exact (body_carries_encode hf s).conseq (fun _ _ h => h) (fun _ _ h => h) fun _ => .inr
  | other => exact (body_carries_other hf s).conseq (fun _ _ h => h) (fun _ _ h => h) fun _ => .inr

/-! ## The invariant after a command -/

theorem decodeOk_iff (s : State) : DecodeOk s ↔ decodeReady s.str s.dec :=
  ⟨fun h => ⟨h.stage, h.infl, h.palette⟩, fun h => ⟨h.1, h.2.1, h.2.2⟩⟩

theorem Inv.sound {s : State} (h : Inv s) : Sound decodeReady s := ⟨h.spaces, h.lengths.2, (decodeOk_iff s).1 h.decode⟩

theorem closeAll_closed (t : Streams) : t.closeAll.stage.closed = true ∧ t.closeAll.infl.closed = true :=
  ⟨t.stage.close_closed, t.infl.close_closed⟩

/-- The registers that no command's pseudocode writes (30_encoding.md R306). -/
theorem frame_kept {i : Instr} {s t : State} (h : Frame (fun en => resultRegs en i) s t) :
    t.cmd = s.cmd ∧ t.errCode = s.errCode ∧ t.errInfo = s.errInfo ∧ t.cnt.inLen = s.cnt.inLen := by
  have kept (r : Reg) (hr : r ∈ controlRegs) (hs : r ≠ .status) : t.readReg r = s.readReg r :=
    h.regs r (control_not_result _ i r hr) hs
  refine ⟨kept .cmd (by decide) (by decide), ?_, kept .errinfo (by decide) (by decide), kept .inLen (by decide) (by decide)⟩
  have he : t.errCode.setWidth 32 = s.errCode.setWidth 32 := kept .errcode (by decide) (by decide)
  have := congrArg BitVec.toNat he
  simp only [BitVec.toNat_setWidth] at this
  apply BitVec.eq_of_toNat_eq
  omega

/-- Completion gives a state of the invariant (60_exceptions.md R931). -/
theorem inv_finish {i : Instr} {s t : State} (h : Inv s) (hb : s.status.busy = true)
    (hf : Frame (fun en => resultRegs en i) s t) (ht : Sound decodeReady t) : Inv (finish t) := by
  obtain ⟨hcmd, hcode, hinfo, hin⟩ := frame_kept hf
  obtain ⟨hdone, herr, hc0, hi0⟩ := h.status.busy hb
  refine ⟨hf.cfg ▸ h.cfg, ht.1, ⟨?_, ht.2.1⟩, ?_, (decodeOk_iff _).2 ht.2.2⟩
  · show t.cnt.inLen.toNat ≤ t.cfg.inCap
    rw [hin, hf.cfg]; exact h.lengths.1
  · have hst := hf.status
    refine ⟨nofun, fun _ => rfl, nofun, fun hx => ?_, fun _ => ⟨hcode.trans hc0, hinfo.trans hi0⟩, ?_, ?_, fun _ => rfl⟩
    · have : t.status.err = true := hx.2
      rw [hst, herr] at this
      cases this
    · show t.status.op = opcodeOf t.cmd
      rw [hst, hcmd]; exact h.status.op
    · show t.errCode ∈ reportedCodes
      rw [hcode]; exact h.status.code

/-- Error entry gives a state of the invariant (60_exceptions.md R930). -/
theorem inv_errorEntry {fam : Family} {e : Err} {info : Word} {s t : State} (h : Inv s) (hb : s.status.busy = true)
    (hcfg : t.cfg = s.cfg) (hst : t.status = { s.status with cmdLost := t.status.cmdLost }) (hcmd : t.cmd = s.cmd)
    (hin : t.cnt.inLen = s.cnt.inLen) (ht : Failed fam.leavesDec e t) : Inv (errorEntry fam e info t) := by
  obtain ⟨hcode, hm, ho, hd⟩ := ht
  refine ⟨hcfg ▸ h.cfg, hm, ⟨?_, ho⟩, ?_, (decodeOk_iff _).2 ⟨fun _ => ?_, fun _ => ?_, fun hs => ?_⟩⟩
  · show t.cnt.inLen.toNat ≤ t.cfg.inCap
    rw [hin, hcfg]; exact h.lengths.1
  · have hdone : t.status.done = false := by rw [hst]; exact (h.status.busy hb).1
    refine ⟨nofun, fun _ => rfl, nofun, fun hx => ?_, fun hx => ?_, ?_, hcode, fun _ => rfl⟩
    · have : t.status.done = true := hx.1
      rw [hdone] at this; cases this
    · have : t.status.done = true := hx
      rw [hdone] at this; cases this
    · show t.status.op = opcodeOf t.cmd
      rw [hst, hcmd]; exact h.status.op
  · exact (closeAll_closed t.str).1
  · exact (closeAll_closed t.str).2
  · obtain rfl | hp := hd
    · exact absurd rfl hs
    · by_cases hfam : fam = .decode
      · subst hfam; exact absurd rfl hs
      · refine hp fun hfail => hs ?_
        show (if fam = .decode then _ else t.dec.state) = _
        rw [if_neg hfam]; exact hfail

/-- A command from a state of the invariant ends in one, the block idle with `DONE` or `ERR` set; or the model refuses it
(70_reset_and_hazards.md R1023); it never waits for ever (60_exceptions.md R952). -/
theorem exec_inv (i : Instr) {s : State} (h : Inv s) (hb : s.status.busy = true) :
    (∃ t, exec i s = .next t ∧ Inv t ∧ t.status.busy = false ∧ (t.status.done = true ∨ t.status.err = true)) ∨
      exec i s = .refused .encodeConfigChanged := by
  have hm := (body_carries i s).meets h.sound
  have hf := body_frames i s s
  rw [exec_eq_runCommand, runCommand]
  cases hrun : Instr.body s i s with
  | ok a t =>
    rw [hrun] at hm hf
    exact .inl ⟨_, rfl, inv_finish h hb hf hm, rfl, .inl rfl⟩
  | raised e info t =>
    rw [hrun] at hm hf
    obtain ⟨hcmd, -, -, hin⟩ := frame_kept hf
    exact .inl ⟨_, rfl, inv_errorEntry h hb hf.cfg hf.status hcmd hin hm, rfl, .inr rfl⟩
  | stuck x => rw [hrun] at hm; exact hm.elim
  | refuse x => rw [hrun] at hm; exact .inr (congrArg _ hm)

/-! ## The invariant after a host event -/

/-- All that the invariant speaks of. -/
def State.invView (s : State) :
    Config × Spaces × Word × Word × Status × Word × Byte × Word × Bool × Streams × DecRegs :=
  (s.cfg, s.mem, s.cnt.inLen, s.cnt.outLen, s.status, s.cmd, s.errCode, s.errInfo, s.inReset, s.str, s.dec)

/-- A change of what the invariant does not speak of. -/
theorem Inv.of_view {s t : State} (h : Inv s) (e : t.invView = s.invView) : Inv t := by
  simp only [State.invView, Prod.mk.injEq] at e
  obtain ⟨hcfg, hmem, hin, hout, hst, hcmd, hcode, hinfo, hreset, hstr, hdec⟩ := e
  refine ⟨hcfg ▸ h.cfg, hmem ▸ hcfg ▸ h.spaces, ?_, ?_, (decodeOk_iff _).2 (hstr ▸ hdec ▸ (decodeOk_iff _).1 h.decode)⟩
  · unfold State.lengthsOk; rw [hin, hout, hcfg]; exact h.lengths
  · obtain ⟨h1, h2, h3, h4, h5, h6, h7, h8⟩ := h.status
    constructor <;> simp only [hst, hcmd, hcode, hinfo, hreset] <;> assumption

/-- The state of reset, the spaces as given (70_reset_and_hazards.md R1000). -/
theorem inv_resetWith {c : Config} (hc : c.wf = true) {m : Spaces} (hm : m.ok c) : Inv (State.resetWith c m) where
  cfg := hc
  spaces := hm
  lengths := ⟨Nat.zero_le _, Nat.zero_le _⟩
  status := by
    have hop : (0 : Byte) = opcodeOf 0 := by decide
    have hcode : (0 : Byte) ∈ reportedCodes := by decide
    exact ⟨nofun, fun _ => rfl, nofun, nofun, nofun, hop, hcode, nofun⟩
  decode := ⟨nofun, nofun, fun _ => ⟨Nat.zero_le _, Nat.zero_le _⟩⟩

theorem Spaces.ok_normal (c : Config) (m : Spaces) : (Spaces.normal c m).ok c := by
  intro sp
  cases sp <;> exact Memory.wf_ofCells _ _

theorem inv_assertReset {s : State} (h : Inv s) : Inv s.assertReset := by
  obtain ⟨hcfg, hspaces, hlengths, hstatus, hdecode⟩ := inv_resetWith h.cfg h.spaces
  refine ⟨hcfg, hspaces, hlengths, ?_, ⟨hdecode.stage, hdecode.infl, hdecode.palette⟩⟩
  exact ⟨hstatus.busy, hstatus.idle, hstatus.running, hstatus.exclusive, hstatus.success, hstatus.op, hstatus.code,
    fun _ => rfl⟩

theorem inv_releaseReset {s : State} (h : Inv s) (contents : Spaces) : Inv (s.releaseReset contents) := by
  unfold State.releaseReset
  split
  · exact (inv_resetWith h.cfg (Spaces.ok_normal s.cfg contents)).of_view rfl
  · exact h

/-- W1C clears status bits and sets none (10_state.md R107). -/
theorem inv_w1c {s : State} (h : Inv s) (v : Word) : Inv { s with status := s.status.w1c v } := by
  obtain ⟨hbusy, hidle, hrunning, hexcl, hsuccess, hop, hcode, hreset⟩ := h.status
  refine ⟨h.cfg, h.spaces, h.lengths, ⟨fun hb => ?_, hidle, hrunning, fun hx => ?_, fun hx => ?_, hop, hcode, hreset⟩,
    h.decode.stage, h.decode.infl, h.decode.palette⟩
  · obtain ⟨hd, he, hrest⟩ := hbusy hb
    exact ⟨by simp [Status.w1c, hd], by simp [Status.w1c, he], hrest⟩
  · simp only [Status.w1c, Bool.and_eq_true] at hx
    exact hexcl ⟨hx.1.1, hx.2.1⟩
  · simp only [Status.w1c, Bool.and_eq_true] at hx
    exact hsuccess hx.1

/-- A WARL register keeps the lesser of the value and the bound (10_state.md R126, R128). -/
theorem toNat_warl_le (v : Word) (cap : Nat) : (BitVec.ofNat 32 (min v.toNat cap)).toNat ≤ cap := by
  rw [BitVec.toNat_ofNat]
  exact (Nat.mod_le _ _).trans (Nat.min_le_right _ _)

theorem inv_setLengths {s : State} (h : Inv s) {i o : Word} (hi : i.toNat ≤ s.cfg.inCap) (ho : o.toNat ≤ s.cfg.outCap) :
    Inv { s with cnt.inLen := i, cnt.outLen := o } := by
  obtain ⟨hbusy, hidle, hrunning, hexcl, hsuccess, hop, hcode, hreset⟩ := h.status
  exact ⟨h.cfg, h.spaces, ⟨hi, ho⟩, ⟨hbusy, hidle, hrunning, hexcl, hsuccess, hop, hcode, hreset⟩,
    h.decode.stage, h.decode.infl, h.decode.palette⟩

theorem inv_storeReg {s : State} (h : Inv s) (r : Reg) (v : Word) : Inv (s.storeReg r v) := by
  cases r
  case status => exact inv_w1c h v
  case inLen => exact inv_setLengths h (toNat_warl_le v _) h.lengths.2
  case outLen => exact inv_setLengths h h.lengths.1 (toNat_warl_le v _)
  all_goals exact h.of_view rfl

theorem inv_writeReg {s : State} (h : Inv s) (r : Reg) (v : Word) : Inv (s.writeReg r v) := by
  obtain hw | hw := writeReg_cases s r v <;> rw [hw]
  · exact inv_storeReg h r v
  · exact (inv_storeReg h r v).of_view rfl

/-- Acceptance of a command word (10_state.md R108). -/
theorem inv_accept {s : State} (h : Inv s) (hr : s.inReset = false) (w : Word) : Inv (s.accept w) := by
  refine ⟨h.cfg, h.spaces, h.lengths, ⟨fun _ => ⟨rfl, rfl, rfl, rfl⟩, nofun, fun _ => rfl, nofun, nofun, rfl, ?_, ?_⟩,
    h.decode.stage, h.decode.infl, h.decode.palette⟩
  · show (0 : Byte) ∈ reportedCodes; decide
  · intro hx
    rw [State.accept_inReset, hr] at hx
    cases hx

theorem inv_writeCmd {s : State} (h : Inv s) (hr : s.inReset = false) (w : Word) : Inv (s.writeCmd w) := by
  unfold State.writeCmd
  split
  · obtain ⟨hbusy, hidle, hrunning, hexcl, hsuccess, hop, hcode, hreset⟩ := h.status
    exact ⟨h.cfg, h.spaces, h.lengths, ⟨hbusy, hidle, hrunning, hexcl, hsuccess, hop, hcode, hreset⟩,
      h.decode.stage, h.decode.infl, h.decode.palette⟩
  · exact inv_accept h hr w

theorem inv_windowWrite {s : State} (h : Inv s) (hr : s.inReset = false) (off : Nat) (v : Word) :
    Inv (s.windowWrite off v) := by
  unfold State.windowWrite
  split
  · unfold State.hostWrite
    split
    · exact inv_writeCmd h hr v
    split
    · exact inv_writeReg h _ v
    · exact h
  · exact h

theorem inv_returned {s : State} (h : Inv s) (v : Word × Nat) : Inv (s.returned v) := h.of_view rfl

theorem inv_windowRead {s : State} (h : Inv s) (off : Nat) : Inv (s.windowRead off) := by
  unfold State.windowRead
  split <;> exact inv_returned h _

/-- The outcome's next state, if it has one, meets the invariant. -/
def Keeps (o : Host.Outcome State Fault Refusal) : Prop := ∀ t, o = .next t → Inv t

theorem keeps_next {t : State} (h : Inv t) : Keeps (.next t) := by rintro u ⟨⟩; exact h

theorem keeps_refused (r : Refusal) : Keeps (.refused r) := by intro t ht; cases ht

theorem keeps_regWrite {s : State} (h : Inv s) (hr : s.inReset = false) (w : AccessWidth) (off : Nat) (v : Word) :
    Keeps (s.regWrite w off v) := by
  unfold State.regWrite
  split
  · exact keeps_refused _
  split
  · exact keeps_refused _
  · exact keeps_next (inv_windowWrite h hr off v)

theorem keeps_regRead {s : State} (h : Inv s) (w : AccessWidth) (off : Nat) : Keeps (s.regRead w off) := by
  unfold State.regRead
  split
  · exact keeps_refused _
  split
  · exact keeps_refused _
  · exact keeps_next (inv_windowRead h off)

theorem keeps_spaceWrite {s : State} (h : Inv s) (sp : Space) (off : Nat) (v : Byte) : Keeps (s.spaceWrite sp off v) := by
  unfold State.spaceWrite
  split
  · exact keeps_refused _
  split
  · exact keeps_refused _
  rename_i ho _
  obtain ⟨hbusy, hidle, hrunning, hexcl, hsuccess, hop, hcode, hreset⟩ := h.status
  refine keeps_next ⟨h.cfg, ?_, h.lengths, ⟨hbusy, hidle, hrunning, hexcl, hsuccess, hop, hcode, hreset⟩,
    h.decode.stage, h.decode.infl, h.decode.palette⟩
  obtain ⟨hwf, hbelow⟩ := h.spaces sp
  exact Spaces.ok_set h.spaces sp (Memory.wf_write _ _ _ hwf) (Memory.below_write _ _ _ _ hbelow (by omega))

theorem keeps_spaceRead {s : State} (h : Inv s) (sp : Space) (off : Nat) : Keeps (s.spaceRead sp off) := by
  unfold State.spaceRead
  split
  · exact keeps_refused _
  split <;> exact keeps_next (inv_returned h _)

theorem keeps_busWrite {s : State} (h : Inv s) (hr : s.inReset = false) (w : AccessWidth) (addr : Nat) (v : Word) :
    Keeps (s.busWrite w addr v) := by
  unfold State.busWrite
  split
  · exact keeps_regWrite h hr _ _ _
  · exact keeps_spaceWrite h _ _ _
  · exact keeps_refused _

theorem keeps_busRead {s : State} (h : Inv s) (w : AccessWidth) (addr : Nat) : Keeps (s.busRead w addr) := by
  unfold State.busRead
  split
  · exact keeps_regRead h _ _
  · exact keeps_spaceRead h _ _
  · exact keeps_refused _

/-! ## The invariant after a step -/

theorem keeps_runEngine {s : State} (h : Inv s) (turns : List StageTurn) : Keeps (runEngine turns s) := by
  unfold runEngine
  split
  · exact keeps_next h
  rename_i hb
  have hbusy : s.status.busy = true := by revert hb; cases s.status.busy <;> simp
  split
  · refine keeps_next (inv_errorEntry h hbusy rfl rfl rfl rfl ⟨by decide, h.sound.imp fun _ _ hd => ?_⟩)
    exact .inr (decodeReady.palette _ _ hd)
  · rename_i i _
    have ht : Inv { s with turns := turns } := h.of_view rfl
    obtain ⟨t, hx, hinv, -⟩ | hx := exec_inv i ht hbusy <;> rw [hx]
    · exact keeps_next hinv
    · exact keeps_refused _

theorem keeps_handleEvent {s : State} (h : Inv s) (e : HostEvent) : Keeps (handleEvent e s) := by
  cases hr : s.inReset with
  | true =>
    have hread : Inv s.readUnaccepted := inv_returned h _
    cases e <;> simp only [handleEvent, hr, if_true]
    case engine turns => exact keeps_runEngine h turns
    case resetAssert => exact keeps_next (inv_assertReset h)
    case resetRelease contents => exact keeps_next (inv_releaseReset h contents)
    case regRead | spaceRead | busRead => exact keeps_next hread
    all_goals exact keeps_next h
  | false =>
    cases e <;> simp only [handleEvent, hr, Bool.false_eq_true, if_false]
    case engine turns => exact keeps_runEngine h turns
    case resetAssert => exact keeps_next (inv_assertReset h)
    case resetRelease contents => exact keeps_next (inv_releaseReset h contents)
    case regWrite w off v => exact keeps_regWrite h hr w off v
    case regRead w off => exact keeps_regRead h w off
    case spaceWrite sp off v => exact keeps_spaceWrite h sp off v
    case spaceRead sp off => exact keeps_spaceRead h sp off
    case busWrite w addr v => exact keeps_busWrite h hr w addr v
    case busRead w addr => exact keeps_busRead h w addr

/-- Settles O58: a step is an event or the engine's turn; each event keeps the invariant, and a command does by what its
pseudocode leaves (`body_frames`) and carries (`body_carries`). -/
theorem invariantKept : Obligations.InvariantKept := by
  unfold Obligations.InvariantKept
  intro s t h ht
  cases hi : s.port.inbox with
  | nil => rw [step_nil hi] at ht; exact keeps_runEngine h [] t ht
  | cons e rest =>
    rw [step_cons hi] at ht
    exact keeps_handleEvent (s := s.withInbox rest) (h.of_view rfl) e t ht

end Sys2Proof.Machine
end

section
/-! SUPPORT. An internal stream as its bytes: while its producer flushes what it writes, a stream is determined by the bytes
written, and so is what its consumer may have seen (20_memory.md R212-R219). -/

namespace Sys2Proof.Machine

/-- The open stream whose producer has written and flushed `b`, and whose consumer has read nothing (20_memory.md R214). -/
def Stream.flushed (b : Bytes) : Stream := { readable := b, rpos := 0, staged := [], closed := false, total := b.length }

theorem Stream.fresh_eq_flushed : Stream.fresh = .flushed [] := rfl

@[simp] theorem Stream.flushed_readable (b : Bytes) : (Stream.flushed b).readable = b := rfl

@[simp] theorem Stream.flushed_closed (b : Bytes) : (Stream.flushed b).closed = false := rfl

@[simp] theorem Stream.flushed_total (b : Bytes) : (Stream.flushed b).total = b.length := rfl

@[simp] theorem Stream.flushed_unread (b : Bytes) : (Stream.flushed b).unread = b := rfl

@[simp] theorem Stream.flushed_write_flush (b v : Bytes) : ((Stream.flushed b).write v).flush = .flushed (b ++ v) := by
  simp [Stream.flushed, Stream.write, Stream.flush]

/-- Closed, it is the stream that the statements speak of. -/
@[simp] theorem Stream.flushed_close (b : Bytes) : (Stream.flushed b).close = .holding b 0 := by
  simp [Stream.flushed, Stream.holding, Stream.flush, Stream.close]

@[simp] theorem Stream.flushed_write_close (b v : Bytes) : ((Stream.flushed b).write v).close = .holding (b ++ v) 0 := by
  simp [Stream.flushed, Stream.holding, Stream.write, Stream.flush, Stream.close]

@[simp] theorem Stream.holding_readable (b : Bytes) (n : Nat) : (Stream.holding b n).readable = b := rfl

@[simp] theorem Stream.holding_closed (b : Bytes) (n : Nat) : (Stream.holding b n).closed = true := rfl

@[simp] theorem Stream.holding_total (b : Bytes) (n : Nat) : (Stream.holding b n).total = b.length := rfl

@[simp] theorem Stream.holding_unread (b : Bytes) : (Stream.holding b 0).unread = b := rfl

/-- Pieces written and flushed one after the other stand in the stream in order (20_memory.md R213, R214, R217). -/
theorem Stream.foldl_write_flush (pieces : List Bytes) (b : Bytes) :
    pieces.foldl (fun t p => (t.write p).flush) (Stream.flushed b) = .flushed (b ++ pieces.flatten) := by
  induction pieces generalizing b with
  | nil => simp
  | cons p rest ih => rw [List.foldl_cons, Stream.flushed_write_flush, ih, List.flatten_cons, List.append_assoc]

theorem Stream.readStrict_data {t : Stream} {n : Nat} (h : n ≤ t.unread.length) :
    t.readStrict n = .data (t.unread.take n) (t.advance n) := if_pos h

theorem Stream.readStrict_short {t : Stream} {n : Nat} (h : t.unread.length < n) :
    t.readStrict n = if t.closed then .unexpectedEof else .wait := if_neg (by omega)

theorem Stream.readPartial_empty {t : Stream} (n : Nat) (h : t.unread = []) :
    t.readPartial n = if t.closed then .endOfFile else .wait := if_pos h

theorem Stream.readPartial_data {t : Stream} (n : Nat) (h : t.unread ≠ []) :
    t.readPartial n = .data (t.unread.take n) (t.advance (min n t.unread.length)) := if_neg h

theorem streamWrite_fresh_ok {i : StreamId} {v : Bytes} {s : State} (h : s.str.get i = .fresh) (hf : v.length ≤ i.cap s.cfg) :
    streamWrite i v s = .ok () (s.setStream i (Stream.fresh.write v)) := by
  rw [streamWrite_ok (by rw [h]; rfl) (by rw [h, show Stream.fresh.total = 0 from rfl]; omega), h]

/-- A write to a stream that was reset fails only for room (20_memory.md R213). -/
theorem streamWrite_fresh_raised {i : StreamId} {v : Bytes} {s : State} (h : s.str.get i = .fresh)
    (hf : i.cap s.cfg < v.length) : streamWrite i v s = .raised .capacityExceeded i.id s := by
  rw [streamWrite_run, h, if_neg (by decide), if_pos (by rw [show Stream.fresh.total = 0 from rfl]; omega)]

@[simp] theorem Stream.fresh_write_close (v : Bytes) : (Stream.fresh.write v).close = .holding v 0 :=
  Stream.flushed_write_close [] v

/-- Settles O60: after the pieces the stream is the one that holds their concatenation, and a read of it takes the bytes in
front. -/
theorem streamsAreFifo : Obligations.StreamsAreFifo := by
  unfold Obligations.StreamsAreFifo
  intro pieces n
  simp only [Stream.fresh_eq_flushed, Stream.foldl_write_flush, List.nil_append, Stream.flushed_close]
  generalize pieces.flatten = b
  refine ⟨Stream.flushed_unread b, rfl, Stream.holding_unread b, fun _ => rfl, fun h => ?_, fun h => ⟨?_, ?_⟩,
    fun h => ⟨?_, ?_⟩⟩
  · exact Stream.readStrict_data h
  · exact Stream.readStrict_short h
  · exact Stream.readStrict_short h
  · exact Stream.readPartial_empty n h
  · exact Stream.readPartial_empty n h

/-- The producer of the stream will have written `z` and closed it: what the consumer sees is a beginning of `z`, and all of
it once the stream is closed (20_memory.md R212, R215). -/
structure Stream.Feeds (t : Stream) (z : Bytes) : Prop where
  sofar : t.readable <+: z
  all : t.closed = true → t.readable = z

theorem Stream.flushed_feeds {b z : Bytes} (h : b <+: z) : (Stream.flushed b).Feeds z := ⟨h, nofun⟩

theorem Stream.feeds_of_readable {t : Stream} {z : Bytes} (h : t.readable = z) : t.Feeds z :=
  ⟨h ▸ List.prefix_refl _, fun _ => h⟩

/-- A consumer that has taken a beginning of what will be written has one after it takes more. -/
theorem Stream.Feeds.take_prefix {t : Stream} {z got : Bytes} (h : t.Feeds z) (hg : got <+: z) (n : Nat) :
    got ++ (t.readable.drop got.length).take n <+: z := by
  obtain hle | hge := Nat.le_total got.length t.readable.length
  · obtain ⟨more, hmore⟩ := List.prefix_of_prefix_length_le hg h.sofar hle
    rw [← hmore, List.drop_left]
    exact ((List.prefix_append_right_inj got).2 (List.take_prefix n more)).trans (hmore ▸ h.sofar)
  · rw [List.drop_eq_nil_of_le hge]; simpa using hg

/-- Where the stream is closed and the consumer has taken all bytes it shows, those are all that were written. -/
theorem Stream.Feeds.exhausted {t : Stream} {z got : Bytes} (h : t.Feeds z) (hg : got <+: z) (hc : t.closed = true)
    (hl : t.readable.length ≤ got.length) : got = z := hg.eq_of_length_le (h.all hc ▸ hl)

end Sys2Proof.Machine
end

section
/-! SUPPORT. The inflater and the deflater: whatever the pieces they move, they end with the conversion of all their input in
the output stream, or with one error (44_decode.md R695, 45_encode.md R780, 60_exceptions.md R921). -/

namespace Sys2Proof.Machine

/-- What a middle stage makes of its whole input: the bytes of its output, or its error. -/
def MidJob.result (j : MidJob) (z : Bytes) : Except (Err × Word) Bytes :=
  match j.convert z with
  | .ok d => if j.cap < d.length then .error (.capacityExceeded, j.id) else .ok d
  | .error e => .error e

theorem MidJob.result_error {j : MidJob} {z : Bytes} {e : Err × Word} (h : j.convert z = .error e) :
    j.result z = .error e := by simp [MidJob.result, h]

theorem MidJob.result_full {j : MidJob} {z d : Bytes} (h : j.convert z = .ok d) (hd : j.cap < d.length) :
    j.result z = .error (.capacityExceeded, j.id) := by simp [MidJob.result, h, hd]

theorem MidJob.result_ok {j : MidJob} {z d : Bytes} (h : j.convert z = .ok d) (hd : d.length ≤ j.cap) :
    j.result z = .ok d := by simp [MidJob.result, h, hd]

/-- A middle stage on its way to the result for the input `z`. -/
def MidJob.Tracks (j : MidJob) (z : Bytes) : MidStage → Prop
  | .reading got => got <+: z
  | .writing rest out => ∃ w, out = .flushed w ∧ w.length ≤ j.cap ∧ j.convert z = .ok (w ++ rest)
  | .done out => ∃ d, out = .holding d 0 ∧ j.result z = .ok d
  | .failed e info _ => j.result z = .error (e, info)

/-- A middle stage that has ended with a result. -/
def MidStage.Yields (m : MidStage) : Except (Err × Word) Bytes → Prop
  | .ok d => m = .done (.holding d 0)
  | .error (e, info) => ∃ out, m = .failed e info out

theorem MidJob.start_tracks (j : MidJob) (z : Bytes) : j.Tracks z (j.start z) := by
  unfold MidJob.start
  split
  · rename_i h; exact ⟨[], rfl, Nat.zero_le _, h⟩
  · rename_i h; exact MidJob.result_error h

theorem MidJob.write_tracks {j : MidJob} {z rest : Bytes} {out : Stream} (n : Nat) (h : j.Tracks z (.writing rest out)) :
    j.Tracks z (j.write n rest out) := by
  obtain ⟨w, rfl, hw, hc⟩ := h
  have hl : (rest.take n).length ≤ rest.length := List.length_take_le' n rest
  unfold MidJob.write
  split
  · rename_i hf
    exact MidJob.result_full hc (by rw [List.length_append]; rw [Stream.flushed_total] at hf; omega)
  · rename_i hf
    refine ⟨w ++ rest.take n, Stream.flushed_write_flush w _, ?_, by rw [hc, List.append_assoc, List.take_append_drop]⟩
    rw [List.length_append]; rw [Stream.flushed_total] at hf; omega

theorem MidJob.turn_tracks {j : MidJob} {z : Bytes} {up : Stream} (hup : up.Feeds z) (n : Nat) {m : MidStage}
    (h : j.Tracks z m) : j.Tracks z (j.turn n up m) := by
  cases m with
  | reading got =>
    simp only [MidJob.turn]
    split
    · rename_i hd
      split
      · rename_i hc
        rw [hup.exhausted h hc (List.drop_eq_nil_iff.1 hd)]
        exact j.start_tracks z
      · exact h
    · exact hup.take_prefix h n
  | writing rest out =>
    simp only [MidJob.turn]
    split
    · rename_i hr
      obtain ⟨w, rfl, hw, hc⟩ := h
      rw [hr, List.append_nil] at hc
      exact ⟨w, Stream.flushed_close w, MidJob.result_ok hc hw⟩
    · exact MidJob.write_tracks n h
  | done out => exact h
  | failed e info out => exact h

theorem MidJob.flushAll_yields {j : MidJob} {z : Bytes} {m : MidStage} (h : j.Tracks z m) (hr : ∀ got, m ≠ .reading got) :
    (j.flushAll m).Yields (j.result z) := by
  cases m with
  | reading got => exact absurd rfl (hr got)
  | writing rest out =>
    obtain ⟨w, rfl, hw, hc⟩ := h
    simp only [MidJob.flushAll, Stream.flushed_total, ← List.length_append]
    split
    · rename_i hf; rw [MidJob.result_full hc hf]; exact ⟨_, rfl⟩
    · rename_i hf
      rw [MidJob.result_ok hc (by omega), Stream.flushed_write_close]; rfl
  | done out => obtain ⟨d, rfl, hd⟩ := h; rw [hd]; rfl
  | failed e info out => rw [show j.result z = .error (e, info) from h]; exact ⟨out, rfl⟩

/-- Once its input has ended, the stage ends with the result. -/
theorem MidJob.drain_yields {j : MidJob} {z : Bytes} {up : Stream} (hup : up.readable = z) {m : MidStage} (h : j.Tracks z m) :
    (j.drain up m).Yields (j.result z) := by
  cases m with
  | reading got => exact hup ▸ MidJob.flushAll_yields (j.start_tracks _) (j.start_ne_reading _)
  | writing rest out => exact MidJob.flushAll_yields h (by simp)
  | done out => exact MidJob.flushAll_yields h (by simp)
  | failed e info out => exact MidJob.flushAll_yields h (by simp)

/-- While a stage that comes to the output `d` is on its way, its consumer sees a beginning of `d`. -/
theorem MidJob.Tracks.view_feeds {j : MidJob} {z d : Bytes} {m : MidStage} (h : j.Tracks z m) (hd : j.result z = .ok d) :
    m.view.Feeds d := by
  cases m with
  | reading got => exact Stream.flushed_feeds (List.nil_prefix)
  | writing rest out =>
    obtain ⟨w, rfl, hw, hc⟩ := h
    have hwr : w ++ rest = d := by
      by_cases hf : j.cap < (w ++ rest).length
      · rw [MidJob.result_full hc hf] at hd; cases hd
      · rw [MidJob.result_ok hc (by omega)] at hd; cases hd; rfl
    exact Stream.flushed_feeds ⟨rest, hwr⟩
  | done out =>
    obtain ⟨d', rfl, hd'⟩ := h
    rw [hd] at hd'
    cases hd'
    exact Stream.feeds_of_readable (Stream.holding_readable d 0)
  | failed e info out => rw [show j.result z = .error (e, info) from h] at hd; cases hd

end Sys2Proof.Machine
end

section
/-! SUPPORT. The stages of a pipelined DECODE against the steps one after the other: the chunk reader ends as the chunk loop,
and a stage below a stage that succeeds has taken a beginning of what that stage writes (44_decode.md R721, 60_exceptions.md
R921). -/

namespace Sys2Proof.Machine

/-! ## The chunk reader -/

/-- A turn that goes on leaves the rest of the chunk loop to the turns after it. -/
theorem chunkLoop_next {s t : State} (h : decChunksStep s = .ok false t) :
    chunkLoop (inAvail s + 1) s = chunkLoop (inAvail t + 1) t := by
  have hlt := (decChunksStep_steps s false t h).1
  exact (Cmd.bind_ok h).trans (chunkLoop_bound (inAvail s) (inAvail t + 1) t (by omega) (by omega))

theorem chunkLoop_last {s t : State} (n : Nat) (h : decChunksStep s = .ok true t) : chunkLoop (n + 1) s = .ok () t :=
  Cmd.bind_ok h

theorem Cmd.andThen_congr_left {α β : Type} {m m' : Cmd α} {s s' : State} (h : m s = m' s') (n : Cmd β) :
    m.andThen n s = m'.andThen n s' := by simp only [Cmd.andThen_run, h]

/-- A turn of the chunk reader does not change how it ends. -/
theorem ReaderStage.turn_drain (p : ReaderStage) : p.turn.drain = p.drain := by
  cases p with
  | ended r => rfl
  | running s =>
    simp only [ReaderStage.turn]
    cases hd : decChunksStep s with
    | ok last t =>
      cases last with
      | true => exact congrArg ReaderStage.ended (Cmd.andThen_ok (n := endChunks) (chunkLoop_last _ hd)).symm
      | false => exact congrArg ReaderStage.ended (Cmd.andThen_congr_left (chunkLoop_next hd) endChunks).symm
    | raised e info t => exact congrArg ReaderStage.ended (Cmd.andThen_raised (n := endChunks) (Cmd.bind_raised hd)).symm
    | stuck x => simp [ReaderStage.drain, chunkLoop, Cmd.andThen_run, Cmd.bind_run, hd]
    | refuse x => simp [ReaderStage.drain, chunkLoop, Cmd.andThen_run, Cmd.bind_run, hd]

/-- STAGE is open and unread, with nothing staged. -/
def State.stageOpen (s : State) : Prop := s.str.stage.closed = false ∧ s.str.stage.staged = [] ∧ s.str.stage.rpos = 0

/-- While the chunk reader runs, STAGE is open and unread, with nothing staged. -/
def ReaderStage.StageOpen : ReaderStage → Prop
  | .running s => s.stageOpen
  | .ended _ => True

theorem stageOpen_of_grows {s t : State} (h : stageGrows s t) (hs : s.stageOpen) :
    t.stageOpen ∧ s.str.stage.readable <+: t.str.stage.readable := by
  obtain ⟨hc, hst, hr, hp⟩ := h hs.1 hs.2.1
  exact ⟨⟨hc, hst, hr.trans hs.2.2⟩, hp⟩

theorem ReaderStage.turn_stageOpen {p : ReaderStage} (h : p.StageOpen) : p.turn.StageOpen := by
  cases p with
  | ended r => trivial
  | running s =>
    simp only [ReaderStage.turn]
    cases hd : decChunksStep s with
    | ok last t =>
      cases last with
      | true => trivial
      | false => exact (stageOpen_of_grows (decChunksStep_steps s false t hd).2.1 h).1
    | raised e info t => trivial
    | stuck x => trivial
    | refuse x => trivial

/-- What the chunk reader has done when it ends without an error: STAGE is closed, unread, and has only grown; the image is as
before (44_decode.md R660). -/
theorem readChunks_ok {s t : State} {a : Unit} (hs : s.stageOpen) (h : readChunks s = .ok a t) :
    t.str.stage.closed = true ∧ t.str.stage.rpos = 0 ∧ s.str.stage.readable <+: t.str.stage.readable ∧ sameImage s t := by
  unfold readChunks at h
  cases hl : chunkLoop (inAvail s + 1) s with
  | ok b u =>
    rw [Cmd.andThen_ok hl] at h
    cases h
    obtain ⟨-, hg, hi⟩ := chunkLoop_steps _ s b u hl
    obtain ⟨⟨hc, hst, hr⟩, hp⟩ := stageOpen_of_grows hg hs
    have hclose : u.str.stage.close = { u.str.stage with closed := true } := by
      simp [Stream.close, hc, Stream.flush, hst]
    show u.str.stage.close.closed = true ∧ u.str.stage.close.rpos = 0 ∧
      s.str.stage.readable <+: u.str.stage.close.readable ∧ sameImage s u
    rw [hclose]
    exact ⟨rfl, hr, hp, hi⟩
  | raised e info u => rw [Cmd.andThen_raised hl] at h; cases h
  | stuck x => simp [Cmd.andThen_run, hl] at h
  | refuse x => simp [Cmd.andThen_run, hl] at h

/-- While a chunk reader that ends without an error is on its way, the inflater sees a beginning of what STAGE then holds. -/
theorem ReaderStage.view_feeds {p : ReaderStage} {t : State} (h : p.StageOpen) (hd : p.drain = .ended (.ok () t)) :
    p.view.Feeds t.str.stage.readable := by
  cases p with
  | running s =>
    obtain ⟨-, -, hp, -⟩ := readChunks_ok h (ReaderStage.ended.inj hd)
    exact ⟨hp, fun hc => absurd (h.1.symm.trans hc) (by decide)⟩
  | ended r => cases hd; exact Stream.feeds_of_readable rfl

/-! ## The deinterlacer -/

@[simp] theorem Res.error_ok {α : Type} (a : α) (s : State) : (Res.ok a s).error = none := rfl

@[simp] theorem Res.error_raised {α : Type} (e : Err) (info : Word) (s : State) :
    (Res.raised e info s : Res α).error = some (e, info) := rfl

/-- How a piece that changes nothing ends its run with another piece after it. -/
theorem Cmd.Examines.error_andThen {α β : Type} {m : Cmd α} (h : m.Examines) (n : Cmd β) (s : State) :
    (m.andThen n s).error = (m s).error.or (n s).error := by
  obtain ⟨a, hs⟩ | ⟨e, info, -, hs⟩ := h s
  · rw [Cmd.andThen_ok hs, hs]; rfl
  · rw [Cmd.andThen_raised hs, hs]; rfl

/-- The error of the checks before the deinterlacer depends on the parameters and the image registers only. -/
theorem checkPixels_error_congr {s t : State} (h : sameImage s t) : (checkPixels t).error = (checkPixels s).error := by
  obtain ⟨hc, hi, -⟩ := h
  simp only [checkPixels, checkHeader_examines.error_andThen, checkInterlace_examines.error_andThen]
  simp only [checkHeader, checkSize_examines.error_andThen, checkColor_examines.error_andThen,
    checkCompressionMethod_examines.error_andThen]
  simp only [checkSize, checkColor, checkCompressionMethod, checkFilterMethod, checkInterlace, checkRawRange, hc, hi,
    apply_ite Res.error, Res.error_ok, Res.error_raised]

theorem pixelsOn_congr {s t : State} (h : sameImage s t) (inp : Bytes) : pixelsOn t inp = pixelsOn s inp := by
  unfold pixelsOn deinterlacer
  rw [checkPixels_error_congr h, h.1, h.2.1, h.2.2]

theorem pixelsOn_of_ok {s : State} {a : Unit} (h : checkPixels s = .ok a s) (inp : Bytes) :
    pixelsOn s inp = deinterlacer s s.flt inp := by simp [pixelsOn, h]

theorem pixelsOn_of_raised {s t : State} {e : Err} {info : Word} (h : checkPixels s = .raised e info t) (inp : Bytes) :
    pixelsOn s inp = .failed e info s.flt inp := by simp [pixelsOn, h]

@[simp] theorem Unfiltered.extend_nil (r : Unfiltered) : r.extend [] = r := by cases r <;> simp [Unfiltered.extend]

/-- An answer is final because it is no `UnexpectedEOF`, or because there are no more bytes. -/
theorem Unfiltered.final_iff (r : Unfiltered) (x : Bool) : r.final x = true ↔ r.final false = true ∨ x = true := by
  cases r <;> simp [Unfiltered.final]

/-- The deinterlacer on its way to its answer on the bytes `d`. -/
def PixelsStage.Tracks (s : State) (d : Bytes) : PixelsStage → Prop
  | .reading got => got <+: d
  | .ended got r => ∃ tail, got ++ tail = d ∧ pixelsOn s d = r.extend tail

theorem PixelsStage.take_tracks {s : State} {d got : Bytes} {infl : Stream} (hf : infl.Feeds d) (hg : got <+: d) :
    (PixelsStage.take s infl got).Tracks s d := by
  unfold PixelsStage.take
  split
  · rename_i h
    obtain h | h := (Unfiltered.final_iff _ _).1 h
    · obtain ⟨tail, rfl⟩ := hg
      exact ⟨tail, rfl, pixelsOn_extend tail h⟩
    · obtain ⟨hc, hl⟩ := Bool.and_eq_true_iff.1 h
      obtain rfl := hf.exhausted hg hc (of_decide_eq_true hl)
      exact ⟨[], List.append_nil _, (Unfiltered.extend_nil _).symm⟩
  · exact hg

theorem PixelsStage.turn_tracks {s : State} {d : Bytes} {infl : Stream} (hf : infl.Feeds d) (n : Nat) {p : PixelsStage}
    (h : p.Tracks s d) : (p.turn s n infl).Tracks s d := by
  cases p with
  | reading got => exact PixelsStage.take_tracks hf (hf.take_prefix h n)
  | ended got r => exact h

/-- Once INFL holds all of `d`, the deinterlacer ends with its answer on `d`. -/
theorem PixelsStage.drain_tracks {s : State} {d : Bytes} {infl : Stream} (hf : infl.readable = d) {p : PixelsStage}
    (h : p.Tracks s d) : ∃ got r, p.drain s infl = .ended got r ∧ (PixelsStage.ended got r).Tracks s d := by
  cases p with
  | reading got =>
    subst hf
    exact ⟨_, _, rfl, [], List.append_nil _, (Unfiltered.extend_nil _).symm⟩
  | ended got r => exact ⟨got, r, rfl, h⟩

/-! ## The three stages -/

/-- The three stages on their way, for the state `s` they were started in: the chunk reader comes to the end of the chunk loop,
and each stage below one that succeeds is on its way to what it makes of that stage's whole output. -/
structure DecPipe.Tracks (s : State) (p : DecPipe) : Prop where
  reader : p.reader.drain = .ended (readChunks s)
  stage : p.reader.StageOpen
  inflater : ∀ t, readChunks s = .ok () t → (inflateJob s.cfg).Tracks t.str.stage.readable p.inflater
  pixels : ∀ t d, readChunks s = .ok () t → (inflateJob s.cfg).result t.str.stage.readable = .ok d → p.pixels.Tracks s d

theorem DecPipe.start_tracks {s : State} (hs : s.stageOpen) : (DecPipe.start s).Tracks s :=
  ⟨rfl, hs, fun _ _ => List.nil_prefix, fun _ _ _ _ => List.nil_prefix⟩

theorem DecPipe.turn_tracks {s : State} {p : DecPipe} (h : p.Tracks s) (turn : StageTurn) : (p.turn s turn).Tracks s := by
  cases turn with
  | first => exact ⟨p.reader.turn_drain.trans h.reader, ReaderStage.turn_stageOpen h.stage, h.inflater, h.pixels⟩
  | second n =>
    refine ⟨h.reader, h.stage, fun t ht => ?_, h.pixels⟩
    exact MidJob.turn_tracks (ReaderStage.view_feeds h.stage (ht ▸ h.reader)) n (h.inflater t ht)
  | third n =>
    refine ⟨h.reader, h.stage, h.inflater, fun t d ht hd => ?_⟩
    exact PixelsStage.turn_tracks ((h.inflater t ht).view_feeds hd) n (h.pixels t d ht hd)

theorem DecPipe.foldl_tracks {s : State} (turns : List StageTurn) {p : DecPipe} (h : p.Tracks s) :
    (turns.foldl (DecPipe.turn s) p).Tracks s := by
  induction turns generalizing p with
  | nil => exact h
  | cons turn rest ih => exact ih (DecPipe.turn_tracks h turn)

/-- What the three stages have come to after the drain, whatever their turns were: the chunk reader to the end of the chunk
loop; the inflater, where that is no error, to its result; the deinterlacer, where that is no error either, to its answer. -/
theorem DecPipe.run_tracks {s : State} (hs : s.stageOpen) :
    (DecPipe.run s).reader = .ended (readChunks s) ∧
    ∀ t, readChunks s = .ok () t →
      (DecPipe.run s).inflater.Yields ((inflateJob s.cfg).result t.str.stage.readable) ∧
      ∀ d, (inflateJob s.cfg).result t.str.stage.readable = .ok d →
        ∃ got r, (DecPipe.run s).pixels = .ended got r ∧ (PixelsStage.ended got r).Tracks s d := by
  have h := DecPipe.foldl_tracks s.turns (DecPipe.start_tracks hs)
  refine ⟨h.reader, fun t ht => ?_⟩
  have hview : (s.turns.foldl (DecPipe.turn s) (.start s)).reader.drain.view.readable = t.str.stage.readable := by
    rw [h.reader, ht]; rfl
  have hy := MidJob.drain_yields hview (h.inflater t ht)
  refine ⟨hy, fun d hd => PixelsStage.drain_tracks ?_ (h.pixels t d ht hd)⟩
  rw [hd] at hy
  rw [show MidJob.drain _ _ _ = _ from hy]; rfl

/-! ## Inflater and deinterlacer committed -/

/-- The state in which DEC.INFLATE calls the inflater: INFL reset, STAGE read to its end (44_decode.md R695). -/
def State.inflating (s : State) : State :=
  { (s.setStream .infl .fresh).setStream .stage (s.str.stage.advance s.str.stage.unread.length) with cnt.inflLen := 0 }

/-- The state DEC.INFLATE leaves when the inflater's output is `d` (44_decode.md R695). -/
def State.inflated (s : State) (d : Bytes) : State :=
  { s.inflating.setStream .infl (.holding d 0) with
    cnt.inflLen := BitVec.ofNat 32 d.length
    dec.state := .inflated }

theorem State.inflated_infl (s : State) (d : Bytes) : (s.inflated d).str.infl = .holding d 0 := rfl

theorem State.inflated_sameImage (s : State) (d : Bytes) : sameImage s (s.inflated d) := by
  simp [sameImage, State.inflated, State.inflating]

theorem inflating_run {s : State} (hc : s.str.stage.closed = true) (k : Bytes → Cmd Unit) :
    ((resetStream .infl).andThen <| (Cmd.update fun s => { s with cnt.inflLen := 0 }).andThen <| (readAll .stage).bind k) s =
      k s.str.stage.unread s.inflating :=
  Cmd.bind_ok (readAll_ok (i := .stage) (s := { s.setStream .infl .fresh with cnt.inflLen := 0 }) hc)

theorem callInflate_run (z : Bytes) (s : State) :
    callInflate z s =
      match (inflateJob s.cfg).convert z with
      | .ok d => .ok d s
      | .error (e, info) => .raised e info s := by
  simp only [callInflate, inflateJob]
  split
  · rfl
  · cases Config.inflateOf s.cfg z <;> rfl

/-- `DecInflate()` by the result of the inflater on STAGE (44_decode.md R695). -/
theorem decInflate_run {s : State} (hc : s.str.stage.closed = true) :
    decInflate s =
      match (inflateJob s.cfg).result s.str.stage.unread with
      | .ok d => .ok () (s.inflated d)
      | .error (e, info) => .raised e info (unspecified inflateLeaves s.inflating) := by
  have call := callInflate_run s.str.stage.unread s.inflating
  rw [show s.inflating.cfg = s.cfg from rfl] at call
  cases hz : (inflateJob s.cfg).convert s.str.stage.unread with
  | error x =>
    rw [hz] at call
    rw [MidJob.result_error hz]
    exact Cmd.leaving_raised ((inflating_run hc _).trans (Cmd.bind_raised call))
  | ok d =>
    rw [hz] at call
    by_cases hf : s.cfg.inflCap < d.length
    · rw [MidJob.result_full hz hf]
      have write := streamWrite_fresh_raised (i := .infl) (s := s.inflating) rfl hf
      exact Cmd.leaving_raised ((inflating_run hc _).trans ((Cmd.bind_ok call).trans (Cmd.andThen_raised write)))
    · rw [MidJob.result_ok hz (Nat.le_of_not_lt hf)]
      have write := streamWrite_fresh_ok (i := .infl) (s := s.inflating) rfl (Nat.le_of_not_lt hf)
      refine Cmd.leaving_ok ((inflating_run hc _).trans ((Cmd.bind_ok call).trans ((Cmd.andThen_ok write).trans ?_)))
      simp [Cmd.andThen_run, closeStream, setDecState, State.inflated, State.setStream, Streams.set, Streams.get]

/-- The inflater's registers and streams are committed as `DecInflate()` leaves them. -/
theorem commitInflater_eq {s : State} {m : MidStage} (hc : s.str.stage.closed = true)
    (hm : m.Yields ((inflateJob s.cfg).result s.str.stage.unread)) : commitInflater m s = decInflate s := by
  rw [decInflate_run hc]
  revert hm
  cases (inflateJob s.cfg).result s.str.stage.unread with
  | ok d => rintro rfl; exact Cmd.leaving_ok (inflating_run hc _)
  | error x => rintro ⟨out, rfl⟩; exact Cmd.leaving_raised (inflating_run hc _)

theorem clearRawLen_run (s : State) : clearRawLen s = .ok () { s with cnt.rawLen := 0 } := rfl

theorem unfilterInfl_done {engine : FilterUnit → Bytes → Unfiltered} {s : State} {out rest : Bytes} {u : FilterUnit}
    (h : engine s.flt s.str.infl.unread = .done out u rest) :
    unfilterInfl engine s =
      .ok out { s.setStream .infl (s.str.infl.advance (s.str.infl.unread.length - rest.length)) with flt := u } := by
  simp [unfilterInfl, h]

theorem unfilterInfl_failed {engine : FilterUnit → Bytes → Unfiltered} {s : State} {e : Err} {info : Word} {rest : Bytes}
    {u : FilterUnit} (hc : s.str.infl.closed = true) (h : engine s.flt s.str.infl.unread = .failed e info u rest) :
    unfilterInfl engine s =
      .raised e info { s.setStream .infl (s.str.infl.advance (s.str.infl.unread.length - rest.length)) with flt := u } := by
  simp [unfilterInfl, h, hc]

/-- An error of DEC.PIXELS leaves `RAW_LEN` unspecified, whatever it held. -/
theorem unspecified_rawLen (r : ImgRegs) (s : State) (v : Word) :
    unspecified (pixelsLeaves r) { s with cnt.rawLen := v } = unspecified (pixelsLeaves r) s := rfl

theorem Cmd.leaving_congr {α : Type} {m m' : Cmd α} {s s' : State} (h : m s = m' s') (items : List Item) :
    m.leaving items s = m'.leaving items s' := by simp only [Cmd.leaving, Cmd.onRaise, h]

/-- The deinterlacer's registers and RAW are committed as `DecPixels()` leaves them, when INFL holds `d` and the stage has come
to its answer on `d`. -/
theorem commitPixels_eq {a s : State} {got d : Bytes} {r : Unfiltered} (hi : sameImage a s) (hs : s.str.infl = .holding d 0)
    (h : (PixelsStage.ended got r).Tracks a d) : commitPixels (.ended got r) s = decPixels s := by
  obtain ⟨tail, rfl, hr⟩ := h
  have hu : s.str.infl.unread = got ++ tail := by rw [hs, Stream.holding_unread]
  have hc : s.str.infl.closed = true := by rw [hs, Stream.holding_closed]
  have used (rest : Bytes) : s.str.infl.unread.length - (rest ++ tail).length = got.length - rest.length := by
    rw [hu, List.length_append, List.length_append]; omega
  rw [← pixelsOn_congr hi, ← hu] at hr
  obtain ⟨x, hx⟩ | ⟨e, info, -, hx⟩ := checkPixels_examines s
  · rw [pixelsOn_of_ok hx] at hr
    cases r with
    | done out u rest =>
      have run := unfilterInfl_done (engine := deinterlacer s) (s := { s with cnt.rawLen := 0 }) hr
      refine Cmd.leaving_congr (.symm ((Cmd.andThen_ok hx).trans
        ((Cmd.andThen_ok (clearRawLen_run s)).trans ((Cmd.bind_ok run).trans ?_)))) _
      rw [used]; rfl
    | failed e info u rest =>
      have run := unfilterInfl_failed (engine := deinterlacer s) (s := { s with cnt.rawLen := 0 }) hc hr
      refine (Cmd.leaving_raised rfl).trans
        (.symm ((Cmd.leaving_raised ((Cmd.andThen_ok hx).trans ((Cmd.andThen_ok (clearRawLen_run s)).trans
          (Cmd.bind_raised run)))).trans ?_))
      rw [used]; rfl
  · rw [pixelsOn_of_raised hx, hu] at hr
    have hr' : r = .failed e info s.flt got := by
      cases r with
      | done out u rest => cases hr
      | failed e' info' u rest =>
        simp only [Unfiltered.extend, Unfiltered.failed.injEq, List.append_cancel_right_eq] at hr
        obtain ⟨rfl, rfl, rfl, rfl⟩ := hr
        rfl
    subst hr'
    refine Cmd.leaving_congr (.symm ((Cmd.andThen_raised hx).trans ?_)) _
    show _ = Res.raised e info { s.setStream .infl (s.str.infl.advance (got.length - got.length)) with flt := s.flt }
    rw [Nat.sub_self]; rfl

/-! ## DECODE -/

theorem Cmd.andThen_congr_right {α β : Type} {m : Cmd α} {n n' : Cmd β} {s : State}
    (h : ∀ a t, m s = .ok a t → n t = n' t) : m.andThen n s = m.andThen n' s := by
  simp only [Cmd.andThen_run]
  cases hm : m s with
  | ok a t => exact h a t hm
  | raised e info t => rfl
  | stuck x => rfl
  | refuse x => rfl

theorem resetStream_run (i : StreamId) (s : State) : resetStream i s = .ok () (s.setStream i .fresh) := rfl

theorem setDecState_run (v : DecState) (s : State) : setDecState v s = .ok () { s with dec.state := v } := rfl

/-- `DecInflate()` that goes on has written its result. -/
theorem decInflate_ok {s t : State} {a : Unit} (hc : s.str.stage.closed = true) (h : decInflate s = .ok a t) :
    ∃ d, (inflateJob s.cfg).result s.str.stage.unread = .ok d ∧ t = s.inflated d := by
  rw [decInflate_run hc] at h
  split at h
  · rename_i d hd; cases h; exact ⟨d, hd, rfl⟩
  · cases h

/-- From a closed STAGE, the inflater and the deinterlacer committed leave what DEC.INFLATE and DEC.PIXELS leave. -/
theorem commitInflaterPixels_eq {a s : State} {m : MidStage} {p : PixelsStage} (hc : s.str.stage.closed = true)
    (hi : sameImage a s) (hm : m.Yields ((inflateJob s.cfg).result s.str.stage.unread))
    (hp : ∀ d, (inflateJob s.cfg).result s.str.stage.unread = .ok d →
      ∃ got r, p = .ended got r ∧ (PixelsStage.ended got r).Tracks a d) :
    ((commitInflater m).andThen (commitPixels p)) s = (decInflate.andThen decPixels) s := by
  rw [Cmd.andThen_congr_left (commitInflater_eq hc hm)]
  refine Cmd.andThen_congr_right fun x t ht => ?_
  obtain ⟨d, hd, rfl⟩ := decInflate_ok hc ht
  obtain ⟨got, r, rfl, htracks⟩ := hp d hd
  exact commitPixels_eq (sameImage_trans _ _ _ hi (State.inflated_sameImage s d)) (State.inflated_infl s d) htracks

/-- From STAGE as it is reset, the three stages committed leave what the steps one after the other leave. -/
theorem DecPipe.run_commit_eq {s : State} (hs : s.stageOpen) :
    (DecPipe.run s).commit s =
      readChunks.andThen ((setDecState .chunks).andThen (decInflate.andThen decPixels)) s := by
  obtain ⟨hreader, hbelow⟩ := DecPipe.run_tracks hs
  rw [DecPipe.commit, hreader]
  refine (Cmd.andThen_congr_left (m' := readChunks) (s' := s) rfl _).trans (Cmd.andThen_congr_right fun x t ht => ?_)
  obtain ⟨hc, hpos, -, hi⟩ := readChunks_ok hs ht
  obtain ⟨hm, hp⟩ := hbelow t ht
  have hz : t.str.stage.readable = t.str.stage.unread := by rw [Stream.unread, hpos, List.drop_zero]
  rw [hz, ← hi.1] at hm hp
  rw [Cmd.andThen_ok (setDecState_run .chunks t), Cmd.andThen_ok (setDecState_run .chunks t)]
  exact commitInflaterPixels_eq (s := { t with dec.state := .chunks }) hc hi hm hp

/-- Steps 3 to 5 of DECODE end alike, as three concurrent stages and one after the other (44_decode.md R721, 20_memory.md
R232). -/
theorem decPipelined_eq_decSequential : decPipelined = decSequential := by
  funext s
  have hopen : (s.setStream .stage .fresh).stageOpen := ⟨rfl, rfl, rfl⟩
  rw [decSequential, decChunks, Cmd.andThen_assoc, Cmd.andThen_assoc, Cmd.andThen_ok (resetStream_run .stage s)]
  exact (Cmd.andThen_ok (resetStream_run .stage s)).trans (DecPipe.run_commit_eq hopen)

/-- Settles O50: the three stages are steps 3 to 5 (`decPipelined_eq_decSequential`). -/
theorem pipelinedDecodeEqualsSequential : Obligations.PipelinedDecodeEqualsSequential := by
  unfold Obligations.PipelinedDecodeEqualsSequential
  intro s
  simp only [exec, execDecode, decPipelined_eq_decSequential, ite_self]

end Sys2Proof.Machine
end

section
/-! SUPPORT. The interlacer-filter and the deflater of a pipelined ENCODE against the stages one after the other (45_encode.md
R780, R805). -/

namespace Sys2Proof.Machine

/-! ## The interlacer-filter -/

/-- A turn of the interlacer-filter does not change how it ends. -/
theorem FilterStage.turn_drain (s : State) (p : FilterStage) : (p.turn s).drain s = p.drain s := by
  cases p with
  | done out => rfl
  | failed e info u out => rfl
  | running rest out =>
    cases rest with
    | nil =>
      simp only [FilterStage.turn, FilterStage.drain, filterAll, filterEnd]
      cases (filterJob s).err <;> rfl
    | cons row rest =>
      by_cases hf : StreamId.filt.cap s.cfg < out.total + row.2.length
      · simp only [FilterStage.turn, FilterStage.drain, filterAll, if_pos hf]
      · simp only [FilterStage.turn, FilterStage.drain, filterAll, if_neg hf]

/-- While the interlacer-filter runs, FILT is open and all it has written is flushed. -/
def FilterStage.Flushed : FilterStage → Prop
  | .running _ out => ∃ w, out = .flushed w
  | .done _ => True
  | .failed _ _ _ _ => True

theorem FilterStage.start_flushed (s : State) : (FilterStage.start s).Flushed := by
  unfold FilterStage.start
  split
  · trivial
  · exact ⟨[], rfl⟩

theorem filterEnd_flushed (r : Filtered) (out : Stream) : (filterEnd r out).Flushed := by
  unfold filterEnd
  split <;> trivial

theorem FilterStage.turn_flushed {s : State} {p : FilterStage} (h : p.Flushed) : (p.turn s).Flushed := by
  cases p with
  | done out => trivial
  | failed e info u out => trivial
  | running rest out =>
    obtain ⟨w, rfl⟩ := h
    cases rest with
    | nil => exact filterEnd_flushed _ _
    | cons row rest =>
      simp only [FilterStage.turn]
      split
      · trivial
      · exact ⟨w ++ row.2, Stream.flushed_write_flush w row.2⟩

/-- An interlacer-filter that comes to its end without an error has added to FILT and closed it (42_filter.md R530). -/
theorem filterAll_done {s : State} {rows : List (FilterUnit × Bytes)} {w : Bytes} {out : Stream}
    (h : filterAll s rows (.flushed w) = .done out) : ∃ more, out = .holding (w ++ more) 0 := by
  induction rows generalizing w with
  | nil =>
    simp only [filterAll, filterEnd] at h
    split at h
    · cases h
    · cases h; exact ⟨[], by rw [Stream.flushed_close, List.append_nil]⟩
  | cons row rest ih =>
    simp only [filterAll, Stream.flushed_write_flush] at h
    split at h
    · cases h
    · obtain ⟨more, rfl⟩ := ih h
      exact ⟨row.2 ++ more, by rw [List.append_assoc]⟩

/-- FILT as an interlacer-filter that ends without an error leaves it. -/
theorem FilterStage.start_done {s : State} {out : Stream} (h : (FilterStage.start s).drain s = .done out) :
    ∃ f, out = .holding f 0 := by
  unfold FilterStage.start at h
  split at h
  · cases h
  · obtain ⟨more, rfl⟩ := filterAll_done (w := []) h
    exact ⟨_, rfl⟩

/-- While an interlacer-filter that ends without an error is on its way, the deflater sees a beginning of what FILT then
holds. -/
theorem FilterStage.view_feeds {s : State} {p : FilterStage} {f : Bytes} (h : p.Flushed)
    (hd : p.drain s = .done (.holding f 0)) : p.view.Feeds f := by
  cases p with
  | running rest out =>
    obtain ⟨w, rfl⟩ := h
    obtain ⟨more, hm⟩ := filterAll_done hd
    exact Stream.flushed_feeds ⟨more, (congrArg Stream.readable hm).symm⟩
  | done out => cases hd; exact Stream.feeds_of_readable rfl
  | failed e info u out => cases hd

/-- The state in which the interlacer-filter has come to the engine's registers `u` and to FILT `t`. -/
def State.filtering (s : State) (u : FilterUnit) (t : Stream) : State := { s.setStream .filt t with flt := u }

theorem writeRow_filt_ok {s : State} {u : FilterUnit} {w : Bytes} {row : FilterUnit × Bytes}
    (hf : w.length + row.2.length ≤ StreamId.filt.cap s.cfg) :
    writeRow .filtStream row (s.filtering u (.flushed w)) = .ok () (s.filtering row.1 (.flushed (w ++ row.2))) := by
  have write := streamWrite_ok (i := .filt) (v := row.2) (s := s.filtering row.1 (.flushed w)) rfl hf
  refine (Cmd.andThen_ok (setFlt_run row.1 _)).trans ((Cmd.andThen_ok write).trans ?_)
  rw [← Stream.flushed_write_flush]; rfl

theorem writeRow_filt_raised {s : State} {u : FilterUnit} {w : Bytes} {row : FilterUnit × Bytes}
    (hf : StreamId.filt.cap s.cfg < w.length + row.2.length) :
    writeRow .filtStream row (s.filtering u (.flushed w)) =
      .raised .capacityExceeded StreamId.filt.id (s.filtering row.1 (.flushed w)) := by
  have write : streamWrite .filt row.2 (s.filtering row.1 (.flushed w)) = _ :=
    (streamWrite_run _ _ _).trans ((if_neg Bool.false_ne_true).trans (if_pos hf))
  exact (Cmd.andThen_ok (setFlt_run row.1 _)).trans (Cmd.andThen_raised write)

/-- The scanlines written and flushed one after the other, and what follows them. -/
theorem forEach_writeRow_run {s : State} {k : Cmd Unit}
    (hk : ∀ u out, k (s.filtering u out) = commitFilter (filterEnd (filterJob s) out) s) (rows : List (FilterUnit × Bytes))
    (u : FilterUnit) (w : Bytes) :
    ((Cmd.forEach (writeRow .filtStream) rows).andThen k) (s.filtering u (.flushed w)) =
      commitFilter (filterAll s rows (.flushed w)) s := by
  induction rows generalizing u w with
  | nil => exact hk u _
  | cons row rest ih =>
    rw [Cmd.forEach, Cmd.andThen_assoc]
    by_cases hf : StreamId.filt.cap s.cfg < w.length + row.2.length
    · rw [Cmd.andThen_raised (writeRow_filt_raised hf), filterAll, Stream.flushed_total, if_pos hf]; rfl
    · rw [Cmd.andThen_ok (writeRow_filt_ok (Nat.le_of_not_lt hf)), filterAll, Stream.flushed_total, if_neg hf,
        Stream.flushed_write_flush]
      exact ih row.1 _

/-- What follows the scanlines: the engine's error, or the close of FILT (45_encode.md R780). -/
theorem filterStage_end (s : State) (u : FilterUnit) (out : Stream) :
    (((setFlt (filterJob s).u).andThen (raiseErr (filterJob s).err)).andThen <| (closeStream .filt).andThen <|
      Cmd.update fun t => { t with cnt.filtLen := BitVec.ofNat 32 t.str.filt.total }) (s.filtering u out) =
      commitFilter (filterEnd (filterJob s) out) s := by
  unfold filterEnd
  cases he : (filterJob s).err <;> rfl

/-- The interlacer-filter's stage by how the interlacer-filter ends (45_encode.md R780). -/
theorem filterStage_run {s : State} (hs : s.str.filt = .fresh) :
    filterStage s = commitFilter ((FilterStage.start s).drain s) s := by
  unfold filterStage FilterStage.start
  by_cases hf : s.cfg.rawCap < 0 + s.img.rawBytes
  · rw [Cmd.bind_raised (memRead_raised hf), if_pos hf]
    show _ = Res.raised Err.capacityExceeded Space.raw.id { s.setStream .filt .fresh with flt := s.flt }
    rw [← hs]; rfl
  · rw [Cmd.bind_ok (memRead_ok (Nat.le_of_not_lt hf)), if_neg hf]
    have hstart : s.filtering s.flt (.flushed []) = s := by
      show ({ s.setStream .filt .fresh with flt := s.flt } : State) = s
      rw [← hs]; rfl
    have run := forEach_writeRow_run (filterStage_end s) (filterJob s).rows s.flt []
    rw [hstart, ← Cmd.andThen_assoc] at run
    exact (Cmd.andThen_congr_left rfl _).trans run

/-! ## The deflater -/

/-- The state in which ENC.DATA calls the deflater: FILT read to its end (45_encode.md R780). -/
def State.deflating (s : State) : State := s.setStream .filt (s.str.filt.advance s.str.filt.unread.length)

/-- The state the deflater's stage leaves when its output is `d` (45_encode.md R780). -/
def State.deflated (s : State) (d : Bytes) : State :=
  { s.deflating.setStream .defl (.holding d 0) with cnt.deflLen := BitVec.ofNat 32 d.length }

@[simp] theorem State.deflated_cfg (s : State) (d : Bytes) : (s.deflated d).cfg = s.cfg := by
  simp [State.deflated, State.deflating]

@[simp] theorem State.deflated_enc (s : State) (d : Bytes) : (s.deflated d).enc = s.enc := by
  simp [State.deflated, State.deflating]

@[simp] theorem State.deflated_defl (s : State) (d : Bytes) : (s.deflated d).str.defl = .holding d 0 := rfl

@[simp] theorem State.deflated_outSide (s : State) (d : Bytes) : (s.deflated d).outSide = s.outSide := by
  simp [State.deflated, State.deflating, State.outSide]

theorem callDeflate_run (f : Bytes) (s : State) :
    callDeflate f s =
      match (deflateJob s).convert f with
      | .ok d => .ok d s
      | .error (e, info) => .raised e info s := by
  simp only [callDeflate, deflateJob]
  split <;> rfl

/-- The deflater's stage by the result of the deflater on FILT (45_encode.md R780). -/
theorem deflateStage_run {s : State} (hc : s.str.filt.closed = true) (hd : s.str.defl = .fresh) :
    deflateStage s =
      match (deflateJob s).result s.str.filt.unread with
      | .ok d => .ok () (s.deflated d)
      | .error (e, info) => .raised e info s.deflating := by
  have call := callDeflate_run s.str.filt.unread s.deflating
  rw [show deflateJob s.deflating = deflateJob s from rfl] at call
  refine (Cmd.bind_ok (readAll_ok (i := .filt) hc)).trans ?_
  cases hf : (deflateJob s).convert s.str.filt.unread with
  | error x =>
    rw [hf] at call
    rw [MidJob.result_error hf]
    exact Cmd.bind_raised call
  | ok d =>
    rw [hf] at call
    refine (Cmd.bind_ok call).trans ?_
    by_cases hfull : s.cfg.deflCap < d.length
    · rw [MidJob.result_full hf hfull]
      exact Cmd.andThen_raised (streamWrite_fresh_raised (i := .defl) (s := s.deflating) hd hfull)
    · rw [MidJob.result_ok hf (Nat.le_of_not_lt hfull)]
      refine (Cmd.andThen_ok (streamWrite_fresh_ok (i := .defl) (s := s.deflating) hd (Nat.le_of_not_lt hfull))).trans ?_
      simp [Cmd.andThen_run, closeStream, State.deflated, State.setStream, Streams.set, Streams.get]

/-- The deflater's stage that goes on has written its result. -/
theorem deflateStage_ok {s t : State} {a : Unit} (hc : s.str.filt.closed = true) (hd : s.str.defl = .fresh)
    (h : deflateStage s = .ok a t) : ∃ d, (deflateJob s).result s.str.filt.unread = .ok d ∧ t = s.deflated d := by
  rw [deflateStage_run hc hd] at h
  split at h
  · rename_i d hr; cases h; exact ⟨d, hr, rfl⟩
  · cases h

/-- The deflater's registers and DEFL are committed as its stage leaves them. -/
theorem commitDeflater_eq {s : State} {m : MidStage} (hc : s.str.filt.closed = true) (hd : s.str.defl = .fresh)
    (hm : m.Yields ((deflateJob s).result s.str.filt.unread)) : commitDeflater m s = deflateStage s := by
  rw [deflateStage_run hc hd]
  refine (Cmd.andThen_ok (readAll_ok (i := .filt) hc)).trans ?_
  revert hm
  cases (deflateJob s).result s.str.filt.unread with
  | ok d => rintro rfl; rfl
  | error x => rintro ⟨out, rfl⟩; rfl

end Sys2Proof.Machine
end

section
/-! SUPPORT. The `IDAT` splitter: however many bytes a read gives it, it cuts what DEFL holds into the same chunks (45_encode.md
R782). -/

namespace Sys2Proof.Machine

/-- The splitter takes one byte of DEFL. -/
def SplitStage.eat (s : State) : SplitStage → Byte → SplitStage
  | .running got held o, b => .hold s (got + 1) (held ++ [b]) o
  | .done got o, _ => .done got o
  | .failed e info got o, _ => .failed e info got o

/-- The splitter at the end of DEFL. -/
def SplitStage.finish (s : State) : SplitStage → SplitStage
  | .running got held o => .last s got held o
  | .done got o => .done got o
  | .failed e info got o => .failed e info got o

/-- The bytes of DEFL it has read. -/
def SplitStage.got : SplitStage → Nat
  | .running got _ _ => got
  | .done got _ => got
  | .failed _ _ got _ => got

/-- How the splitter ends when DEFL holds `d` in all: it takes the bytes it has not read one by one. -/
def SplitStage.outcome (s : State) (d : Bytes) (p : SplitStage) : SplitStage :=
  ((d.drop p.got).foldl (SplitStage.eat s) p).finish s

/-- The splitter holds less than a chunk while it runs (45_encode.md R782). -/
def SplitStage.Below (s : State) : SplitStage → Prop
  | .running _ held _ => held.length < s.enc.maxIdat.toNat
  | .done _ _ => True
  | .failed _ _ _ _ => True

theorem SplitStage.Ended.below {s : State} {p : SplitStage} (h : p.Ended) : p.Below s := by
  cases p with
  | running got held o => exact h.elim
  | done got o => trivial
  | failed e info got o => trivial

theorem SplitStage.foldl_eat_ended {s : State} {p : SplitStage} (h : p.Ended) (v : Bytes) :
    v.foldl (SplitStage.eat s) p = p := by
  induction v with
  | nil => rfl
  | cons b v ih =>
    cases p with
    | running got held o => exact h.elim
    | done got o => exact ih
    | failed e info got o => exact ih

theorem SplitStage.outcome_ended {s : State} {p : SplitStage} (h : p.Ended) (d : Bytes) : p.outcome s d = p := by
  unfold SplitStage.outcome
  rw [SplitStage.foldl_eat_ended h]
  cases p with
  | running got held o => exact h.elim
  | done got o => rfl
  | failed e info got o => rfl

theorem SplitStage.hold_of_lt {s : State} {got : Nat} {held : Bytes} {o : OutSide} (h : held.length < s.enc.maxIdat.toNat) :
    SplitStage.hold s got held o = .running got held o := if_neg (Nat.ne_of_lt h)

/-- To hold bytes that complete no more than one chunk is to take them one by one. -/
theorem SplitStage.foldl_eat {s : State} {got : Nat} {held : Bytes} {o : OutSide} (h : held.length < s.enc.maxIdat.toNat)
    (v : Bytes) (hv : held.length + v.length ≤ s.enc.maxIdat.toNat) :
    v.foldl (SplitStage.eat s) (.running got held o) = .hold s (got + v.length) (held ++ v) o := by
  induction v generalizing got held with
  | nil => rw [List.append_nil, SplitStage.hold_of_lt h]; rfl
  | cons b v ih =>
    rw [List.length_cons] at hv
    cases v with
    | nil => rfl
    | cons c v =>
      have hlt : (held ++ [b]).length < s.enc.maxIdat.toNat := by
        rw [List.length_append, List.length_singleton]; rw [List.length_cons] at hv; omega
      have hle : (held ++ [b]).length + (c :: v).length ≤ s.enc.maxIdat.toNat := by
        rw [List.length_append, List.length_singleton]; omega
      rw [List.foldl_cons, SplitStage.eat, SplitStage.hold_of_lt hlt, ih hlt hle, List.append_assoc, List.length_cons,
        List.length_cons, Nat.add_assoc, Nat.add_comm 1]
      rfl

theorem SplitStage.got_hold (s : State) (got : Nat) (held : Bytes) (o : OutSide) :
    (SplitStage.hold s got held o).got = got := by
  unfold SplitStage.hold
  split
  · split <;> rfl
  · rfl

/-- A read that completes no more than one chunk does not change how the splitter ends. -/
theorem SplitStage.outcome_hold {s : State} {d v : Bytes} {got : Nat} {held : Bytes} {o : OutSide}
    (h : held.length < s.enc.maxIdat.toNat) (hv : held.length + v.length ≤ s.enc.maxIdat.toNat) (hd : v <+: d.drop got) :
    (SplitStage.hold s (got + v.length) (held ++ v) o).outcome s d = (SplitStage.running got held o).outcome s d := by
  obtain ⟨rest, hrest⟩ := hd
  have hdrop : d.drop (got + v.length) = rest := by rw [← List.drop_drop, ← hrest, List.drop_left]
  unfold SplitStage.outcome
  rw [SplitStage.got_hold, hdrop, show (SplitStage.running got held o).got = got from rfl, ← hrest, List.foldl_append,
    SplitStage.foldl_eat h v hv]

/-- At the end of DEFL the splitter ends. -/
theorem SplitStage.outcome_last {s : State} {d held : Bytes} {got : Nat} {o : OutSide} (hd : d.drop got = []) :
    (SplitStage.running got held o).outcome s d = .last s got held o := by
  rw [SplitStage.outcome, show (SplitStage.running got held o).got = got from rfl, hd]; rfl

/-- A turn does not change how the splitter ends. -/
theorem SplitStage.turn_outcome {s : State} {defl : Stream} {d : Bytes} (hf : defl.Feeds d) (n : Nat) {p : SplitStage}
    (h : p.Below s) : (p.turn s n defl).outcome s d = p.outcome s d := by
  cases p with
  | done got o => rfl
  | failed e info got o => rfl
  | running got held o =>
    simp only [SplitStage.turn]
    split
    · rename_i hd
      split
      · rename_i hc
        rw [hf.all hc] at hd
        rw [SplitStage.outcome_last hd, SplitStage.outcome_ended (SplitStage.last_ended s got held o)]
      · rfl
    · refine SplitStage.outcome_hold h ?_ ((List.take_prefix _ _).trans (hf.sofar.drop got))
      have hlt : held.length < s.enc.maxIdat.toNat := h
      rw [List.length_take]; omega

theorem SplitStage.turn_below {s : State} (n : Nat) (defl : Stream) {p : SplitStage} (h : p.Below s) :
    (p.turn s n defl).Below s := by
  cases p with
  | done got o => trivial
  | failed e info got o => trivial
  | running got held o =>
    have hlt : held.length < s.enc.maxIdat.toNat := h
    simp only [SplitStage.turn]
    split
    · split
      · exact (SplitStage.last_ended s got held o).below
      · exact h
    · unfold SplitStage.hold
      split
      · split
        · exact Nat.zero_lt_of_lt hlt
        · trivial
      · rename_i hne
        rw [List.length_append, List.length_take] at hne
        show (held ++ _).length < _
        rw [List.length_append, List.length_take]; omega

/-- On closed DEFL, with more turns than bytes left, the splitter comes to its end. -/
theorem SplitStage.drain_eq_outcome {s : State} {defl : Stream} (hc : defl.closed = true) (fuel : Nat) {p : SplitStage}
    (h : p.Below s) (hf : p.Ended ∨ defl.readable.length - p.got < fuel) :
    p.drain s defl fuel = p.outcome s defl.readable := by
  induction fuel generalizing p with
  | zero => exact (SplitStage.outcome_ended (hf.resolve_right (Nat.not_lt_zero _)) _).symm
  | succ n ih =>
    have hturn := SplitStage.turn_outcome (Stream.feeds_of_readable (t := defl) rfl) s.enc.maxIdat.toNat h
    refine (ih (SplitStage.turn_below _ defl h) ?_).trans hturn
    cases p with
    | done got o => exact .inl trivial
    | failed e info got o => exact .inl trivial
    | running got held o =>
      have hf : defl.readable.length - got < n + 1 := hf.resolve_left id
      obtain he | ⟨hlt, hp⟩ := SplitStage.turn_progress (o := o) hc h
      · exact .inl he
      · cases hr : (SplitStage.running got held o).turn s s.enc.maxIdat.toNat defl with
        | done k o' => exact .inl trivial
        | failed e info k o' => exact .inl trivial
        | running k held' o' => exact .inr (by have := hp k held' o' hr; show _ - k < n; omega)

/-! ## `SplitIDAT` -/

/-- The state in which the splitter has read `got` bytes of DEFL and has its part of the state in `o`. -/
def State.splitting (s : State) (got : Nat) (o : OutSide) : State :=
  (s.setStream .defl (s.str.defl.advance got)).withOutSide o

theorem State.splitting_zero (s : State) : s.splitting 0 s.outSide = s := rfl

theorem State.splitting_unread (s : State) (got : Nat) (o : OutSide) :
    (s.splitting got o).str.defl.unread = s.str.defl.unread.drop got := (List.drop_drop ..).symm

theorem State.splitting_advance (s : State) (got n : Nat) (o : OutSide) :
    (s.splitting got o).setStream .defl ((s.splitting got o).str.defl.advance n) = s.splitting (got + n) o := by
  simp [State.splitting, State.withOutSide, State.setStream, State.setSpace, Streams.set, Stream.advance, Nat.add_assoc]

/-- `WriteChunk(IDAT, held)` and its counts, on the splitter's part of the state (45_encode.md R782). -/
theorem placeIdat_run (s : State) (got : Nat) (held : Bytes) (o : OutSide) :
    placeIdat held (s.splitting got o) =
      match o.place s.cfg.outCap held with
      | some o' => .ok () (s.splitting got o')
      | none => .raised .capacityExceeded Space.outp.id (s.splitting got o) := by
  have write := outWrite_run (chunkBytes typeIDAT held) (s.splitting got o)
  rw [show (s.splitting got o).cfg = s.cfg from rfl, show (s.splitting got o).cnt.outLen = o.outLen from rfl] at write
  unfold OutSide.place
  by_cases hf : s.cfg.outCap < o.outLen.toNat + (chunkBytes typeIDAT held).length
  · rw [if_pos hf] at write ⊢
    exact Cmd.andThen_raised write
  · rw [if_neg hf] at write ⊢
    exact (Cmd.andThen_ok write).trans rfl

theorem splitLoop_end {s : State} (n : Nat) (held : Bytes) (hc : s.str.defl.closed = true) (h : s.str.defl.unread = []) :
    splitLoop (n + 1) held s = if 0 < held.length then placeIdat held s else .ok () s := by
  simp [splitLoop, Stream.readPartial_empty _ h, hc]

theorem splitLoop_data {s : State} {n : Nat} {held v : Bytes} (h : s.str.defl.unread ≠ [])
    (hv : v = s.str.defl.unread.take (s.enc.maxIdat.toNat - held.length)) :
    splitLoop (n + 1) held s =
      if (held ++ v).length = s.enc.maxIdat.toNat then
        (placeIdat (held ++ v)).andThen (splitLoop n []) (s.setStream .defl (s.str.defl.advance v.length))
      else splitLoop n (held ++ v) (s.setStream .defl (s.str.defl.advance v.length)) := by
  subst hv
  simp [splitLoop, Stream.readPartial_data _ h]

/-- `SplitIDAT()` on closed DEFL ends as the splitter does (45_encode.md R782). -/
theorem splitLoop_run {a s : State} (hcfg : s.cfg = a.cfg) (hmax : s.enc.maxIdat = a.enc.maxIdat)
    (hc : s.str.defl.closed = true) (fuel : Nat) {got : Nat} {held : Bytes} {o : OutSide}
    (h : held.length < a.enc.maxIdat.toNat) (hf : s.str.defl.unread.length - got < fuel) :
    splitLoop fuel held (s.splitting got o) =
      commitSplitter ((SplitStage.running got held o).outcome a s.str.defl.unread) s := by
  induction fuel generalizing got held o with
  | zero => exact absurd hf (Nat.not_lt_zero _)
  | succ n ih =>
    by_cases hd : s.str.defl.unread.drop got = []
    · rw [splitLoop_end (s := s.splitting got o) n held hc ((s.splitting_unread got o).trans hd), SplitStage.outcome_last hd,
        placeIdat_run, hcfg, SplitStage.last]
      split
      · cases o.place a.cfg.outCap held <;> rfl
      · rfl
    · have hne : (s.splitting got o).str.defl.unread ≠ [] := by rwa [s.splitting_unread]
      obtain ⟨v, hv⟩ : ∃ v, v = (s.str.defl.unread.drop got).take (a.enc.maxIdat.toNat - held.length) := ⟨_, rfl⟩
      have hlen : v.length = min (a.enc.maxIdat.toNat - held.length) (s.str.defl.unread.length - got) := by
        rw [hv, List.length_take, List.length_drop]
      have hpos : got < s.str.defl.unread.length := Nat.lt_of_not_le fun hle => hd (List.drop_eq_nil_of_le hle)
      have hread : v = (s.splitting got o).str.defl.unread.take ((s.splitting got o).enc.maxIdat.toNat - held.length) := by
        rw [s.splitting_unread, show (s.splitting got o).enc.maxIdat = s.enc.maxIdat from rfl, hmax]; exact hv
      rw [splitLoop_data hne hread, s.splitting_advance, show (s.splitting got o).enc.maxIdat = s.enc.maxIdat from rfl, hmax,
        ← SplitStage.outcome_hold h (by omega) (hv ▸ List.take_prefix _ _), SplitStage.hold]
      split
      · rw [Cmd.andThen_run, placeIdat_run, hcfg]
        cases o.place a.cfg.outCap (held ++ v) with
        | none => simp only; rw [SplitStage.outcome_ended (by trivial)]; rfl
        | some o' => exact ih (Nat.zero_lt_of_lt h) (by omega)
      · rename_i hlt
        rw [List.length_append] at hlt
        exact ih (by rw [List.length_append]; omega) (by omega)

/-- The splitter's registers and OUT are committed as `SplitIDAT()` leaves them. -/
theorem commitSplitter_eq {a s : State} (hm : a.enc.maxIdat ≠ 0) (hcfg : s.cfg = a.cfg) (hmax : s.enc.maxIdat = a.enc.maxIdat)
    (hc : s.str.defl.closed = true) (ho : s.outSide = a.outSide) :
    commitSplitter ((SplitStage.running 0 [] a.outSide).outcome a s.str.defl.unread) s = splitIdat s := by
  have hpos : 0 < a.enc.maxIdat.toNat := Nat.pos_of_ne_zero fun h => hm (BitVec.eq_of_toNat_eq h)
  have run := splitLoop_run (held := []) (o := s.outSide) hcfg hmax hc _ hpos
    (Nat.lt_succ_self (s.str.defl.unread.length - 0))
  rw [s.splitting_zero, Nat.sub_zero] at run
  rw [splitIdat, if_neg (by rw [hmax]; exact hm), ← ho]
  exact run.symm

end Sys2Proof.Machine
end

section
/-! SUPPORT. The three stages of a pipelined ENCODE together (45_encode.md R804, R805, 60_exceptions.md R921). -/

namespace Sys2Proof.Machine

/-- The three stages on their way, for the state `s` they were started in: the interlacer-filter comes to its end, and each
stage below one that succeeds is on its way to what it makes of that stage's whole output. -/
structure EncPipe.Tracks (s : State) (p : EncPipe) : Prop where
  filter : p.filter.drain s = (FilterStage.start s).drain s
  filt : p.filter.Flushed
  deflater : ∀ f, (FilterStage.start s).drain s = .done (.holding f 0) → (deflateJob s).Tracks f p.deflater
  below : p.splitter.Below s
  splitter : ∀ f d, (FilterStage.start s).drain s = .done (.holding f 0) → (deflateJob s).result f = .ok d →
    p.splitter.outcome s d = (SplitStage.running 0 [] s.outSide).outcome s d

theorem EncPipe.start_tracks {s : State} (hm : s.enc.maxIdat ≠ 0) : (EncPipe.start s).Tracks s :=
  ⟨rfl, FilterStage.start_flushed s, fun _ _ => List.nil_prefix,
    Nat.pos_of_ne_zero fun h => hm (BitVec.eq_of_toNat_eq h), fun _ _ _ _ => rfl⟩

theorem EncPipe.turn_tracks {s : State} {p : EncPipe} (h : p.Tracks s) (turn : StageTurn) : (p.turn s turn).Tracks s := by
  cases turn with
  | first =>
    exact ⟨(p.filter.turn_drain s).trans h.filter, FilterStage.turn_flushed h.filt, h.deflater, h.below, h.splitter⟩
  | second n =>
    refine ⟨h.filter, h.filt, fun f hf => ?_, h.below, h.splitter⟩
    exact MidJob.turn_tracks (FilterStage.view_feeds h.filt (h.filter.trans hf)) n (h.deflater f hf)
  | third n =>
    refine ⟨h.filter, h.filt, h.deflater, SplitStage.turn_below n _ h.below, fun f d hf hd => ?_⟩
    exact (SplitStage.turn_outcome ((h.deflater f hf).view_feeds hd) n h.below).trans (h.splitter f d hf hd)

theorem EncPipe.foldl_tracks {s : State} (turns : List StageTurn) {p : EncPipe} (h : p.Tracks s) :
    (turns.foldl (EncPipe.turn s) p).Tracks s := by
  induction turns generalizing p with
  | nil => exact h
  | cons turn rest ih => exact ih (EncPipe.turn_tracks h turn)

/-- What the three stages have come to after the drain, whatever their turns were: the interlacer-filter to its end; the
deflater, where that is no error, to its result; the splitter, where that is no error either, to its end on that result. -/
theorem EncPipe.run_tracks {s : State} (hm : s.enc.maxIdat ≠ 0) :
    (EncPipe.run s).filter = (FilterStage.start s).drain s ∧
    ∀ f, (FilterStage.start s).drain s = .done (.holding f 0) →
      (EncPipe.run s).deflater.Yields ((deflateJob s).result f) ∧
      ∀ d, (deflateJob s).result f = .ok d →
        (EncPipe.run s).splitter = (SplitStage.running 0 [] s.outSide).outcome s d := by
  have h := EncPipe.foldl_tracks s.turns (EncPipe.start_tracks hm)
  refine ⟨h.filter, fun f hf => ?_⟩
  have hview : ((s.turns.foldl (EncPipe.turn s) (.start s)).filter.drain s).view.readable = f := by
    rw [h.filter, hf]; rfl
  have hy := MidJob.drain_yields hview (h.deflater f hf)
  refine ⟨hy, fun d hd => ?_⟩
  rw [hd] at hy
  have hdefl : ((deflateJob s).drain ((s.turns.foldl (EncPipe.turn s) (.start s)).filter.drain s).view
      (s.turns.foldl (EncPipe.turn s) (.start s)).deflater).view = .holding d 0 := congrArg MidStage.view hy
  refine Eq.trans ?_ (h.splitter f d hf hd)
  simp only [EncPipe.run, EncPipe.drain, hdefl]
  exact SplitStage.drain_eq_outcome rfl _ h.below (.inr (by rw [Stream.holding_readable]; omega))

/-- The state the interlacer-filter's stage leaves when it has written `f` to FILT (45_encode.md R780). -/
def State.filtered (s : State) (f : Bytes) : State :=
  { s.setStream .filt (.holding f 0) with flt := (filterJob s).u, cnt.filtLen := BitVec.ofNat 32 f.length }

@[simp] theorem State.filtered_cfg (s : State) (f : Bytes) : (s.filtered f).cfg = s.cfg := by simp [State.filtered]

@[simp] theorem State.filtered_img (s : State) (f : Bytes) : (s.filtered f).img = s.img := by simp [State.filtered]

@[simp] theorem State.filtered_enc (s : State) (f : Bytes) : (s.filtered f).enc = s.enc := by simp [State.filtered]

@[simp] theorem State.filtered_filt (s : State) (f : Bytes) : (s.filtered f).str.filt = .holding f 0 := rfl

@[simp] theorem State.filtered_defl (s : State) (f : Bytes) : (s.filtered f).str.defl = s.str.defl := rfl

@[simp] theorem State.filtered_outSide (s : State) (f : Bytes) : (s.filtered f).outSide = s.outSide := by
  simp [State.filtered, State.outSide]

@[simp] theorem deflateJob_filtered (s : State) (f : Bytes) : deflateJob (s.filtered f) = deflateJob s := by
  simp [deflateJob]

/-- The interlacer-filter's stage that goes on has written its result. -/
theorem filterStage_ok {s t : State} {a : Unit} (hs : s.str.filt = .fresh) (h : filterStage s = .ok a t) :
    ∃ f, (FilterStage.start s).drain s = .done (.holding f 0) ∧ t = s.filtered f := by
  rw [filterStage_run hs] at h
  cases hd : (FilterStage.start s).drain s with
  | running rest out => rw [hd] at h; cases h
  | failed e info u out => rw [hd] at h; cases h
  | done out =>
    obtain ⟨f, rfl⟩ := FilterStage.start_done hd
    rw [hd] at h
    cases h
    exact ⟨f, rfl, rfl⟩

/-- From FILT and DEFL as they are reset, the three stages committed leave what the stages one after the other leave. -/
theorem pipelinedStages_eq {s : State} (hm : s.enc.maxIdat ≠ 0) (hf : s.str.filt = .fresh) (hd : s.str.defl = .fresh) :
    pipelinedStages s = dataStages s := by
  obtain ⟨hfilter, hbelow⟩ := EncPipe.run_tracks hm
  rw [pipelinedStages, if_neg hm, EncPipe.commit, dataStages, hfilter, Cmd.andThen_congr_left (filterStage_run hf).symm]
  refine Cmd.andThen_congr_right fun x t ht => ?_
  obtain ⟨f, hdrain, rfl⟩ := filterStage_ok hf ht
  obtain ⟨hdeflater, hsplitter⟩ := hbelow f hdrain
  have hclosed : (s.filtered f).str.filt.closed = true := by simp
  have hfresh : (s.filtered f).str.defl = .fresh := by simpa using hd
  rw [Cmd.andThen_congr_left (commitDeflater_eq hclosed hfresh (by simpa using hdeflater))]
  refine Cmd.andThen_congr_right fun y u hu => ?_
  obtain ⟨d, hres, rfl⟩ := deflateStage_ok hclosed hfresh hu
  have hsplit := commitSplitter_eq (s := (s.filtered f).deflated d) hm (by simp) (by simp) (by simp) (by simp)
  rw [hsplitter d (by simpa using hres)]
  simpa using hsplit

/-! ## ENCODE -/

/-- A piece that changes nothing goes on in the same state. -/
theorem Cmd.Examines.steps {α : Type} {m : Cmd α} (h : m.Examines) : Cmd.Steps (fun s t => t = s) m := by
  intro s a t ht
  obtain ⟨b, hs⟩ | ⟨e, info, -, hs⟩ := h s
  · rw [hs] at ht; cases ht; rfl
  · rw [hs] at ht; cases ht

theorem checkSplitSize_steps : Cmd.Steps (fun _ t => t.enc.maxIdat ≠ 0) checkSplitSize := by
  intro s a t ht
  unfold checkSplitSize at ht
  split at ht
  · cases ht
  · rename_i hm; cases ht; exact hm

/-- A validated encode has a split size (45_encode.md R751). -/
theorem encValidate_splitSize : Cmd.Steps (fun _ t => t.enc.maxIdat ≠ 0) encValidate := by
  have checks : Cmd.Steps (fun _ t => t.enc.maxIdat ≠ 0) encChecks := by
    have before {m n : Cmd Unit} (h : Cmd.Steps (fun _ t => t.enc.maxIdat ≠ 0) n) :
        Cmd.Steps (fun _ t => t.enc.maxIdat ≠ 0) (m.andThen n) :=
      Cmd.Steps.andThen (r₁ := fun _ _ => True) (fun _ _ _ _ => trivial) h fun _ _ _ _ hu => hu
    refine before <| before <| before <|
      Cmd.Steps.andThen checkSplitSize_steps (Cmd.Examines.steps ?_) fun s t u ht hu => hu ▸ ht
    exact checkInterlace_examines.andThen (checkLevel_examines.andThen checkRawRange_examines)
  exact Cmd.Steps.andThen (r₂ := fun s t => t.enc.maxIdat = s.enc.maxIdat) checks (Cmd.Steps.update _ fun _ => rfl)
    fun s t u ht hu => hu ▸ ht

theorem encHeader_keepsMaxIdat : Cmd.Steps (fun s t => t.enc.maxIdat = s.enc.maxIdat) encHeader := by
  intro s a t ht
  have hframe := encHeader_frames s
  rw [ht] at hframe
  exact hframe.regs .encMaxIdat (by decide) (by decide)

theorem encDataWith_congr {stages stages' : Cmd Unit} {s : State} (h : stages (dataStartState s) = stages' (dataStartState s)) :
    encDataWith stages s = encDataWith stages' s :=
  Cmd.andThen_congr_left h (setEncState .data)

/-- ENCODE ends alike, with the stages of `EncData()` concurrent and one after the other (45_encode.md R804, R805, 20_memory.md
R232). -/
theorem encodeWith_pipelinedStages : encodeWith pipelinedStages = encodeWith dataStages := by
  funext s
  refine Cmd.leaving_congr (Cmd.andThen_congr_right fun _ t ht => Cmd.andThen_congr_right fun _ u hu => ?_) dataLeaves
  have hm : u.enc.maxIdat ≠ 0 := by rw [encHeader_keepsMaxIdat t _ u hu]; exact encValidate_splitSize s _ t ht
  exact Cmd.andThen_congr_left (encDataWith_congr (pipelinedStages_eq (s := dataStartState u) hm rfl rfl)) encTrailer

/-- Settles O56: the three stages of `EncData()` (`pipelinedStages_eq`), started as a validated ENCODE starts them. -/
theorem pipelinedEncodeEqualsSequential : Obligations.PipelinedEncodeEqualsSequential := by
  unfold Obligations.PipelinedEncodeEqualsSequential
  intro s
  simp only [exec, execEncode, if_true, Bool.false_eq_true, if_false, encodeWith_pipelinedStages]

end Sys2Proof.Machine
end

section
/-! SUPPORT. The decoder against the fields of a word (30_encoding.md R301, R303, R304), and the obligations of 30_encoding.md. -/

namespace Sys2Proof.Machine

/-! ## Fields and commands -/

/-- The bits of a word, from its fields (30_encoding.md R301). -/
theorem toWord_getLsbD (f : CommandFields) (k : Nat) :
    f.toWord.getLsbD k =
      if k < 8 then f.opcode.getLsbD k else if k = 8 then f.pipe else f.reserved.getLsbD (k - 9) := by
  rw [CommandFields.toWord, BitVec.getLsbD_cast, BitVec.getLsbD_append, BitVec.getLsbD_append, BitVec.getLsbD_ofBool]
  obtain hk | rfl | hk : k < 8 ∨ k = 8 ∨ 8 < k := by omega
  · simp [hk]
  · simp
  · simp [show ¬k < 8 by omega, show k ≠ 8 by omega, show ¬k - 8 < 1 by omega, show k - 8 - 1 = k - 9 by omega]

/-- A word's fields are those it was put together from (30_encoding.md R301). -/
theorem fieldsOf_toWord (f : CommandFields) : fieldsOf f.toWord = f := by
  have hop : opcodeOf f.toWord = f.opcode := by
    apply BitVec.eq_of_getLsbD_eq
    intro k hk
    rw [opcodeOf, BitVec.getLsbD_extractLsb', toWord_getLsbD, if_pos (by omega), Nat.zero_add, decide_eq_true hk,
      Bool.true_and]
  have hp : pipeOf f.toWord = f.pipe := toWord_getLsbD f 8
  have hr : reservedOf f.toWord = f.reserved := by
    apply BitVec.eq_of_getLsbD_eq
    intro k hk
    rw [reservedOf, BitVec.getLsbD_extractLsb', toWord_getLsbD, if_neg (by omega), if_neg (by omega),
      Nat.add_sub_cancel_left, decide_eq_true hk, Bool.true_and]
  rw [fieldsOf, hop, hp, hr]

/-- The opcode map inverts `Instr.opcode` (30_encoding.md R302). -/
theorem instrOfOpcode_opcode (i : Instr) : instrOfOpcode i.opcode i.pipe = some i := by
  cases i <;> rfl

theorem instrOfOpcode_legal {op : Byte} (h : op ∈ legalOpcodes) (p : Bool) : ∃ i, instrOfOpcode op p = some i := by
  have listed : ∀ op ∈ legalOpcodes, ∀ p, (instrOfOpcode op p).isSome := by decide
  exact Option.isSome_iff_exists.1 (listed op h p)

/-- The three lines of 30_encoding.md R303, none of which a legal word meets. -/
theorem commandFields_wf_iff (f : CommandFields) :
    f.wf = true ↔ f.opcode ∈ legalOpcodes ∧ f.reserved = 0 ∧ (f.pipe = true → takesPipe f.opcode = true) := by
  have hp : f.pipeOk = true ↔ (f.pipe = true → takesPipe f.opcode = true) := by
    simp [CommandFields.pipeOk, pipedOpcodes, takesPipe, ← Bool.not_eq_true, imp_iff_not_or]
  rw [CommandFields.wf, Bool.and_eq_true, Bool.and_eq_true, hp, and_assoc]
  simp only [CommandFields.opcodeOk, CommandFields.reservedOk, List.contains_iff_mem, beq_iff_eq]

theorem instrFields_wf (i : Instr) : i.fields.wf = true := by
  cases i with
  | decode p => exact (Laws.Format.decode p).1
  | encode p => exact (Laws.Format.encode p).1
  | _ => decide

/-- PIPE stands only where the opcode takes it (30_encoding.md R301). -/
theorem takesPipe_of_pipe {i : Instr} (h : i.pipe = true) : takesPipe i.opcode = true := by
  obtain ⟨-, -, hp⟩ := (commandFields_wf_iff i.fields).1 (instrFields_wf i)
  exact hp h

/-- The legal fields are those of the commands (30_encoding.md R302, R303). -/
theorem exists_fields_iff (f : CommandFields) : (∃ i : Instr, f = i.fields) ↔ f.wf = true := by
  constructor
  · rintro ⟨i, rfl⟩; exact instrFields_wf i
  · intro h
    obtain ⟨hop, hr, hp⟩ := (commandFields_wf_iff f).1 h
    obtain ⟨i, hi⟩ := instrOfOpcode_legal hop f.pipe
    obtain ⟨ho, hpipe⟩ := instrOfOpcode_some hi
    have hpf : i.pipe = f.pipe := by rw [hpipe, Bool.and_eq_left_iff_imp]; exact hp
    refine ⟨i, ?_⟩
    rw [Instr.fields, ho, hpf, ← hr]

/-! ## The decoder -/

/-- The decoder answers the command that has the word's fields (30_encoding.md R304). -/
theorem decode_eq_ok_iff (w : Word) (i : Instr) : decode w = .ok i ↔ fieldsOf w = i.fields := by
  refine ⟨fieldsOf_decode, fun h => ?_⟩
  obtain ⟨ho, hp, hr⟩ : opcodeOf w = i.opcode ∧ pipeOf w = i.pipe ∧ reservedOf w = 0 := by
    simpa [fieldsOf, Instr.fields] using h
  simpa [decode, ho, hp, hr, instrOfOpcode_opcode] using takesPipe_of_pipe (i := i)

theorem decode_encode (i : Instr) : decode (encode i) = .ok i :=
  (decode_eq_ok_iff _ i).2 (fieldsOf_toWord i.fields)

/-- A word is illegal when its fields are not well formed (30_encoding.md R303). -/
theorem decode_error_iff (w : Word) : (∃ e, decode w = .error e) ↔ (fieldsOf w).wf = false := by
  rw [← Bool.not_eq_true, ← exists_fields_iff]
  simp only [← decode_eq_ok_iff]
  cases decode w <;> simp

/-! ## An illegal word that is run -/

/-- An illegal word is the error entry, whatever the turns (30_encoding.md R303). -/
theorem runEngine_illegal {s : State} {e : DecodeError} (turns : List StageTurn) (hr : s.inReset = false)
    (hb : s.status.busy = true) (hd : decode s.cmd = .error e) :
    runEngine turns s = .next (errorEntry .other .illegalCommand s.cmd s) := by
  simp [runEngine, hr, hb, hd]

/-! ## The obligations -/

/-- Settles O14: the decoder inverts the encoder on the fields (`decode_eq_ok_iff`), and a word is its fields. -/
theorem encodeDecodeAgree : Obligations.EncodeDecodeAgree :=
  ⟨decode_encode, fun _ _ => encode_of_decode⟩

/-- Settles O15: the legal fields are those of the commands (`exists_fields_iff`), and the engine's turn on an illegal word is
the error entry. -/
theorem illegalWords : Obligations.IllegalWords := by
  unfold Obligations.IllegalWords
  refine ⟨fun w => ?_, fun s e rest hbox hr hb hd => ?_⟩
  · rw [decode_error_iff, ← Bool.not_eq_true, commandFields_wf_iff, not_and_or, not_and_or, Classical.not_imp]
    simp [fieldsOf, opcodeOf, pipeOf, reservedOf, takesPipe]
  · have hstep : step s = .next (errorEntry .other .illegalCommand s.cmd { s with port.inbox := rest }) := by
      obtain ⟨hs, rfl⟩ | ⟨turns, hs⟩ := hbox
      · have hu : ({ s with port.inbox := [] } : State) = s := by rw [← hs]
        rw [step_nil hs, runEngine_illegal [] hr hb hd, hu]
      · rw [step_cons hs]
        exact runEngine_illegal (s := s.withInbox rest) turns hr hb hd
    exact ⟨_, hstep, rfl, rfl, rfl, rfl, rfl⟩

/-- Settles O13: each word is evaluated. -/
theorem decodedWords : Obligations.DecodedWords := by
  unfold Obligations.DecodedWords
  decide

end Sys2Proof.Machine
end

section
/-! SUPPORT. The CRC-32 function as steps of a linear shift register (40_crc.md R400, R402), the CRC commands, CHUNK.VERIFY on a
chunk that does not match its CRC, and the obligations of 40_crc.md. -/

namespace Sys2Proof.Machine

/-! ## One bit -/

/-- The bit that is shifted out decides whether the polynomial comes in, and the polynomial has bit 31. -/
theorem crcRound_getLsbD_31 (c : Word) : (crcRound c).getLsbD 31 = c.getLsbD 0 := by
  unfold crcRound
  cases h : c.getLsbD 0 <;> simp

theorem crcRound_injective : Function.Injective crcRound := by
  intro c d h
  have hbit : c.getLsbD 0 = d.getLsbD 0 := by rw [← crcRound_getLsbD_31, h, crcRound_getLsbD_31]
  have hshift : c >>> 1 = d >>> 1 := by
    unfold crcRound at h
    rw [hbit] at h
    split at h
    · exact (BitVec.xor_right_inj _).1 h
    · exact h
  refine BitVec.eq_of_getLsbD_eq fun i _ => ?_
  cases i with
  | zero => exact hbit
  | succ i => simpa [Nat.add_comm 1 i] using congrArg (BitVec.getLsbD · i) hshift

theorem crcRound_xor (c d : Word) : crcRound (c ^^^ d) = crcRound c ^^^ crcRound d := by
  have hshift : (c ^^^ d) >>> 1 = c >>> 1 ^^^ d >>> 1 := BitVec.ushiftRight_xor_distrib ..
  unfold crcRound
  rw [BitVec.getLsbD_xor, hshift]
  cases c.getLsbD 0 <;> cases d.getLsbD 0
  case false.false => rfl
  case false.true => simp; ac_rfl
  case true.false => simp; ac_rfl
  case true.true =>
    calc c >>> 1 ^^^ d >>> 1
        = (0xEDB88320 ^^^ 0xEDB88320) ^^^ (c >>> 1 ^^^ d >>> 1) := by simp
      _ = (0xEDB88320 ^^^ c >>> 1) ^^^ (0xEDB88320 ^^^ d >>> 1) := by ac_rfl

theorem crcRound_iterate_xor (n : Nat) (c d : Word) :
    crcRound^[n] (c ^^^ d) = crcRound^[n] c ^^^ crcRound^[n] d :=
  (Function.Semiconj₂.iterate crcRound_xor n) c d

/-- As long as only zeros leave the register, it is a plain shift. -/
theorem crcRound_iterate_of_zeros (n : Nat) (c : Word) (h : ∀ i < n, c.getLsbD i = false) :
    crcRound^[n] c = c >>> n := by
  induction n generalizing c with
  | zero => simp
  | succ n ih =>
    have h0 : crcRound c = c >>> 1 := by rw [crcRound, h 0 (by omega)]; rfl
    rw [Function.iterate_succ_apply, h0, ih _ fun i hi => by simpa using h (1 + i) (by omega), ← BitVec.shiftRight_add,
      Nat.add_comm]

/-! ## One byte -/

theorem crcTable_eq (b : Byte) : crcTable b = crcRound^[8] (b.setWidth 32) := rfl

/-- The table step is eight one-bit steps of the register with the byte added in (40_crc.md R407: table or bit-serial). -/
theorem crcByte_eq (c : Word) (b : Byte) : crcByte c b = crcRound^[8] (c ^^^ b.setWidth 32) := by
  have hsplit : c ^^^ b.setWidth 32 = (c.extractLsb' 0 8 ^^^ b).setWidth 32 ^^^ (c >>> 8) <<< 8 := by
    ext i hi
    by_cases h : i < 8
    · simp [h, BitVec.getLsbD_eq_getElem hi]
    · simp [h, BitVec.getLsbD_eq_getElem hi, show 8 + (i - 8) = i by omega, Bool.xor_comm]
  have hhigh : crcRound^[8] ((c >>> 8) <<< 8) = c >>> 8 := by
    rw [crcRound_iterate_of_zeros 8 _ fun i hi => by simp [hi]]
    ext i hi
    simpa using BitVec.lt_of_getLsbD
  rw [hsplit, crcRound_iterate_xor, hhigh, crcByte, crcTable_eq]

theorem crcByte_left_injective (b : Byte) : Function.Injective (crcByte · b) := by
  intro c d h
  simp only [crcByte_eq] at h
  exact (BitVec.xor_left_inj _).1 (crcRound_injective.iterate 8 h)

theorem crcByte_right_injective (c : Word) : Function.Injective (crcByte c) := by
  intro x y h
  simp only [crcByte_eq] at h
  have h32 : x.setWidth 32 = y.setWidth 32 := (BitVec.xor_right_inj _).1 (crcRound_injective.iterate 8 h)
  simpa using congrArg (BitVec.setWidth 8) h32

/-! ## Byte sequences -/

@[simp] theorem crcUpdate_nil (c : Word) : crcUpdate c [] = c := rfl

@[simp] theorem crcUpdate_cons (c : Word) (b : Byte) (s : Bytes) :
    crcUpdate c (b :: s) = crcUpdate (crcByte c b) s := rfl

theorem crcUpdate_append (c : Word) (s u : Bytes) : crcUpdate c (s ++ u) = crcUpdate (crcUpdate c s) u :=
  List.foldl_append

theorem crcUpdate_left_injective (s : Bytes) : Function.Injective (crcUpdate · s) := by
  induction s with
  | nil => exact fun _ _ h => h
  | cons b s ih => exact ih.comp (crcByte_left_injective b)

/-- The chunk CRC is the CRC of type and data (40_crc.md R405). -/
theorem chunkCrc_eq (t : Word) (d : Bytes) : chunkCrc t d = crc32 (be32 t ++ d) := by
  rw [crc32, crcUpdate_append]
  rfl

/-- The register differs behind the changed byte, and no later byte makes it the same again (40_crc.md R406). -/
theorem crc32_changed_byte (a b : Bytes) {x y : Byte} (h : x ≠ y) : crc32 (a ++ x :: b) ≠ crc32 (a ++ y :: b) := by
  intro he
  have hu : crcUpdate 0xFFFFFFFF (a ++ x :: b) = crcUpdate 0xFFFFFFFF (a ++ y :: b) := (BitVec.xor_left_inj _).1 he
  simp only [crcUpdate_append, crcUpdate_cons] at hu
  exact h (crcByte_right_injective _ (crcUpdate_left_injective b hu))

/-! ## A changed byte of a memory -/

theorem Memory.readBytes_succ (m : Memory) (off n : Nat) :
    m.readBytes off (n + 1) = m.read off :: m.readBytes (off + 1) n := rfl

/-- A range around one of its bytes. -/
theorem Memory.readBytes_split (m : Memory) (off : Nat) {k n : Nat} (h : k < n) :
    m.readBytes off n = m.readBytes off k ++ m.read (off + k) :: m.readBytes (off + k + 1) (n - k - 1) := by
  obtain ⟨j, rfl⟩ : ∃ j, n = k + (j + 1) := ⟨n - k - 1, by omega⟩
  rw [Memory.readBytes_add, Memory.readBytes_succ]
  simp

theorem Memory.readBytes_write_outside (m : Memory) (off n a : Nat) (v : Byte) (hm : m.wf) (h : a < off ∨ off + n ≤ a) :
    (m.write a v).readBytes off n = m.readBytes off n := by
  refine List.map_congr_left fun b hb => Memory.read_write_other m a b v hm ?_
  rw [List.mem_range'_1] at hb
  omega

/-- A write changes the one byte of a range it goes to. -/
theorem Memory.readBytes_write (m : Memory) (off : Nat) {k n : Nat} (v : Byte) (hm : m.wf) (h : k < n) :
    (m.write (off + k) v).readBytes off n =
      m.readBytes off k ++ v :: m.readBytes (off + k + 1) (n - k - 1) := by
  rw [Memory.readBytes_split _ off h, Memory.read_write_same m _ v hm,
    Memory.readBytes_write_outside m _ _ _ v hm (by omega), Memory.readBytes_write_outside m _ _ _ v hm (by omega)]

/-! ## The commands -/

theorem crcOperand_ok {s : State} (h : s.crc.off.toNat + s.crc.len.toNat ≤ s.cfg.dbufCap) :
    crcOperand s = .ok (s.mem.dbuf.readBytes s.crc.off.toNat s.crc.len.toNat) s := memRead_ok (sp := .dbuf) h

theorem crcOperand_raised {s : State} (h : s.cfg.dbufCap < s.crc.off.toNat + s.crc.len.toNat) :
    crcOperand s = .raised .capacityExceeded 2 s := memRead_raised (sp := .dbuf) h

theorem chunkData_ok {s : State} (h : s.ch.length.toNat ≤ s.cfg.dbufCap) :
    chunkData s = .ok (s.mem.dbuf.readBytes 0 s.ch.length.toNat) s :=
  memRead_ok (sp := .dbuf) (by rwa [Nat.zero_add])

theorem checkCrc_raised {typ crc : Word} {data : Bytes} (s : State) (h : chunkCrc typ data ≠ crc) :
    checkCrc typ data crc s = .raised .corruptedChunk typ { s with crc.out := chunkCrc typ data } := by
  rw [checkCrc, Cmd.andThen_ok (setCrcOut_run _ s), Cmd.raiseIf_true (bne_iff_ne.2 h)]

/-- CHUNK.VERIFY of a chunk in DBUF that does not match `CH_CRC` (41_framer.md R470). -/
theorem exec_chunkVerify_mismatch {s : State} (hl : s.ch.length.toNat ≤ s.cfg.dbufCap)
    (h : chunkCrc s.ch.type (s.mem.dbuf.readBytes 0 s.ch.length.toNat) ≠ s.ch.crc) :
    exec .chunkVerify s =
      .next (errorEntry .other .corruptedChunk s.ch.type
        { s with crc.out := chunkCrc s.ch.type (s.mem.dbuf.readBytes 0 s.ch.length.toNat) }) := by
  rw [exec_eq_runCommand]
  exact runCommand_raised ((Cmd.bind_ok (chunkData_ok hl)).trans (checkCrc_raised s h))

/-! ## The obligations -/

/-- Settles O23: a step of the register is injective in the byte and in the register, so the CRCs differ; CHUNK.VERIFY reads the
changed byte between the bytes as they were, and its comparison fails. -/
theorem crcDetectsChangedByte : Obligations.CrcDetectsChangedByte := by
  unfold Obligations.CrcDetectsChangedByte
  refine ⟨fun a b x y h => crc32_changed_byte a b h, fun s k v hok hl hk hv hcrc => ?_⟩
  have hwf : s.mem.dbuf.wf := (hok .dbuf).1
  have hne : chunkCrc s.ch.type ((s.mem.dbuf.write k v).readBytes 0 s.ch.length.toNat) ≠ s.ch.crc := by
    have hw := Memory.readBytes_write s.mem.dbuf 0 v hwf hk
    have hr := Memory.readBytes_split s.mem.dbuf 0 hk
    rw [Nat.zero_add] at hw hr
    rw [hcrc, hw, hr, chunkCrc_eq, chunkCrc_eq, ← List.append_assoc, ← List.append_assoc]
    exact crc32_changed_byte _ _ hv
  exact ⟨_, exec_chunkVerify_mismatch (s := s.setSpace .dbuf (s.mem.dbuf.write k v)) hl hne, rfl, rfl⟩

/-- Settles O21: the operand range is read when DBUF holds it, and refused before `CRC_OUT` is written when it does not. -/
theorem crcResults : Obligations.CrcResults := by
  unfold Obligations.CrcResults
  refine fun s => ⟨fun h => ⟨?_, ?_⟩, fun h => ⟨?_, ?_⟩, ?_⟩ <;> rw [exec_eq_runCommand]
  · exact runCommand_ok (Cmd.bind_ok (crcOperand_ok h))
  · exact runCommand_ok (Cmd.bind_ok (crcOperand_ok h))
  · exact runCommand_raised (Cmd.bind_raised (crcOperand_raised h))
  · exact runCommand_raised (Cmd.bind_raised (crcOperand_raised h))
  · exact runCommand_ok (setCrcOut_run _ s)

/-- Settles O22: the update is a fold over the bytes. -/
theorem crcComposition : Obligations.CrcComposition :=
  ⟨fun c s u => (crcUpdate_append c s u).symm, crcUpdate_nil, by decide, fun _ _ => rfl, fun t d => ⟨rfl, chunkCrc_eq t d⟩⟩

end Sys2Proof.Machine
end

section
/-! SUPPORT. The framer's commands (41_framer.md): the signature, CHUNK.VERIFY, CHUNK.SETCRC and CHUNK.WRITE. -/

namespace Sys2Proof.Machine

/-! ## The signature -/

theorem checkSignature_holds {s : State} (h : s.inHolds pngSignature) : checkSignature s = .ok () (s.afterIn 8) :=
  (Cmd.bind_ok (readIn_holds h)).trans (Cmd.raiseIf_false (by simp) _)

theorem checkSignature_wrong {s : State} (h : 8 ≤ inAvail s)
    (hs : s.mem.inp.readBytes s.cnt.inPos.toNat 8 ≠ pngSignature) :
    checkSignature s = .raised .invalidSignature 0 (s.afterIn 8) :=
  (Cmd.bind_ok (readIn_ok h)).trans (Cmd.raiseIf_true (bne_iff_ne.2 hs) _)

theorem checkSignature_short {s : State} (h : inAvail s < 8) : checkSignature s = .raised .unexpectedEof 0 s :=
  Cmd.bind_raised (readIn_raised h)

/-! ## Chunks in DBUF -/

theorem chunkData_raised {s : State} (h : s.cfg.dbufCap < s.ch.length.toNat) :
    chunkData s = .raised .capacityExceeded 2 s := memRead_raised (sp := .dbuf) (by rwa [Nat.zero_add])

theorem checkCrc_ok {typ crc : Word} {data : Bytes} (s : State) (h : chunkCrc typ data = crc) :
    checkCrc typ data crc s = .ok () { s with crc.out := crc } := by
  subst h
  exact (Cmd.andThen_ok (setCrcOut_run _ s)).trans (Cmd.raiseIf_false (by simp) _)

/-- The bytes CHUNK.WRITE appends (41_framer.md R480). -/
theorem length_writtenChunk (len typ crc : Word) (m : Memory) (n : Nat) :
    (be32 len ++ be32 typ ++ m.readBytes 0 n ++ be32 crc).length = 12 + n := by
  simp only [List.length_append, length_be32, Memory.length_readBytes]; omega

/-- CHUNK.WRITE of data that DBUF holds is one write to OUT (41_framer.md R480). -/
theorem chunkWrite_body_run {s : State} (h : s.ch.length.toNat ≤ s.cfg.dbufCap) :
    Instr.body s .chunkWrite s =
      outWrite (be32 s.ch.length ++ be32 s.ch.type ++ s.mem.dbuf.readBytes 0 s.ch.length.toNat ++ be32 s.ch.crc) s :=
  Cmd.bind_ok (Cmd.leaving_ok (chunkData_ok h))

/-! ## The obligations -/

/-- Settles O24: the read, then the comparison; OUT takes the signature or nothing. -/
theorem signatureCommands : Obligations.SignatureCommands := by
  unfold Obligations.SignatureCommands
  refine fun s => ⟨fun h => ?_, fun h hs => ?_, fun h => ?_, fun h => ?_, fun h => ?_⟩ <;> rw [exec_eq_runCommand]
  · exact runCommand_ok (checkSignature_holds h)
  · exact runCommand_raised (checkSignature_wrong h hs)
  · exact runCommand_raised (checkSignature_short h)
  · exact runCommand_ok (outWrite_ok h)
  · exact runCommand_raised (outWrite_raised h)

/-- Settles O26: the data is read where DBUF holds it, and `CRC_OUT` is written before the comparison. -/
theorem chunkVerifyResult : Obligations.ChunkVerifyResult := by
  unfold Obligations.ChunkVerifyResult
  refine fun s => ⟨fun h => ?_, fun hl h => ?_, exec_chunkVerify_mismatch⟩ <;> rw [exec_eq_runCommand]
  · exact runCommand_raised (Cmd.bind_raised (chunkData_raised h))
  · exact runCommand_ok ((Cmd.bind_ok (chunkData_ok hl)).trans (checkCrc_ok s h))

/-- Settles O27: the data is read before anything is written, so a range error frees only what CHUNK.WRITE lists. -/
theorem chunkWriteResults : Obligations.ChunkWriteResults := by
  unfold Obligations.ChunkWriteResults
  refine fun s => ⟨fun h => ⟨?_, ?_⟩, fun h => ⟨?_, fun ho => ?_, fun ho => ?_⟩⟩
  · rw [exec_eq_runCommand]
    exact runCommand_raised (Cmd.bind_raised (chunkData_raised h))
  · let u := unspecified [.bytes .outp s.cnt.outLen.toNat (12 + s.ch.length.toNat), .outLen] s
    refine ⟨u.freeIdx, u.cnt.outLen, u.mem.outp, ?_, fun hw a => freeRange_read_outside _ _ _ _ _ _ a _ hw⟩
    rw [exec_eq_runCommand]
    exact runCommand_raised (Cmd.bind_raised (Cmd.leaving_raised (chunkData_raised h)))
  · rw [exec_eq_runCommand]
    exact runCommand_ok (Cmd.bind_ok (chunkData_ok h))
  · rw [exec_eq_runCommand]
    exact runCommand_ok ((chunkWrite_body_run h).trans (outWrite_ok (by rwa [length_writtenChunk])))
  · rw [exec_eq_runCommand]
    exact runCommand_raised ((chunkWrite_body_run h).trans (outWrite_raised (by rwa [length_writtenChunk])))

end Sys2Proof.Machine
end

section
/-! SUPPORT. What the values that an error leaves unspecified leave alone (60_exceptions.md R930, log 8). -/

namespace Sys2Proof.Machine

theorem foldl_free_induct {P : State → Prop} (k : Nat) (items : List Item)
    (hi : ∀ it ∈ items, ∀ t, P t → P (it.free k t)) (s : State) (h : P s) : P (items.foldl (fun t it => it.free k t) s) := by
  induction items generalizing s with
  | nil => exact h
  | cons it rest ih =>
    exact ih (fun j hj => hi j (List.mem_cons_of_mem _ hj)) _ (hi it (List.mem_cons_self ..) s h)

/-- What every item of a list keeps, the list keeps. -/
theorem unspecified_induct {P : State → Prop} {items : List Item} (h0 : ∀ k t, P t → P { t with freeIdx := k })
    (hi : ∀ it ∈ items, ∀ k t, P t → P (it.free k t)) {s : State} (h : P s) : P (unspecified items s) :=
  foldl_free_induct s.freeIdx items (fun it hit => hi it hit s.freeIdx) _ (h0 _ s h)

/-- A part of the state that every item of a list leaves, the list leaves. -/
theorem unspecified_keeps {β : Type} (f : State → β) {items : List Item} (h0 : ∀ k t, f { t with freeIdx := k } = f t)
    (hi : ∀ it ∈ items, ∀ k t, f (it.free k t) = f t) (s : State) : f (unspecified items s) = f s :=
  unspecified_induct (P := fun t => f t = f s) (fun k t h => (h0 k t).trans h) (fun it hit k t h => (hi it hit k t).trans h) rfl

/-- The space of which an item frees bytes. -/
def Item.space? : Item → Option Space
  | .space sp => some sp
  | .bytes sp _ _ => some sp
  | .inPos | .outLen | .chLength | .chType | .chCrc | .imgWidth | .imgHeight | .imgFormat | .imgInterlace | .decSeen => none
  | .palCount | .trnsCount | .pixMax | .stageLen | .inflLen | .filtLen | .deflLen | .rawLen | .pixLen | .metaLen => none
  | .metaCount | .idatCount | .stream _ => none

section Items

variable {it : Item} (k : Nat) (s : State)

theorem Item.free_crc : (it.free k s).crc = s.crc := by cases it <;> rfl

theorem Item.free_enc : (it.free k s).enc = s.enc := by cases it <;> rfl

theorem Item.free_get {sp : Space} (h : it.space? ≠ some sp) : (it.free k s).mem.get sp = s.mem.get sp := by
  cases it
  case space sq => exact Spaces.get_set_other _ _ _ _ fun he => h (congrArg some he.symm)
  case bytes sq off n => exact Spaces.get_set_other _ _ _ _ fun he => h (congrArg some he.symm)
  all_goals rfl

theorem Item.free_mem (h : it.space? = none) : (it.free k s).mem = s.mem := by
  cases it
  case space sq => cases h
  case bytes sq off n => cases h
  all_goals rfl

theorem Item.free_ch (h : it ∉ chunkItems) : (it.free k s).ch = s.ch := by
  cases it
  case chLength => exact absurd (by decide) h
  case chType => exact absurd (by decide) h
  case chCrc => exact absurd (by decide) h
  all_goals rfl

theorem Item.free_chType (h : it ≠ .chType) : (it.free k s).ch.type = s.ch.type := by
  cases it
  case chType => exact absurd rfl h
  all_goals rfl

theorem Item.free_chCrc (h : it ≠ .chCrc) : (it.free k s).ch.crc = s.ch.crc := by
  cases it
  case chCrc => exact absurd rfl h
  all_goals rfl

theorem Item.free_img (h : it ∉ imageItems) : (it.free k s).img = s.img := by
  cases it
  case imgWidth => exact absurd (by decide) h
  case imgHeight => exact absurd (by decide) h
  case imgFormat => exact absurd (by decide) h
  case imgInterlace => exact absurd (by decide) h
  all_goals rfl

theorem Item.free_inPos (h : it ≠ .inPos) : (it.free k s).cnt.inPos = s.cnt.inPos := by
  cases it
  case inPos => exact absurd rfl h
  all_goals rfl

end Items

section Lists

variable {items : List Item} (s : State)

@[simp] theorem unspecified_crc : (unspecified items s).crc = s.crc :=
  unspecified_keeps State.crc (fun _ _ => rfl) (fun _ _ k t => Item.free_crc k t) s

@[simp] theorem unspecified_enc : (unspecified items s).enc = s.enc :=
  unspecified_keeps State.enc (fun _ _ => rfl) (fun _ _ k t => Item.free_enc k t) s

theorem unspecified_get {sp : Space} (h : ∀ it ∈ items, it.space? ≠ some sp) :
    (unspecified items s).mem.get sp = s.mem.get sp :=
  unspecified_keeps (·.mem.get sp) (fun _ _ => rfl) (fun it hit k t => Item.free_get k t (h it hit)) s

theorem unspecified_mem (h : ∀ it ∈ items, it.space? = none) : (unspecified items s).mem = s.mem :=
  unspecified_keeps State.mem (fun _ _ => rfl) (fun it hit k t => Item.free_mem k t (h it hit)) s

theorem unspecified_ch (h : ∀ it ∈ items, it ∉ chunkItems) : (unspecified items s).ch = s.ch :=
  unspecified_keeps State.ch (fun _ _ => rfl) (fun it hit k t => Item.free_ch k t (h it hit)) s

theorem unspecified_chType (h : .chType ∉ items) : (unspecified items s).ch.type = s.ch.type :=
  unspecified_keeps (·.ch.type) (fun _ _ => rfl) (fun _ hit k t => Item.free_chType k t fun he => h (he ▸ hit)) s

theorem unspecified_chCrc (h : .chCrc ∉ items) : (unspecified items s).ch.crc = s.ch.crc :=
  unspecified_keeps (·.ch.crc) (fun _ _ => rfl) (fun _ hit k t => Item.free_chCrc k t fun he => h (he ▸ hit)) s

theorem unspecified_img (h : ∀ it ∈ items, it ∉ imageItems) : (unspecified items s).img = s.img :=
  unspecified_keeps State.img (fun _ _ => rfl) (fun it hit k t => Item.free_img k t (h it hit)) s

theorem unspecified_inPos (h : .inPos ∉ items) : (unspecified items s).cnt.inPos = s.cnt.inPos :=
  unspecified_keeps (·.cnt.inPos) (fun _ _ => rfl) (fun _ hit k t => Item.free_inPos k t fun he => h (he ▸ hit)) s

end Lists

end Sys2Proof.Machine
end

section
/-! SUPPORT. Reading a chunk that IN does not hold whole, or that is too long for DBUF (41_framer.md R450), and CHUNK.READ. -/

namespace Sys2Proof.Machine

/-! ## The length and the type -/

theorem chunkAhead_eq (s : State) :
    chunkAhead s =
      (u32be (s.mem.inp.readBytes s.cnt.inPos.toNat 4), u32be (s.mem.inp.readBytes (s.cnt.inPos.toNat + 4) 4)) := by
  have h := Memory.readBytes_add s.mem.inp s.cnt.inPos.toNat 4 4
  simp only [chunkAhead]
  rw [h, List.take_left' (by simp), List.drop_left' (by simp)]

theorem chunkAhead_holds {s : State} {len typ : Word} (h : s.inHolds (be32 len ++ be32 typ)) :
    chunkAhead s = (len, typ) := by
  have h2 : s.mem.inp.readBytes s.cnt.inPos.toNat 8 = be32 len ++ be32 typ := h.2
  simp only [chunkAhead]
  rw [h2, List.take_left' (by simp), List.drop_left' (by simp), u32be_be32, u32be_be32]

/-- The length and the type of the next chunk are read and written to their registers (41_framer.md R450). -/
def State.pastHead (s : State) : State :=
  { s.afterIn 8 with ch.length := (chunkAhead s).1, ch.type := (chunkAhead s).2 }

/-- The data of the chunk that IN holds next goes to STAGE (41_framer.md R450). -/
def ChunkSink.toStage (sink : ChunkSink) (s : State) : Bool := sink == .auto && idatAhead s

/-- `ReadChunk` behind the length and the type (41_framer.md R450). -/
theorem readChunk_head {sink : ChunkSink} {s : State} (h : 8 ≤ inAvail s) :
    readChunk sink s =
      ((Cmd.raiseIf (sink == .dbuf && !chunkFits (sink.toStage s) (chunkAhead s).1.toNat s) .capacityExceeded 2).andThen
        (readChunkBody (chunkAhead s).1.toNat (chunkAhead s).2 (sink.toStage s)
          (chunkFits (sink.toStage s) (chunkAhead s).1.toNat s))).leaving [.chCrc] s.pastHead := by
  have h4 : 4 ≤ inAvail (s.afterIn 4) := by rw [inAvail_afterIn (by omega)]; omega
  have ht : sink.toStage s = (sink == .auto && (chunkAhead s).2 == typeIDAT) := by
    simp [ChunkSink.toStage, idatAhead, h]
  have hp : s.pastHead =
      { (s.afterIn 4).afterIn 4 with ch := { s.ch with length := (chunkAhead s).1, type := (chunkAhead s).2 } } := by
    rw [State.afterIn_afterIn]; rfl
  rw [ht, hp, chunkAhead_eq, ← inPos_afterIn (show 4 ≤ inAvail s by omega)]
  refine (Cmd.bind_ok (Cmd.leaving_ok (readU32_ok (by omega)))).trans ((Cmd.andThen_ok (setChLength_run _ _)).trans ?_)
  refine (Cmd.bind_ok (Cmd.leaving_ok (readU32_ok ?_))).trans (Cmd.andThen_ok (setChType_run _ _))
  exact h4

/-! ## A chunk that IN does not hold whole -/

/-- `IN_POS`, the chunk registers, DBUF and the model's counter of free values replaced: all that a read of a chunk changes. -/
def State.withChunk (s : State) (pos : Word) (ch : ChunkRegs) (m : Memory) (k : Nat) : State :=
  { s with cnt.inPos := pos, ch := ch, mem.dbuf := m, freeIdx := k }

/-- What `ReadChunk` leaves of `s` where IN ends in the chunk: the fields before the one that does not fit are consumed, and
`CH_LENGTH` and `CH_TYPE` hold those of them that were read; DBUF is as before from `CH_LENGTH` on, and all of it where the
data goes to STAGE or is too long for DBUF (41_framer.md R450). -/
structure ChunkCut (toStage : Bool) (s v : State) : Prop where
  kept : ∃ pos ch m k, v = s.withChunk pos ch m k
  inPos :
    v.cnt.inPos = s.cnt.inPos +
      (if inAvail s < 4 then 0 else if inAvail s < 8 then 4 else if inAvail s < 8 + (chunkAhead s).1.toNat then 8
        else 8 + (chunkAhead s).1)
  length : 4 ≤ inAvail s → v.ch.length = (chunkAhead s).1
  type : 8 ≤ inAvail s → v.ch.type = (chunkAhead s).2
  dbuf : s.mem.dbuf.wf → v.mem.dbuf.wf ∧ ∀ a, v.ch.length.toNat ≤ a → v.mem.dbuf.read a = s.mem.dbuf.read a
  aside : 8 ≤ inAvail s → toStage = true ∨ s.cfg.dbufCap < (chunkAhead s).1.toNat → v.mem.dbuf = s.mem.dbuf

theorem ChunkCut.crc {toStage : Bool} {s v : State} (h : ChunkCut toStage s v) : v.crc = s.crc := by
  obtain ⟨pos, ch, m, k, rfl⟩ := h.kept
  rfl

theorem ChunkCut.others {toStage : Bool} {s v : State} (h : ChunkCut toStage s v) {sp : Space} (hsp : sp ≠ .dbuf) :
    v.mem.get sp = s.mem.get sp := by
  obtain ⟨pos, ch, m, k, rfl⟩ := h.kept
  exact Spaces.get_set_other s.mem .dbuf sp m hsp

theorem ChunkCut.mem {toStage : Bool} {s v : State} (h : ChunkCut toStage s v) (h8 : 8 ≤ inAvail s)
    (ha : toStage = true ∨ s.cfg.dbufCap < (chunkAhead s).1.toNat) : v.mem = s.mem := by
  have hd := h.aside h8 ha
  obtain ⟨pos, ch, m, k, rfl⟩ := h.kept
  exact congrArg (fun d => { s.mem with dbuf := d }) hd

/-- Freeing the chunk's bytes of DBUF leaves what `ChunkCut` says. -/
theorem ChunkCut.leaveChunkData {toStage : Bool} {s v : State} (h : ChunkCut toStage s v) (e : Err) :
    ChunkCut toStage s (leaveChunkData toStage e v) := by
  obtain ⟨⟨pos, ch, m, k, rfl⟩, hpos, hlen, htyp, hdbuf, haside⟩ := h
  unfold Machine.leaveChunkData
  split
  case isFalse => exact ⟨⟨pos, ch, m, k, rfl⟩, hpos, hlen, htyp, hdbuf, haside⟩
  case isTrue hc =>
    obtain ⟨-, ht, hl⟩ := hc
    refine ⟨⟨_, _, _, _, rfl⟩, hpos, hlen, htyp, fun hw => ?_, fun h8 ha => ?_⟩
    · obtain ⟨hmw, hread⟩ := hdbuf hw
      refine ⟨freeRange_wf _ _ _ _ _ _ _ hmw, fun a ha => .trans ?_ (hread a ha)⟩
      exact freeRange_read_outside s.cfg k _ .dbuf 0 _ a _ hmw (Or.inr (by rwa [Nat.zero_add]))
    · rw [hlen (by omega)] at hl
      exact absurd (ha.resolve_left (by simp [ht])) (Nat.not_lt.2 hl)

theorem chunkFits_dbuf (len : Nat) (s : State) : chunkFits false len s = true ↔ len ≤ s.cfg.dbufCap := by simp [chunkFits]

theorem inAvail_pastHead {s : State} (h : 8 ≤ inAvail s) : inAvail s.pastHead = inAvail s - 8 := inAvail_afterIn h

/-- The data and the CRC where IN ends in them: the data is consumed where IN holds it, and then written to DBUF where it
belongs there and fits (41_framer.md R450). -/
theorem readChunkBody_cut {len : Nat} {typ : Word} {toStage fits : Bool} {s : State} (hc : inAvail s < len + 4)
    (hfit : toStage = false → fits = true → len ≤ s.cfg.dbufCap) :
    ∃ m : Memory,
      readChunkBody len typ toStage fits s =
          .raised .unexpectedEof 0 { s.afterIn (if inAvail s < len then 0 else len) with mem.dbuf := m } ∧
        (s.mem.dbuf.wf → m.wf ∧ ∀ a, len ≤ a → m.read a = s.mem.dbuf.read a) ∧
        (toStage = true ∨ fits = false → m = s.mem.dbuf) := by
  rcases Nat.lt_or_ge (inAvail s) len with hd | hd
  · refine ⟨s.mem.dbuf, ?_, fun hw => ⟨hw, fun _ _ => rfl⟩, fun _ => rfl⟩
    rw [if_pos hd, State.afterIn_zero]
    exact Cmd.bind_raised (readIn_raised hd)
  rw [if_neg (by omega)]
  have hcut : inAvail (s.afterIn len) < 4 := by rw [inAvail_afterIn hd]; omega
  by_cases hw : (!toStage && fits) = true
  · have hf : toStage = false ∧ fits = true := by simpa using hw
    have hlen := Memory.length_readBytes s.mem.inp s.cnt.inPos.toNat len
    refine ⟨s.mem.dbuf.writeBytes 0 (s.mem.inp.readBytes s.cnt.inPos.toNat len), ?_, fun hm => ?_, fun ha => ?_⟩
    · refine (Cmd.bind_ok (readIn_ok hd)).trans ?_
      rw [if_pos hw]
      refine (Cmd.andThen_ok (memWrite_ok ?_)).trans (Cmd.bind_raised (readU32_raised hcut))
      rw [hlen, Nat.zero_add]; exact hfit hf.1 hf.2
    · exact ⟨Memory.wf_writeBytes _ _ _ hm, fun a ha => Memory.read_writeBytes_outside _ _ _ _ hm (Or.inr (by omega))⟩
    · rw [hf.1, hf.2] at ha; simp at ha
  · refine ⟨s.mem.dbuf, ?_, fun hm => ⟨hm, fun _ _ => rfl⟩, fun _ => rfl⟩
    refine (Cmd.bind_ok (readIn_ok hd)).trans ?_
    rw [if_neg hw]
    exact (Cmd.andThen_ok (Cmd.ret_run _ _)).trans (Cmd.bind_raised (readU32_raised hcut))

/-- `ReadChunk` where IN holds the length and the type and ends behind them. -/
theorem readChunk_cut_body {sink : ChunkSink} {s : State} (h8 : 8 ≤ inAvail s)
    (hsink : sink = .dbuf → (chunkAhead s).1.toNat ≤ s.cfg.dbufCap) (hc : inAvail s < 12 + (chunkAhead s).1.toNat) :
    ∃ v, readChunk sink s = .raised .unexpectedEof 0 v ∧ ChunkCut (sink.toStage s) s v := by
  have hp := inAvail_pastHead h8
  have hpass : (sink == .dbuf && !chunkFits (sink.toStage s) (chunkAhead s).1.toNat s) = false := by
    cases sink with
    | auto => rfl
    | dbuf => exact congrArg (!·) ((chunkFits_dbuf _ s).2 (hsink rfl))
  obtain ⟨m, hrun, hm, haside⟩ := readChunkBody_cut (s := s.pastHead) (typ := (chunkAhead s).2) (toStage := sink.toStage s)
    (fits := chunkFits (sink.toStage s) (chunkAhead s).1.toNat s) (len := (chunkAhead s).1.toNat) (by omega)
    (fun ht hf => by rw [ht] at hf; exact (chunkFits_dbuf _ s).1 hf)
  refine ⟨_, (readChunk_head h8).trans (Cmd.leaving_raised ((Cmd.andThen_ok (Cmd.raiseIf_false hpass _)).trans hrun)),
    ⟨_, _, _, _, rfl⟩, ?_, fun _ => rfl, fun _ => rfl, hm, fun _ ha => haside ?_⟩
  · rw [if_neg (show ¬inAvail s < 4 by omega), if_neg (show ¬inAvail s < 8 by omega)]
    rcases Nat.lt_or_ge (inAvail s) (8 + (chunkAhead s).1.toNat) with hd | hd
    · rw [if_pos hd, if_pos (by omega), State.afterIn_zero]; rfl
    · rw [if_neg (show ¬inAvail s < 8 + _ by omega), if_neg (by omega), ← BitVec.add_assoc]
      exact congrArg (s.cnt.inPos + 8 + ·) ((BitVec.ofNat_toNat _ _).trans (BitVec.setWidth_eq _))
  · cases ht : sink.toStage s with
    | true => exact .inl rfl
    | false => exact .inr (by simpa [ht, chunkFits] using ha)

/-- `ReadChunk` where IN ends in the chunk. A chunk that is longer than DBUF ends a read into DBUF before (R450). -/
theorem readChunk_cut {sink : ChunkSink} {s : State}
    (h : inAvail s < 8 ∨
      ((sink = .dbuf → (chunkAhead s).1.toNat ≤ s.cfg.dbufCap) ∧ inAvail s < 12 + (chunkAhead s).1.toNat)) :
    ∃ v, readChunk sink s = .raised .unexpectedEof 0 v ∧ ChunkCut (sink.toStage s) s v := by
  rcases Nat.lt_or_ge (inAvail s) 4 with h4 | h4
  · refine ⟨_, Cmd.bind_raised (Cmd.leaving_raised (readU32_raised h4)), ⟨_, _, _, _, rfl⟩, ?_, by omega, by omega,
      fun hw => ⟨hw, fun _ _ => rfl⟩, by omega⟩
    rw [if_pos h4]; exact (BitVec.add_zero _).symm
  rcases Nat.lt_or_ge (inAvail s) 8 with h8 | h8
  · have hcut : inAvail (s.afterIn 4) < 4 := by rw [inAvail_afterIn h4]; omega
    refine ⟨_, (Cmd.bind_ok (Cmd.leaving_ok (readU32_ok h4))).trans ((Cmd.andThen_ok (setChLength_run _ _)).trans
      (Cmd.bind_raised (Cmd.leaving_raised (readU32_raised hcut)))), ⟨_, _, _, _, rfl⟩, ?_, fun _ => ?_, by omega,
      fun hw => ⟨hw, fun _ _ => rfl⟩, by omega⟩
    · rw [if_neg (by omega), if_pos h8]; rfl
    · rw [chunkAhead_eq]; rfl
  obtain ⟨hsink, hc⟩ := h.resolve_left (by omega)
  exact readChunk_cut_body h8 hsink hc

/-! ## CHUNK.READ -/

/-- A chunk that is longer than DBUF ends a read into DBUF behind its length and type (41_framer.md R450). -/
theorem readChunk_dbuf_long {s : State} (h8 : 8 ≤ inAvail s) (hl : s.cfg.dbufCap < (chunkAhead s).1.toNat) :
    readChunk .dbuf s = .raised .capacityExceeded 2 (unspecified [.chCrc] s.pastHead) := by
  have hf : (ChunkSink.dbuf == .dbuf && !chunkFits (ChunkSink.dbuf.toStage s) (chunkAhead s).1.toNat s) = true := by
    have : ¬chunkFits false (chunkAhead s).1.toNat s = true := fun h => absurd ((chunkFits_dbuf _ s).1 h) (Nat.not_le.2 hl)
    exact congrArg (!·) (Bool.not_eq_true _ ▸ this)
  exact (readChunk_head h8).trans (Cmd.leaving_raised (Cmd.andThen_raised (Cmd.raiseIf_true hf _)))

theorem exec_chunkRead_ok {s t : State} {c : Chunk} (h : readChunk .dbuf s = .ok c t) :
    exec .chunkRead s = .next (finish t) := by
  rw [exec_eq_runCommand]
  exact runCommand_ok (Cmd.bind_ok (Cmd.onRaise_ok h))

theorem exec_chunkRead_raised {s v : State} {e : Err} {info : Word} (h : readChunk .dbuf s = .raised e info v) :
    exec .chunkRead s = .next (errorEntry .other e info (leaveChunkData false e v)) := by
  rw [exec_eq_runCommand]
  exact runCommand_raised (Cmd.bind_raised (Cmd.onRaise_raised h))

/-- A chunk that IN holds is no longer than a length field can say (30_encoding.md R321). -/
theorem length_lt_of_inHolds {s : State} {typ crc : Word} {data : Bytes} (h : s.inHolds (rawChunk typ data crc)) :
    data.length < 2 ^ 32 := by
  have hle := h.1
  have hlt := s.cnt.inLen.isLt
  simp only [rawChunk, List.length_append, inAvail] at hle
  omega

/-- Settles O25: the three ways a chunk can stand in IN, each with the state `ReadChunk` leaves. -/
theorem chunkReadResults : Obligations.ChunkReadResults := by
  unfold Obligations.ChunkReadResults
  refine ⟨fun s typ crc data hd h => ?_, fun s len typ h hl => ?_, fun s h => ?_⟩
  · exact exec_chunkRead_ok (readChunk_dbuf_holds (length_lt_of_inHolds h) hd h)
  · have ha := chunkAhead_holds h
    have hrun := exec_chunkRead_raised (readChunk_dbuf_long h.1 (by rwa [ha]))
    exact ⟨_, hrun, rfl, rfl, rfl, congrArg Prod.fst ha, congrArg Prod.snd ha, rfl⟩
  · have ha := chunkAhead_eq s
    obtain ⟨v, hv, hcut⟩ := readChunk_cut (sink := .dbuf) (s := s) (by rw [ha]; exact h.imp_right (.imp_left fun h _ => h))
    have hcut : ChunkCut false s (leaveChunkData false .unexpectedEof v) := hcut.leaveChunkData .unexpectedEof
    have hrun := exec_chunkRead_raised hv
    generalize leaveChunkData false .unexpectedEof v = w at hcut hrun
    have hother : ∀ sp, sp ≠ .dbuf → w.mem.get sp = s.mem.get sp := fun _ => hcut.others
    obtain ⟨⟨pos, ch, m, k, rfl⟩, hpos, hlen, htyp, hdbuf, -⟩ := hcut
    rw [ha] at hpos hlen htyp
    exact ⟨_, hrun, rfl, rfl, congrArg (fun p => { s.cnt with inPos := p }) hpos, hlen, htyp, rfl, rfl, rfl, rfl, hother,
      fun hw => (hdbuf hw).2⟩

end Sys2Proof.Machine
end

section
/-! SUPPORT. The checks of `CheckHeader()`, by the first one that fails (44_decode.md R666). -/

namespace Sys2Proof.Machine

theorem bitDepthKnown_eq_false (bd : Byte) : bitDepthKnown bd = false ↔ bd ∉ ([1, 2, 4, 8, 16] : List Byte) := by
  simp [bitDepthKnown, and_assoc]

theorem colorTypeKnown_eq_false (ct : Byte) : colorTypeKnown ct = false ↔ ct ∉ ([0, 2, 3, 4, 6] : List Byte) := by
  simp [colorTypeKnown, and_assoc]

/-- A check before the rest of a piece. -/
theorem Cmd.andThen_check {α : Type} {p : Prop} [Decidable p] {m : Cmd Unit} {s : State} {e : Err} {info : Word}
    (h : m s = if p then .raised e info s else .ok () s) (n : Cmd α) :
    m.andThen n s = if p then .raised e info s else n s := by
  by_cases hp : p
  · rw [if_pos hp] at h ⊢; exact Cmd.andThen_raised h
  · rw [if_neg hp] at h ⊢; exact Cmd.andThen_ok h

/-- The colour checks before the rest of a piece (42_filter.md R545). -/
theorem checkColor_andThen (n : Cmd Unit) (s : State) :
    checkColor.andThen n s =
      if s.img.bitDepth ∉ ([1, 2, 4, 8, 16] : List Byte) then .raised .invalidBitDepth 0 s
      else if s.img.colorType ∉ ([0, 2, 3, 4, 6] : List Byte) then .raised .invalidColorType 0 s
      else if legalPair s.img.colorType s.img.bitDepth = false then .raised .invalidBitDepth 0 s
      else n s := by
  rw [Cmd.andThen_run, checkColor]
  simp only [Bool.not_eq_true', bitDepthKnown_eq_false, colorTypeKnown_eq_false]
  split_ifs <;> rfl

/-- `CheckHeader()` raises the first error of its checks (44_decode.md R666). -/
theorem checkHeader_run (s : State) : checkHeader s = s.headerError.elim (.ok () s) fun e => .raised e 0 s := by
  rw [checkHeader, Cmd.andThen_check (m := checkSize) rfl, checkColor_andThen,
    Cmd.andThen_check (m := checkCompressionMethod) rfl]
  unfold checkFilterMethod State.headerError
  split_ifs <;> rfl

theorem checkHeader_raised {s : State} {e : Err} (h : s.headerError = some e) : checkHeader s = .raised e 0 s := by
  rw [checkHeader_run, h]; rfl

theorem headerOk_of_headerError {s : State} (h : s.headerError = none) : s.img.headerOk := by
  unfold State.headerError at h
  split_ifs at h with hsize hbd hct hpair hcomp hfilt
  obtain ⟨hw, hh⟩ := not_or.1 hsize
  exact ⟨hw, hh, ⟨by simpa using hpair, by simpa using hfilt⟩, by simpa using hcomp⟩

end Sys2Proof.Machine
end

section
/-! SUPPORT. A chunk that IN holds: what `ReadChunk` leaves, its CRC, and what an error frees of DBUF (41_framer.md R450, R451,
44_decode.md R662). -/

namespace Sys2Proof.Machine

/-! ## The chunk and its CRC -/

/-- What `ReadChunk(IN, AUTO)` answers of a chunk that IN holds (41_framer.md R450). -/
def State.chunkRead (s : State) (typ : Word) (data : Bytes) (crc : Word) : Chunk :=
  { len := data.length, typ := typ, data := data, crc := crc, toStage := typ == typeIDAT
    fits := chunkFits (typ == typeIDAT) data.length s }

/-- What `ReadChunk(IN, AUTO)` leaves of `s` behind a chunk that IN holds (41_framer.md R450). -/
def State.pastChunk (s : State) (typ : Word) (data : Bytes) (crc : Word) : State :=
  { s with
    cnt := (s.afterIn (12 + data.length)).cnt
    ch := { length := BitVec.ofNat 32 data.length, type := typ, crc := crc }
    mem :=
      if !(typ == typeIDAT) && chunkFits (typ == typeIDAT) data.length s then
        s.mem.set .dbuf (s.mem.dbuf.writeBytes 0 data)
      else s.mem }

theorem readChunk_auto {s : State} {typ crc : Word} {data : Bytes} (h : s.inHolds (rawChunk typ data crc)) :
    readChunk .auto s = .ok (s.chunkRead typ data crc) (s.pastChunk typ data crc) :=
  readChunk_auto_holds (length_lt_of_inHolds h) h

/-- `CRC_OUT` holds the computed CRC where the comparison is enabled (44_decode.md R662). -/
def State.crcChecked (s : State) (typ : Word) (data : Bytes) : State :=
  { s with crc.out := if s.ctrl.crcCheckEn then chunkCrc typ data else s.crc.out }

theorem checkCrcIfEnabled_ok {c : Chunk} {s : State} (h : s.ctrl.crcCheckEn = true → c.crc = chunkCrc c.typ c.data) :
    checkCrcIfEnabled c s = .ok () (s.crcChecked c.typ c.data) := by
  unfold checkCrcIfEnabled State.crcChecked
  split
  case isTrue he =>
    rw [checkCrc, Cmd.andThen_ok (setCrcOut_run _ s)]
    exact Cmd.raiseIf_false (by simp [h he]) _
  case isFalse he => rfl

theorem checkCrcIfEnabled_raised {c : Chunk} {s : State} (h : ¬(s.ctrl.crcCheckEn = true → c.crc = chunkCrc c.typ c.data)) :
    checkCrcIfEnabled c s = .raised .corruptedChunk c.typ (s.crcChecked c.typ c.data) := by
  obtain ⟨he, hne⟩ := Classical.not_imp.1 h
  unfold checkCrcIfEnabled State.crcChecked
  rw [if_pos he, if_pos he]
  exact checkCrc_raised s (Ne.symm hne)

/-! ## What an error leaves of DBUF -/

/-- From `m` to `m'` only bytes of DBUF below `n` have changed, and none where `kept` holds. -/
structure DbufBelow (n : Nat) (kept : Prop) (m m' : Spaces) : Prop where
  others : ∀ sp, sp ≠ .dbuf → m'.get sp = m.get sp
  beyond : m.dbuf.wf → m'.dbuf.wf ∧ ∀ a, n ≤ a → m'.dbuf.read a = m.dbuf.read a
  whole : kept → m' = m

theorem DbufBelow.refl {n : Nat} {kept : Prop} (m : Spaces) : DbufBelow n kept m m :=
  ⟨fun _ _ => rfl, fun hw => ⟨hw, fun _ _ => rfl⟩, fun _ => rfl⟩

theorem DbufBelow.trans {n : Nat} {kept : Prop} {m m' m'' : Spaces} (h : DbufBelow n kept m m')
    (k : DbufBelow n kept m' m'') : DbufBelow n kept m m'' where
  others sp hsp := (k.others sp hsp).trans (h.others sp hsp)
  beyond hw := ⟨(k.beyond (h.beyond hw).1).1, fun a ha => ((k.beyond (h.beyond hw).1).2 a ha).trans ((h.beyond hw).2 a ha)⟩
  whole hx := (k.whole hx).trans (h.whole hx)

/-- A write of `n` bytes from the start of DBUF. -/
theorem DbufBelow.write {n : Nat} {kept : Prop} {v : Bytes} (m : Spaces) (hv : v.length ≤ n) (hx : ¬kept) :
    DbufBelow n kept m (m.set .dbuf (m.dbuf.writeBytes 0 v)) where
  others _ hsp := Spaces.get_set_other _ _ _ _ hsp
  beyond hw := ⟨Memory.wf_writeBytes _ _ _ hw, fun a ha => Memory.read_writeBytes_outside _ _ _ _ hw (Or.inr (by omega))⟩
  whole h := absurd h hx

theorem chunkRead_inDbuf {s : State} {typ crc : Word} {data : Bytes}
    (h : ((s.chunkRead typ data crc).fits && !(s.chunkRead typ data crc).toStage) = true) :
    ¬(typ = typeIDAT ∨ s.cfg.dbufCap < data.length) := by
  obtain ⟨hf, ht⟩ : chunkFits (typ == typeIDAT) data.length s = true ∧ (typ == typeIDAT) = false := by
    simpa [State.chunkRead] using h
  rw [ht] at hf
  exact not_or.2 ⟨by simpa using ht, Nat.not_lt.2 ((chunkFits_dbuf _ s).1 hf)⟩

theorem pastChunk_mem (s : State) (typ : Word) (data : Bytes) (crc : Word) :
    DbufBelow data.length (typ = typeIDAT ∨ s.cfg.dbufCap < data.length) s.mem (s.pastChunk typ data crc).mem := by
  unfold State.pastChunk
  split
  case isTrue h => exact .write s.mem (Nat.le_refl _) (chunkRead_inDbuf (crc := crc) (by rwa [Bool.and_comm]))
  case isFalse => exact .refl s.mem

/-- The items of `DecHeader()` behind its reads: the chunk's bytes of DBUF, and registers (44_decode.md R710). -/
theorem mem_headerLeaves {c : Chunk} {it : Item} (h : it ∈ c.headerLeaves) :
    (it = .bytes .dbuf 0 c.len ∧ (c.fits && !c.toStage) = true) ∨ it ∈ [Item.inPos, .chLength, .chType] := by
  obtain h | h := List.mem_append.1 h
  · unfold Chunk.dbufItems at h
    split at h
    case isTrue hc => exact .inl ⟨List.mem_singleton.1 h, hc⟩
    case isFalse => cases h
  · exact .inr h

/-- An error of `DecHeader()` behind its reads leaves every space but DBUF, and DBUF behind the chunk's bytes. -/
theorem unspecified_headerLeaves_mem (s : State) (typ : Word) (data : Bytes) (crc : Word) {items : List Item}
    (hi : ∀ it ∈ items, it.space? = none) (w : State) :
    DbufBelow data.length (typ = typeIDAT ∨ s.cfg.dbufCap < data.length) w.mem
      (unspecified ((s.chunkRead typ data crc).headerLeaves ++ items) w).mem := by
  refine unspecified_induct (P := fun t => DbufBelow _ _ w.mem t.mem) (fun _ _ h => h) (fun it hit k t ht => ?_) (.refl _)
  obtain hit | hit := List.mem_append.1 hit
  · obtain ⟨rfl, hc⟩ | hit := mem_headerLeaves hit
    · refine ht.trans (.write t.mem ?_ (chunkRead_inDbuf hc))
      rw [List.length_map, List.length_range]
      exact Nat.min_le_left _ _
    · rw [Item.free_mem k t ((by decide : ∀ it ∈ [Item.inPos, .chLength, .chType], it.space? = none) it hit)]
      exact ht
  · rw [Item.free_mem k t (hi it hit)]
    exact ht

theorem chCrc_notMem_headerLeaves (c : Chunk) : Item.chCrc ∉ c.headerLeaves := by
  intro h
  obtain ⟨he, -⟩ | h := mem_headerLeaves h
  · cases he
  · exact absurd h (by decide)

theorem headerLeaves_notMem_imageItems (c : Chunk) : ∀ it ∈ c.headerLeaves, it ∉ imageItems := by
  intro it h
  obtain ⟨rfl, -⟩ | h := mem_headerLeaves h
  · exact by simp [imageItems]
  · exact (by decide : ∀ it ∈ [Item.inPos, .chLength, .chType], it ∉ imageItems) it h

end Sys2Proof.Machine
end

section
/-! SUPPORT. How DEC.HEADER fails, check by check (44_decode.md R655, R665, R710). -/

namespace Sys2Proof.Machine

/-! ## The reads -/

/-- DEC.HEADER in `s` ends in `t` with an error that its pseudocode raised in `v`. -/
structure HeaderFails (s : State) (e : Err) (info : Word) (v t : State) : Prop where
  run : exec .decHeader s = .next t
  code : t.errCode = e.code
  info : t.errInfo = info
  err : t.status.err = true
  state : t.dec.state = .failed
  crc : t.crc = v.crc
  ch : t.ch = v.ch
  img : t.img = v.img
  mem : t.mem = v.mem

theorem headerFails_of_raised {s v : State} {e : Err} {info : Word} (h : decHeader (decStartState s) = .raised e info v) :
    ∃ t, HeaderFails s e info v t := by
  refine ⟨_, (exec_eq_runCommand _ _).trans
    (runCommand_raised (Cmd.leaving_raised ((Cmd.andThen_ok (Cmd.update_run _ s)).trans h))), rfl, rfl, rfl, rfl,
    ?_, ?_, ?_, ?_⟩
  · exact unspecified_crc v
  · exact unspecified_ch v (by decide)
  · exact unspecified_img v (by decide)
  · exact unspecified_mem v (by decide)

/-- An error of the reads leaves the spaces, the chunk registers and the CRC registers as the reads left them. -/
theorem headerFails_of_unread {s v : State} {e : Err} {info : Word} (h : readHeader (decStartState s) = .raised e info v) :
    ∃ t, HeaderFails s e info { v with img := t.img } t := by
  obtain ⟨t, ht⟩ := headerFails_of_raised (Cmd.bind_raised (Cmd.leaving_raised h))
  exact ⟨t, ht.run, ht.code, ht.info, ht.err, ht.state, ht.crc.trans (unspecified_crc v),
    ht.ch.trans (unspecified_ch v (by decide)), rfl, ht.mem.trans (unspecified_mem v (by decide))⟩

theorem inAvail_decStartState (s : State) : inAvail (decStartState s) = s.cnt.inLen.toNat := Nat.sub_zero _

/-- DEC.HEADER behind the signature (44_decode.md R651, R655). -/
def State.pastSignature (s : State) : State := (decStartState s).afterIn 8

theorem inAvail_pastSignature {s : State} (h : 8 ≤ s.cnt.inLen.toNat) : inAvail s.pastSignature = s.cnt.inLen.toNat - 8 := by
  have := inAvail_decStartState s
  rw [State.pastSignature, inAvail_afterIn (by omega), this]

theorem chunkAhead_pastSignature (s : State) :
    chunkAhead s.pastSignature = (u32be (s.mem.inp.readBytes 8 4), u32be (s.mem.inp.readBytes 12 4)) :=
  chunkAhead_eq s.pastSignature

theorem readHeader_short {s : State} (h : inAvail s < 8) :
    readHeader s = .raised .unexpectedEof 0 (unspecified chunkItems s) :=
  Cmd.andThen_raised (Cmd.bind_raised (Cmd.leaving_raised (readIn_raised h)))

theorem readHeader_wrong {s : State} (h : 8 ≤ inAvail s) (hs : s.mem.inp.readBytes s.cnt.inPos.toNat 8 ≠ pngSignature) :
    readHeader s = .raised .invalidSignature 0 (unspecified (chunkItems ++ [.inPos]) (s.afterIn 8)) :=
  Cmd.andThen_raised ((Cmd.bind_ok (Cmd.leaving_ok (readIn_ok h))).trans
    (Cmd.leaving_raised (Cmd.raiseIf_true (bne_iff_ne.2 hs) _)))

theorem readHeader_signed {s : State} (h : s.inHolds pngSignature) :
    readHeader s = (readChunk .auto).onRaise (leaveChunkData (idatAhead (s.afterIn 8))) (s.afterIn 8) :=
  Cmd.andThen_ok ((Cmd.bind_ok (Cmd.leaving_ok (readIn_holds h))).trans (Cmd.leaving_ok (Cmd.raiseIf_false (by simp) _)))

/-- A first chunk that IN does not hold whole (44_decode.md R655). -/
theorem readHeader_cut {s : State} (h8 : 8 ≤ s.cnt.inLen.toNat) (hs : s.mem.inp.readBytes 0 8 = pngSignature)
    (hc : s.cnt.inLen.toNat < 16 ∨ s.cnt.inLen.toNat < 20 + (u32be (s.mem.inp.readBytes 8 4)).toNat) :
    ∃ v, readHeader (decStartState s) = .raised .unexpectedEof 0 v ∧
      ChunkCut (idatAhead s.pastSignature) s.pastSignature v := by
  have ha := inAvail_pastSignature h8
  have hn := chunkAhead_pastSignature s
  obtain ⟨v, hv, hcut⟩ := readChunk_cut (sink := .auto) (s := s.pastSignature)
    (by rw [hn]; exact hc.imp (fun _ => by omega) fun _ => ⟨nofun, by simp only; omega⟩)
  refine ⟨_, (readHeader_signed ⟨?_, hs⟩).trans (Cmd.onRaise_raised hv), hcut.leaveChunkData .unexpectedEof⟩
  rw [inAvail_decStartState]; exact h8

/-! ## The checks behind the reads -/

theorem checkIhdrChunk_type {c : Chunk} (h : c.typ ≠ typeIHDR) (s : State) :
    checkIhdrChunk c s = .raised .ihdrNotFound c.typ s := Cmd.andThen_raised (Cmd.raiseIf_true (bne_iff_ne.2 h) s)

theorem checkIhdrChunk_ihdr {c : Chunk} (h : c.typ = typeIHDR) (s : State) :
    checkIhdrChunk c s =
      ((Cmd.raiseIf (!c.fits) .capacityExceeded 2).andThen (Cmd.raiseIf (decide (c.len < 13)) .unexpectedEof 0)) s :=
  Cmd.andThen_ok (Cmd.raiseIf_false (by simp [h]) s)

theorem checkIhdrChunk_long {c : Chunk} (ht : c.typ = typeIHDR) (hf : c.fits = false) (s : State) :
    checkIhdrChunk c s = .raised .capacityExceeded 2 s :=
  (checkIhdrChunk_ihdr ht s).trans (Cmd.andThen_raised (Cmd.raiseIf_true (by rw [hf]; rfl) s))

theorem checkIhdrChunk_short {c : Chunk} (ht : c.typ = typeIHDR) (hf : c.fits = true) (hl : c.len < 13) (s : State) :
    checkIhdrChunk c s = .raised .unexpectedEof 0 s :=
  (checkIhdrChunk_ihdr ht s).trans
    ((Cmd.andThen_ok (Cmd.raiseIf_false (by rw [hf]; rfl) s)).trans (Cmd.raiseIf_true (decide_eq_true hl) s))

theorem checkIhdrChunk_ok {c : Chunk} (ht : c.typ = typeIHDR) (hf : c.fits = true) (hl : 13 ≤ c.len) (s : State) :
    checkIhdrChunk c s = .ok () s :=
  (checkIhdrChunk_ihdr ht s).trans ((Cmd.andThen_ok (Cmd.raiseIf_false (by rw [hf]; rfl) s)).trans
    (Cmd.raiseIf_false (decide_eq_false (Nat.not_lt.2 hl)) s))

theorem decHeader_corrupted {s v : State} {c : Chunk} (h : readHeader s = .ok c v)
    (hc : ¬(v.ctrl.crcCheckEn = true → c.crc = chunkCrc c.typ c.data)) :
    decHeader s =
      .raised .corruptedChunk c.typ (unspecified (c.headerLeaves ++ imageItems) (v.crcChecked c.typ c.data)) :=
  (Cmd.bind_ok (Cmd.leaving_ok h)).trans (Cmd.andThen_raised (Cmd.leaving_raised (checkCrcIfEnabled_raised hc)))

theorem decHeader_badChunk {s v : State} {c : Chunk} {e : Err} {info : Word} (h : readHeader s = .ok c v)
    (hc : v.ctrl.crcCheckEn = true → c.crc = chunkCrc c.typ c.data)
    (hr : checkIhdrChunk c (v.crcChecked c.typ c.data) = .raised e info (v.crcChecked c.typ c.data)) :
    decHeader s = .raised e info (unspecified (c.headerLeaves ++ .chCrc :: imageItems) (v.crcChecked c.typ c.data)) :=
  (Cmd.bind_ok (Cmd.leaving_ok h)).trans ((Cmd.andThen_ok (Cmd.leaving_ok (checkCrcIfEnabled_ok hc))).trans
    (Cmd.andThen_raised (Cmd.leaving_raised hr)))

theorem decHeader_badFields {s v : State} {c : Chunk} {e : Err} (h : readHeader s = .ok c v)
    (hc : v.ctrl.crcCheckEn = true → c.crc = chunkCrc c.typ c.data)
    (hr : checkIhdrChunk c (v.crcChecked c.typ c.data) = .ok () (v.crcChecked c.typ c.data))
    (he : State.headerError { v.crcChecked c.typ c.data with img := parseIhdr c.data v.img } = some e) :
    decHeader s =
      .raised e 0 (unspecified (c.headerLeaves ++ [.chCrc])
        { v.crcChecked c.typ c.data with img := parseIhdr c.data v.img }) :=
  (Cmd.bind_ok (Cmd.leaving_ok h)).trans ((Cmd.andThen_ok (Cmd.leaving_ok (checkCrcIfEnabled_ok hc))).trans
    ((Cmd.andThen_ok (Cmd.leaving_ok hr)).trans ((Cmd.andThen_ok (Cmd.update_run _ _)).trans
      (Cmd.andThen_raised (Cmd.leaving_raised (checkHeader_raised he))))))

/-! ## DEC.HEADER on a first chunk that IN holds -/

section ChunkHeld

variable {s : State} {typ crc : Word} {data : Bytes}

theorem readHeader_holds (hl : 20 + data.length ≤ s.cnt.inLen.toNat)
    (hb : s.mem.inp.readBytes 0 (20 + data.length) = pngSignature ++ rawChunk typ data crc) :
    readHeader (decStartState s) =
      .ok (s.pastSignature.chunkRead typ data crc) (s.pastSignature.pastChunk typ data crc) := by
  have hlen : (pngSignature ++ rawChunk typ data crc).length = 20 + data.length := by
    rw [← hb, Memory.length_readBytes]
  have h : (decStartState s).inHolds (pngSignature ++ rawChunk typ data crc) := by
    refine ⟨?_, ?_⟩ <;> rw [hlen]
    · rwa [inAvail_decStartState]
    · exact hb
  obtain ⟨hsig, hchunk⟩ := State.inHolds_append h
  exact (readHeader_signed hsig).trans (Cmd.onRaise_ok (readChunk_auto hchunk))

/-- An error behind the reads leaves every space but DBUF, and DBUF behind the chunk's bytes (44_decode.md R710). -/
theorem headerFails_of_read {w : State} {items : List Item} {e : Err} {info : Word}
    (h : decHeader (decStartState s) =
      .raised e info (unspecified ((s.pastSignature.chunkRead typ data crc).headerLeaves ++ items) w))
    (hi : ∀ it ∈ items, it.space? = none) (hw : w.mem = (s.pastSignature.pastChunk typ data crc).mem) :
    ∃ t, HeaderFails s e info (unspecified ((s.pastSignature.chunkRead typ data crc).headerLeaves ++ items) w) t ∧
      DbufBelow data.length (typ = typeIDAT ∨ s.cfg.dbufCap < data.length) s.mem t.mem := by
  obtain ⟨t, ht⟩ := headerFails_of_raised h
  have hm := unspecified_headerLeaves_mem s.pastSignature typ data crc hi w
  rw [hw, ← ht.mem] at hm
  exact ⟨t, ht, (pastChunk_mem s.pastSignature typ data crc).trans hm⟩

/-- A check of the chunk behind its CRC fails (44_decode.md R655). -/
theorem headerFails_of_badChunk {e : Err} {info : Word} (hl : 20 + data.length ≤ s.cnt.inLen.toNat)
    (hb : s.mem.inp.readBytes 0 (20 + data.length) = pngSignature ++ rawChunk typ data crc)
    (hg : s.ctrl.crcCheckEn = true → crc = chunkCrc typ data)
    (hr : ∀ w, checkIhdrChunk (s.pastSignature.chunkRead typ data crc) w = .raised e info w) :
    ∃ t v, HeaderFails s e info v t ∧ DbufBelow data.length (typ = typeIDAT ∨ s.cfg.dbufCap < data.length) s.mem t.mem ∧
      t.crc = { s.crc with out := if s.ctrl.crcCheckEn then chunkCrc typ data else s.crc.out } := by
  obtain ⟨t, ht, hm⟩ := headerFails_of_read (decHeader_badChunk (readHeader_holds hl hb) hg (hr _)) (by decide) rfl
  exact ⟨t, _, ht, hm, ht.crc.trans (unspecified_crc _)⟩

/-- The fields of a good `IHDR` fail a check of `CheckHeader()` (44_decode.md R666). -/
theorem headerFails_of_badFields {e : Err} (hl : 20 + data.length ≤ s.cnt.inLen.toNat)
    (hb : s.mem.inp.readBytes 0 (20 + data.length) = pngSignature ++ rawChunk typ data crc)
    (hg : s.ctrl.crcCheckEn = true → crc = chunkCrc typ data)
    (hr : ∀ w, checkIhdrChunk (s.pastSignature.chunkRead typ data crc) w = .ok () w)
    (he : State.headerError { s with img := parseIhdr data s.img } = some e) :
    ∃ t v, HeaderFails s e 0 v t ∧ DbufBelow data.length (typ = typeIDAT ∨ s.cfg.dbufCap < data.length) s.mem t.mem ∧
      t.crc = { s.crc with out := if s.ctrl.crcCheckEn then chunkCrc typ data else s.crc.out } ∧
      t.img = parseIhdr data s.img := by
  obtain ⟨t, ht, hm⟩ :=
    headerFails_of_read (decHeader_badFields (readHeader_holds hl hb) hg (hr _) he) (by decide) rfl
  refine ⟨t, _, ht, hm, ht.crc.trans (unspecified_crc _), ht.img.trans (unspecified_img _ fun it hit => ?_)⟩
  obtain hit | hit := List.mem_append.1 hit
  · exact headerLeaves_notMem_imageItems _ it hit
  · exact (by decide : ∀ it ∈ [Item.chCrc], it ∉ imageItems) it hit

end ChunkHeld

theorem headerError_of_zeroSize {s : State} (h : s.img.width = 0 ∨ s.img.height = 0) :
    s.headerError = some .invalidImageSize := if_pos h

theorem headerError_of_depth {s : State} (hw : s.img.width ≠ 0) (hh : s.img.height ≠ 0)
    (hb : s.img.bitDepth ∉ ([1, 2, 4, 8, 16] : List Byte)) : s.headerError = some .invalidBitDepth :=
  (if_neg (not_or.2 ⟨hw, hh⟩)).trans (if_pos hb)

/-- Settles O39: the reads fail as the chunk is cut, and behind them the first check that fails ends the command. -/
theorem headerErrors : Obligations.HeaderErrors := by
  unfold Obligations.HeaderErrors
  refine ⟨fun s => ⟨fun h => ?_, fun h hs => ?_, fun h hs hc => ?_, fun h hs hc ha => ?_⟩,
    fun s typ data crc hl hb => ⟨fun hg => ?_, fun hg ht => ?_, fun hg ht hd => ?_, fun hg ht hd h13 => ?_,
      fun hg ht hd h13 ho => ?_⟩⟩
  · obtain ⟨t, ht⟩ := headerFails_of_unread (s := s) (readHeader_short h)
    have hmem : t.mem = s.mem := ht.mem.trans (unspecified_mem _ (by decide))
    exact ⟨t, ht.run, ht.code, ht.info, ht.state, ht.crc.trans (unspecified_crc _), fun _ _ => by rw [hmem], fun _ => hmem,
      fun _ _ _ => by rw [hmem]⟩
  · obtain ⟨t, ht⟩ := headerFails_of_unread (s := s) (readHeader_wrong h hs)
    have hmem : t.mem = s.mem := ht.mem.trans (unspecified_mem _ (by decide))
    exact ⟨t, ht.run, ht.code, ht.info, ht.state, ht.crc.trans (unspecified_crc _), fun _ _ => by rw [hmem], fun _ => hmem,
      fun _ _ _ => by rw [hmem]⟩
  · obtain ⟨v, hv, hcut⟩ := readHeader_cut h hs hc
    obtain ⟨t, ht⟩ := headerFails_of_unread hv
    have hmem : t.mem = v.mem := ht.mem
    have hch : t.ch = v.ch := ht.ch
    refine ⟨t, ht.run, ht.code, ht.info, ht.state, ht.crc.trans hcut.crc, fun sp hsp => ?_,
      fun hx => absurd hx (not_or.2 ⟨nofun, by omega⟩), fun hw a ha => ?_⟩
    · rw [hmem]; exact hcut.others hsp
    · rw [hmem]; rw [hch] at ha; exact (hcut.dbuf hw).2 a ha
  · obtain ⟨v, hv, hcut⟩ := readHeader_cut (by omega) hs (.inr hc)
    obtain ⟨t, ht⟩ := headerFails_of_unread hv
    have hmem : t.mem = v.mem := ht.mem
    have hch : t.ch = v.ch := ht.ch
    have h8 : 8 ≤ inAvail s.pastSignature := by rw [inAvail_pastSignature (by omega)]; omega
    have hn := chunkAhead_pastSignature s
    have hlen := hcut.length (by omega)
    have htyp := hcut.type h8
    rw [hn, ← hch] at hlen htyp
    refine ⟨t, ht.run, ht.code, hlen, htyp, hmem.trans (hcut.mem h8 (ha.imp (fun ht => ?_) fun hd => ?_))⟩
    · simp only [idatAhead, hn, h8, decide_true, Bool.true_and, beq_iff_eq]; exact ht
    · rw [hn]; exact hd
  · obtain ⟨t, ht, hm⟩ := headerFails_of_read (decHeader_corrupted (readHeader_holds hl hb) hg) (by decide) rfl
    refine ⟨t, ht.run, ht.code, ht.info, ht.state, ⟨hm.others, fun hw => (hm.beyond hw).2, hm.whole⟩, fun _ => ?_,
      ht.crc.trans (unspecified_crc _)⟩
    rw [ht.ch]
    refine unspecified_chCrc _ fun hx => ?_
    obtain hx | hx := List.mem_append.1 hx
    · exact chCrc_notMem_headerLeaves _ hx
    · exact absurd hx (by decide)
  · obtain ⟨t, v, ht, hm, hcrc⟩ := headerFails_of_badChunk hl hb hg (checkIhdrChunk_type ht)
    exact ⟨t, ht.run, ht.code, ht.info, ht.state, ⟨hm.others, fun hw => (hm.beyond hw).2, hm.whole⟩, nofun, hcrc⟩
  · subst ht
    have hf := (chunkFits_dbuf data.length s.pastSignature).not.2 (Nat.not_le.2 hd)
    obtain ⟨t, v, ht, hm, hcrc⟩ := headerFails_of_badChunk hl hb hg (checkIhdrChunk_long rfl (Bool.eq_false_iff.2 hf))
    exact ⟨t, ht.run, ht.code, ht.info, ht.state, ⟨hm.others, fun hw => (hm.beyond hw).2, hm.whole⟩, nofun, hcrc⟩
  · subst ht
    have hf := (chunkFits_dbuf data.length s.pastSignature).2 hd
    obtain ⟨t, v, ht, hm, hcrc⟩ := headerFails_of_badChunk hl hb hg (checkIhdrChunk_short rfl hf h13)
    exact ⟨t, ht.run, ht.code, ht.info, ht.state, ⟨hm.others, fun hw => (hm.beyond hw).2, hm.whole⟩, nofun, hcrc⟩
  · subst ht
    have hf := (chunkFits_dbuf data.length s.pastSignature).2 hd
    obtain ⟨e, he⟩ := Option.ne_none_iff_exists'.1 fun h =>
      ho (headerOk_of_headerError (s := { s with img := parseIhdr data s.img }) h)
    obtain ⟨t, v, ht, hm, hcrc, himg⟩ := headerFails_of_badFields hl hb hg (checkIhdrChunk_ok rfl hf h13) he
    refine ⟨t, ht.run, himg, ht.state, ⟨hm.others, fun hw => (hm.beyond hw).2, hm.whole⟩, hcrc, ht.err, ht.info, ?_,
      fun h0 => ?_, fun hw hh hb => ?_⟩
    · rw [he, ht.code]; rfl
    · rw [headerError_of_zeroSize h0] at he
      cases he; exact ht.code
    · rw [headerError_of_depth hw hh (by simp [parseIhdr, hb])] at he
      cases he; exact ht.code

end Sys2Proof.Machine
end

section
/-! SUPPORT. The layouts of the text and time chunks, as the model's tests see them (44_decode.md R686). -/

namespace Sys2Proof.Machine

theorem findNul_eq_some_iff (data : Bytes) (a k : Nat) : findNul data a = some k ↔ IsFirstNul data a k := by
  unfold findNul IsFirstNul
  simp only [Option.map_eq_some_iff, List.findIdx?_eq_some_iff_getElem, List.length_drop, List.getElem_drop, beq_iff_eq]
  constructor
  · rintro ⟨i, ⟨hi, h0, hall⟩, rfl⟩
    refine ⟨Nat.le_add_right _ _, List.getElem?_eq_some_iff.2 ⟨by omega, h0⟩, fun j hj hjk hs => ?_⟩
    obtain ⟨d, rfl⟩ := Nat.exists_eq_add_of_le hj
    obtain ⟨_, hz⟩ := List.getElem?_eq_some_iff.1 hs
    exact hall d (by omega) hz
  · rintro ⟨hak, hk, hall⟩
    obtain ⟨i, rfl⟩ := Nat.exists_eq_add_of_le hak
    obtain ⟨hlt, h0⟩ := List.getElem?_eq_some_iff.1 hk
    exact ⟨i, ⟨by omega, h0, fun j hj hz =>
      hall (a + j) (by omega) (by omega) (List.getElem?_eq_some_iff.2 ⟨by omega, hz⟩)⟩, rfl⟩

theorem findNul_isSome_iff (data : Bytes) (a : Nat) : (findNul data a).isSome = true ↔ ∃ m, a ≤ m ∧ data[m]? = some 0 := by
  unfold findNul
  rw [Option.isSome_map, List.findIdx?_isSome, List.any_eq_true]
  simp only [beq_iff_eq]
  constructor
  · rintro ⟨x, hx, rfl⟩
    obtain ⟨i, hi⟩ := List.mem_iff_getElem?.1 hx
    exact ⟨a + i, Nat.le_add_right _ _, by rwa [List.getElem?_drop] at hi⟩
  · rintro ⟨m, ham, hm⟩
    obtain ⟨i, rfl⟩ := Nat.exists_eq_add_of_le ham
    exact ⟨0, List.mem_iff_getElem?.2 ⟨i, by rwa [List.getElem?_drop]⟩, rfl⟩

theorem keywordEnd_eq_some_iff (data : Bytes) (k : Nat) : keywordEnd data = some k ↔ IsKeywordEnd data k := by
  unfold keywordEnd IsKeywordEnd
  rw [← findNul_eq_some_iff]
  cases findNul data 0 with
  | none => simp
  | some n =>
    simp only [Option.ite_none_right_eq_some, Option.some.injEq]
    constructor
    · rintro ⟨⟨h1, h79⟩, rfl⟩; exact ⟨rfl, h1, h79⟩
    · rintro ⟨rfl, h1, h79⟩; exact ⟨⟨h1, h79⟩, rfl⟩

theorem keywordEnd_isSome_iff (data : Bytes) : (keywordEnd data).isSome = true ↔ ∃ k, IsKeywordEnd data k := by
  simp only [Option.isSome_iff_exists, keywordEnd_eq_some_iff]

theorem ztxtOk_iff (data : Bytes) : ztxtOk data = true ↔ ∃ k, IsKeywordEnd data k ∧ k + 2 ≤ data.length := by
  simp only [← keywordEnd_eq_some_iff]
  unfold ztxtOk
  cases keywordEnd data <;> simp

theorem itxtOk_iff (data : Bytes) :
    itxtOk data = true ↔
      ∃ k l m, IsKeywordEnd data k ∧ k + 3 ≤ data.length ∧ IsFirstNul data (k + 3) l ∧ l < m ∧ data[m]? = some 0 := by
  simp only [← keywordEnd_eq_some_iff, ← findNul_eq_some_iff]
  unfold itxtOk
  cases keywordEnd data with
  | none => simp
  | some k =>
    simp only [Bool.and_eq_true, decide_eq_true_eq, Option.some.injEq]
    cases hl : findNul data (k + 3) with
    | none => simp [hl]
    | some l =>
      simp only [findNul_isSome_iff]
      constructor
      · rintro ⟨hk, m, hm, h0⟩; exact ⟨k, l, m, rfl, hk, hl, hm, h0⟩
      · rintro ⟨k', l', m, rfl, hk, hl', hm, h0⟩
        rw [hl] at hl'
        cases hl'
        exact ⟨hk, m, hm, h0⟩

theorem hasLayout_text_iff (data : Bytes) : hasLayout typeTEXT data ↔ (keywordEnd data).isSome = true := by
  rw [keywordEnd_isSome_iff]
  simp [hasLayout, typeTEXT]

theorem hasLayout_ztxt_iff (data : Bytes) : hasLayout typeZTXT data ↔ ztxtOk data = true := by
  rw [ztxtOk_iff]
  simp [hasLayout, typeZTXT]

theorem hasLayout_itxt_iff (data : Bytes) : hasLayout typeITXT data ↔ itxtOk data = true := by
  rw [itxtOk_iff]
  simp [hasLayout, typeITXT]

theorem hasLayout_time_iff (data : Bytes) : hasLayout typeTIME data ↔ timeOk data = true := by
  simp [timeOk, hasLayout, typeTIME, and_assoc]

end Sys2Proof.Machine
end

section
/-! SUPPORT. What the chunk loop records, and a record that does not fit META (44_decode.md R683, R684, R686, R689). -/

namespace Sys2Proof.Machine

theorem record_raised {typ : Word} {data : Bytes} {s : State} (h : s.cfg.metaCap < s.cnt.metaLen.toNat + (8 + data.length)) :
    record typ data s = .raised .capacityExceeded 5 s := by
  have hlen : (be32Len data.length ++ be32 typ ++ data).length = 8 + data.length := by
    simp only [List.length_append, length_be32Len, length_be32]
  exact if_pos (by rw [hlen]; exact h)

theorem doMeta_layout {ok : Bool} (h : ok = true) (e : Err) (typ : Word) (data : Bytes) (s : State) :
    doMeta ok e typ data s = record typ data s := Cmd.andThen_ok (Cmd.raiseIf_false (by rw [h]; rfl) s)

theorem doUnknown_ancillary {typ : Word} (h : typ.getLsbD 29 = true) (data : Bytes) (s : State) :
    doUnknown typ data s = record typ data s := Cmd.andThen_ok (Cmd.raiseIf_false (by rw [isAncillary, h]; rfl) s)

/-- `tRNS` of an image without a palette is recorded (44_decode.md R683). -/
theorem doTrns_advisory {s : State} (ht : s.dec.seenTrns = false) (hi : s.dec.seenIdat = false)
    (hct : s.img.colorType = 0 ∨ s.img.colorType = 2) (data : Bytes) :
    doTrns data s =
      ((record typeTRNS data).andThen <| Cmd.update fun t => { t with dec.seenTrns := true }) s := by
  unfold doTrns
  rw [if_neg (by rcases hct with h | h <;> rw [h] <;> decide), if_neg (by simp [ht]), if_neg (by simp [hi]),
    if_neg (by rcases hct with h | h <;> rw [h] <;> decide)]

/-- The chunk types that the loop knows (44_decode.md R660). -/
def knownTypes : List Word := [typeIDAT, typePLTE, typeTRNS, typeTEXT, typeZTXT, typeITXT, typeTIME, typeIEND]

theorem chunkCase_unknown {typ : Word} (h : typ ∉ knownTypes) (data : Bytes) :
    chunkCase typ data = (doUnknown typ data).andThen (.ret false) := by
  simp only [knownTypes, List.mem_cons, List.not_mem_nil, or_false, not_or] at h
  obtain ⟨h1, h2, h3, h4, h5, h6, h7, h8⟩ := h
  rw [chunkCase, if_neg h1, if_neg h2, if_neg h3, if_neg h4, if_neg h5, if_neg h6, if_neg h7, if_neg h8]

/-- The chunk has come to its record: a palette-less `tRNS`, a text or time chunk of its layout, or an ancillary chunk of
an unknown type (44_decode.md R683, R686, R689). -/
def State.records (s : State) (typ : Word) (data : Bytes) : Prop :=
  (typ = typeTRNS ∧ s.dec.seenTrns = false ∧ s.dec.seenIdat = false ∧ (s.img.colorType = 0 ∨ s.img.colorType = 2)) ∨
    (typ ∈ [typeTEXT, typeZTXT, typeITXT, typeTIME] ∧ hasLayout typ data) ∨
    (typ ∉ knownTypes ∧ typ.getLsbD 29 = true)

/-- An error of the record is the error of the chunk. -/
theorem chunkCase_record_raised {s t : State} {typ : Word} {data : Bytes} {e : Err} {info : Word} (h : s.records typ data)
    (hr : record typ data s = .raised e info t) : chunkCase typ data s = .raised e info t := by
  obtain ⟨rfl, ht, hi, hct⟩ | ⟨hm, hlay⟩ | ⟨hk, hanc⟩ := h
  · exact Cmd.andThen_raised ((doTrns_advisory ht hi hct data).trans (Cmd.andThen_raised hr))
  · simp only [List.mem_cons, List.not_mem_nil, or_false] at hm
    obtain rfl | rfl | rfl | rfl := hm
    · exact Cmd.andThen_raised ((doMeta_layout ((hasLayout_text_iff data).1 hlay) _ _ _ s).trans hr)
    · exact Cmd.andThen_raised ((doMeta_layout ((hasLayout_ztxt_iff data).1 hlay) _ _ _ s).trans hr)
    · exact Cmd.andThen_raised ((doMeta_layout ((hasLayout_itxt_iff data).1 hlay) _ _ _ s).trans hr)
    · exact Cmd.andThen_raised ((doMeta_layout ((hasLayout_time_iff data).1 hlay) _ _ _ s).trans hr)
  · rw [chunkCase_unknown hk]
    exact Cmd.andThen_raised ((doUnknown_ancillary hanc data s).trans hr)

end Sys2Proof.Machine
end

section
/-! SUPPORT. What the chunk loop leaves alone (44_decode.md R660, R711): the image, the encoder, the spaces it does not write,
and PAL behind the entries it has written. -/

namespace Sys2Proof.Machine

/-- What the chunk loop never writes, with PAL and the two registers that say how much of PAL it has written. -/
def State.loopSide (s : State) : ImgRegs × EncRegs × (Memory × Memory × Memory × Memory) × Memory × Bool × BitVec 9 :=
  (s.img, s.enc, (s.mem.inp, s.mem.outp, s.mem.raw, s.mem.pix), s.mem.pal, s.dec.seenPlte, s.dec.palCount)

/-- The chunk loop has come from `a` to `t`: PAL is as in `a` behind the `PAL_COUNT` entries, and all of it while no palette
was seen (44_decode.md R682, R683). -/
structure LoopKeeps (a t : State) : Prop where
  img : t.img = a.img
  enc : t.enc = a.enc
  spaces : (t.mem.inp, t.mem.outp, t.mem.raw, t.mem.pix) = (a.mem.inp, a.mem.outp, a.mem.raw, a.mem.pix)
  unseen : t.dec.seenPlte = false → t.mem.pal = a.mem.pal
  pal : a.mem.pal.wf → t.mem.pal.wf ∧ ∀ x, 4 * t.dec.palCount.toNat ≤ x → t.mem.pal.read x = a.mem.pal.read x

theorem LoopKeeps.refl (a : State) : LoopKeeps a a := ⟨rfl, rfl, rfl, fun _ => rfl, fun hw => ⟨hw, fun _ _ => rfl⟩⟩

theorem LoopKeeps.of_side {a s t : State} (h : LoopKeeps a s) (e : t.loopSide = s.loopSide) : LoopKeeps a t := by
  simp only [State.loopSide, Prod.mk.injEq] at e
  obtain ⟨himg, henc, ⟨hinp, houtp, hraw, hpix⟩, hpal, hseen, hcount⟩ := e
  obtain ⟨h1, h2, h3, h4, h5⟩ := h
  refine ⟨himg.trans h1, henc.trans h2, ?_, ?_, ?_⟩
  · rw [hinp, houtp, hraw, hpix]; exact h3
  · rw [hseen, hpal]; exact h4
  · rw [hpal, hcount]; exact h5

/-- The piece keeps it, whether it goes on or raises an error. -/
abbrev Cmd.LoopKept {α : Type} (a : State) (m : Cmd α) : Prop :=
  Cmd.Triple (LoopKeeps a) m (fun _ => LoopKeeps a) (fun _ => LoopKeeps a)

variable {a : State}

theorem Cmd.LoopKept.update {f : State → State} (h : ∀ s, (f s).loopSide = s.loopSide) : Cmd.LoopKept a (Cmd.update f) :=
  Cmd.Triple.update f fun s hs => hs.of_side (h s)

theorem Cmd.LoopKept.updateThen {α : Type} {f : State → State} {n : Cmd α} (h : ∀ s, (f s).loopSide = s.loopSide)
    (k : Cmd.LoopKept a n) : Cmd.LoopKept a ((Cmd.update f).andThen n) :=
  Cmd.Triple.andThen (Cmd.LoopKept.update h) fun _ => k

theorem Cmd.LoopKept.thenUpdate {f : State → State} {m : Cmd Unit} (k : Cmd.LoopKept a m)
    (h : ∀ s, (f s).loopSide = s.loopSide) : Cmd.LoopKept a (m.andThen (Cmd.update f)) :=
  Cmd.Triple.andThen k fun _ => Cmd.LoopKept.update h

theorem Cmd.LoopKept.ret {α : Type} (x : α) : Cmd.LoopKept a (Cmd.ret x) := Cmd.Triple.ret x fun _ h => h

theorem Cmd.LoopKept.raiseIf (c : Bool) (e : Err) (info : Word) : Cmd.LoopKept a (Cmd.raiseIf c e info) :=
  Cmd.Triple.raiseIf (fun _ _ h => h) fun _ _ h => h

theorem Cmd.LoopKept.leaving {α : Type} {m : Cmd α} {items : List Item} (h : Cmd.LoopKept a m)
    (hi : ∀ it ∈ items, ∀ k t, (it.free k t).loopSide = t.loopSide) : Cmd.LoopKept a (m.leaving items) :=
  Cmd.Triple.leaving h fun _ s hs => hs.of_side (unspecified_keeps State.loopSide (fun _ _ => rfl) hi s)

theorem chunkItem_loopSide : ∀ it ∈ chunkItems, ∀ k t, (it.free k t).loopSide = t.loopSide := by
  simp only [chunkItems, List.mem_cons, List.not_mem_nil, or_false]
  rintro it (rfl | rfl | rfl) k t <;> rfl

theorem readIn_loopKept (n : Nat) : Cmd.LoopKept a (readIn n) := by
  intro s hs
  rw [readIn_run]
  by_cases h : inAvail s < n
  · rw [if_pos h]; exact hs
  · rw [if_neg h]; exact hs.of_side rfl

theorem readU32_loopKept : Cmd.LoopKept a readU32 := (readIn_loopKept 4).bind fun _ => Cmd.LoopKept.ret _

/-- A write to DBUF or META. -/
theorem memWrite_loopKept {sp : Space} (hsp : sp = .dbuf ∨ sp = .metaLog) (off : Nat) (v : Bytes) :
    Cmd.LoopKept a (memWrite sp off v) := by
  intro s hs
  rw [memWrite_run]
  by_cases h : sp.cap s.cfg < off + v.length
  · rw [if_pos h]; exact hs
  · rw [if_neg h]
    obtain rfl | rfl := hsp <;> exact hs.of_side rfl

theorem readChunk_loopKept (sink : ChunkSink) : Cmd.LoopKept a (readChunk sink) := by
  have sub : ∀ {items : List Item}, (∀ it ∈ items, it ∈ chunkItems) → ∀ it ∈ items, ∀ k t,
      (it.free k t).loopSide = t.loopSide := fun h it hit => chunkItem_loopSide it (h it hit)
  refine (readU32_loopKept.leaving (sub (by decide))).bind fun len => Cmd.LoopKept.updateThen (by intro s; rfl) ?_
  refine (readU32_loopKept.leaving (sub (by decide))).bind fun typ => Cmd.LoopKept.updateThen (by intro s; rfl) ?_
  refine Cmd.LoopKept.leaving ?_ (sub (by decide))
  refine Cmd.Triple.bind (Cmd.Triple.look _ (by intro s hs; exact hs)) fun fits =>
    (Cmd.LoopKept.raiseIf _ _ _).andThen fun _ => ?_
  refine (readIn_loopKept _).bind fun data => Cmd.Triple.andThen (Q := fun _ => LoopKeeps a) ?_ fun _ => ?_
  · split
    · exact memWrite_loopKept (.inl rfl) _ _
    · exact Cmd.LoopKept.ret _
  · exact readU32_loopKept.bind fun crc => Cmd.LoopKept.updateThen (by intro s; rfl) (Cmd.LoopKept.ret _)

theorem checkCrcIfEnabled_loopKept (c : Chunk) : Cmd.LoopKept a (checkCrcIfEnabled c) := by
  refine Cmd.Triple.of_meets fun s hs => ?_
  unfold checkCrcIfEnabled checkCrc
  split
  · exact Cmd.Triple.meets (Cmd.LoopKept.updateThen (by intro s; rfl) (Cmd.LoopKept.raiseIf _ _ _)) hs
  · exact hs

theorem record_loopKept (typ : Word) (data : Bytes) : Cmd.LoopKept a (record typ data) := by
  refine Cmd.Triple.of_meets fun s hs => ?_
  unfold record
  simp only
  split
  · exact hs
  · exact Cmd.Triple.meets (Cmd.LoopKept.thenUpdate (memWrite_loopKept (.inr rfl) _ _) (by intro s; rfl)) hs

theorem doMeta_loopKept (ok : Bool) (e : Err) (typ : Word) (data : Bytes) : Cmd.LoopKept a (doMeta ok e typ data) :=
  (Cmd.LoopKept.raiseIf _ _ _).andThen fun _ => record_loopKept _ _

theorem doUnknown_loopKept (typ : Word) (data : Bytes) : Cmd.LoopKept a (doUnknown typ data) :=
  (Cmd.LoopKept.raiseIf _ _ _).andThen fun _ => record_loopKept _ _

theorem streamWrite_loopKept (i : StreamId) (v : Bytes) : Cmd.LoopKept a (streamWrite i v) := by
  refine Cmd.Triple.of_meets fun s hs => ?_
  rw [streamWrite_run]
  split
  · exact hs
  split
  · exact hs
  · exact hs.of_side rfl

theorem doIdat_loopKept (data : Bytes) : Cmd.LoopKept a (doIdat data) := by
  refine Cmd.Triple.of_meets fun s hs => ?_
  unfold doIdat
  split
  · exact hs
  · refine Cmd.Triple.meets (Cmd.Triple.andThen (streamWrite_loopKept _ _) fun _ => ?_) hs
    exact Cmd.LoopKept.updateThen (by intro s; rfl) (Cmd.LoopKept.update (by intro s; rfl))

/-- `n` bytes of PAL, below the entries that `PAL_COUNT` then counts. -/
theorem LoopKeeps.writePal {s t : State} (h : LoopKeeps a s) (off : Nat) (v : Bytes) {d : DecRegs}
    (hseen : d.seenPlte = true) (hb : off + v.length ≤ 4 * d.palCount.toNat)
    (hold : s.dec.seenPlte = false ∨ s.dec.palCount = d.palCount)
    (ht : t = { s.setSpace .pal (s.mem.pal.writeBytes off v) with dec := d }) : LoopKeeps a t := by
  subst ht
  refine ⟨h.img, h.enc, h.spaces, fun hf => absurd hf (by simp [hseen]), fun hw => ?_⟩
  obtain ⟨hsw, hread⟩ := h.pal hw
  refine ⟨Memory.wf_writeBytes _ _ _ hsw, fun x hx => ?_⟩
  refine (Memory.read_writeBytes_outside _ _ _ _ hsw (Or.inr (hb.trans hx))).trans ?_
  obtain hu | hc := hold
  · rw [h.unseen hu]
  · exact hread x (by rw [hc]; exact hx)

theorem length_plteEntries (data : Bytes) (n : Nat) : (plteEntries data n).length = 4 * n := by
  simp [plteEntries, List.length_flatMap, Nat.mul_comm]

theorem doPlte_loopKept (data : Bytes) : Cmd.LoopKept a (doPlte data) := by
  refine Cmd.Triple.of_meets fun s hs => ?_
  unfold doPlte
  simp only
  split
  · exact hs
  rename_i hseen
  split
  · exact hs
  split
  · exact hs
  split
  · exact hs
  rename_i hn
  have hfit : 0 + (plteEntries data (data.length / 3)).length ≤ Space.pal.cap s.cfg := by
    rw [length_plteEntries]; show _ ≤ 1024; omega
  rw [Cmd.andThen_ok (memWrite_ok hfit)]
  refine hs.writePal 0 _ (d := { s.dec with palCount := BitVec.ofNat 9 (data.length / 3), seenPlte := true }) rfl ?_
    (.inl (by simpa using hseen)) rfl
  rw [length_plteEntries, BitVec.toNat_ofNat, Nat.mod_eq_of_lt (by omega), Nat.zero_add]

/-- The state is one the chunk loop has come to, with a palette seen and `n` entries counted. -/
def LoopKeepsSeen (a : State) (n : BitVec 9) (t : State) : Prop :=
  LoopKeeps a t ∧ t.dec.seenPlte = true ∧ t.dec.palCount = n

theorem writeAlphas_loopKept {n : BitVec 9} {data : Bytes} (hn : data.length ≤ n.toNat) :
    Cmd.Triple (LoopKeepsSeen a n) (writeAlphas data) (fun _ => LoopKeepsSeen a n) (fun _ => LoopKeeps a) := by
  refine Cmd.Triple.forEach fun i hi => Cmd.Triple.of_meets fun s hs => ?_
  obtain ⟨hk, hseen, hcount⟩ := hs
  rw [memWrite_run]
  split
  · exact hk
  · have hi := List.mem_range.1 hi
    refine ⟨hk.writePal (4 * i + 3) [byteAt data i] (d := s.dec) hseen ?_ (.inr rfl) rfl, hseen, hcount⟩
    rw [hcount, List.length_singleton]; omega

theorem doTrns_loopKept (data : Bytes) : Cmd.LoopKept a (doTrns data) := by
  refine Cmd.Triple.of_meets fun s hs => ?_
  unfold doTrns
  split
  · exact hs
  split
  · exact hs
  split
  · exact hs
  split
  · split
    · exact hs
    rename_i hseen
    split
    · exact hs
    rename_i hn
    refine Cmd.Triple.meets (Cmd.Triple.andThen (writeAlphas_loopKept (n := s.dec.palCount) (by omega)) fun _ =>
      Cmd.Triple.update _ (by intro t ht; exact ht.1.of_side rfl)) ⟨hs, by simpa using hseen, rfl⟩
  · exact Cmd.Triple.meets (Cmd.LoopKept.thenUpdate (record_loopKept _ _) (by intro s; rfl)) hs

theorem chunkCase_loopKept (typ : Word) (data : Bytes) : Cmd.LoopKept a (chunkCase typ data) := by
  have done : ∀ {m : Cmd Unit}, Cmd.LoopKept a m → ∀ b : Bool, Cmd.LoopKept a (m.andThen (.ret b)) :=
    fun h b => h.andThen fun _ => Cmd.LoopKept.ret b
  unfold chunkCase
  split
  · exact done (doIdat_loopKept data) _
  split
  · exact done (doPlte_loopKept data) _
  split
  · exact done (doTrns_loopKept data) _
  split
  · exact done (doMeta_loopKept _ _ _ data) _
  split
  · exact done (doMeta_loopKept _ _ _ data) _
  split
  · exact done (doMeta_loopKept _ _ _ data) _
  split
  · exact done (doMeta_loopKept _ _ _ data) _
  split
  · exact done (Cmd.LoopKept.update (by intro s; rfl)) _
  · exact done (doUnknown_loopKept _ data) _

theorem decChunksStep_loopKept : Cmd.LoopKept a decChunksStep := by
  refine (readChunk_loopKept .auto).bind fun c => (checkCrcIfEnabled_loopKept c).andThen fun _ => ?_
  exact (Cmd.LoopKept.raiseIf _ _ _).andThen fun _ => chunkCase_loopKept _ _

theorem LoopKeeps.turn {s t : State} {last : Bool} (h : LoopKeeps a s) (ht : decChunksStep s = .ok last t) : LoopKeeps a t := by
  have := decChunksStep_loopKept s h
  rwa [ht] at this

theorem LoopKeeps.turn_raised {s t : State} {e : Err} {info : Word} (h : LoopKeeps a s)
    (ht : decChunksStep s = .raised e info t) : LoopKeeps a t := by
  have := decChunksStep_loopKept s h
  rwa [ht] at this

/-! ## Turns of the loop -/

theorem chunkTurns_succ {n : Nat} {s u : State} (h : chunkTurns (n + 1) s = some u) :
    ∃ t, decChunksStep s = .ok false t ∧ chunkTurns n t = some u := by
  unfold chunkTurns at h
  split at h
  case h_1 t ht => exact ⟨t, ht, h⟩
  all_goals cases h

theorem LoopKeeps.turns {n : Nat} {s u : State} (h : LoopKeeps a s) (hu : chunkTurns n s = some u) : LoopKeeps a u := by
  induction n generalizing s with
  | zero => cases hu; exact h
  | succ n ih =>
    obtain ⟨t, ht, hu⟩ := chunkTurns_succ hu
    exact ih (h.turn ht) hu

/-- Turns that go on leave the rest of the chunk loop to the turns after them. -/
theorem chunkLoop_turns {n : Nat} {s u : State} (hu : chunkTurns n s = some u) :
    chunkLoop (inAvail s + 1) s = chunkLoop (inAvail u + 1) u := by
  induction n generalizing s with
  | zero => cases hu; rfl
  | succ n ih =>
    obtain ⟨t, ht, hu⟩ := chunkTurns_succ hu
    exact (chunkLoop_next ht).trans (ih hu)

end Sys2Proof.Machine
end

section
/-! SUPPORT. How the chunk loop and DEC.CHUNKS fail (44_decode.md R660, R662, R684, R711). -/

namespace Sys2Proof.Machine

/-! ## An error of DEC.CHUNKS -/

/-- What an error of a DEC.CHUNKS that started in `a` and has come to `v` leaves unspecified. -/
def chunksItems (a : State) (e : Err) (v : State) : List Item :=
  cursorLeaves (e == .unexpectedEof) e ++ .bytes .dbuf 0 a.dbufReach :: chunksLeaves v

theorem cursorLeaves_subset (cut : Bool) (e : Err) : cursorLeaves cut e ⊆ [.inPos, .chLength, .chCrc, .chType] := by
  unfold cursorLeaves
  split_ifs <;> simp

/-- DEC.CHUNKS frees the entries of PAL it has written, bytes of DBUF, META, and registers, none of them the image's. -/
theorem mem_chunksItems {a v : State} {e : Err} {it : Item} (h : it ∈ chunksItems a e v) :
    it = .bytes .pal 0 (4 * v.dec.palCount.toNat) ∨
      (it.space? ∈ [none, some Space.dbuf, some Space.metaLog] ∧ it ∉ imageItems) := by
  obtain h | h := List.mem_append.1 h
  · exact .inr ((by decide : ∀ it ∈ [Item.inPos, .chLength, .chCrc, .chType],
      it.space? ∈ [none, some Space.dbuf, some Space.metaLog] ∧ it ∉ imageItems) it (cursorLeaves_subset _ _ h))
  obtain rfl | h := List.mem_cons.1 h
  · exact .inr ⟨by simp [Item.space?], by simp [imageItems]⟩
  exact (List.mem_cons.1 h).imp_right ((by decide : ∀ it ∈ [Item.space .metaLog, .palCount, .trnsCount, .metaLen, .metaCount,
    .stream .stage, .stageLen, .idatCount, .decSeen],
      it.space? ∈ [none, some Space.dbuf, some Space.metaLog] ∧ it ∉ imageItems) it)

theorem chunksItems_space {a v : State} {e : Err} {sp : Space} (hsp : sp ∈ [Space.inp, .outp, .raw, .pix]) :
    ∀ it ∈ chunksItems a e v, it.space? ≠ some sp := by
  intro it hit he
  obtain rfl | ⟨hs, -⟩ := mem_chunksItems hit
  · cases he; exact absurd hsp (by decide)
  · rw [he] at hs
    exact (by decide : ∀ sp ∈ [Space.inp, .outp, .raw, .pix], some sp ∉ [none, some Space.dbuf, some Space.metaLog]) sp hsp hs

theorem chunksItems_image {a v : State} {e : Err} : ∀ it ∈ chunksItems a e v, it ∉ imageItems := by
  intro it hit
  obtain rfl | ⟨-, hi⟩ := mem_chunksItems hit
  · simp [imageItems]
  · exact hi

/-- After `PaletteNotFound` `CH_TYPE` holds the chunk's (95_test_vectors.md P6). -/
theorem chType_notMem_chunksItems (a v : State) : Item.chType ∉ chunksItems a .paletteNotFound v := by
  simp [chunksItems, cursorLeaves, chunksLeaves]

/-- A failed strict read of IN keeps `IN_POS` and the chunk registers (20_memory.md R211). -/
theorem chunksItems_cut {a v : State} : ∀ it ∈ chunksItems a .unexpectedEof v, it ∉ chunkItems ∧ it ≠ .inPos := by
  simp [chunksItems, cursorLeaves, chunksLeaves, chunkItems]

/-- An error of DEC.CHUNKS leaves PAL behind the entries that `PAL_COUNT` counts (44_decode.md R682, R683). -/
theorem chunksItems_pal (a : State) (e : Err) {v : State} (hw : v.mem.pal.wf) {x : Nat} (hx : 4 * v.dec.palCount.toNat ≤ x) :
    (unspecified (chunksItems a e v) v).mem.pal.read x = v.mem.pal.read x := by
  refine (unspecified_induct (P := fun t => t.mem.pal.wf ∧ t.mem.pal.read x = v.mem.pal.read x) (fun _ _ h => h)
    (fun it hit k t ht => ?_) ⟨hw, rfl⟩).2
  obtain ⟨htw, hread⟩ := ht
  obtain rfl | ⟨hs, -⟩ := mem_chunksItems hit
  · exact ⟨freeRange_wf _ _ _ _ _ _ _ htw,
      (freeRange_read_outside t.cfg k _ .pal 0 _ x _ htw (Or.inr (by omega))).trans hread⟩
  · have hp : (it.free k t).mem.pal = t.mem.pal := Item.free_get k t (sp := .pal) fun he => absurd (he ▸ hs) (by decide)
    rw [hp]; exact ⟨htw, hread⟩

/-- The error of a turn behind any number of turns that go on is the error of DEC.CHUNKS (44_decode.md R660). -/
theorem decChunks_raised {n : Nat} {s u v : State} {e : Err} {info : Word} (hu : chunkTurns n s.chunksStart = some u)
    (hv : decChunksStep u = .raised e info v) : decChunks s = .raised e info v := by
  have hloop : chunkLoop (inAvail s.chunksStart + 1) s.chunksStart = .raised e info v :=
    (chunkLoop_turns hu).trans (Cmd.bind_raised hv)
  exact (Cmd.andThen_ok (resetStream_run .stage s)).trans (Cmd.andThen_raised (Cmd.andThen_raised hloop))

theorem exec_decChunks_raised {s v : State} {e : Err} {info : Word} (hs : s.dec.state = .header)
    (h : decChunks s = .raised e info v) :
    exec .decChunks s = .next (errorEntry .decode e info (unspecified (chunksItems s e v) v)) := by
  rw [exec_eq_runCommand]
  exact runCommand_raised ((Cmd.andThen_ok (if_pos hs)).trans (Cmd.onRaise_raised h))

/-! ## One turn -/

theorem decChunksStep_cut {s : State} (h : inAvail s < 8 ∨ inAvail s < 12 + (chunkAhead s).1.toNat) :
    ∃ v, decChunksStep s = .raised .unexpectedEof 0 v := by
  obtain ⟨v, hv, -⟩ := readChunk_cut (sink := .auto) (h.imp_right fun h => ⟨nofun, h⟩)
  exact ⟨v, Cmd.bind_raised hv⟩

/-- Neither STAGE nor DBUF can take the data that goes there (41_framer.md R450). -/
theorem chunkRead_fits_eq_false_iff (s : State) (typ : Word) (data : Bytes) (crc : Word) :
    (s.chunkRead typ data crc).fits = false ↔
      if typ = typeIDAT then s.cfg.stageCap < s.str.stage.total + data.length else s.cfg.dbufCap < data.length := by
  by_cases ht : typ = typeIDAT <;> simp [State.chunkRead, chunkFits, ht]

theorem chunkRead_destId (s : State) (typ : Word) (data : Bytes) (crc : Word) :
    (s.chunkRead typ data crc).destId = if typ = typeIDAT then 8 else 2 := by
  by_cases ht : typ = typeIDAT <;> simp [Chunk.destId, State.chunkRead, StreamId.id, Space.id, ht]

/-- A chunk's data goes to DBUF unless it is an `IDAT` or does not fit (41_framer.md R450). -/
theorem pastChunk_mem_eq {s : State} {typ crc : Word} {data : Bytes} {full : Prop} [Decidable (typ = typeIDAT ∨ full)]
    (hfull : (s.chunkRead typ data crc).fits = false ↔ full) :
    (s.pastChunk typ data crc).mem =
      if typ = typeIDAT ∨ full then s.mem else s.mem.set .dbuf (s.mem.dbuf.writeBytes 0 data) := by
  have hc : (!(typ == typeIDAT) && chunkFits (typ == typeIDAT) data.length s) = true ↔ ¬(typ = typeIDAT ∨ full) := by
    rw [← hfull]
    simp [State.chunkRead]
  unfold State.pastChunk
  by_cases hx : typ = typeIDAT ∨ full
  · rw [if_pos hx, if_neg fun h => hc.1 h hx]
  · rw [if_neg hx, if_pos (hc.2 hx)]

section Turn

variable {s : State} {typ crc : Word} {data : Bytes} (h : s.inHolds (rawChunk typ data crc))
include h

theorem decChunksStep_corrupted (hg : ¬(s.ctrl.crcCheckEn = true → crc = chunkCrc typ data)) :
    decChunksStep s = .raised .corruptedChunk typ ((s.pastChunk typ data crc).crcChecked typ data) :=
  (Cmd.bind_ok (readChunk_auto h)).trans (Cmd.andThen_raised (checkCrcIfEnabled_raised hg))

theorem decChunksStep_full (hg : s.ctrl.crcCheckEn = true → crc = chunkCrc typ data)
    (hf : (s.chunkRead typ data crc).fits = false) :
    decChunksStep s =
      .raised .capacityExceeded (if typ = typeIDAT then 8 else 2) ((s.pastChunk typ data crc).crcChecked typ data) := by
  rw [← chunkRead_destId s typ data crc]
  exact (Cmd.bind_ok (readChunk_auto h)).trans ((Cmd.andThen_ok (checkCrcIfEnabled_ok hg)).trans
    (Cmd.andThen_raised (Cmd.raiseIf_true (by rw [hf]; rfl) _)))

theorem decChunksStep_case (hg : s.ctrl.crcCheckEn = true → crc = chunkCrc typ data)
    (hf : (s.chunkRead typ data crc).fits ≠ false) :
    decChunksStep s = chunkCase typ data ((s.pastChunk typ data crc).crcChecked typ data) :=
  (Cmd.bind_ok (readChunk_auto h)).trans ((Cmd.andThen_ok (checkCrcIfEnabled_ok hg)).trans
    (Cmd.andThen_ok (Cmd.raiseIf_false (by rw [Bool.ne_false_iff.1 hf]; rfl) _)))

end Turn

/-- What a turn leaves before it looks at the type, from what it leaves of the spaces. -/
theorem pastChunk_crcChecked {s : State} {typ crc : Word} {data : Bytes} {m : Spaces}
    (hm : (s.pastChunk typ data crc).mem = m) :
    (s.pastChunk typ data crc).crcChecked typ data =
      { s with
        cnt := (s.afterIn (12 + data.length)).cnt
        ch := { length := BitVec.ofNat 32 data.length, type := typ, crc := crc }
        crc.out := if s.ctrl.crcCheckEn then chunkCrc typ data else s.crc.out
        mem := m } := by
  subst hm; rfl

/-- Settles O43: the loop does not depend on its bound, so the error of a turn is the loop's; a turn reads, compares, looks at
the size, and then at the type. -/
theorem chunkLoopErrors : Obligations.ChunkLoopErrors := by
  unfold Obligations.ChunkLoopErrors
  refine ⟨fun s n u v e info hs hu hv => ?_, fun s h => ?_, fun s typ crc data _ h => ?_, fun s typ data h hm => ?_⟩
  · have hrun := exec_decChunks_raised hs (decChunks_raised hu hv)
    have hk : LoopKeeps s.chunksStart v := ((LoopKeeps.refl _).turns hu).turn_raised hv
    have hspace : ∀ sp ∈ [Space.inp, .outp, .raw, .pix], (unspecified (chunksItems s e v) v).mem.get sp = v.mem.get sp :=
      fun sp hsp => unspecified_get v (chunksItems_space hsp)
    obtain ⟨hinp, houtp, hraw, hpix⟩ := by simpa only [Prod.mk.injEq] using hk.spaces
    refine ⟨_, hrun, rfl, rfl, rfl, ?_, ?_, unspecified_crc v, (unspecified_img v chunksItems_image).trans hk.img,
      (unspecified_enc v).trans hk.enc, (hspace .inp (by decide)).trans hinp, (hspace .outp (by decide)).trans houtp,
      (hspace .raw (by decide)).trans hraw, (hspace .pix (by decide)).trans hpix, fun hok _ x hx => ?_⟩
    · rintro rfl
      exact unspecified_chType v (chType_notMem_chunksItems s v)
    · rintro rfl
      exact ⟨unspecified_ch v fun it hit => (chunksItems_cut it hit).1,
        unspecified_inPos v fun hit => (chunksItems_cut _ hit).2 rfl⟩
    · obtain ⟨hwf, hread⟩ := hk.pal (hok .pal).1
      exact (chunksItems_pal s e hwf hx).trans (hread x hx)
  · exact decChunksStep_cut (h.imp_right fun ⟨len, typ, hh, hc⟩ => by rwa [chunkAhead_holds hh])
  · have hfull := chunkRead_fits_eq_false_iff s typ data crc
    have hafter := pastChunk_crcChecked (pastChunk_mem_eq hfull)
    exact ⟨fun hg => (decChunksStep_corrupted h hg).trans (congrArg _ hafter),
      fun hg hf => (decChunksStep_full h hg (hfull.2 hf)).trans (congrArg _ hafter),
      fun hg hf => (decChunksStep_case h hg (hfull.not.2 hf)).trans (congrArg _ hafter)⟩
  · exact chunkCase_record_raised h (record_raised hm)

end Sys2Proof.Machine
end

section
/-! SUPPORT. The predictors, reconstruction, bit packing and filter selection (42_filter.md R502 to R509, R540), and their
obligations. -/

namespace Sys2Proof.Machine

/-! ## Predictors -/

theorem toNat_predictor_average (a b c : Byte) : (predictor .average a b c).toNat = (a.toNat + b.toNat) / 2 := by
  have ha := a.isLt
  have hb := b.isLt
  simp only [predictor, BitVec.toNat_ofNat]
  omega

/-- The Paeth predictor by its three distances (42_filter.md R503). -/
theorem predictor_paeth (a b c : Byte) :
    predictor .paeth a b c =
      if ((b.toNat : Int) - c.toNat).natAbs ≤ ((a.toNat : Int) - c.toNat).natAbs ∧
          ((b.toNat : Int) - c.toNat).natAbs ≤ ((a.toNat : Int) + b.toNat - 2 * c.toNat).natAbs then a
      else if ((a.toNat : Int) - c.toNat).natAbs ≤ ((a.toNat : Int) + b.toNat - 2 * c.toNat).natAbs then b
      else c := by
  have pa : (a.toNat : Int) + b.toNat - c.toNat - a.toNat = b.toNat - c.toNat := by omega
  have pb : (a.toNat : Int) + b.toNat - c.toNat - b.toNat = a.toNat - c.toNat := by omega
  have pc : (a.toNat : Int) + b.toNat - c.toNat - c.toNat = a.toNat + b.toNat - 2 * c.toNat := by omega
  simp only [predictor, paeth, pa, pb, pc]

/-! ## Reconstruction -/

@[simp] theorem length_filt (ft : FilterType) (bpp : Nat) (o pr : Bytes) : (filt ft bpp o pr).length = o.length := by
  simp [filt]

theorem byteAt_filt (ft : FilterType) (bpp : Nat) (o pr : Bytes) {i : Nat} (h : i < o.length) :
    byteAt (filt ft bpp o pr) i = byteAt o i - predictAt ft bpp o pr i := by
  rw [byteAt_eq_getElem (by rwa [length_filt])]
  simp [filt]

@[simp] theorem length_recon (ft : FilterType) (bpp : Nat) (f pr : Bytes) : (recon ft bpp f pr).length = f.length := by
  have grow : ∀ r : Bytes, (f.foldl (reconStep ft bpp pr) r).length = r.length + f.length := by
    induction f with
    | nil => exact fun r => rfl
    | cons x f ih => intro r; rw [List.foldl_cons, ih]; simp [reconStep]; omega
  exact (grow []).trans (Nat.zero_add _)

/-- The prediction of a byte looks only at bytes before it. -/
theorem predictAt_take (ft : FilterType) {bpp : Nat} (hb : 0 < bpp) (r pr : Bytes) (n : Nat) :
    predictAt ft bpp (r.take n) pr n = predictAt ft bpp r pr n := by
  have left : leftOf bpp (r.take n) n = leftOf bpp r n := by
    unfold leftOf
    split
    case isTrue h => simp [byteAt, List.getD_eq_getElem?_getD, List.getElem?_take_of_lt (show n - bpp < n by omega)]
    case isFalse => rfl
  rw [predictAt, left, predictAt]

/-- Reconstruction gives the only row that stands to the filtered bytes as R504 says. -/
theorem recon_eq_of_isReconstructed {ft : FilterType} {bpp : Nat} {body pr row : Bytes} (hb : 0 < bpp)
    (h : IsReconstructed ft bpp body pr row) : recon ft bpp body pr = row := by
  obtain ⟨hlen, hbyte⟩ := h
  have upTo : ∀ n ≤ body.length, (body.take n).foldl (reconStep ft bpp pr) [] = row.take n := by
    intro n
    induction n with
    | zero => intro _; rfl
    | succ n ih =>
      intro hn
      have hx : row[n] = body[n] + predictAt ft bpp row pr n := by
        have := hbyte n hn
        rwa [byteAt_eq_getElem, byteAt_eq_getElem hn] at this
      rw [List.take_succ_eq_append_getElem hn, List.foldl_append, ih (by omega),
        List.take_succ_eq_append_getElem (hlen ▸ hn), hx, ← predictAt_take ft hb row pr n]
      simp [reconStep, show min n row.length = n by omega]
  have all := upTo body.length (Nat.le_refl _)
  rwa [List.take_length, ← hlen, List.take_length] at all

/-- A row stands to its filtered bytes as R504 says. -/
theorem isReconstructed_filt (ft : FilterType) (bpp : Nat) (o pr : Bytes) :
    IsReconstructed ft bpp (filt ft bpp o pr) pr o := by
  refine ⟨(length_filt ..).symm, fun i hi => ?_⟩
  rw [length_filt] at hi
  rw [byteAt_filt ft bpp o pr hi]
  exact (BitVec.sub_add_cancel _ _).symm

/-! ## Bit packing -/

@[simp] theorem length_unpack (r : Bytes) (w pb : Nat) : (unpack r w pb).length = w := by simp [unpack]

theorem toNat_sampleMask {pb : Nat} (h : pb ≤ 8) : (sampleMask pb).toNat = 2 ^ pb - 1 := by
  have hp : 2 ^ pb ≤ 2 ^ 8 := Nat.pow_le_pow_right (by decide) h
  rw [sampleMask, BitVec.toNat_ofNat, Nat.mod_eq_of_lt (by have := Nat.two_pow_pos pb; omega)]

/-- Sample `x` of a packed row (42_filter.md R507). -/
theorem toNat_byteAt_unpack (r : Bytes) {w pb x : Nat} (hpb : pb ≤ 8) (hx : x < w) :
    (byteAt (unpack r w pb) x).toNat = (byteAt r (x * pb / 8)).toNat / 2 ^ (8 - pb - x * pb % 8) % 2 ^ pb := by
  rw [byteAt_eq_getElem (by rwa [length_unpack])]
  simp only [unpack, List.getElem_map, List.getElem_range, BitVec.toNat_and, BitVec.toNat_ushiftRight,
    toNat_sampleMask hpb, Nat.and_two_pow_sub_one_eq_mod, Nat.shiftRight_eq_div_pow]

/-- With 1, 2 or 4 pixel bits, bit `j` of byte `k` belongs to sample `x` when `x` lies in byte `k` and its bits reach `j`
(42_filter.md R508). -/
theorem sampleOfBit_eq_iff {pb k j x : Nat} (hpb : pb ∈ [1, 2, 4]) (hj : j < 8) :
    (8 * k + (7 - j)) / pb = x ↔ x * pb / 8 = k ∧ 8 - pb - x * pb % 8 ≤ j ∧ j < 8 - pb - x * pb % 8 + pb := by
  simp only [List.mem_cons, List.not_mem_nil, or_false] at hpb
  obtain rfl | rfl | rfl := hpb <;> omega

theorem bitOfSample_eq {pb k j x : Nat} (hpb : pb ∈ [1, 2, 4]) (hj : j < 8) (h : (8 * k + (7 - j)) / pb = x) :
    pb - 1 - (8 * k + (7 - j)) % pb = j - (8 - pb - x * pb % 8) := by
  simp only [List.mem_cons, List.not_mem_nil, or_false] at hpb
  obtain rfl | rfl | rfl := hpb <;> omega

theorem byteAt_zeros (n i : Nat) : byteAt (zeros n) i = 0 := by
  by_cases h : i < n
  · exact List.getD_replicate _ h
  · exact byteAt_of_length_le (by simpa using h)

/-- Bit `j` of byte `k` of the first `n` samples packed: the bits run most significant first (42_filter.md R508). -/
def packedBit (s : Bytes) (pb n k j : Nat) : Bool :=
  decide ((8 * k + (7 - j)) / pb < n) && (byteAt s ((8 * k + (7 - j)) / pb)).getLsbD (pb - 1 - (8 * k + (7 - j)) % pb)

theorem getLsbD_sampleBits {s : Bytes} {pb x j : Nat} (hpb : pb ∈ [1, 2, 4]) (hj : j < 8) :
    (sampleBits s pb x).getLsbD j =
      (decide (8 - pb - x * pb % 8 ≤ j ∧ j < 8 - pb - x * pb % 8 + pb) &&
        (byteAt s x).getLsbD (j - (8 - pb - x * pb % 8))) := by
  have hpb8 := (by decide : ∀ pb ∈ [1, 2, 4], pb ≤ 8) pb hpb
  have mask : ∀ i, (sampleMask pb).getLsbD i = decide (i < pb) := by
    intro i
    rw [BitVec.getLsbD, toNat_sampleMask hpb8, Nat.testBit_two_pow_sub_one]
  rw [sampleBits_legal hpb, BitVec.getLsbD_shiftLeft, BitVec.getLsbD_and, mask]
  by_cases h1 : j < 8 - pb - x * pb % 8
  · simp [hj, h1]; omega
  · by_cases h2 : j < 8 - pb - x * pb % 8 + pb
    · simp [hj, h1, show j - (8 - pb - x * pb % 8) < pb by omega, show 8 - pb - x * pb % 8 ≤ j by omega, h2]
    · simp [hj, h1, show ¬j - (8 - pb - x * pb % 8) < pb by omega, h2]

/-- The first `n` samples packed into a row of `w` (42_filter.md R508). -/
def packFirst (s : Bytes) (w pb n : Nat) : Bytes := (List.range n).foldl (packStep s pb) (zeros (ceilDiv (w * pb) 8))

theorem packFirst_succ (s : Bytes) (w pb n : Nat) :
    packFirst s w pb (n + 1) = packStep s pb (packFirst s w pb n) n := by
  simp [packFirst, List.range_succ]

@[simp] theorem length_packFirst (s : Bytes) (w pb n : Nat) : (packFirst s w pb n).length = ceilDiv (w * pb) 8 := by
  induction n with
  | zero => simp [packFirst]
  | succ n ih => rw [packFirst_succ]; simp [packStep, ih]

theorem byteAt_packStep (s q : Bytes) {pb x : Nat} (k : Nat) (h : x * pb / 8 < q.length) :
    byteAt (packStep s pb q x) k = if x * pb / 8 = k then byteAt q k ||| sampleBits s pb x else byteAt q k := by
  by_cases hk : x * pb / 8 = k
  · subst hk; simp [packStep, byteAt, List.getD_eq_getElem?_getD, h]
  · simp [packStep, byteAt, List.getD_eq_getElem?_getD, List.getElem?_set_ne hk, hk]

/-- Every bit of the samples packed so far (42_filter.md R508). -/
theorem getLsbD_packFirst {s : Bytes} {w pb n : Nat} (hpb : pb ∈ [1, 2, 4]) (hn : n ≤ w) {k j : Nat} (hj : j < 8) :
    (byteAt (packFirst s w pb n) k).getLsbD j = packedBit s pb n k j := by
  induction n with
  | zero =>
    have zero : byteAt (packFirst s w pb 0) k = 0 := byteAt_zeros _ k
    simp [zero, packedBit]
  | succ n ih =>
    have hlen : n * pb / 8 < (packFirst s w pb n).length := by
      rw [length_packFirst, ceilDiv]
      have : n * pb + pb ≤ w * pb := by rw [← Nat.succ_mul]; exact Nat.mul_le_mul_right pb hn
      simp only [List.mem_cons, List.not_mem_nil, or_false] at hpb
      omega
    have ih := ih (by omega)
    have here := sampleOfBit_eq_iff (k := k) (x := n) hpb hj
    rw [packFirst_succ, byteAt_packStep s _ k hlen]
    by_cases hx : (8 * k + (7 - j)) / pb = n
    · obtain ⟨hk, hreach⟩ := here.1 hx
      rw [if_pos hk, BitVec.getLsbD_or, ih, getLsbD_sampleBits hpb hj, decide_eq_true hreach, ← bitOfSample_eq hpb hj hx]
      simp [packedBit, hx]
    · have kept : packedBit s pb (n + 1) k j = packedBit s pb n k j := by
        simp only [packedBit, show (8 * k + (7 - j)) / pb < n + 1 ↔ (8 * k + (7 - j)) / pb < n by omega]
      rw [kept]
      by_cases hk : n * pb / 8 = k
      · have hreach := fun h => hx (here.2 ⟨hk, h⟩)
        rw [if_pos hk, BitVec.getLsbD_or, ih, getLsbD_sampleBits hpb hj, decide_eq_false hreach]
        simp
      · rw [if_neg hk, ih]

@[simp] theorem length_pack (s : Bytes) (w pb : Nat) : (pack s w pb).length = ceilDiv (w * pb) 8 := length_packFirst s w pb w

/-- Every bit of a packed row (42_filter.md R508). -/
theorem testBit_byteAt_pack {s : Bytes} {w pb : Nat} (hpb : pb ∈ [1, 2, 4]) {k j : Nat} (hj : j < 8) :
    (byteAt (pack s w pb) k).toNat.testBit j = packedBit s pb w k j :=
  getLsbD_packFirst hpb (Nat.le_refl w) hj

/-- Sample `x` stands at its place in a packed row (42_filter.md R508). -/
theorem sample_pack {s : Bytes} {w pb x : Nat} (hpb : pb ∈ [1, 2, 4]) (hx : x < w) :
    (byteAt (pack s w pb) (x * pb / 8)).toNat / 2 ^ (8 - pb - x * pb % 8) % 2 ^ pb = (byteAt s x).toNat % 2 ^ pb := by
  apply Nat.eq_of_testBit_eq
  intro i
  rw [Nat.testBit_mod_two_pow, Nat.testBit_mod_two_pow, Nat.testBit_div_two_pow]
  by_cases hi : i < pb
  · have hj : i + (8 - pb - x * pb % 8) < 8 := by
      simp only [List.mem_cons, List.not_mem_nil, or_false] at hpb
      obtain rfl | rfl | rfl := hpb <;> omega
    have hbit := (sampleOfBit_eq_iff (k := x * pb / 8) hpb hj).2 ⟨rfl, by omega, by omega⟩
    rw [testBit_byteAt_pack hpb hj, packedBit, bitOfSample_eq hpb hj hbit, hbit, Nat.add_sub_cancel]
    simp [hi, hx, BitVec.getLsbD]
  · simp [hi]

/-- The bits after the last sample are 0 (42_filter.md R508). -/
theorem padding_pack {s : Bytes} {w pb : Nat} (hpb : pb ∈ [1, 2, 4]) :
    (byteAt (pack s w pb) (w * pb / 8)).toNat % 2 ^ (8 - w * pb % 8) = 0 := by
  apply Nat.eq_of_testBit_eq
  intro j
  rw [Nat.testBit_mod_two_pow, Nat.zero_testBit]
  by_cases hj : j < 8 - w * pb % 8
  · have hpast : ¬(8 * (w * pb / 8) + (7 - j)) / pb < w := by
      simp only [List.mem_cons, List.not_mem_nil, or_false] at hpb
      obtain rfl | rfl | rfl := hpb <;> omega
    rw [testBit_byteAt_pack hpb (by omega), packedBit, decide_eq_false hpast]
    simp
  · simp [hj]

/-- Unpacking inverts packing (42_filter.md R509). -/
theorem unpack_pack {s : Bytes} {w pb : Nat} (hpb : pb ∈ [1, 2, 4]) (hw : s.length = w)
    (hs : ∀ b ∈ s, b.toNat < 2 ^ pb) : unpack (pack s w pb) w pb = s := by
  have hpb8 := (by decide : ∀ pb ∈ [1, 2, 4], pb ≤ 8) pb hpb
  refine ext_byteAt (by rw [length_unpack, hw]) fun x hx => BitVec.eq_of_toNat_eq ?_
  rw [length_unpack] at hx
  rw [toNat_byteAt_unpack _ hpb8 hx, sample_pack hpb hx]
  refine Nat.mod_eq_of_lt (hs _ ?_)
  rw [byteAt_eq_getElem (hw ▸ hx)]
  exact List.getElem_mem _

/-! ## Filter selection -/

/-- `best` is the first of the filters `seen`, in the order of their codes, whose filtered row has the least sum, and that sum
(42_filter.md R540). -/
structure IsFirstMinimum (sum : FilterType → Nat) (seen : List FilterType) (best : FilterType × Nat) : Prop where
  mem : best.1 ∈ seen
  sum_eq : best.2 = sum best.1
  le : ∀ ft ∈ seen, sum best.1 ≤ sum ft
  lt : ∀ ft ∈ seen, ft.code.toNat < best.1.code.toNat → sum best.1 < sum ft

/-- One step of the BestSize search, on a filter behind those seen. -/
theorem IsFirstMinimum.better {bpp : Nat} {o pr : Bytes} {seen : List FilterType} {best : FilterType × Nat}
    (h : IsFirstMinimum (fun ft => rowSum (filt ft bpp o pr)) seen best) (ft : FilterType)
    (hft : ∀ g ∈ seen, g.code.toNat < ft.code.toNat) :
    IsFirstMinimum (fun ft => rowSum (filt ft bpp o pr)) (ft :: seen) (betterFilter bpp o pr best ft) := by
  obtain ⟨hmem, hsum, hle, hlt⟩ := h
  unfold betterFilter
  split
  case isTrue hless =>
    rw [hsum] at hless
    refine ⟨List.mem_cons_self .., rfl, fun g hg => ?_, fun g hg hcode => ?_⟩ <;> obtain rfl | hg := List.mem_cons.1 hg
    · exact Nat.le_refl _
    · exact Nat.le_of_lt (Nat.lt_of_lt_of_le hless (hle g hg))
    · exact absurd hcode (Nat.lt_irrefl _)
    · exact Nat.lt_of_lt_of_le hless (hle g hg)
  case isFalse hmore =>
    rw [hsum] at hmore
    refine ⟨List.mem_cons_of_mem _ hmem, hsum, fun g hg => ?_, fun g hg hcode => ?_⟩ <;>
      obtain rfl | hg := List.mem_cons.1 hg
    · exact Nat.le_of_not_lt hmore
    · exact hle g hg
    · exact absurd hcode (Nat.not_lt.2 (Nat.le_of_lt (hft _ hmem)))
    · exact hlt g hg hcode

/-- `Select(3, o, pr)` is the first minimum of all five filters (42_filter.md R540). -/
theorem bestSize_isFirstMinimum (bpp : Nat) (o pr : Bytes) :
    IsFirstMinimum (fun ft => rowSum (filt ft bpp o pr)) [.paeth, .average, .up, .sub, .none]
      (bestSize bpp o pr, rowSum (filt (bestSize bpp o pr) bpp o pr)) := by
  have start : IsFirstMinimum (fun ft => rowSum (filt ft bpp o pr)) [.none] (.none, rowSum (filt .none bpp o pr)) :=
    ⟨List.mem_singleton.2 rfl, rfl, by simp, by simp⟩
  have found := (((start.better .sub (by decide)).better .up (by decide)).better .average (by decide)).better .paeth
    (by decide)
  exact ⟨found.mem, rfl, found.le, found.lt⟩

/-! ## The obligations -/

/-- Settles O28: reconstruction gives the only row that stands to its filtered bytes as R504 says, and the rest is read off
every bit of a packed row. -/
theorem rowTransforms : Obligations.RowTransforms := by
  unfold Obligations.RowTransforms
  refine ⟨fun a b c => ⟨rfl, rfl, rfl, toNat_predictor_average a b c, predictor_paeth a b c⟩,
    fun ft bpp o pr hb => ⟨?_, isReconstructed_filt ft bpp o pr⟩, fun pb w x r hpb hx => ?_, fun pb w s hpb hw => ?_⟩
  · exact recon_eq_of_isReconstructed hb (isReconstructed_filt ft bpp o pr)
  · exact ⟨length_unpack r w pb, toNat_byteAt_unpack r ((by decide : ∀ pb ∈ [1, 2, 4], pb ≤ 8) pb hpb) hx⟩
  · exact ⟨length_pack s w pb, unpack_pack hpb hw, fun x hx => sample_pack hpb hx, fun _ => padding_pack hpb⟩

/-- Settles O29: the search keeps the first minimum of the filters it has seen. -/
theorem bestSizeIsFirstMinimum : Obligations.BestSizeIsFirstMinimum := by
  unfold Obligations.BestSizeIsFirstMinimum
  intro bpp o pr
  have all : ∀ ft : FilterType, ft ∈ [FilterType.paeth, .average, .up, .sub, .none] := fun ft => by cases ft <;> decide
  obtain ⟨-, -, hle, hlt⟩ := bestSize_isFirstMinimum bpp o pr
  exact ⟨rfl, rfl, rfl, bestSize bpp o pr, rfl, fun ft => hle ft (all ft), fun ft => hlt ft (all ft)⟩

end Sys2Proof.Machine
end

section
/-! SUPPORT. The unfilter engine on scanlines (42_filter.md R510): what it makes of scanlines of any filter types, and how one
that is cut short or of a reserved type, or a pass whose rows are too wide, stops it (43_adam7.md R602). -/

namespace Sys2Proof.Machine

/-! ## Legal formats -/

/-- The terms of a legal format: 1, 2 or 4 bits in a byte of their own, or whole bytes (00_scope.md R17). -/
theorem formatOf_legal {ct bd : Byte} (h : legalPair ct bd = true) :
    ((formatOf ct bd).pixelBits ∈ [1, 2, 4] ∧ (formatOf ct bd).ups = 1 ∧ (formatOf ct bd).bpp = 1) ∨
      ((formatOf ct bd).pixelBits = 8 * (formatOf ct bd).ups ∧ (formatOf ct bd).bpp = (formatOf ct bd).ups ∧
        0 < (formatOf ct bd).ups) := by
  obtain ⟨hspp, -, -⟩ := legalPair_bounds h
  have hl := (legalPair_iff ct bd).1 h
  simp only [List.mem_cons, List.not_mem_nil, or_false] at hl
  obtain ⟨hc, hb | hb | hb | hb | hb⟩ | ⟨hc, hb | hb | hb | hb⟩ | ⟨hc | hc | hc, hb | hb⟩ := hl <;>
    simp [formatOf, hspp, hc, hb, ceilDiv]

theorem ImgRegs.formatOk.bpp_pos {r : ImgRegs} (h : r.formatOk) : 0 < r.format.bpp := by
  obtain ⟨-, -, hb⟩ | ⟨-, hb, hu⟩ := formatOf_legal h.1
  · exact hb ▸ Nat.one_pos
  · exact hb ▸ hu

/-- A row of whole bytes is as long packed as raw (42_filter.md R500). -/
theorem ImgRegs.formatOk.rowBytes_of_bytes {r : ImgRegs} (h : r.formatOk) (hpb : ¬r.format.pixelBits < 8) (w : Nat) :
    r.format.rowBytes w = w * r.format.ups := by
  obtain ⟨hp, -, -⟩ | ⟨hp, -, -⟩ := formatOf_legal h.1
  · exact absurd ((by decide : ∀ pb ∈ [1, 2, 4], pb < 8) _ hp) hpb
  · have : w * r.format.pixelBits = 8 * (w * r.format.ups) := by
      rw [show r.format.pixelBits = 8 * r.format.ups from hp]; ac_rfl
    rw [Format.rowBytes, ceilDiv, this]
    omega

/-- An unpacked row has the bytes of its pixels (42_filter.md R507, R510). -/
theorem ImgRegs.formatOk.length_unpackRow {r : ImgRegs} (h : r.formatOk) {w : Nat} {row : Bytes}
    (hl : row.length = r.format.rowBytes w) : (unpackRow r.format w row).length = w * r.format.ups := by
  unfold unpackRow
  split
  case isTrue hpb =>
    obtain ⟨-, hu, -⟩ | ⟨hp, -, hu⟩ := formatOf_legal h.1
    · rw [length_unpack, show r.format.ups = 1 from hu, Nat.mul_one]
    · have hp : r.format.pixelBits = 8 * r.format.ups := hp
      have hu : 0 < r.format.ups := hu
      omega
  case isFalse hpb => rw [hl, h.rowBytes_of_bytes hpb]

/-! ## Scanlines -/

/-- A scanline of any of the five filter types (42_filter.md R510). -/
def IsScanline (f : Format) (w : Nat) (l : Bytes) : Prop :=
  ∃ (ft : FilterType) (body : Bytes), l = ft.code :: body ∧ body.length = f.rowBytes w

/-- `rows` are the rows reconstructed from the scanlines one after the other, the first with prior row `pr` (42_filter.md R504,
R510). -/
inductive Unfilters (f : Format) (w : Nat) : Bytes → List Bytes → List Bytes → Prop
  | nil (pr : Bytes) : Unfilters f w pr [] []
  | cons {pr : Bytes} {ft : FilterType} {body : Bytes} {lines rows : List Bytes} (hl : body.length = f.rowBytes w)
      (hr : Unfilters f w (recon ft f.bpp body pr) lines rows) :
      Unfilters f w pr ((ft.code :: body) :: lines) (recon ft f.bpp body pr :: rows)

theorem IsScanline.length {f : Format} {w : Nat} {l : Bytes} (h : IsScanline f w l) : l.length = 1 + f.rowBytes w := by
  obtain ⟨ft, body, rfl, hl⟩ := h
  rw [List.length_cons, hl, Nat.add_comm]

/-- Scanlines of any filter types have rows (42_filter.md R504). -/
theorem exists_unfilters {f : Format} {w : Nat} {lines : List Bytes} (h : ∀ l ∈ lines, IsScanline f w l) (pr : Bytes) :
    ∃ rows, Unfilters f w pr lines rows := by
  induction lines generalizing pr with
  | nil => exact ⟨[], .nil pr⟩
  | cons l lines ih =>
    obtain ⟨ft, body, rfl, hl⟩ := h _ (List.mem_cons_self ..)
    obtain ⟨rows, hr⟩ := ih (fun l hm => h l (List.mem_cons_of_mem _ hm)) (recon ft f.bpp body pr)
    exact ⟨_, .cons hl hr⟩

theorem Unfilters.length_row {f : Format} {w : Nat} {pr : Bytes} {lines rows : List Bytes} (h : Unfilters f w pr lines rows) :
    ∀ row ∈ rows, row.length = f.rowBytes w := by
  induction h with
  | nil => simp
  | cons hl _ ih => exact List.forall_mem_cons.2 ⟨by rw [length_recon, hl], ih⟩

theorem Unfilters.length_eq {f : Format} {w : Nat} {pr : Bytes} {lines rows : List Bytes} (h : Unfilters f w pr lines rows) :
    rows.length = lines.length := by
  induction h with
  | nil => rfl
  | cons _ _ ih => exact congrArg (· + 1) ih

/-- The rows that stand to their scanlines as R504 says, one by one, are the rows reconstructed one after the other. -/
theorem unfilters_of_rows {f : Format} {w : Nat} (hb : 0 < f.bpp) {lines rows : List Bytes} {pr : Bytes}
    (hlen : rows.length = lines.length)
    (h : ∀ y < lines.length, ∃ ft body row,
      lines[y]? = some (FilterType.code ft :: body) ∧ rows[y]? = some row ∧ body.length = f.rowBytes w ∧
      IsReconstructed ft f.bpp body (if y = 0 then pr else rows.getD (y - 1) []) row) :
    Unfilters f w pr lines rows := by
  induction lines generalizing rows pr with
  | nil => rw [List.length_eq_zero_iff.1 hlen]; exact .nil pr
  | cons l lines ih =>
    cases rows with
    | nil => cases hlen
    | cons row rows =>
      obtain ⟨ft, body, row', hline, hrow, hl, hrec⟩ := h 0 (Nat.zero_lt_succ _)
      obtain rfl : l = ft.code :: body := by simpa using hline
      obtain rfl : row = row' := by simpa using hrow
      obtain rfl : recon ft f.bpp body pr = row := recon_eq_of_isReconstructed hb hrec
      refine .cons hl (ih (Nat.succ_injective hlen) fun y hy => ?_)
      obtain ⟨ft', body', row', hline, hrow, hl', hrec'⟩ := h (y + 1) (Nat.succ_lt_succ hy)
      refine ⟨ft', body', row', by simpa using hline, by simpa using hrow, hl', ?_⟩
      cases y <;> exact hrec'

/-- The scanlines of an image and its raw bytes, with the rows between them (42_filter.md R510). -/
theorem IsUnfiltered.unfilters {f : Format} {w h : Nat} {lines : List Bytes} {raw : Bytes} (hb : 0 < f.bpp)
    (hu : IsUnfiltered f w h lines raw) :
    lines.length = h ∧ ∃ rows, Unfilters f w (zeros (f.rowBytes w)) lines rows ∧ raw = rows.flatMap (unpackRow f w) := by
  obtain ⟨rows, hl, hr, hraw, hrow⟩ := hu
  exact ⟨hl, rows, unfilters_of_rows hb (hr.trans hl.symm) (by rwa [hl]), hraw⟩

theorem IsUnfiltered.isScanline {f : Format} {w h : Nat} {lines : List Bytes} {raw : Bytes}
    (hu : IsUnfiltered f w h lines raw) : ∀ l ∈ lines, IsScanline f w l := by
  obtain ⟨rows, hl, -, -, hrow⟩ := hu
  intro l hm
  obtain ⟨y, hy, rfl⟩ := List.mem_iff_getElem.1 hm
  obtain ⟨ft, body, row, hline, -, hbody, -⟩ := hrow y (hl ▸ hy)
  exact ⟨ft, body, by simpa [hy] using hline, hbody⟩

theorem length_flatten_of_length {lines : List Bytes} {k : Nat} (h : ∀ l ∈ lines, l.length = k) :
    lines.flatten.length = lines.length * k := by
  rw [List.length_flatten, List.map_congr_left h, List.map_const', List.sum_replicate, smul_eq_mul]

/-! ## The engine on scanlines -/

@[simp] theorem FilterType.ofByte_code (ft : FilterType) : FilterType.ofByte ft.code = some ft := by cases ft <;> rfl

theorem FilterType.ofByte_reserved {b : Byte} (h : 4 < b.toNat) : FilterType.ofByte b = Option.none := by
  have ne : ∀ k : Byte, k.toNat ≤ 4 → ¬b = k := by rintro k hk rfl; omega
  rw [FilterType.ofByte, if_neg (ne 0 (by decide)), if_neg (ne 1 (by decide)), if_neg (ne 2 (by decide)),
    if_neg (ne 3 (by decide)), if_neg (ne 4 (by decide))]

/-- The answer with more unpacked bytes before it. -/
def Unfiltered.after (out : Bytes) : Unfiltered → Unfiltered
  | .done more u rest => .done (out ++ more) u rest
  | .failed e info u rest => .failed e info u rest

/-- A scanline gives its row (42_filter.md R510). -/
theorem unfilterRow_scanline {f : Format} {w : Nat} (y : Nat) (u : FilterUnit) (ft : FilterType) {body : Bytes}
    (hl : body.length = f.rowBytes w) (tail : Bytes) :
    unfilterRow f w y u (ft.code :: body ++ tail) =
      .done (unpackRow f w (recon ft f.bpp body u.pri))
        { u with row := y, cur := recon ft f.bpp body u.pri, pri := recon ft f.bpp body u.pri, fstate := .writeRaw } tail := by
  simp [unfilterRow, ← hl]

/-- The engine gives the rows of scanlines, and goes on behind them (42_filter.md R510). -/
theorem unfilterRows_scanlines {f : Format} {w : Nat} {lines rows : List Bytes} (u : FilterUnit)
    (h : Unfilters f w u.pri lines rows) (y : Nat) :
    ∃ v, ∀ n tail, unfilterRows f w (lines.length + n) y u (lines.flatten ++ tail) =
      (unfilterRows f w n (y + lines.length) v tail).after (rows.flatMap (unpackRow f w)) := by
  generalize hpr : u.pri = pr at h
  induction h generalizing u y with
  | nil =>
    refine ⟨u, fun n tail => ?_⟩
    simp only [List.length_nil, Nat.zero_add, List.flatten_nil, List.nil_append, Nat.add_zero, List.flatMap_nil]
    cases unfilterRows f w n y u tail <;> rfl
  | @cons pr ft body lines rows hl _ ih =>
    subst hpr
    obtain ⟨v, hv⟩ := ih
      { u with row := y, cur := recon ft f.bpp body u.pri, pri := recon ft f.bpp body u.pri, fstate := .writeRaw } (y + 1) rfl
    refine ⟨v, fun n tail => ?_⟩
    rw [List.flatten_cons, List.append_assoc, List.length_cons, Nat.add_right_comm, unfilterRows,
      unfilterRow_scanline y u ft hl, Nat.add_comm lines.length 1, ← Nat.add_assoc]
    simp only [hv n tail]
    cases unfilterRows f w n (y + 1 + lines.length) v tail <;> simp [Unfiltered.after]

/-- The rows of an image fit the row buffers (42_filter.md R510, R530). -/
def imageFits (rowCap : Nat) (f : Format) (w h : Nat) : Prop := 0 < h → f.rowBytes w ≤ rowCap

theorem unfilterImage_done {rowCap : Nat} {f : Format} {w h : Nat} (hf : imageFits rowCap f w h) {u v : FilterUnit}
    {inp out rest : Bytes} (hr : unfilterRows f w h 0 (clearPrior rowCap (f.rowBytes w) u) inp = .done out v rest) :
    unfilterImage rowCap f w h u inp = .done out { v with fstate := .idle } rest :=
  (if_neg fun hc => Nat.not_lt.2 (hf hc.1) hc.2).trans (by rw [hr])

theorem unfilterImage_failed {rowCap : Nat} {f : Format} {w h : Nat} (hf : imageFits rowCap f w h) {u v : FilterUnit}
    {inp rest : Bytes} {e : Err} {info : Word}
    (hr : unfilterRows f w h 0 (clearPrior rowCap (f.rowBytes w) u) inp = .failed e info v rest) :
    unfilterImage rowCap f w h u inp = .failed e info v rest :=
  (if_neg fun hc => Nat.not_lt.2 (hf hc.1) hc.2).trans (by rw [hr])

/-- `UnfilterImage` of a whole image (42_filter.md R510, R511). -/
theorem unfilterImage_scanlines {rowCap : Nat} {f : Format} {w : Nat} {lines rows : List Bytes}
    (hf : imageFits rowCap f w lines.length) (h : Unfilters f w (zeros (f.rowBytes w)) lines rows) (u : FilterUnit)
    (tail : Bytes) :
    ∃ v, unfilterImage rowCap f w lines.length u (lines.flatten ++ tail) =
      .done (rows.flatMap (unpackRow f w)) v tail := by
  have hpri : Unfilters f w (clearPrior rowCap (f.rowBytes w) u).pri lines rows := by
    cases h with
    | nil => exact .nil _
    | cons hl hr => rw [clearPrior, Nat.min_eq_left (hf (Nat.zero_lt_succ _))]; exact .cons hl hr
  obtain ⟨v, hv⟩ := unfilterRows_scanlines _ hpri 0
  have run := hv 0 tail
  rw [Nat.add_zero, unfilterRows, Unfiltered.after, List.append_nil] at run
  exact ⟨_, unfilterImage_done hf run⟩

/-! ## A scanline that stops the engine -/

/-- The input `bad` where a scanline of `n` bytes should stand does not hold it whole, or holds one of a reserved type; the
error it stops the engine with (42_filter.md R510). -/
def StopsScanline (n : Nat) (bad : Bytes) (e : Err) (info : Word) : Prop :=
  (bad.length < n ∧ e = .unexpectedEof ∧ info = 0) ∨
    (n ≤ bad.length ∧ 4 < (byteAt bad 0).toNat ∧ e = .unknownFilterType ∧ info = (byteAt bad 0).setWidth 32)

theorem unfilterRow_stops {f : Format} {w : Nat} (y : Nat) (u : FilterUnit) {bad : Bytes} {e : Err} {info : Word}
    (h : StopsScanline (1 + f.rowBytes w) bad e info) :
    ∃ v rest, unfilterRow f w y u bad = .failed e info v rest := by
  cases bad with
  | nil =>
    obtain ⟨-, rfl, rfl⟩ | ⟨hlen, -⟩ := h
    · exact ⟨_, _, rfl⟩
    · rw [List.length_nil] at hlen; omega
  | cons b body =>
    obtain ⟨hlen, rfl, rfl⟩ | ⟨hlen, htype, rfl, rfl⟩ := h <;> rw [List.length_cons] at hlen
    · exact ⟨_, _, if_pos (by omega)⟩
    · simp only [unfilterRow, if_neg (show ¬body.length < f.rowBytes w by omega),
        FilterType.ofByte_reserved (show 4 < b.toNat from htype)]
      exact ⟨_, _, rfl⟩

/-- Scanlines, and then one that stops the engine (42_filter.md R510). -/
theorem unfilterImage_stops {rowCap : Nat} {f : Format} {w h : Nat} (hf : imageFits rowCap f w h) {good : List Bytes}
    (hgood : ∀ l ∈ good, IsScanline f w l) (hlt : good.length < h) {bad : Bytes} {e : Err} {info : Word}
    (hbad : StopsScanline (1 + f.rowBytes w) bad e info) (u : FilterUnit) :
    ∃ v rest, unfilterImage rowCap f w h u (good.flatten ++ bad) = .failed e info v rest := by
  obtain ⟨rows, hr⟩ := exists_unfilters hgood (clearPrior rowCap (f.rowBytes w) u).pri
  obtain ⟨v, hv⟩ := unfilterRows_scanlines _ hr 0
  obtain ⟨n, rfl⟩ : ∃ n, h = good.length + (n + 1) := ⟨h - good.length - 1, by omega⟩
  obtain ⟨v', rest, hstop⟩ := unfilterRow_stops (0 + good.length) v hbad
  refine ⟨v', rest, unfilterImage_failed hf ?_⟩
  rw [hv, unfilterRows, hstop]
  rfl

/-! ## Passes -/

/-- `part p` are scanlines of all the rows of pass `p`, of any filter types, and fit the row buffers (43_adam7.md R602). -/
structure PassReadable (rowCap : Nat) (f : Format) (w h : Nat) (part : Nat → List Bytes) (p : Nat) : Prop where
  empty : passEmpty p w h → part p = []
  count : ¬passEmpty p w h → (part p).length = passH p h
  scanlines : ¬passEmpty p w h → ∀ l ∈ part p, IsScanline f (passW p w) l
  fits : ¬passEmpty p w h → f.rowBytes (passW p w) ≤ rowCap

theorem deinterlacePasses_cons_empty {rowCap : Nat} {f : Format} {w h p : Nat} (he : passEmpty p w h) (ps : List Nat)
    (out : Bytes) (u : FilterUnit) (inp : Bytes) :
    deinterlacePasses rowCap f w h (p :: ps) out u inp =
      deinterlacePasses rowCap f w h ps out { u with pass := Fin.ofNat 8 p } inp := if_pos he

theorem deinterlacePasses_cons_done {rowCap : Nat} {f : Format} {w h p : Nat} (he : ¬passEmpty p w h) (ps : List Nat)
    (out : Bytes) {u v : FilterUnit} {inp sub rest : Bytes}
    (hr : unfilterImage rowCap f (passW p w) (passH p h) { u with pass := Fin.ofNat 8 p } inp = .done sub v rest) :
    deinterlacePasses rowCap f w h (p :: ps) out u inp =
      deinterlacePasses rowCap f w h ps (scatter f.ups w h p sub out) v rest :=
  (if_neg he).trans (by rw [hr])

theorem deinterlacePasses_cons_failed {rowCap : Nat} {f : Format} {w h p : Nat} (he : ¬passEmpty p w h) (ps : List Nat)
    (out : Bytes) {u v : FilterUnit} {inp rest : Bytes} {e : Err} {info : Word}
    (hr : unfilterImage rowCap f (passW p w) (passH p h) { u with pass := Fin.ofNat 8 p } inp = .failed e info v rest) :
    deinterlacePasses rowCap f w h (p :: ps) out u inp = .failed e info v rest :=
  (if_neg he).trans (by rw [hr])

/-- The loop over the passes goes on behind passes it can read (43_adam7.md R602). -/
theorem deinterlacePasses_readable {rowCap : Nat} {f : Format} {w h : Nat} {part : Nat → List Bytes} (pre post : List Nat)
    (hpre : ∀ p ∈ pre, PassReadable rowCap f w h part p) (out : Bytes) (u : FilterUnit) (tail : Bytes) :
    ∃ out' u', deinterlacePasses rowCap f w h (pre ++ post) out u ((pre.flatMap part).flatten ++ tail) =
      deinterlacePasses rowCap f w h post out' u' tail := by
  induction pre generalizing out u with
  | nil => exact ⟨out, u, rfl⟩
  | cons p pre ih =>
    obtain ⟨hp, hpre⟩ := List.forall_mem_cons.1 hpre
    rw [List.cons_append, List.flatMap_cons, List.flatten_append, List.append_assoc]
    by_cases hempty : passEmpty p w h
    · rw [deinterlacePasses_cons_empty hempty, hp.empty hempty]
      exact ih hpre out _
    · obtain ⟨rows, hr⟩ := exists_unfilters (hp.scanlines hempty) (zeros (f.rowBytes (passW p w)))
      obtain ⟨v, hv⟩ := unfilterImage_scanlines (fun _ => hp.fits hempty) hr { u with pass := Fin.ofNat 8 p }
        ((pre.flatMap part).flatten ++ tail)
      rw [hp.count hempty] at hv
      rw [deinterlacePasses_cons_done hempty _ out hv]
      exact ih hpre _ v

/-- A scanline of a list that is cut into parts stands in one of the parts. -/
theorem exists_part {part : Nat → List Bytes} {ps : List Nat} {good later : List Bytes} {l : Bytes}
    (h : ps.flatMap part = good ++ l :: later) :
    ∃ pre p post before behind, ps = pre ++ p :: post ∧ part p = before ++ l :: behind ∧
      good = pre.flatMap part ++ before := by
  induction ps generalizing good with
  | nil => simp at h
  | cons p ps ih =>
    rw [List.flatMap_cons] at h
    obtain ⟨good', rfl, hrest⟩ | ⟨mid, hpart, hmid⟩ := List.append_eq_append_iff.1 h
    · obtain ⟨pre, q, post, before, behind, rfl, hq, rfl⟩ := ih hrest
      exact ⟨p :: pre, q, post, before, behind, rfl, hq, by simp⟩
    · cases mid with
      | nil =>
        obtain ⟨pre, q, post, before, behind, rfl, hq, hgood⟩ := ih (good := []) hmid.symm
        exact ⟨p :: pre, q, post, before, behind, rfl, hq, by simp_all⟩
      | cons l' mid =>
        obtain ⟨rfl, -⟩ := List.cons.inj hmid
        exact ⟨[], p, ps, good, mid, rfl, hpart, rfl⟩

/-- Scanlines of passes, and then one that stops the engine (43_adam7.md R602). -/
theorem deinterlacePasses_stops {rowCap : Nat} {f : Format} {w h : Nat} {part : Nat → List Bytes} {ps : List Nat}
    (hps : ∀ p ∈ ps, PassReadable rowCap f w h part p) {good later : List Bytes} {l bad : Bytes} {e : Err} {info : Word}
    (hlines : ps.flatMap part = good ++ l :: later) (hbad : StopsScanline l.length bad e info) (out : Bytes)
    (u : FilterUnit) :
    ∃ v rest, deinterlacePasses rowCap f w h ps out u (good.flatten ++ bad) = .failed e info v rest := by
  obtain ⟨pre, p, post, before, behind, rfl, hpart, rfl⟩ := exists_part hlines
  have hp := hps p (by simp)
  have hempty : ¬passEmpty p w h := fun he => by simp [hp.empty he] at hpart
  have hscan := hp.scanlines hempty
  rw [hpart] at hscan
  have hcount := hp.count hempty
  rw [hpart, List.length_append, List.length_cons] at hcount
  rw [(hscan l (by simp)).length] at hbad
  obtain ⟨out', u', hpre⟩ := deinterlacePasses_readable pre (p :: post) (fun q hq => hps q (by simp [hq])) out u
    (before.flatten ++ bad)
  obtain ⟨v, rest, hstop⟩ := unfilterImage_stops (fun _ => hp.fits hempty) (fun l hl => hscan l (by simp [hl]))
    (show before.length < passH p h by omega) hbad { u' with pass := Fin.ofNat 8 p }
  refine ⟨v, rest, ?_⟩
  rw [List.flatten_append, List.append_assoc, hpre, deinterlacePasses_cons_failed hempty post out' hstop]

/-- Passes that are read, and then one whose rows are too wide (43_adam7.md R602, 42_filter.md R510). -/
theorem deinterlacePasses_wide {rowCap : Nat} {f : Format} {w h p : Nat} {part : Nat → List Bytes} {pre post : List Nat}
    (hpre : ∀ q ∈ pre, PassReadable rowCap f w h part q) (hempty : ¬passEmpty p w h)
    (hwide : rowCap < f.rowBytes (passW p w)) (out : Bytes) (u : FilterUnit) (tail : Bytes) :
    ∃ v rest, deinterlacePasses rowCap f w h (pre ++ p :: post) out u ((pre.flatMap part).flatten ++ tail) =
      .failed .capacityExceeded rowBuffersId v rest := by
  obtain ⟨out', u', hrun⟩ := deinterlacePasses_readable pre (p :: post) hpre out u tail
  have hpos : 0 < passH p h := Nat.pos_of_ne_zero fun h0 => hempty (.inr h0)
  exact ⟨_, tail, hrun.trans (deinterlacePasses_cons_failed hempty post out' (if_pos ⟨hpos, hwide⟩))⟩

/-! ## The deinterlacer -/

/-- The scanlines of an image, up to one that stops the engine (42_filter.md R510, 43_adam7.md R601, R602). -/
theorem deinterlacePixels_stops {rowCap : Nat} {f : Format} {m : Byte} {w h : Nat} (hf : rowsFit rowCap f m w h)
    {good later : List Bytes} {l raw bad : Bytes} {e : Err} {info : Word}
    (hd : IsDeinterlaced f m w h (good ++ l :: later) raw) (hbad : StopsScanline l.length bad e info) (u : FilterUnit) :
    ∃ v rest, deinterlacePixels rowCap f m w h u (good.flatten ++ bad) = .failed e info v rest := by
  obtain ⟨rfl, hu⟩ | ⟨rfl, -, sub, part, hlines, hpart⟩ := hd
  · have hscan := hu.isScanline
    obtain ⟨rows, hlen, -⟩ := hu
    rw [List.length_append, List.length_cons] at hlen
    rw [(hscan l (by simp)).length] at hbad
    rw [deinterlacePixels, if_pos rfl]
    exact unfilterImage_stops (hf.1 rfl) (fun l hl => hscan l (by simp [hl])) (by omega) hbad u
  · have readable : ∀ p ∈ passes, PassReadable rowCap f w h part p := by
      intro p hp
      have hp : p < 7 := (by decide : ∀ p ∈ passes, p < 7) p hp
      obtain ⟨hempty, hfull⟩ := hpart p hp
      refine ⟨hempty, fun he => ?_, fun he => (hfull he).2.isScanline, hf.2 rfl p hp⟩
      obtain ⟨rows, hlen, -⟩ := (hfull he).2
      exact hlen
    exact deinterlacePasses_stops readable hlines.symm hbad _ u

/-- The passes before pass `p`, and those from `p` on (43_adam7.md R602). -/
theorem passes_eq {p : Nat} (hp : p < 7) : passes = List.range p ++ p :: List.range' (p + 1) (6 - p) := by
  revert p; decide

/-- The scanlines of the passes before the first whose rows are too wide (43_adam7.md R602, 42_filter.md R510). -/
theorem deinterlacePixels_widePass {rowCap : Nat} {f : Format} {w h p : Nat} (hw : IsWidePass rowCap f w h p)
    {lines : List Bytes} (hl : IsPassesBefore f w h p lines) (u : FilterUnit) (tail : Bytes) :
    ∃ v rest, deinterlacePixels rowCap f 1 w h u (lines.flatten ++ tail) =
      .failed .capacityExceeded rowBuffersId v rest := by
  obtain ⟨hp, hempty, hwide, hbefore⟩ := hw
  obtain ⟨part, rfl, hpart⟩ := hl
  rw [deinterlacePixels, if_neg (by decide), if_pos rfl, adam7Deinterlace, passes_eq hp]
  refine deinterlacePasses_wide (fun q hq => ?_) hempty hwide _ u tail
  have hq := List.mem_range.1 hq
  exact ⟨(hpart q hq).1, fun he => ((hpart q hq).2 he).1, fun he => ((hpart q hq).2 he).2, hbefore q hq⟩

/-- A first row that does not fit the row buffers (42_filter.md R510). -/
theorem deinterlacePixels_wide {rowCap : Nat} {f : Format} {w h : Nat} (hh : 0 < h) (hw : rowCap < f.rowBytes w)
    (u : FilterUnit) (inp : Bytes) :
    deinterlacePixels rowCap f 0 w h u inp = .failed .capacityExceeded rowBuffersId u inp := by
  rw [deinterlacePixels, if_pos rfl, unfilterImage, if_pos ⟨hh, hw⟩]

/-- The first pass has a pixel, and its rows are the first (43_adam7.md R600). -/
theorem isWidePass_zero {rowCap : Nat} {f : Format} {w h : Nat} (hw : 0 < w) (hh : 0 < h)
    (hwide : rowCap < f.rowBytes (passW 0 w)) : IsWidePass rowCap f w h 0 := by
  refine ⟨by decide, ?_, hwide, fun q hq => absurd hq (Nat.not_lt_zero q)⟩
  simp only [passEmpty, passW, passH, startCol, startRow, colStride, rowStride, ceilDiv, List.getD_cons_zero, if_pos hw,
    if_pos hh]
  omega

end Sys2Proof.Machine
end

section
/-! SUPPORT. The scanlines the filter engine writes (42_filter.md R530, R531, 43_adam7.md R603), and how OUT takes them, or
those before the first that does not fit (20_memory.md R213). -/

namespace Sys2Proof.Machine

/-! ## Rows -/

/-- A level with a policy picks a filter for every row (42_filter.md R540). -/
theorem exists_selectFilter {level : Byte} (h : level.toNat ≤ 3) (bpp : Nat) (o pr : Bytes) :
    ∃ ft, selectFilter level bpp o pr = some ft := by
  unfold selectFilter
  split
  · exact ⟨_, rfl⟩
  split
  · exact ⟨_, rfl⟩
  split
  · exact ⟨_, rfl⟩
  · have hne : level.toNat ≠ 0 ∧ level.toNat ≠ 1 ∧ level.toNat ≠ 2 ∧ level.toNat ≠ 3 := by
      simp_all [← BitVec.toNat_inj]
    omega

/-- The scanline of a packed row (42_filter.md R530). -/
def scanline (f : Format) (level : Byte) (cur pri : Bytes) : Bytes :=
  match selectFilter level f.bpp cur pri with
  | some ft => ft.code :: filt ft f.bpp cur pri
  | none => []

theorem scanline_of_select {f : Format} {level : Byte} {cur pri : Bytes} {ft : FilterType}
    (h : selectFilter level f.bpp cur pri = some ft) : scanline f level cur pri = ft.code :: filt ft f.bpp cur pri := by
  rw [scanline, h]

theorem length_scanline {level : Byte} (h : level.toNat ≤ 3) (f : Format) (cur pri : Bytes) :
    (scanline f level cur pri).length = 1 + cur.length := by
  obtain ⟨ft, hft⟩ := exists_selectFilter h f.bpp cur pri
  rw [scanline_of_select hft, List.length_cons, length_filt, Nat.add_comm]

/-- The packed row `y` of a raw sub-image, as the engine cuts it (42_filter.md R530). -/
def engineRow (f : Format) (w : Nat) (src : Bytes) (y : Nat) : Bytes := packRow f w (slice src (y * w * f.ups) (w * f.ups))

theorem length_packRow_le (f : Format) (w : Nat) (row : Bytes) : (packRow f w row).length ≤ f.rowBytes w := by
  unfold packRow
  split
  · exact (List.length_take ..).trans_le (Nat.min_le_left ..)
  · exact Nat.le_of_eq (length_pack ..)

/-- In a legal format the engine cuts the rows of R530. -/
theorem ImgRegs.formatOk.engineRow_eq {r : ImgRegs} (h : r.formatOk) (w : Nat) (src : Bytes) (y : Nat) :
    engineRow r.format w src y = packedRow r.format w src y := by
  unfold engineRow packedRow packRow
  by_cases hpb : r.format.pixelBits < 8
  · simp only [if_pos hpb, if_neg (Nat.not_le.2 hpb)]
  · simp only [if_neg hpb, if_pos (Nat.le_of_not_lt hpb), h.rowBytes_of_bytes hpb]
    exact List.take_of_length_le ((List.length_take ..).trans_le (Nat.min_le_left ..))

theorem ImgRegs.formatOk.length_packedRow {r : ImgRegs} (h : r.formatOk) {w y : Nat} {src : Bytes}
    (hs : y * w * r.format.ups + w * r.format.ups ≤ src.length) :
    (packedRow r.format w src y).length = r.format.rowBytes w := by
  unfold packedRow
  split
  case isTrue hpb => exact length_pack ..
  case isFalse hpb => rw [length_slice _ _ _ hs, h.rowBytes_of_bytes hpb]

/-! ## The engine -/

/-- The lines of rows `y .. y+n-1`, the first with prior row `pr` (42_filter.md R530). -/
def linesFrom (f : Format) (level : Byte) (w : Nat) (src : Bytes) : Nat → Nat → Bytes → List Bytes
  | 0, _, _ => []
  | n + 1, y, pr =>
    scanline f level (engineRow f w src y) pr :: linesFrom f level w src n (y + 1) (engineRow f w src y)

/-- At a level with a policy the engine writes the scanlines of its rows, and has no error (42_filter.md R530). -/
theorem filterRows_lines {f : Format} {level : Byte} {w : Nat} {src : Bytes} (hl : level.toNat ≤ 3) (n y : Nat)
    (u : FilterUnit) :
    (filterRows f w level src n y u).err = none ∧
      (filterRows f w level src n y u).lines = linesFrom f level w src n y u.pri := by
  induction n generalizing y u with
  | zero => exact ⟨rfl, rfl⟩
  | succ n ih =>
    obtain ⟨ft, hft⟩ := exists_selectFilter hl f.bpp (engineRow f w src y) u.pri
    have hft' := hft
    unfold engineRow at hft'
    obtain ⟨herr, hlines⟩ := ih (y + 1)
      { u with row := y, cur := engineRow f w src y, pri := engineRow f w src y, fstate := .writeFilt }
    rw [linesFrom, scanline_of_select hft, ← hlines]
    simp only [filterRows, hft']
    exact ⟨herr, rfl⟩

theorem length_linesFrom (f : Format) (level : Byte) (w : Nat) (src : Bytes) (n y : Nat) (pr : Bytes) :
    (linesFrom f level w src n y pr).length = n := by
  induction n generalizing y pr with
  | zero => rfl
  | succ n ih => rw [linesFrom, List.length_cons, ih]

/-- Line number `i` is the scanline of its row, with the row before it as prior row. -/
theorem getElem?_linesFrom {f : Format} {level : Byte} {w : Nat} {src : Bytes} {n i : Nat} (hi : i < n) (y : Nat) (pr : Bytes) :
    (linesFrom f level w src n y pr)[i]? =
      some (scanline f level (engineRow f w src (y + i)) (if i = 0 then pr else engineRow f w src (y + (i - 1)))) := by
  induction n generalizing i y pr with
  | zero => exact absurd hi (Nat.not_lt_zero i)
  | succ n ih =>
    cases i with
    | zero => rfl
    | succ i =>
      rw [linesFrom, List.getElem?_cons_succ, ih (Nat.lt_of_succ_lt_succ hi), Nat.add_right_comm]
      cases i <;> simp [Nat.add_assoc, Nat.add_comm 1]

/-- A line is never longer than its row's packed bytes and a type byte (42_filter.md R531). -/
theorem length_flatten_linesFrom_le {f : Format} {level : Byte} {w : Nat} {src : Bytes} (hl : level.toNat ≤ 3) (n y : Nat)
    (pr : Bytes) : (linesFrom f level w src n y pr).flatten.length ≤ n * (1 + f.rowBytes w) := by
  induction n generalizing y pr with
  | zero => simp [linesFrom]
  | succ n ih =>
    have hrow : (engineRow f w src y).length ≤ f.rowBytes w := length_packRow_le f w _
    rw [linesFrom, List.flatten_cons, List.length_append, length_scanline hl, Nat.succ_mul]
    have := ih (y + 1) (engineRow f w src y)
    omega

/-- `FilterImage` of an image whose rows fit the row buffers (42_filter.md R530). -/
theorem filterImage_lines {rowCap : Nat} {f : Format} {level : Byte} {w h : Nat} {src : Bytes} (hl : level.toNat ≤ 3)
    (hf : imageFits rowCap f w h) (u : FilterUnit) :
    (filterImage rowCap f src w h level u).err = none ∧
      (filterImage rowCap f src w h level u).lines = linesFrom f level w src h 0 (zeros (f.rowBytes w)) := by
  obtain ⟨herr, hlines⟩ := filterRows_lines (f := f) (w := w) (src := src) hl h 0 (clearPrior rowCap (f.rowBytes w) u)
  have hrun : filterImage rowCap f src w h level u =
      { filterRows f w level src h 0 (clearPrior rowCap (f.rowBytes w) u) with
        u := { (filterRows f w level src h 0 (clearPrior rowCap (f.rowBytes w) u)).u with fstate := .idle } } := by
    rw [filterImage, if_neg fun hc => Nat.not_lt.2 (hf hc.1) hc.2]
    simp only [herr]
  rw [hrun]
  refine ⟨herr, hlines.trans ?_⟩
  cases h with
  | zero => rfl
  | succ h => rw [clearPrior, Nat.min_eq_left (hf (Nat.zero_lt_succ h))]

/-- The lines of a legal image are its filtered rows, each of `1 + RB(w)` bytes (42_filter.md R530, R531). -/
theorem isFiltered_linesFrom {r : ImgRegs} (hr : r.formatOk) {level : Byte} (hl : level.toNat ≤ 3) {w h : Nat} {src : Bytes}
    (hs : src.length = w * h * r.format.ups) :
    IsFiltered r.format level w h src (linesFrom r.format level w src h 0 (zeros (r.format.rowBytes w))) ∧
      ∀ l ∈ linesFrom r.format level w src h 0 (zeros (r.format.rowBytes w)), l.length = 1 + r.format.rowBytes w := by
  have hline : ∀ y < h, (linesFrom r.format level w src h 0 (zeros (r.format.rowBytes w)))[y]? =
      some (scanline r.format level (packedRow r.format w src y) (priorRow r.format w src y)) := by
    intro y hy
    rw [getElem?_linesFrom hy]
    simp only [Nat.zero_add, hr.engineRow_eq, priorRow]
  have hlen := length_linesFrom r.format level w src h 0 (zeros (r.format.rowBytes w))
  refine ⟨⟨hlen, fun y hy => ?_⟩, fun l hm => ?_⟩
  · obtain ⟨ft, hft⟩ := exists_selectFilter hl r.format.bpp (packedRow r.format w src y) (priorRow r.format w src y)
    exact ⟨ft, hft, (hline y hy).trans (congrArg some (scanline_of_select hft))⟩
  · obtain ⟨y, hy, rfl⟩ := List.mem_iff_getElem.1 hm
    have hyh : y < h := hlen ▸ hy
    have hrow : y * w * r.format.ups + w * r.format.ups ≤ src.length := by
      rw [hs, ← Nat.add_mul, ← Nat.succ_mul, Nat.mul_comm w h]
      exact Nat.mul_le_mul_right _ (Nat.mul_le_mul_right _ hyh)
    rw [Option.some.inj ((List.getElem?_eq_getElem hy).symm.trans (hline y hyh)), length_scanline hl,
      hr.length_packedRow hrow]

/-! ## Passes -/

/-- Pass `p` is empty, or its rows fit the row buffers. -/
def passFits (rowCap : Nat) (f : Format) (w h p : Nat) : Prop := ¬passEmpty p w h → f.rowBytes (passW p w) ≤ rowCap

/-- The bytes of the scanlines of pass `p` (43_adam7.md R603, 42_filter.md R531). -/
def passBytes (f : Format) (w h p : Nat) : Nat :=
  if passW p w = 0 ∨ passH p h = 0 then 0 else passH p h * (1 + f.rowBytes (passW p w))

/-- The loop over the passes writes the scanlines of passes whose rows fit, and goes on behind them (43_adam7.md R603). -/
theorem interlacePasses_fits {rowCap : Nat} {f : Format} {src : Bytes} {w h : Nat} {level : Byte} (hl : level.toNat ≤ 3)
    (pre post : List Nat) (hpre : ∀ p ∈ pre, passFits rowCap f w h p) (u : FilterUnit) :
    ∃ rows v, (rows.map Prod.snd).flatten.length ≤ (pre.map (passBytes f w h)).sum ∧
      interlacePasses rowCap f src w h level (pre ++ post) u =
        { interlacePasses rowCap f src w h level post v with
          rows := rows ++ (interlacePasses rowCap f src w h level post v).rows } := by
  induction pre generalizing u with
  | nil => exact ⟨[], u, Nat.le_refl _, rfl⟩
  | cons p pre ih =>
    obtain ⟨hp, hpre⟩ := List.forall_mem_cons.1 hpre
    rw [List.map_cons, List.sum_cons, List.cons_append, interlacePasses]
    by_cases hempty : passEmpty p w h
    · obtain ⟨rows, v, hlen, hrun⟩ := ih hpre { u with pass := Fin.ofNat 8 p }
      exact ⟨rows, v, by omega, (if_pos hempty).trans hrun⟩
    · obtain ⟨herr, hlines⟩ := filterImage_lines (f := f) (src := gather f.ups w h p src) hl
        (show imageFits rowCap f (passW p w) (passH p h) from fun _ => hp hempty) { u with pass := Fin.ofNat 8 p }
      obtain ⟨rows, v, hlen, hrun⟩ := ih hpre
        (filterImage rowCap f (gather f.ups w h p src) (passW p w) (passH p h) level { u with pass := Fin.ofNat 8 p }).u
      refine ⟨(filterImage rowCap f (gather f.ups w h p src) (passW p w) (passH p h) level
        { u with pass := Fin.ofNat 8 p }).rows ++ rows, v, ?_, (if_neg hempty).trans ?_⟩
      · have hpass : passBytes f w h p = passH p h * (1 + f.rowBytes (passW p w)) := if_neg hempty
        have hle := length_flatten_linesFrom_le (f := f) (w := passW p w) (src := gather f.ups w h p src) hl (passH p h) 0
          (zeros (f.rowBytes (passW p w)))
        rw [← hlines] at hle
        rw [List.map_append, List.flatten_append, List.length_append, hpass]
        exact Nat.add_le_add hle hlen
      · simp only [herr, hrun, List.append_assoc]

/-- A pass whose rows are too wide ends the loop over the passes (43_adam7.md R603, 42_filter.md R530). -/
theorem interlacePasses_cons_wide {rowCap : Nat} {f : Format} {w h p : Nat} (hempty : ¬passEmpty p w h)
    (hwide : rowCap < f.rowBytes (passW p w)) (src : Bytes) (level : Byte) (ps : List Nat) (u : FilterUnit) :
    interlacePasses rowCap f src w h level (p :: ps) u =
      { rows := [], err := some (.capacityExceeded, rowBuffersId), u := { u with pass := Fin.ofNat 8 p } } := by
  have hpos : 0 < passH p h := Nat.pos_of_ne_zero fun h0 => hempty (.inr h0)
  rw [interlacePasses]
  refine (if_neg hempty).trans ?_
  simp only [filterImage, if_pos (And.intro hpos hwide)]

/-- The interlacer-filter up to the first pass whose rows are too wide (43_adam7.md R603, 42_filter.md R530). -/
theorem interlacePixels_widePass {rowCap : Nat} {f : Format} {src : Bytes} {w h p : Nat} {level : Byte} (hl : level.toNat ≤ 3)
    (hw : IsWidePass rowCap f w h p) (u : FilterUnit) :
    (interlacePixels rowCap f 1 src w h level u).lines.flatten.length ≤ bytesBefore f w h p ∧
      (interlacePixels rowCap f 1 src w h level u).err = some (.capacityExceeded, rowBuffersId) := by
  obtain ⟨hp, hempty, hwide, hbefore⟩ := hw
  obtain ⟨rows, v, hlen, hrun⟩ := interlacePasses_fits (src := src) hl (List.range p) (p :: List.range' (p + 1) (6 - p))
    (fun q hq => hbefore q (List.mem_range.1 hq)) u
  rw [interlacePixels, if_neg (by decide), if_pos rfl, adam7Interlace, passes_eq hp, hrun,
    interlacePasses_cons_wide hempty hwide]
  refine ⟨?_, rfl⟩
  rw [List.append_nil]
  exact hlen

/-- A first row that does not fit the row buffers (42_filter.md R530). -/
theorem interlacePixels_wide {rowCap : Nat} {f : Format} {w h : Nat} (hh : 0 < h) (hw : rowCap < f.rowBytes w) (src : Bytes)
    (level : Byte) (u : FilterUnit) :
    interlacePixels rowCap f 0 src w h level u =
      { rows := [], err := some (.capacityExceeded, rowBuffersId), u := u } := by
  rw [interlacePixels, if_pos rfl, filterImage, if_pos ⟨hh, hw⟩]

/-- A first row of the first pass that does not fit the row buffers (43_adam7.md R603, 42_filter.md R530). -/
theorem interlacePixels_wideFirst {rowCap : Nat} {f : Format} {w h : Nat} (hw : IsWidePass rowCap f w h 0) (src : Bytes)
    (level : Byte) (u : FilterUnit) :
    (interlacePixels rowCap f 1 src w h level u).rows = [] ∧
      (interlacePixels rowCap f 1 src w h level u).err = some (.capacityExceeded, rowBuffersId) := by
  obtain ⟨-, hempty, hwide, -⟩ := hw
  have hrun : interlacePixels rowCap f 1 src w h level u = _ :=
    interlacePasses_cons_wide hempty hwide src level [1, 2, 3, 4, 5, 6] u
  rw [hrun]
  exact ⟨rfl, rfl⟩

/-! ## Scanlines into OUT -/

theorem State.outFits_mono {s : State} {m n : Nat} (h : s.outFits n) (hm : m ≤ n) : s.outFits m := by
  unfold State.outFits at h ⊢; omega

/-- What fits behind bytes that are written. -/
theorem State.outFits_afterOut {s : State} {v : Bytes} (h : s.outFits v.length) (hc : s.cfg.outCap < 2 ^ 32)
    (u : FilterUnit) (n : Nat) : ({ s.afterOut v with flt := u } : State).outFits n ↔ s.outFits (v.length + n) := by
  unfold State.outFits
  show (s.afterOut v).cnt.outLen.toNat + n ≤ s.cfg.outCap ↔ _
  rw [outLen_afterOut h hc, Nat.add_assoc]

/-- OUT takes all the scanlines (42_filter.md R530, 20_memory.md R213). -/
theorem forEach_writeRow_ok {rows : List (FilterUnit × Bytes)} {s : State} (hc : s.cfg.outCap < 2 ^ 32)
    (h : s.outFits (rows.map Prod.snd).flatten.length) :
    ∃ v, Cmd.forEach (writeRow .outSpace) rows s = .ok () { s.afterOut (rows.map Prod.snd).flatten with flt := v } := by
  induction rows generalizing s with
  | nil => exact ⟨s.flt, congrArg _ (State.afterOut_nil s).symm⟩
  | cons row rest ih =>
    obtain ⟨u, line⟩ := row
    rw [List.map_cons, List.flatten_cons] at h ⊢
    rw [List.length_append] at h
    have hline : s.outFits line.length := s.outFits_mono h (Nat.le_add_right _ _)
    obtain ⟨v, hv⟩ := ih (s := { s.afterOut line with flt := u }) hc ((s.outFits_afterOut hline hc u _).2 h)
    refine ⟨v, (Cmd.andThen_ok (writeRow_ok hline)).trans (hv.trans ?_)⟩
    rw [← State.afterOut_afterOut s line _ hline hc]
    rfl

/-- OUT takes the scanlines before the first that does not fit (42_filter.md R530, 20_memory.md R213). -/
theorem forEach_writeRow_raised {rows : List (FilterUnit × Bytes)} {s : State} (hc : s.cfg.outCap < 2 ^ 32) (h0 : s.outFits 0)
    (h : ¬s.outFits (rows.map Prod.snd).flatten.length) :
    ∃ n v, n < rows.length ∧ s.outFits ((rows.map Prod.snd).take n).flatten.length ∧
      ¬s.outFits ((rows.map Prod.snd).take (n + 1)).flatten.length ∧
      Cmd.forEach (writeRow .outSpace) rows s =
        .raised .capacityExceeded Space.outp.id { s.afterOut ((rows.map Prod.snd).take n).flatten with flt := v } := by
  induction rows generalizing s with
  | nil => exact absurd h0 h
  | cons row rest ih =>
    obtain ⟨u, line⟩ := row
    rw [List.map_cons] at h ⊢
    by_cases hline : s.outFits line.length
    · rw [List.flatten_cons, List.length_append] at h
      obtain ⟨n, v, hn, hfit, hnot, hrun⟩ := ih (s := { s.afterOut line with flt := u }) hc
        ((s.outFits_afterOut hline hc u 0).2 hline) (mt (s.outFits_afterOut hline hc u _).1 h)
      rw [s.outFits_afterOut hline hc] at hfit hnot
      refine ⟨n + 1, v, Nat.succ_lt_succ hn, by simpa using hfit, by simpa using hnot,
        (Cmd.andThen_ok (writeRow_ok hline)).trans (hrun.trans ?_)⟩
      rw [List.take_succ_cons, List.flatten_cons, ← State.afterOut_afterOut s line _ hline hc]
      rfl
    · refine ⟨0, u, Nat.zero_lt_succ _, h0, by simpa using hline, (Cmd.andThen_raised (writeRow_raised hline)).trans ?_⟩
      rw [List.take_zero, List.flatten_nil, State.afterOut_nil]

/-- All the scanlines in OUT, and no error behind them (42_filter.md R530). -/
theorem emit_ok {items : List Item} {engine : FilterUnit → Filtered} {s : State} (hc : s.cfg.outCap < 2 ^ 32)
    (he : (engine s.flt).err = none) (hf : s.outFits (engine s.flt).lines.flatten.length) :
    emit .outSpace (Cmd.leaving · items) engine s =
      .ok () { s.afterOut (engine s.flt).lines.flatten with flt := (engine s.flt).u } := by
  obtain ⟨v, hv⟩ := forEach_writeRow_ok hc hf
  refine (Cmd.andThen_ok hv).trans ((Cmd.andThen_ok (setFlt_run _ _)).trans ?_)
  rw [he]
  rfl

/-- The scanlines in OUT that fit, and then OUT is full (42_filter.md R530). -/
theorem emit_full {items : List Item} {engine : FilterUnit → Filtered} {s : State} (hc : s.cfg.outCap < 2 ^ 32)
    (h0 : s.outFits 0) (hf : ¬s.outFits (engine s.flt).lines.flatten.length) :
    ∃ n v, n < (engine s.flt).lines.length ∧ s.outFits ((engine s.flt).lines.take n).flatten.length ∧
      ¬s.outFits ((engine s.flt).lines.take (n + 1)).flatten.length ∧
      emit .outSpace (Cmd.leaving · items) engine s =
        .raised .capacityExceeded 1 { s.afterOut ((engine s.flt).lines.take n).flatten with flt := v } := by
  obtain ⟨n, v, hn, hfit, hnot, hrun⟩ := forEach_writeRow_raised hc h0 hf
  exact ⟨n, v, hn.trans_eq (List.length_map ..).symm, hfit, hnot, Cmd.andThen_raised hrun⟩

/-- The engine's error, behind scanlines that OUT takes (42_filter.md R530). -/
theorem emit_raised {items : List Item} {engine : FilterUnit → Filtered} {s : State} {e : Err} {info : Word}
    (he : (engine s.flt).err = some (e, info))
    (hf : (engine s.flt).rows = [] ∨ s.cfg.outCap < 2 ^ 32 ∧ s.outFits (engine s.flt).lines.flatten.length) :
    ∃ w v, emit .outSpace (Cmd.leaving · items) engine s =
      .raised e info (unspecified items { s.afterOut w with flt := v }) := by
  have written : ∃ w v, Cmd.forEach (writeRow .outSpace) (engine s.flt).rows s = .ok () { s.afterOut w with flt := v } := by
    obtain h | ⟨hc, h⟩ := hf
    · rw [h]; exact ⟨[], s.flt, congrArg _ (State.afterOut_nil s).symm⟩
    · exact ⟨_, forEach_writeRow_ok hc h⟩
  obtain ⟨w, v, hv⟩ := written
  refine ⟨w, (engine s.flt).u, (Cmd.andThen_ok hv).trans ((Cmd.andThen_ok (setFlt_run _ _)).trans ?_)⟩
  rw [he]
  rfl

end Sys2Proof.Machine
end

section
/-! SUPPORT. UNFILTER, FILTER, DEINTERLACE and INTERLACE: their checks in order, their runs, and what their errors leave
(42_filter.md R520, R545, R550, 43_adam7.md R610, R620, 60_exceptions.md R930); and the obligations about them. -/

namespace Sys2Proof.Machine

/-! ## The checks -/

theorem legalPair_known {ct bd : Byte} (h : legalPair ct bd = true) :
    bd ∈ ([1, 2, 4, 8, 16] : List Byte) ∧ ct ∈ ([0, 2, 3, 4, 6] : List Byte) := by
  have hl := (legalPair_iff ct bd).1 h
  simp only [List.mem_cons, List.not_mem_nil, or_false] at hl
  simp only [List.mem_cons, List.not_mem_nil, or_false, ← BitVec.toNat_inj]
  refine ⟨?_, ?_⟩
  · show bd.toNat = 1 ∨ bd.toNat = 2 ∨ bd.toNat = 4 ∨ bd.toNat = 8 ∨ bd.toNat = 16
    omega
  · show ct.toNat = 0 ∨ ct.toNat = 2 ∨ ct.toNat = 3 ∨ ct.toNat = 4 ∨ ct.toNat = 6
    omega

theorem headerError_of_headerOk {s : State} (h : s.img.headerOk) : s.headerError = none := by
  obtain ⟨hw, hh, ⟨hlegal, hfilt⟩, hcomp⟩ := h
  obtain ⟨hbd, hct⟩ := legalPair_known hlegal
  simp only [State.headerError, hw, hh, hbd, hct, hlegal, hfilt, hcomp, or_self, not_true_eq_false, if_false, ne_eq,
    Bool.true_eq_false]

/-- The checks of UNFILTER, FILTER, DEINTERLACE and INTERLACE: whether the command looks at the interlace method and at the
level (42_filter.md R520, R550, 43_adam7.md R610, R620). -/
def filterChecks (interlace level : Bool) : Cmd Unit :=
  checkFormat.andThen <| (if interlace then checkInterlace else .ret ()).andThen <|
  (if level then checkLevel else .ret ()).andThen checkRawRange

/-- The checks raise the first error of theirs. -/
theorem filterChecks_run (interlace level : Bool) (s : State) :
    filterChecks interlace level s = (s.filterError interlace level).elim (.ok () s) fun p => .raised p.1 p.2 s := by
  have hinterlace : (if interlace then checkInterlace else .ret ()) s =
      if interlace = true ∧ 1 < s.img.interlace.toNat then .raised .unknownInterlaceMethod 0 s else .ok () s := by
    cases interlace <;> simp [checkInterlace]
  have hlevel : (if level then checkLevel else .ret ()) s =
      if level = true ∧ 3 < s.img.level.toNat then .raised .unknownCompressionLevel 0 s else .ok () s := by
    cases level <;> simp [checkLevel]
  rw [filterChecks, checkFormat, Cmd.andThen_assoc, checkColor_andThen, Cmd.andThen_check (m := checkFilterMethod) rfl,
    Cmd.andThen_check hinterlace, Cmd.andThen_check hlevel]
  unfold checkRawRange State.filterError
  simp only [← show s.img.rawBytes = s.img.width.toNat * s.img.height.toNat * s.img.format.ups from rfl]
  split_ifs <;> rfl

theorem filterChecks_ok {interlace level : Bool} {s : State} (h : s.filterError interlace level = none) :
    filterChecks interlace level s = .ok () s := by
  rw [filterChecks_run, h]; rfl

theorem filterChecks_raised {interlace level : Bool} {s : State} {e : Err} {info : Word}
    (h : s.filterError interlace level = some (e, info)) : filterChecks interlace level s = .raised e info s := by
  rw [filterChecks_run, h]; rfl

theorem filterError_eq_none {interlace level : Bool} {s : State} (hf : s.img.formatOk)
    (hi : interlace = true → s.img.interlace.toNat ≤ 1) (hl : level = true → s.img.level.toNat ≤ 3)
    (hr : s.img.rawBytes ≤ s.cfg.rawCap) : s.filterError interlace level = none := by
  obtain ⟨hlegal, hfilt⟩ := hf
  obtain ⟨hbd, hct⟩ := legalPair_known hlegal
  have hi' : ¬(interlace = true ∧ 1 < s.img.interlace.toNat) := fun h => Nat.not_lt.2 (hi h.1) h.2
  have hl' : ¬(level = true ∧ 3 < s.img.level.toNat) := fun h => Nat.not_lt.2 (hl h.1) h.2
  have hr' : ¬s.cfg.rawCap < s.img.width.toNat * s.img.height.toNat * s.img.format.ups := Nat.not_lt.2 hr
  simp only [State.filterError, hbd, hct, hlegal, hfilt, hi', hl', hr', not_true_eq_false, if_false, ne_eq,
    Bool.true_eq_false]

theorem passed_of_filterError {interlace level : Bool} {s : State} (h : s.filterError interlace level = none) :
    (interlace = true → s.img.interlace.toNat ≤ 1) ∧ (level = true → s.img.level.toNat ≤ 3) ∧
      s.img.rawBytes ≤ s.cfg.rawCap := by
  unfold State.filterError at h
  split_ifs at h with _ _ _ _ hi hl hr
  exact ⟨fun h => Nat.le_of_not_lt fun hlt => hi ⟨h, hlt⟩, fun h => Nat.le_of_not_lt fun hlt => hl ⟨h, hlt⟩,
    Nat.le_of_not_lt hr⟩

/-! ## The commands -/

/-- The interlace method by which a command reads or writes the image: UNFILTER and FILTER know none. -/
def State.method (s : State) (interlace : Bool) : Byte := if interlace then s.img.interlace else 0

/-- UNFILTER, or DEINTERLACE where the command looks at the interlace method (42_filter.md R520, 43_adam7.md R610). -/
def unfilterBody (s : State) (interlace : Bool) : Cmd Unit :=
  Cmd.leaving (items := unfilterLeaves) <|
    (filterChecks interlace false).andThen <| clearRawLen.andThen <|
    (unfilterIn (deinterlacePixels s.cfg.rowCap s.img.format (s.method interlace) s.img.width.toNat s.img.height.toNat)).bind
      storeRaw

/-- FILTER, or INTERLACE where the command looks at the interlace method, with the `n` bytes its result would take
(42_filter.md R550, 43_adam7.md R620). -/
def filterBody (s : State) (interlace : Bool) (n : Nat) : Cmd Unit :=
  (Cmd.leaving (items := filterLeaves s n) <|
      (filterChecks interlace true).andThen <| memRead .raw 0 s.img.rawBytes).bind fun src =>
    emit .outSpace (Cmd.leaving · (filterLeaves s n))
      (interlacePixels s.cfg.rowCap s.img.format (s.method interlace) src s.img.width.toNat s.img.height.toNat s.img.level)

theorem Cmd.ret_andThen {α β : Type} (a : α) (m : Cmd β) : (Cmd.ret a).andThen m = m := rfl

theorem deinterlacePixels_zero (rowCap : Nat) (f : Format) (w h : Nat) :
    deinterlacePixels rowCap f 0 w h = unfilterImage rowCap f w h := by
  funext u inp; exact if_pos rfl

theorem interlacePixels_zero (rowCap : Nat) (f : Format) (src : Bytes) (w h : Nat) (level : Byte) :
    interlacePixels rowCap f 0 src w h level = filterImage rowCap f src w h level := by
  funext u; exact if_pos rfl

theorem exec_unfilter (s : State) : exec .unfilter s = runCommand .other (unfilterBody s false) s := by
  simp only [exec, execUnfilter, unfilterBody, filterChecks, State.method, Bool.false_eq_true, if_false,
    deinterlacePixels_zero, Cmd.andThen_assoc, Cmd.ret_andThen]

theorem exec_deinterlace (s : State) : exec .deinterlace s = runCommand .other (unfilterBody s true) s := by
  simp only [exec, execDeinterlace, unfilterBody, filterChecks, State.method, Bool.false_eq_true, if_false, if_true,
    Cmd.andThen_assoc, Cmd.ret_andThen]
  rfl

theorem exec_filter (s : State) :
    exec .filter s = runCommand .other
      (filterBody s false (s.img.format.scanlineBytes s.img.width.toNat s.img.height.toNat)) s := by
  simp only [exec, execFilter, filterBody, filterChecks, State.method, Bool.false_eq_true, if_false, if_true,
    interlacePixels_zero, Cmd.andThen_assoc, Cmd.ret_andThen]

theorem exec_interlace (s : State) :
    exec .interlace s = runCommand .other
      (filterBody s true (s.img.format.streamBytes s.img.interlace s.img.width.toNat s.img.height.toNat)) s := by
  simp only [exec, execInterlace, filterBody, filterChecks, State.method, if_true, Cmd.andThen_assoc]
  rfl

/-! ## What their errors leave -/

theorem unspecified_dec {items : List Item} (h : ∀ it ∈ items, it.freesDec = false) (s : State) :
    (unspecified items s).dec = s.dec :=
  unspecified_keeps State.dec (fun _ _ => rfl) (fun it hit k t => Item.free_dec (h it hit) k t) s

/-- A byte of a space that no item frees, as far as the items free only ranges of the space. -/
theorem unspecified_read {items : List Item} {sp : Space} {a : Nat}
    (h : ∀ it ∈ items, it.space? = some sp → ∃ off n, it = .bytes sp off n ∧ (a < off ∨ off + n ≤ a)) {s : State}
    (hw : (s.mem.get sp).wf) : ((unspecified items s).mem.get sp).read a = (s.mem.get sp).read a := by
  refine (unspecified_induct (P := fun t => (t.mem.get sp).wf ∧ (t.mem.get sp).read a = (s.mem.get sp).read a)
    (fun _ _ h => h) (fun it hit k t ht => ?_) ⟨hw, rfl⟩).2
  obtain ⟨htw, hread⟩ := ht
  by_cases hsp : it.space? = some sp
  · obtain ⟨off, n, rfl, ha⟩ := h it hit hsp
    rw [Item.free, State.setSpace, Spaces.get_set_same]
    exact ⟨freeRange_wf _ _ _ _ _ _ _ htw, (freeRange_read_outside _ _ _ _ _ _ _ _ htw ha).trans hread⟩
  · rw [Item.free_get k t hsp]
    exact ⟨htw, hread⟩

/-- The error `e` with the sequencers and the image, chunk and CRC registers as in `s`. -/
structure FailsWith (s t : State) (e : Err) (info : Word) : Prop where
  code : t.errCode = e.code
  info : t.errInfo = info
  dec : t.dec = s.dec
  enc : t.enc = s.enc
  img : t.img = s.img
  ch : t.ch = s.ch
  crc : t.crc = s.crc

/-- A failing command that has changed counters, spaces and the filter engine's registers, and leaves some of those
unspecified. -/
theorem failsWith_errorEntry {s : State} {c : Counters} {m : Spaces} {u : FilterUnit} (e : Err) (info : Word)
    {items : List Item} (hi : ∀ it ∈ items, it.freesDec = false ∧ it ∉ imageItems ∧ it ∉ chunkItems) :
    FailsWith s (errorEntry .other e info (unspecified items { s with cnt := c, mem := m, flt := u })) e info where
  code := rfl
  info := rfl
  dec := unspecified_dec (fun it hit => (hi it hit).1) _
  enc := unspecified_enc _
  img := unspecified_img _ fun it hit => (hi it hit).2.1
  ch := unspecified_ch _ fun it hit => (hi it hit).2.2
  crc := unspecified_crc _

/-- An error of UNFILTER or DEINTERLACE leaves every space but RAW (42_filter.md R520, 43_adam7.md R610). -/
theorem unfilterLeaves_fails (s : State) (c : Counters) (u : FilterUnit) (e : Err) (info : Word) :
    FailsWith s (errorEntry .other e info (unspecified unfilterLeaves { s with cnt := c, flt := u })) e info ∧
      ∀ sp, sp ≠ .raw →
        (errorEntry .other e info (unspecified unfilterLeaves { s with cnt := c, flt := u })).mem.get sp = s.mem.get sp := by
  refine ⟨failsWith_errorEntry e info (by decide), fun sp hsp => unspecified_get _ ?_⟩
  simp [unfilterLeaves, Item.space?, hsp.symm]

/-- An error of FILTER or INTERLACE, behind scanlines `w` in OUT, leaves every space but OUT, and OUT below `OUT_LEN`
(42_filter.md R550, 43_adam7.md R620). -/
theorem filterLeaves_fails (s : State) (n : Nat) (w : Bytes) (u : FilterUnit) (e : Err) (info : Word) :
    let t := errorEntry .other e info (unspecified (filterLeaves s n) { s.afterOut w with flt := u })
    FailsWith s t e info ∧ (∀ sp, sp ≠ .outp → t.mem.get sp = s.mem.get sp) ∧
      (s.mem.outp.wf → ∀ a, a < s.cnt.outLen.toNat → t.mem.outp.read a = s.mem.outp.read a) := by
  refine ⟨failsWith_errorEntry (s := s) e info (by simp [filterLeaves, Item.freesDec, imageItems, chunkItems]),
    fun sp hsp => (unspecified_get _ ?_).trans (Spaces.get_set_other _ _ _ _ hsp), fun hw a ha => ?_⟩
  · simp [filterLeaves, Item.space?, hsp.symm]
  · have freed := unspecified_read (items := filterLeaves s n) (sp := .outp) (a := a) (s := { s.afterOut w with flt := u })
      (by simp [filterLeaves, Item.space?, ha]) (Memory.wf_writeBytes _ _ _ hw)
    exact freed.trans (Memory.read_writeBytes_outside _ _ _ _ hw (.inl ha))

/-! ## Runs of UNFILTER and DEINTERLACE -/

/-- The bytes IN has left (20_memory.md R211). -/
def State.unreadIn (s : State) : Bytes := s.mem.inp.readBytes s.cnt.inPos.toNat (inAvail s)

@[simp] theorem State.length_unreadIn (s : State) : s.unreadIn.length = inAvail s := Memory.length_readBytes ..

theorem State.unreadIn_holds {s : State} {v : Bytes} (h : s.inHolds v) : ∃ tail, s.unreadIn = v ++ tail := by
  obtain ⟨hle, hv⟩ := h
  refine ⟨s.mem.inp.readBytes (s.cnt.inPos.toNat + v.length) (inAvail s - v.length), ?_⟩
  conv_rhs => rw [← hv, Memory.length_readBytes]
  rw [← Memory.readBytes_add, Nat.add_sub_cancel' hle, State.unreadIn]

theorem unfilterIn_done {engine : FilterUnit → Bytes → Unfiltered} {s : State} {out rest : Bytes} {u : FilterUnit}
    (h : engine s.flt s.unreadIn = .done out u rest) :
    unfilterIn engine s =
      .ok out { s with flt := u, cnt.inPos := s.cnt.inPos + BitVec.ofNat 32 (inAvail s - rest.length) } := by
  rw [State.unreadIn] at h
  rw [unfilterIn, h]

theorem unfilterIn_failed {engine : FilterUnit → Bytes → Unfiltered} {s : State} {e : Err} {info : Word} {rest : Bytes}
    {u : FilterUnit} (h : engine s.flt s.unreadIn = .failed e info u rest) :
    unfilterIn engine s =
      .raised e info { s with flt := u, cnt.inPos := s.cnt.inPos + BitVec.ofNat 32 (inAvail s - rest.length) } := by
  rw [State.unreadIn] at h
  rw [unfilterIn, h]

theorem storeRaw_ok {s : State} {out : Bytes} (h : out.length ≤ s.cfg.rawCap) :
    storeRaw out s =
      .ok () { s.setSpace .raw (s.mem.raw.writeBytes 0 out) with cnt.rawLen := BitVec.ofNat 32 out.length } :=
  Cmd.andThen_ok (memWrite_ok (sp := .raw) (by rwa [Nat.zero_add]))

/-- The engine that UNFILTER or DEINTERLACE runs, on the bytes of IN. -/
def State.unfiltered (s : State) (interlace : Bool) : Unfiltered :=
  deinterlacePixels s.cfg.rowCap s.img.format (s.method interlace) s.img.width.toNat s.img.height.toNat s.flt s.unreadIn

theorem unfilterBody_done {s : State} {interlace : Bool} {out rest : Bytes} {u : FilterUnit}
    (hc : s.filterError interlace false = none) (hr : s.unfiltered interlace = .done out u rest)
    (hout : out.length ≤ s.cfg.rawCap) :
    runCommand .other (unfilterBody s interlace) s =
      .next (finish
        { s.setSpace .raw (s.mem.raw.writeBytes 0 out) with
          cnt.inPos := s.cnt.inPos + BitVec.ofNat 32 (inAvail s - rest.length)
          cnt.rawLen := BitVec.ofNat 32 out.length
          flt := u }) :=
  runCommand_ok (a := ()) (Cmd.leaving_ok ((Cmd.andThen_ok (filterChecks_ok hc)).trans
    ((Cmd.andThen_ok (clearRawLen_run s)).trans
      ((Cmd.bind_ok (unfilterIn_done (s := { s with cnt.rawLen := 0 }) hr)).trans (storeRaw_ok hout)))))

theorem unfilterBody_failed {s : State} {interlace : Bool} {e : Err} {info : Word} {rest : Bytes} {u : FilterUnit}
    (hc : s.filterError interlace false = none) (hr : s.unfiltered interlace = .failed e info u rest) :
    ∃ c, runCommand .other (unfilterBody s interlace) s =
      .next (errorEntry .other e info (unspecified unfilterLeaves { s with cnt := c, flt := u })) :=
  ⟨_, runCommand_raised (Cmd.leaving_raised ((Cmd.andThen_ok (filterChecks_ok hc)).trans
    ((Cmd.andThen_ok (clearRawLen_run s)).trans
      (Cmd.bind_raised (unfilterIn_failed (s := { s with cnt.rawLen := 0 }) hr)))))⟩

theorem unfilterBody_checkFailed {s : State} {interlace : Bool} {e : Err} {info : Word}
    (hc : s.filterError interlace false = some (e, info)) :
    runCommand .other (unfilterBody s interlace) s = .next (errorEntry .other e info (unspecified unfilterLeaves s)) :=
  runCommand_raised (Cmd.leaving_raised (Cmd.andThen_raised (filterChecks_raised hc)))

/-! ## Runs of FILTER and INTERLACE -/

/-- The engine that FILTER or INTERLACE runs on the bytes of RAW. -/
def State.filteredRaw (s : State) (interlace : Bool) : Filtered :=
  interlacePixels s.cfg.rowCap s.img.format (s.method interlace) (s.mem.raw.readBytes 0 s.img.rawBytes) s.img.width.toNat
    s.img.height.toNat s.img.level s.flt

theorem filterBody_run {s : State} {interlace : Bool} (n : Nat) (hc : s.filterError interlace true = none) :
    filterBody s interlace n s =
      emit .outSpace (Cmd.leaving · (filterLeaves s n))
        (interlacePixels s.cfg.rowCap s.img.format (s.method interlace) (s.mem.raw.readBytes 0 s.img.rawBytes)
          s.img.width.toNat s.img.height.toNat s.img.level) s := by
  have read : memRead .raw 0 s.img.rawBytes s = .ok (s.mem.raw.readBytes 0 s.img.rawBytes) s :=
    memRead_ok (by simpa [Space.cap] using (passed_of_filterError hc).2.2)
  exact Cmd.bind_ok (Cmd.leaving_ok ((Cmd.andThen_ok (filterChecks_ok hc)).trans read))

theorem filterBody_done {s : State} {interlace : Bool} (n : Nat) (hc : s.filterError interlace true = none)
    (hw : s.cfg.outCap < 2 ^ 32) (he : (s.filteredRaw interlace).err = none)
    (hf : s.outFits (s.filteredRaw interlace).lines.flatten.length) :
    ∃ v, runCommand .other (filterBody s interlace n) s =
      .next (finish { s.afterOut (s.filteredRaw interlace).lines.flatten with flt := v }) :=
  ⟨_, runCommand_ok ((filterBody_run n hc).trans (emit_ok hw he hf))⟩

theorem filterBody_full {s : State} {interlace : Bool} (n : Nat) (hc : s.filterError interlace true = none)
    (hw : s.cfg.outCap < 2 ^ 32) (hs : s.lengthsOk) (hf : ¬s.outFits (s.filteredRaw interlace).lines.flatten.length) :
    ∃ k v, k < (s.filteredRaw interlace).lines.length ∧
      s.outFits ((s.filteredRaw interlace).lines.take k).flatten.length ∧
      ¬s.outFits ((s.filteredRaw interlace).lines.take (k + 1)).flatten.length ∧
      runCommand .other (filterBody s interlace n) s =
        .next (errorEntry .other .capacityExceeded 1
          { s.afterOut ((s.filteredRaw interlace).lines.take k).flatten with flt := v }) := by
  obtain ⟨k, v, hk, hfit, hnot, hrun⟩ := emit_full (items := filterLeaves s n) hw hs.2 hf
  exact ⟨k, v, hk, hfit, hnot, runCommand_raised ((filterBody_run n hc).trans hrun)⟩

theorem filterBody_failed {s : State} {interlace : Bool} {e : Err} {info : Word} (n : Nat)
    (hc : s.filterError interlace true = none) (he : (s.filteredRaw interlace).err = some (e, info))
    (hf : (s.filteredRaw interlace).rows = [] ∨
      s.cfg.outCap < 2 ^ 32 ∧ s.outFits (s.filteredRaw interlace).lines.flatten.length) :
    ∃ w v, runCommand .other (filterBody s interlace n) s =
      .next (errorEntry .other e info (unspecified (filterLeaves s n) { s.afterOut w with flt := v })) := by
  obtain ⟨w, v, hrun⟩ := emit_raised (items := filterLeaves s n) he hf
  exact ⟨w, v, runCommand_raised ((filterBody_run n hc).trans hrun)⟩

theorem filterBody_checkFailed {s : State} {interlace : Bool} {e : Err} {info : Word} (n : Nat)
    (hc : s.filterError interlace true = some (e, info)) :
    runCommand .other (filterBody s interlace n) s =
      .next (errorEntry .other e info (unspecified (filterLeaves s n) s)) :=
  runCommand_raised (Cmd.bind_raised (Cmd.leaving_raised (Cmd.andThen_raised (filterChecks_raised hc))))

theorem Config.outCap_lt_of_wf {c : Config} (h : c.wf = true) : c.outCap < 2 ^ 32 := by
  simp only [Config.wf, Config.countersFit, Bool.and_eq_true, decide_eq_true_eq] at h
  omega

end Sys2Proof.Machine
end

section
/-! SUPPORT. The obligations about UNFILTER, FILTER, DEINTERLACE, INTERLACE and DEC.PIXELS (42_filter.md R510 to R550). -/

namespace Sys2Proof.Machine

/-! ## The unfiltering commands -/

theorem length_flatMap_unpackRow {r : ImgRegs} (hf : r.formatOk) {w : Nat} {rows : List Bytes}
    (h : ∀ row ∈ rows, row.length = r.format.rowBytes w) :
    (rows.flatMap (unpackRow r.format w)).length = rows.length * (w * r.format.ups) := by
  rw [List.flatMap_def, length_flatten_of_length (k := w * r.format.ups), List.length_map]
  simp only [List.forall_mem_map]
  exact fun row hrow => hf.length_unpackRow (h row hrow)

/-- Settles O30: the engine gives the rows of the scanlines that IN holds, and takes exactly them. -/
theorem unfilterResult : Obligations.UnfilterResult := by
  unfold Obligations.UnfilterResult
  intro s lines raw hf hraw hfit hu hin
  have hscan := hu.isScanline
  obtain ⟨hlines, rows, hrows, rfl⟩ := hu.unfilters hf.bpp_pos
  have hlen : (rows.flatMap (unpackRow s.img.format s.img.width.toNat)).length = s.img.rawBytes := by
    rw [length_flatMap_unpackRow hf hrows.length_row, hrows.length_eq, hlines, ImgRegs.rawBytes]
    ac_rfl
  obtain ⟨tail, htail⟩ := s.unreadIn_holds hin
  obtain ⟨v, hv⟩ := unfilterImage_scanlines (hlines ▸ hfit.1 rfl) hrows s.flt tail
  have hrun : s.unfiltered false = .done (rows.flatMap (unpackRow s.img.format s.img.width.toNat)) v tail := by
    rw [State.unfiltered, State.method, if_neg Bool.false_ne_true, deinterlacePixels_zero, htail, ← hlines, hv]
  have hcount : inAvail s - tail.length = s.img.height.toNat * (1 + s.img.format.rowBytes s.img.width.toNat) := by
    have htotal := congrArg List.length htail
    rw [State.length_unreadIn, List.length_append, length_flatten_of_length fun l hl => (hscan l hl).length, hlines] at htotal
    omega
  have hdone := unfilterBody_done (interlace := false) (filterError_eq_none hf nofun nofun hraw) hrun (hlen ▸ hraw)
  rw [← exec_unfilter, hcount, hlen] at hdone
  exact ⟨hlen, v, hdone⟩

/-! ## A scanline that stops a command -/

theorem checkPixels_ok {s : State} (hh : s.img.headerOk) (hi : s.img.interlace.toNat ≤ 1)
    (hr : s.img.rawBytes ≤ s.cfg.rawCap) : checkPixels s = .ok () s := by
  have header : checkHeader s = .ok () s := by rw [checkHeader_run, headerError_of_headerOk hh]; rfl
  exact (Cmd.andThen_ok header).trans ((Cmd.andThen_ok (if_neg (Nat.not_lt.2 hi))).trans (if_neg (Nat.not_lt.2 hr)))

theorem exec_decPixels_failed {s : State} {e : Err} {info : Word} {rest : Bytes} {u : FilterUnit}
    (hs : s.dec.state = .inflated) (hc : s.str.infl.closed = true) (hx : checkPixels s = .ok () s)
    (hr : deinterlacer s s.flt s.str.infl.unread = .failed e info u rest) :
    ∃ c str, exec .decPixels s =
      .next (errorEntry .decode e info (unspecified (pixelsLeaves s.img) { s with cnt := c, str := str, flt := u })) := by
  have engine := unfilterInfl_failed (s := { s with cnt.rawLen := 0 }) (engine := deinterlacer s) hc hr
  have body : decPixels s = _ := Cmd.leaving_raised (items := pixelsLeaves s.img)
    ((Cmd.andThen_ok hx).trans ((Cmd.andThen_ok (clearRawLen_run s)).trans (Cmd.bind_raised engine)))
  exact ⟨_, _, runCommand_raised ((Cmd.andThen_ok (if_pos hs)).trans body)⟩

/-- An error of DEC.PIXELS leaves every space but RAW, and RAW beyond the image (44_decode.md R713, log 8). -/
theorem unspecified_pixelsLeaves_mem (r : ImgRegs) (v : State) :
    (∀ sp, sp ≠ .raw → (unspecified (pixelsLeaves r) v).mem.get sp = v.mem.get sp) ∧
      (v.mem.raw.wf → ∀ a, r.rawBytes ≤ a → (unspecified (pixelsLeaves r) v).mem.raw.read a = v.mem.raw.read a) :=
  ⟨fun sp hsp => unspecified_get _ (by simp [pixelsLeaves, Item.space?, hsp.symm]),
    fun hw a ha => unspecified_read (sp := .raw) (by simp [pixelsLeaves, Item.space?, ha]) hw⟩

/-- The bytes at hand behind whole scanlines, as the input where the next scanline should stand. -/
theorem exists_stops {good inp : Bytes} {n : Nat} {e : Err} {info : Word} (hg : inp.take good.length = good)
    (h : (good.length ≤ inp.length ∧ inp.length < good.length + n ∧ e = .unexpectedEof ∧ info = 0) ∨
      (good.length + n ≤ inp.length ∧ 4 < (byteAt inp good.length).toNat ∧ e = .unknownFilterType ∧
        info = (byteAt inp good.length).setWidth 32)) :
    ∃ bad, inp = good ++ bad ∧ StopsScanline n bad e info := by
  have hinp : inp = good ++ inp.drop good.length := by
    conv_lhs => rw [← List.take_append_drop good.length inp, hg]
  have hbyte : byteAt inp good.length = byteAt (inp.drop good.length) 0 := by
    simp [byteAt, List.getD_eq_getElem?_getD]
  refine ⟨inp.drop good.length, hinp, h.imp (fun ⟨_, hlt, he, hinfo⟩ => ⟨?_, he, hinfo⟩)
    fun ⟨hle, htype, he, hinfo⟩ => ⟨?_, hbyte ▸ htype, he, hbyte ▸ hinfo⟩⟩ <;> rw [List.length_drop] <;> omega

theorem IsDeinterlaced.method_le {f : Format} {m : Byte} {w h : Nat} {lines : List Bytes} {raw : Bytes}
    (hd : IsDeinterlaced f m w h lines raw) : m.toNat ≤ 1 := by
  obtain ⟨rfl, -⟩ | ⟨rfl, -⟩ := hd <;> decide

/-- A scanline that stops UNFILTER or DEINTERLACE. -/
theorem unfilterBody_stops {s : State} {interlace : Bool} {good later : List Bytes} {l raw bad : Bytes} {e : Err} {info : Word}
    (hf : s.img.formatOk) (hraw : s.img.rawBytes ≤ s.cfg.rawCap)
    (hfit : rowsFit s.cfg.rowCap s.img.format (s.method interlace) s.img.width.toNat s.img.height.toNat)
    (hd : IsDeinterlaced s.img.format (s.method interlace) s.img.width.toNat s.img.height.toNat (good ++ l :: later) raw)
    (hin : s.unreadIn = good.flatten ++ bad) (hbad : StopsScanline l.length bad e info) :
    ∃ t, runCommand .other (unfilterBody s interlace) s = .next t ∧ FailsWith s t e info ∧
      ∀ sp, sp ≠ .raw → t.mem.get sp = s.mem.get sp := by
  obtain ⟨v, rest, hstop⟩ := deinterlacePixels_stops hfit hd hbad s.flt
  rw [← hin] at hstop
  have hi : interlace = true → s.img.interlace.toNat ≤ 1 := by rintro rfl; exact hd.method_le
  obtain ⟨c, hrun⟩ := unfilterBody_failed (filterError_eq_none hf hi nofun hraw) hstop
  exact ⟨_, hrun, unfilterLeaves_fails s c v e info⟩

/-- Settles O31: the engine stops at the scanline, whichever command runs it. -/
theorem scanlineErrors : Obligations.ScanlineErrors := by
  unfold Obligations.ScanlineErrors
  intro i s m good body raw ft later e info inp hi hf hraw hfit hd hgood hstop
  obtain ⟨bad, hinp, hbad⟩ := exists_stops hgood hstop
  rw [show 1 + body.length = (ft.code :: body).length from Nat.add_comm 1 _] at hbad
  obtain ⟨rfl, rfl⟩ | ⟨rfl, rfl⟩ | ⟨rfl, rfl, hs, hc, hh⟩ := hi
  · obtain ⟨t, hrun, ht, hmem⟩ := unfilterBody_stops (interlace := false) hf hraw hfit hd hinp hbad
    exact ⟨t, (exec_unfilter s).trans hrun, ht.code, ht.info, congrArg DecRegs.state ht.dec, ht.enc, ht.img, hmem, nofun⟩
  · obtain ⟨t, hrun, ht, hmem⟩ := unfilterBody_stops (interlace := true) hf hraw hfit hd hinp hbad
    exact ⟨t, (exec_deinterlace s).trans hrun, ht.code, ht.info, congrArg DecRegs.state ht.dec, ht.enc, ht.img, hmem, nofun⟩
  · obtain ⟨v, rest, hfail⟩ := deinterlacePixels_stops hfit hd hbad s.flt
    rw [← hinp] at hfail
    obtain ⟨c, str, hrun⟩ := exec_decPixels_failed hs hc (checkPixels_ok hh hd.method_le hraw) hfail
    obtain ⟨hmem, hbeyond⟩ := unspecified_pixelsLeaves_mem s.img { s with cnt := c, str := str, flt := v }
    exact ⟨_, hrun, rfl, rfl, rfl, unspecified_enc _, unspecified_img _ (by simp [pixelsLeaves, imageItems]), hmem,
      fun _ => hbeyond⟩

/-! ## The filtering commands -/

/-- Settles O32: the engine writes the filtered rows, and OUT takes them up to the first that does not fit. -/
theorem filterResult : Obligations.FilterResult := by
  unfold Obligations.FilterResult
  intro s hf hl hraw hwf hfit size
  have hc := filterError_eq_none (interlace := false) (level := true) hf nofun (fun _ => hl) hraw
  have hcap := Config.outCap_lt_of_wf hwf
  obtain ⟨herr, hlines⟩ : (s.filteredRaw false).err = none ∧ (s.filteredRaw false).lines = _ := by
    rw [State.filteredRaw, State.method, if_neg Bool.false_ne_true, interlacePixels_zero]
    exact filterImage_lines hl (hfit.1 rfl) s.flt
  obtain ⟨hfiltered, hsize⟩ := isFiltered_linesFrom hf hl (w := s.img.width.toNat) (h := s.img.height.toNat)
    (src := s.mem.raw.readBytes 0 s.img.rawBytes) (Memory.length_readBytes ..)
  rw [← hlines] at hfiltered hsize
  have htake : ∀ n ≤ s.img.height.toNat, ((s.filteredRaw false).lines.take n).flatten.length = n * size := by
    intro n hn
    rw [length_flatten_of_length fun l hm => hsize l (List.mem_of_mem_take hm), List.length_take, hfiltered.count,
      Nat.min_eq_left hn]
  have hall : (s.filteredRaw false).lines.flatten.length = s.img.height.toNat * size := by
    rw [length_flatten_of_length hsize, hfiltered.count]
  refine ⟨(s.filteredRaw false).lines, hfiltered, hsize, fun hroom => ?_, fun hs hfull => ?_⟩
  · rw [exec_filter]
    exact filterBody_done _ hc hcap herr (hall ▸ hroom)
  · obtain ⟨n, v, hn, hbelow, habove, hrun⟩ := filterBody_full
      (s.img.format.scanlineBytes s.img.width.toNat s.img.height.toNat) hc hcap hs (hall ▸ hfull)
    rw [hfiltered.count] at hn
    rw [htake n (Nat.le_of_lt hn)] at hbelow
    rw [htake (n + 1) hn] at habove
    exact ⟨n, v, hn, hbelow, habove, (exec_filter s).trans hrun⟩

/-! ## Rows that are too wide -/

/-- The width of the first row that a command reads or writes: a row of the first pass where it looks at the interlace method
and the image is interlaced. -/
def State.firstWidth (s : State) (interlace : Bool) : Nat :=
  if interlace = true ∧ s.img.interlace = 1 then passW 0 s.img.width.toNat else s.img.width.toNat

theorem State.method_eq_zero {s : State} {interlace : Bool} (hi : interlace = true → s.img.interlace.toNat ≤ 1)
    (h : ¬(interlace = true ∧ s.img.interlace = 1)) : s.method interlace = 0 := by
  cases interlace
  case false => rfl
  case true =>
    have hle := hi rfl
    have hne : s.img.interlace.toNat ≠ 1 := fun h1 => h ⟨rfl, BitVec.eq_of_toNat_eq h1⟩
    exact BitVec.eq_of_toNat_eq (show s.img.interlace.toNat = 0 by omega)

/-- A first row that is too wide, by the interlace method. -/
theorem wide_first {s : State} {interlace : Bool} (hi : interlace = true → s.img.interlace.toNat ≤ 1)
    (hw : 0 < s.img.width.toNat) (hh : 0 < s.img.height.toNat)
    (hwide : s.cfg.rowCap < s.img.format.rowBytes (s.firstWidth interlace)) :
    (s.method interlace = 0 ∧ s.cfg.rowCap < s.img.format.rowBytes s.img.width.toNat) ∨
      (s.method interlace = 1 ∧ IsWidePass s.cfg.rowCap s.img.format s.img.width.toNat s.img.height.toNat 0) := by
  unfold State.firstWidth at hwide
  by_cases h : interlace = true ∧ s.img.interlace = 1
  · obtain ⟨rfl, hm⟩ := h
    rw [if_pos ⟨rfl, hm⟩] at hwide
    exact .inr ⟨hm, isWidePass_zero hw hh hwide⟩
  · rw [if_neg h] at hwide
    exact .inl ⟨s.method_eq_zero hi h, hwide⟩

/-- UNFILTER or DEINTERLACE meets a row that is too wide (42_filter.md R510, 43_adam7.md R602). -/
theorem unfiltered_wide {s : State} {interlace : Bool} (hi : interlace = true → s.img.interlace.toNat ≤ 1)
    (h : (0 < s.img.width.toNat ∧ 0 < s.img.height.toNat ∧
        s.cfg.rowCap < s.img.format.rowBytes (s.firstWidth interlace)) ∨
      (interlace = true ∧ s.img.interlace = 1 ∧
        ∃ p, IsWidePass s.cfg.rowCap s.img.format s.img.width.toNat s.img.height.toNat p ∧
          ∃ lines, IsPassesBefore s.img.format s.img.width.toNat s.img.height.toNat p lines ∧ s.inHolds lines.flatten)) :
    ∃ u rest, s.unfiltered interlace = .failed .capacityExceeded 12 u rest := by
  unfold State.unfiltered
  obtain ⟨hw, hh, hwide⟩ | ⟨rfl, hm, p, hwide, lines, hlines, hin⟩ := h
  · obtain ⟨hm, hwide⟩ | ⟨hm, hwide⟩ := wide_first hi hw hh hwide
    · exact ⟨s.flt, s.unreadIn, hm ▸ deinterlacePixels_wide hh hwide s.flt s.unreadIn⟩
    · exact hm ▸ deinterlacePixels_widePass hwide (lines := []) ⟨fun _ => [], rfl, nofun⟩ s.flt s.unreadIn
  · obtain ⟨tail, htail⟩ := s.unreadIn_holds hin
    rw [htail, show s.method true = 1 from hm]
    exact deinterlacePixels_widePass hwide hlines s.flt tail

/-- FILTER or INTERLACE meets a row that is too wide, behind scanlines that OUT takes (42_filter.md R530, 43_adam7.md R603). -/
theorem filteredRaw_wide {s : State} {interlace : Bool} (hi : interlace = true → s.img.interlace.toNat ≤ 1)
    (hl : s.img.level.toNat ≤ 3)
    (h : (0 < s.img.width.toNat ∧ 0 < s.img.height.toNat ∧
        s.cfg.rowCap < s.img.format.rowBytes (s.firstWidth interlace)) ∨
      (interlace = true ∧ s.img.interlace = 1 ∧
        ∃ p, IsWidePass s.cfg.rowCap s.img.format s.img.width.toNat s.img.height.toNat p ∧
          s.cfg.wf = true ∧ s.outFits (bytesBefore s.img.format s.img.width.toNat s.img.height.toNat p))) :
    (s.filteredRaw interlace).err = some (.capacityExceeded, 12) ∧
      ((s.filteredRaw interlace).rows = [] ∨
        s.cfg.outCap < 2 ^ 32 ∧ s.outFits (s.filteredRaw interlace).lines.flatten.length) := by
  unfold State.filteredRaw
  obtain ⟨hw, hh, hwide⟩ | ⟨rfl, hm, p, hwide, hwf, hroom⟩ := h
  · obtain ⟨hm, hwide⟩ | ⟨hm, hwide⟩ := wide_first hi hw hh hwide
    · rw [hm, interlacePixels_wide hh hwide]
      exact ⟨rfl, .inl rfl⟩
    · rw [hm]
      exact (interlacePixels_wideFirst hwide _ s.img.level s.flt).symm.imp_right .inl
  · rw [show s.method true = 1 from hm]
    obtain ⟨hlen, herr⟩ := interlacePixels_widePass (src := s.mem.raw.readBytes 0 s.img.rawBytes) hl hwide s.flt
    exact ⟨herr, .inr ⟨Config.outCap_lt_of_wf hwf, s.outFits_mono hroom hlen⟩⟩

/-- An error of the checks of UNFILTER or DEINTERLACE, or of a row that is too wide. -/
theorem unfilterBody_fails {s : State} {interlace : Bool} {e : Err} {info : Word}
    (h : s.filterError interlace false = some (e, info) ∨
      (s.filterError interlace false = none ∧ ∃ u rest, s.unfiltered interlace = .failed e info u rest)) :
    ∃ t, runCommand .other (unfilterBody s interlace) s = .next t ∧ FailsWith s t e info ∧
      ∀ sp, sp ≠ .raw → t.mem.get sp = s.mem.get sp := by
  obtain hc | ⟨hc, u, rest, hr⟩ := h
  · exact ⟨_, unfilterBody_checkFailed hc, unfilterLeaves_fails s s.cnt s.flt e info⟩
  · obtain ⟨c, hrun⟩ := unfilterBody_failed hc hr
    exact ⟨_, hrun, unfilterLeaves_fails s c u e info⟩

/-- An error of the checks of FILTER or INTERLACE, or of a row that is too wide. -/
theorem filterBody_fails {s : State} {interlace : Bool} {e : Err} {info : Word} (n : Nat)
    (h : s.filterError interlace true = some (e, info) ∨
      (s.filterError interlace true = none ∧ (s.filteredRaw interlace).err = some (e, info) ∧
        ((s.filteredRaw interlace).rows = [] ∨
          s.cfg.outCap < 2 ^ 32 ∧ s.outFits (s.filteredRaw interlace).lines.flatten.length))) :
    ∃ t, runCommand .other (filterBody s interlace n) s = .next t ∧ FailsWith s t e info ∧
      (∀ sp, sp ≠ .outp → t.mem.get sp = s.mem.get sp) ∧
      (s.mem.outp.wf → ∀ a, a < s.cnt.outLen.toNat → t.mem.outp.read a = s.mem.outp.read a) := by
  obtain hc | ⟨hc, he, hf⟩ := h
  · have leaves := filterLeaves_fails s n [] s.flt e info
    rw [State.afterOut_nil] at leaves
    exact ⟨_, filterBody_checkFailed n hc, leaves⟩
  · obtain ⟨w, v, hrun⟩ := filterBody_failed n hc he hf
    exact ⟨_, hrun, filterLeaves_fails s n w v e info⟩

/-- Settles O33: the checks raise the first error of theirs, and behind them the engine meets the row that is too wide. -/
theorem filterCommandErrors : Obligations.FilterCommandErrors := by
  unfold Obligations.FilterCommandErrors
  intro i s interlace level e info hmem w h first herr
  simp only [List.mem_cons, List.not_mem_nil, or_false, Prod.mk.injEq] at hmem
  cases level
  case false =>
    have hexec : exec i s = runCommand .other (unfilterBody s interlace) s := by
      obtain ⟨rfl, rfl, -⟩ | ⟨-, -, hl⟩ | ⟨rfl, rfl, -⟩ | ⟨-, -, hl⟩ := hmem
      · exact exec_unfilter s
      · cases hl
      · exact exec_deinterlace s
      · cases hl
    obtain ⟨t, hrun, ht, hspaces⟩ := unfilterBody_fails (e := e) (info := info)
      (herr.imp_right fun ⟨hc, he, hinfo, hwide⟩ => ⟨hc, he ▸ hinfo ▸ unfiltered_wide (passed_of_filterError hc).1 hwide⟩)
    exact ⟨t, hexec.trans hrun, ht.code, ht.info, ht.dec, ht.enc, ht.img, ht.ch, ht.crc, fun _ => hspaces, nofun⟩
  case true =>
    obtain ⟨n, hexec⟩ : ∃ n, exec i s = runCommand .other (filterBody s interlace n) s := by
      obtain ⟨-, -, hl⟩ | ⟨rfl, rfl, -⟩ | ⟨-, -, hl⟩ | ⟨rfl, rfl, -⟩ := hmem
      · cases hl
      · exact ⟨_, exec_filter s⟩
      · cases hl
      · exact ⟨_, exec_interlace s⟩
    obtain ⟨t, hrun, ht, hspaces⟩ := filterBody_fails (e := e) (info := info) n
      (herr.imp_right fun ⟨hc, he, hinfo, hwide⟩ => ⟨hc, he ▸ hinfo ▸
        filteredRaw_wide (passed_of_filterError hc).1 ((passed_of_filterError hc).2.1 rfl) hwide⟩)
    exact ⟨t, hexec.trans hrun, ht.code, ht.info, ht.dec, ht.enc, ht.img, ht.ch, ht.crc, nofun, fun _ => hspaces⟩

end Sys2Proof.Machine
end

section
/-! SUPPORT. The geometry of the Adam7 passes (43_adam7.md R600): which pixels a pass has, and that the passes share the
pixels of an image among them. -/

namespace Sys2Proof.Machine

/-! ## Pixels of a pass -/

/-- With a first place and a stride, place number `k` lies within `n` when `k` is below their count. -/
theorem lt_strideCount_iff {start stride n k : Nat} (h : 0 < stride) :
    k < (if start < n then ceilDiv (n - start) stride else 0) ↔ start + k * stride < n := by
  split
  case isTrue hs =>
    rw [ceilDiv, Nat.lt_iff_add_one_le, Nat.le_div_iff_mul_le h, Nat.succ_mul]
    omega
  case isFalse => omega

theorem lt_passW_iff {p k w : Nat} (hp : p < 7) : k < passW p w ↔ startCol p + k * colStride p < w :=
  lt_strideCount_iff ((by decide : ∀ p < 7, 0 < colStride p) p hp)

theorem lt_passH_iff {p k h : Nat} (hp : p < 7) : k < passH p h ↔ startRow p + k * rowStride p < h :=
  lt_strideCount_iff ((by decide : ∀ p < 7, 0 < rowStride p) p hp)

/-- A pass row is not longer than a row of the image (43_adam7.md R600). -/
theorem passW_le {p : Nat} (hp : p < 7) (w : Nat) : passW p w ≤ w := by
  refine Nat.le_of_not_lt fun hlt => ?_
  have hin := (lt_passW_iff hp).1 hlt
  have hstride := Nat.mul_le_mul_left w ((by decide : ∀ p < 7, 1 ≤ colStride p) p hp)
  omega

/-- The one number, if any, whose place with a first place and a stride is `x`. -/
theorem start_add_mul_eq_iff {start stride k x : Nat} (h : start < stride) :
    start + k * stride = x ↔ x % stride = start ∧ k = x / stride := by
  constructor
  · rintro rfl
    rw [Nat.add_mul_mod_self_right, Nat.mod_eq_of_lt h, Nat.add_mul_div_right _ _ (Nat.zero_lt_of_lt h),
      Nat.div_eq_of_lt h, Nat.zero_add]
    exact ⟨rfl, rfl⟩
  · rintro ⟨hmod, rfl⟩
    rw [← hmod, Nat.mul_comm, Nat.mod_add_div]

/-- The column `x` and the row `y` belong to pass `p` (10_state.md R153). -/
def onPass (p x y : Nat) : Prop := x % colStride p = startCol p ∧ y % rowStride p = startRow p

/-- Whether a pixel belongs to a pass is seen from its place in its 8 by 8 block (10_state.md R153). -/
theorem onPass_mod_eight {p : Nat} (hp : p < 7) (x y : Nat) : onPass p (x % 8) (y % 8) ↔ onPass p x y := by
  obtain ⟨hc, hr⟩ := (by decide : ∀ p < 7, colStride p ∣ 8 ∧ rowStride p ∣ 8) p hp
  rw [onPass, onPass, Nat.mod_mod_of_dvd x hc, Nat.mod_mod_of_dvd y hr]

/-- Every pixel belongs to exactly one pass: of the 64 places in a block each is one pass's (10_state.md R153). -/
theorem existsUnique_onPass (x y : Nat) : ∃ p < 7, onPass p x y ∧ ∀ q < 7, onPass q x y → q = p := by
  have block : ∀ a < 8, ∀ b < 8, ∃ p < 7, onPass p a b ∧ ∀ q < 7, onPass q a b → q = p := by
    unfold onPass; decide
  obtain ⟨p, hp, hon, honly⟩ := block _ (Nat.mod_lt x (by decide)) _ (Nat.mod_lt y (by decide))
  exact ⟨p, hp, (onPass_mod_eight hp x y).1 hon, fun q hq h => honly q hq ((onPass_mod_eight hq x y).2 h)⟩

/-- The pass pixel that stands for a pixel (43_adam7.md R600). -/
theorem passPixel_eq_iff {p px py x y : Nat} (hp : p < 7) :
    (startCol p + px * colStride p = x ∧ startRow p + py * rowStride p = y) ↔
      onPass p x y ∧ px = x / colStride p ∧ py = y / rowStride p := by
  obtain ⟨hc, hr⟩ := (by decide : ∀ p < 7, startCol p < colStride p ∧ startRow p < rowStride p) p hp
  rw [start_add_mul_eq_iff hc, start_add_mul_eq_iff hr, onPass]
  exact and_and_and_comm

/-- Settles O34: the place of a pixel in its 8 by 8 block names its pass, and the strides its pass pixel. -/
theorem adam7Coverage : Obligations.Adam7Coverage := by
  unfold Obligations.Adam7Coverage
  intro w h x y hx hy
  obtain ⟨p, hp, hon, honly⟩ := existsUnique_onPass x y
  obtain ⟨hcol, hrow⟩ := (passPixel_eq_iff hp).2 ⟨hon, rfl, rfl⟩
  refine ⟨(p, x / colStride p, y / rowStride p), ⟨hp, (lt_passW_iff hp).2 (hcol.trans_lt hx),
    (lt_passH_iff hp).2 (hrow.trans_lt hy), hcol, hrow⟩, ?_⟩
  rintro ⟨q, px, py⟩ ⟨hq, -, -, heq⟩
  obtain ⟨honq, hpx, hpy⟩ := (passPixel_eq_iff hq).1 heq
  obtain rfl : q = p := honly q hq honq
  exact Prod.ext rfl (Prod.ext hpx hpy)

/-! ## Pixel numbers -/

/-- Pass pixel `(px, py)` by its number (43_adam7.md R600). -/
theorem passPixel_of_coords {p w px : Nat} (hpx : px < passW p w) (py : Nat) :
    passPixel p w (py * passW p w + px) =
      (startRow p + py * rowStride p) * w + (startCol p + px * colStride p) := by
  have hpos : 0 < passW p w := Nat.zero_lt_of_lt hpx
  rw [passPixel, Nat.add_comm (py * passW p w), Nat.add_mul_div_right _ _ hpos, Nat.div_eq_of_lt hpx, Nat.zero_add,
    Nat.add_mul_mod_self_right, Nat.mod_eq_of_lt hpx]

/-- The coordinates of a number in row order. -/
theorem exists_coords {m n k : Nat} (hk : k < m * n) : ∃ px < m, ∃ py < n, k = py * m + px := by
  have hpos : 0 < m := Nat.pos_of_mul_pos_right (Nat.zero_lt_of_lt hk)
  exact ⟨k % m, Nat.mod_lt _ hpos, k / m, Nat.div_lt_of_lt_mul hk, (Nat.div_add_mod' k m).symm⟩

/-- A number in row order is below the number of pixels. -/
theorem coords_lt {m n px py : Nat} (hpx : px < m) (hpy : py < n) : py * m + px < m * n :=
  calc py * m + px < (py + 1) * m := by rw [Nat.succ_mul]; omega
    _ ≤ n * m := Nat.mul_le_mul_right m hpy
    _ = m * n := Nat.mul_comm n m

/-- A pass pixel stands for a pixel of the image (43_adam7.md R600). -/
theorem passPixel_lt {p w h k : Nat} (hp : p < 7) (hk : k < passW p w * passH p h) : passPixel p w k < w * h := by
  obtain ⟨px, hpx, py, hpy, rfl⟩ := exists_coords hk
  rw [passPixel_of_coords hpx]
  exact coords_lt ((lt_passW_iff hp).1 hpx) ((lt_passH_iff hp).1 hpy)

/-- Every pixel of the image is a pass pixel's (43_adam7.md R600). -/
theorem exists_passPixel {w h i : Nat} (hi : i < w * h) :
    ∃ p < 7, ∃ k < passW p w * passH p h, passPixel p w k = i := by
  obtain ⟨x, hx, y, hy, rfl⟩ := exists_coords hi
  obtain ⟨⟨p, px, py⟩, ⟨hp, hpx, hpy, hcol, hrow⟩, -⟩ := adam7Coverage w h x y hx hy
  exact ⟨p, hp, py * passW p w + px, coords_lt hpx hpy, by rw [passPixel_of_coords hpx, hcol, hrow]⟩

end Sys2Proof.Machine
end

section
/-! SUPPORT. Scattering the passes into the image, and the deinterlacer on scanlines of any filter types (43_adam7.md R601,
R602). -/

namespace Sys2Proof.Machine

/-! ## Scattering -/

theorem mem_passes {p : Nat} : p ∈ passes ↔ p < 7 := List.mem_range (n := 7)

theorem not_passEmpty_of_lt {p w h k : Nat} (hk : k < passW p w * passH p h) : ¬passEmpty p w h := by
  rintro (h0 | h0) <;> simp [h0] at hk

/-- Pixel number `k` of a pass, as the image has it (43_adam7.md R600). -/
theorem IsPass.slice_eq {f : Format} {p w h : Nat} {raw sub : Bytes} (hs : IsPass f p w h raw sub) {k : Nat}
    (hk : k < passW p w * passH p h) :
    slice sub (k * f.ups) f.ups = slice raw (passPixel p w k * f.ups) f.ups := by
  obtain ⟨px, hpx, py, hpy, rfl⟩ := exists_coords hk
  rw [passPixel_of_coords hpx]
  exact hs.2 px hpx py hpy

/-- `out'` is as long as the image `raw`, and has its bytes wherever `out` has them and at every place of `cover`. -/
def Restores (raw : Bytes) (cover : Nat → Prop) (out out' : Bytes) : Prop :=
  out'.length = raw.length ∧ ∀ i, byteAt out i = byteAt raw i ∨ cover i → byteAt out' i = byteAt raw i

/-- One change after another restores the places of each: no change spoils what is restored. -/
theorem Restores.foldl {α : Type} {raw : Bytes} {cover : α → Nat → Prop} {g : Bytes → α → Bytes} {l : List α}
    (hg : ∀ a ∈ l, ∀ out : Bytes, out.length = raw.length → Restores raw (cover a) out (g out a)) {out : Bytes}
    (ho : out.length = raw.length) : Restores raw (fun i => ∃ a ∈ l, cover a i) out (l.foldl g out) := by
  induction l generalizing out with
  | nil => exact ⟨ho, fun i h => h.resolve_right (by simp)⟩
  | cons a l ih =>
    obtain ⟨ha, hl⟩ := List.forall_mem_cons.1 hg
    obtain ⟨hlen, hbyte⟩ := ha out ho
    obtain ⟨hlen', hbyte'⟩ := ih hl hlen
    refine ⟨hlen', fun i h => hbyte' i ?_⟩
    obtain h | ⟨b, hb, hc⟩ := h
    · exact .inl (hbyte i (.inl h))
    · obtain rfl | hb := List.mem_cons.1 hb
      · exact .inl (hbyte i (.inr hc))
      · exact .inr ⟨b, hb, hc⟩

/-- Byte `i` of a raw image belongs to pixel number `q` (10_state.md R144). -/
def inPixel (ups q i : Nat) : Prop := q * ups ≤ i ∧ i < q * ups + ups

/-- Piece number `q` of `n` pieces of one size ends within them. -/
theorem piece_end_le {size q n : Nat} (hq : q < n) : q * size + size ≤ n * size := by
  rw [← Nat.succ_mul]
  exact Nat.mul_le_mul_right size hq

/-- A pixel of the image written to its place. -/
theorem overwrite_restores {raw out : Bytes} {ups q n : Nat} (hraw : raw.length = n * ups) (hq : q < n)
    (ho : out.length = raw.length) :
    Restores raw (inPixel ups q) out (overwrite out (q * ups) (slice raw (q * ups) ups)) := by
  have hend : q * ups + ups ≤ raw.length := hraw ▸ piece_end_le hq
  have hlen := length_slice raw (q * ups) ups hend
  have hroom : q * ups + (slice raw (q * ups) ups).length ≤ out.length := by rwa [hlen, ho]
  refine ⟨(length_overwrite _ _ _ hroom).trans ho, fun i h => ?_⟩
  rw [byteAt_overwrite _ _ _ _ hroom, hlen]
  split
  case isTrue hin => rw [byteAt_slice _ _ _ _ (by omega), Nat.add_sub_cancel' hin.1]
  case isFalse hout => exact h.resolve_right hout

/-- Scattering a pass restores the pixels of the pass (43_adam7.md R602). -/
theorem scatter_restores {f : Format} {p w h : Nat} {raw sub out : Bytes} (hp : p < 7) (hraw : raw.length = w * h * f.ups)
    (hs : ¬passEmpty p w h → IsPass f p w h raw sub) (ho : out.length = raw.length) :
    Restores raw (fun i => ∃ k ∈ List.range (passW p w * passH p h), inPixel f.ups (passPixel p w k) i) out
      (scatter f.ups w h p sub out) := by
  refine Restores.foldl (fun k hk o ho => ?_) ho
  have hk := List.mem_range.1 hk
  rw [(hs (not_passEmpty_of_lt hk)).slice_eq hk]
  exact overwrite_restores hraw (passPixel_lt hp hk) ho

/-- Scattering a pass without pixels changes nothing (43_adam7.md R602). -/
theorem scatter_of_passEmpty {p w h : Nat} (he : passEmpty p w h) (ups : Nat) (sub out : Bytes) :
    scatter ups w h p sub out = out := by
  have hzero : passW p w * passH p h = 0 := Nat.mul_eq_zero.2 he
  rw [scatter, hzero]
  rfl

/-- The passes `ps` scattered into the image, pass `p` holding `sub p` (43_adam7.md R602). -/
def scatterPasses (ups w h : Nat) (sub : Nat → Bytes) (ps : List Nat) (out : Bytes) : Bytes :=
  ps.foldl (fun o p => scatter ups w h p (sub p) o) out

/-- All the passes of an image scattered give the image, since every pixel is a pass's (43_adam7.md R600, R602). -/
theorem scatterPasses_eq {f : Format} {w h : Nat} {raw : Bytes} {sub : Nat → Bytes} (hraw : raw.length = w * h * f.ups)
    (hs : ∀ p < 7, ¬passEmpty p w h → IsPass f p w h raw (sub p)) :
    scatterPasses f.ups w h sub passes (zeros (w * h * f.ups)) = raw := by
  obtain ⟨hlen, hbyte⟩ := Restores.foldl (l := passes)
    (fun p hp o ho => scatter_restores (mem_passes.1 hp) hraw (hs p (mem_passes.1 hp)) ho)
    ((length_zeros _).trans hraw.symm)
  refine ext_byteAt hlen fun i hi => hbyte i (.inr ?_)
  replace hi : i < w * h * f.ups := hi.trans_eq (hlen.trans hraw)
  have hups : 0 < f.ups := Nat.pos_of_mul_pos_left (Nat.zero_lt_of_lt hi)
  obtain ⟨p, hp, k, hk, hpix⟩ := exists_passPixel (Nat.div_lt_of_lt_mul (Nat.mul_comm _ f.ups ▸ hi))
  refine ⟨p, mem_passes.2 hp, k, List.mem_range.2 hk, ?_⟩
  rw [hpix]
  exact ⟨Nat.div_mul_le_self i f.ups, Nat.lt_div_mul_add hups⟩

/-! ## The deinterlacer -/

/-- The unfilter engine on the scanlines of a raw sub-image (42_filter.md R510). -/
theorem unfilterImage_isUnfiltered {rowCap : Nat} {f : Format} {w h : Nat} {lines : List Bytes} {raw : Bytes} (hb : 0 < f.bpp)
    (hf : imageFits rowCap f w h) (hu : IsUnfiltered f w h lines raw) (u : FilterUnit) (tail : Bytes) :
    ∃ v, unfilterImage rowCap f w h u (lines.flatten ++ tail) = .done raw v tail := by
  obtain ⟨rfl, rows, hrows, rfl⟩ := hu.unfilters hb
  exact unfilterImage_scanlines hf hrows u tail

/-- The loop over the passes scatters what the scanlines of each give (43_adam7.md R602). -/
theorem deinterlacePasses_isUnfiltered {rowCap : Nat} {f : Format} {w h : Nat} {sub : Nat → Bytes} {part : Nat → List Bytes}
    {ps : List Nat} (hb : 0 < f.bpp) (hfit : ∀ p ∈ ps, passFits rowCap f w h p)
    (hempty : ∀ p ∈ ps, passEmpty p w h → part p = [])
    (hpart : ∀ p ∈ ps, ¬passEmpty p w h → IsUnfiltered f (passW p w) (passH p h) (part p) (sub p)) (out : Bytes)
    (u : FilterUnit) (tail : Bytes) :
    ∃ v, deinterlacePasses rowCap f w h ps out u ((ps.flatMap part).flatten ++ tail) =
      .done (scatterPasses f.ups w h sub ps out) v tail := by
  induction ps generalizing out u with
  | nil => exact ⟨_, rfl⟩
  | cons p ps ih =>
    rw [List.forall_mem_cons] at hfit hempty hpart
    rw [List.flatMap_cons, List.flatten_append, List.append_assoc, scatterPasses, List.foldl_cons]
    by_cases he : passEmpty p w h
    · rw [deinterlacePasses_cons_empty he, hempty.1 he, scatter_of_passEmpty he]
      exact ih hfit.2 hempty.2 hpart.2 out _
    · obtain ⟨v, hv⟩ := unfilterImage_isUnfiltered hb (fun _ => hfit.1 he) (hpart.1 he) { u with pass := Fin.ofNat 8 p }
        ((ps.flatMap part).flatten ++ tail)
      rw [deinterlacePasses_cons_done he ps out hv]
      exact ih hfit.2 hempty.2 hpart.2 _ v

/-- The deinterlacer on the scanlines of an image gives the image and takes exactly them (43_adam7.md R601, R602). -/
theorem deinterlacePixels_isDeinterlaced {rowCap : Nat} {f : Format} {m : Byte} {w h : Nat} {lines : List Bytes} {raw : Bytes}
    (hb : 0 < f.bpp) (hf : rowsFit rowCap f m w h) (hd : IsDeinterlaced f m w h lines raw) (u : FilterUnit) (tail : Bytes) :
    ∃ v, deinterlacePixels rowCap f m w h u (lines.flatten ++ tail) = .done raw v tail := by
  obtain ⟨rfl, hu⟩ | ⟨rfl, hraw, sub, part, rfl, hpart⟩ := hd
  · rw [deinterlacePixels_zero]
    exact unfilterImage_isUnfiltered hb (hf.1 rfl) hu u tail
  · have hscatter := scatterPasses_eq hraw fun p hp he => ((hpart p hp).2 he).1
    rw [deinterlacePixels, if_neg (by decide), if_pos rfl, adam7Deinterlace, ← hscatter]
    exact deinterlacePasses_isUnfiltered hb (fun p hp => hf.2 rfl p (mem_passes.1 hp))
      (fun p hp => (hpart p (mem_passes.1 hp)).1) (fun p hp he => ((hpart p (mem_passes.1 hp)).2 he).2) _ u tail

/-- The raw image of scanlines has the bytes of its pixels (10_state.md R144). -/
theorem ImgRegs.formatOk.length_isUnfiltered {r : ImgRegs} (hr : r.formatOk) {w h : Nat} {lines : List Bytes} {raw : Bytes}
    (hu : IsUnfiltered r.format w h lines raw) : raw.length = w * h * r.format.ups := by
  obtain ⟨hlines, rows, hrows, rfl⟩ := hu.unfilters hr.bpp_pos
  rw [length_flatMap_unpackRow hr hrows.length_row, hrows.length_eq, hlines]
  ac_rfl

/-- Settles O36: the deinterlacer gives the image of the scanlines that IN holds, and takes exactly them. -/
theorem deinterlaceResult : Obligations.DeinterlaceResult := by
  unfold Obligations.DeinterlaceResult
  intro s lines raw hf hraw hfit hd hin
  have hlen : raw.length = s.img.rawBytes := by
    obtain ⟨-, hu⟩ | ⟨-, hlen, -⟩ := hd
    · exact hf.length_isUnfiltered hu
    · exact hlen
  obtain ⟨tail, htail⟩ := s.unreadIn_holds hin
  obtain ⟨v, hv⟩ := deinterlacePixels_isDeinterlaced hf.bpp_pos hfit hd s.flt tail
  rw [← htail] at hv
  have hcount : inAvail s - tail.length = lines.flatten.length := by
    rw [← s.length_unreadIn, htail, List.length_append, Nat.add_sub_cancel]
  have hdone := unfilterBody_done (interlace := true) (filterError_eq_none hf (fun _ => hd.method_le) nofun hraw) hv
    (hlen ▸ hraw)
  rw [← exec_deinterlace, hcount, hlen] at hdone
  exact ⟨hlen, v, hdone⟩

end Sys2Proof.Machine
end

section
/-! SUPPORT. Gathering the passes of an image, and the scanlines the interlacer-filter writes (43_adam7.md R601, R603). -/

namespace Sys2Proof.Machine

/-! ## Pieces of one length -/

theorem length_flatMap_range {g : Nat → Bytes} {m n : Nat} (hg : ∀ k < m, (g k).length = n) :
    ((List.range m).flatMap g).length = m * n := by
  rw [List.flatMap_def, length_flatten_of_length (k := n), List.length_map, List.length_range]
  simpa only [List.forall_mem_map, List.mem_range] using hg

/-- Piece number `k` of pieces of `n` bytes. -/
theorem slice_flatMap_range {g : Nat → Bytes} {m n k : Nat} (hg : ∀ k < m, (g k).length = n) (hk : k < m) :
    slice ((List.range m).flatMap g) (k * n) n = g k := by
  obtain ⟨j, rfl⟩ : ∃ j, m = k + (1 + j) := ⟨m - (k + 1), by omega⟩
  have hbefore := length_flatMap_range fun i (hi : i < k) => hg i (by omega)
  rw [List.range_add, List.flatMap_append, slice, List.drop_left' hbefore, List.range_add, List.map_append,
    List.flatMap_append, List.take_left'] <;> simp [hg k hk]

/-- A sequence is its pieces of `n` bytes one after the other. -/
theorem flatMap_slice_range {s : Bytes} {m n : Nat} (hs : s.length = m * n) :
    (List.range m).flatMap (fun k => slice s (k * n) n) = s := by
  have upTo : ∀ m, (List.range m).flatMap (fun k => slice s (k * n) n) = s.take (m * n) := by
    intro m
    induction m with
    | zero => simp
    | succ m ih => rw [List.range_succ, List.flatMap_append, ih, List.flatMap_singleton, slice, ← List.take_add, Nat.succ_mul]
  rw [upTo, List.take_of_length_le (Nat.le_of_eq hs)]

/-! ## Gathering -/

/-- Gathering a pass gives its pixels (43_adam7.md R603). -/
theorem isPass_gather {f : Format} {p w h : Nat} {raw : Bytes} (hp : p < 7) (hraw : raw.length = w * h * f.ups) :
    IsPass f p w h raw (gather f.ups w h p raw) := by
  have hpixel : ∀ k < passW p w * passH p h, (slice raw (passPixel p w k * f.ups) f.ups).length = f.ups := fun k hk =>
    length_slice _ _ _ (hraw ▸ piece_end_le (passPixel_lt hp hk))
  refine ⟨length_flatMap_range hpixel, fun px hpx py hpy => ?_⟩
  rw [gather, slice_flatMap_range hpixel (coords_lt hpx hpy), passPixel_of_coords hpx]

/-! ## The interlacer-filter -/

/-- The scanlines of pass `p` of an image (43_adam7.md R603). -/
def passLines (f : Format) (level : Byte) (w h : Nat) (src : Bytes) (p : Nat) : List Bytes :=
  if passW p w = 0 ∨ passH p h = 0 then []
  else linesFrom f level (passW p w) (gather f.ups w h p src) (passH p h) 0 (zeros (f.rowBytes (passW p w)))

theorem passLines_of_passEmpty {p w h : Nat} (he : passEmpty p w h) (f : Format) (level : Byte) (src : Bytes) :
    passLines f level w h src p = [] := if_pos he

theorem passLines_of_not_passEmpty {p w h : Nat} (he : ¬passEmpty p w h) (f : Format) (level : Byte) (src : Bytes) :
    passLines f level w h src p =
      linesFrom f level (passW p w) (gather f.ups w h p src) (passH p h) 0 (zeros (f.rowBytes (passW p w))) := if_neg he

theorem interlacePasses_cons_empty {rowCap : Nat} {f : Format} {w h p : Nat} (he : passEmpty p w h) (src : Bytes) (level : Byte)
    (ps : List Nat) (u : FilterUnit) :
    interlacePasses rowCap f src w h level (p :: ps) u =
      interlacePasses rowCap f src w h level ps { u with pass := Fin.ofNat 8 p } := if_pos he

theorem interlacePasses_cons_done {rowCap : Nat} {f : Format} {src : Bytes} {w h p : Nat} {level : Byte} {u : FilterUnit}
    {r : Filtered} (he : ¬passEmpty p w h)
    (hr : filterImage rowCap f (gather f.ups w h p src) (passW p w) (passH p h) level { u with pass := Fin.ofNat 8 p } = r)
    (herr : r.err = none) (ps : List Nat) :
    interlacePasses rowCap f src w h level (p :: ps) u =
      { interlacePasses rowCap f src w h level ps r.u with
        rows := r.rows ++ (interlacePasses rowCap f src w h level ps r.u).rows } :=
  (if_neg he).trans (by simp only [hr, herr])

/-- The loop over the passes writes the scanlines of each, and has no error (43_adam7.md R603). -/
theorem interlacePasses_lines {rowCap : Nat} {f : Format} {src : Bytes} {w h : Nat} {level : Byte} (hl : level.toNat ≤ 3)
    {ps : List Nat} (hfit : ∀ p ∈ ps, passFits rowCap f w h p) (u : FilterUnit) :
    (interlacePasses rowCap f src w h level ps u).err = none ∧
      (interlacePasses rowCap f src w h level ps u).lines = ps.flatMap (passLines f level w h src) := by
  induction ps generalizing u with
  | nil => exact ⟨rfl, rfl⟩
  | cons p ps ih =>
    obtain ⟨hp, hps⟩ := List.forall_mem_cons.1 hfit
    rw [List.flatMap_cons]
    by_cases he : passEmpty p w h
    · rw [interlacePasses_cons_empty he, passLines_of_passEmpty he]
      exact ih hps _
    · obtain ⟨herr, hlines⟩ := filterImage_lines (src := gather f.ups w h p src) hl
        (show imageFits rowCap f (passW p w) (passH p h) from fun _ => hp he) { u with pass := Fin.ofNat 8 p }
      obtain ⟨herr', hlines'⟩ := ih hps _
      rw [interlacePasses_cons_done he rfl herr, passLines_of_not_passEmpty he, ← hlines, ← hlines']
      exact ⟨herr', List.map_append⟩

theorem eq_zero_or_one_of_toNat_le {m : Byte} (h : m.toNat ≤ 1) : m = 0 ∨ m = 1 := by
  simp only [← BitVec.toNat_inj]
  exact Nat.le_one_iff_eq_zero_or_eq_one.1 h

/-- The interlacer-filter writes the filtered scanlines of a legal image or of its passes, and has no error (43_adam7.md R601,
R603). -/
theorem interlacePixels_isInterlaced {rowCap : Nat} {r : ImgRegs} {m level : Byte} {w h : Nat} {src : Bytes} (hr : r.formatOk)
    (hm : m.toNat ≤ 1) (hl : level.toNat ≤ 3) (hf : rowsFit rowCap r.format m w h) (hs : src.length = w * h * r.format.ups)
    (u : FilterUnit) :
    (interlacePixels rowCap r.format m src w h level u).err = none ∧
      IsInterlaced r.format m level w h src (interlacePixels rowCap r.format m src w h level u).lines := by
  obtain rfl | rfl := eq_zero_or_one_of_toNat_le hm
  · obtain ⟨herr, hlines⟩ := filterImage_lines (src := src) hl (hf.1 rfl) u
    rw [interlacePixels_zero, hlines]
    exact ⟨herr, .inl ⟨rfl, (isFiltered_linesFrom hr hl hs).1⟩⟩
  · obtain ⟨herr, hlines⟩ := interlacePasses_lines (ps := passes) (src := src) hl
      (fun p hp => hf.2 rfl p (mem_passes.1 hp)) u
    rw [interlacePixels, if_neg (by decide), if_pos rfl, adam7Interlace, hlines]
    refine ⟨herr, .inr ⟨rfl, fun p => gather r.format.ups w h p src, passLines r.format level w h src, rfl, fun p hp =>
      ⟨fun he => passLines_of_passEmpty he _ _ _, fun he => ?_⟩⟩⟩
    have hpass := isPass_gather hp hs
    rw [passLines_of_not_passEmpty he]
    exact ⟨hpass, (isFiltered_linesFrom hr hl hpass.1).1⟩

/-- Settles O37: the engine writes the scanlines of the image or of its passes, and OUT takes them up to the first that does not
fit. -/
theorem interlaceResult : Obligations.InterlaceResult := by
  unfold Obligations.InterlaceResult
  intro s hf hi hl hraw hwf hfit
  have hc := filterError_eq_none (interlace := true) (level := true) hf (fun _ => hi) (fun _ => hl) hraw
  have hcap := Config.outCap_lt_of_wf hwf
  obtain ⟨herr, hlines⟩ := interlacePixels_isInterlaced hf hi hl hfit
    (Memory.length_readBytes s.mem.raw 0 s.img.rawBytes) s.flt
  refine ⟨(s.filteredRaw true).lines, hlines, rfl, fun hroom => ?_, fun hs hfull => ?_⟩
  · rw [exec_interlace]
    exact filterBody_done _ hc hcap herr hroom
  · rw [exec_interlace]
    exact filterBody_full _ hc hcap hs hfull

end Sys2Proof.Machine
end

section
/-! SUPPORT. Deinterlacing undoes interlacing (43_adam7.md R604): what the interlacer-filter writes are scanlines that the
deinterlacer makes the image of. -/

namespace Sys2Proof.Machine

/-! ## Samples -/

/-- A legal format of less than 8 pixel bits has one sample per pixel (00_scope.md R17). -/
theorem ImgRegs.formatOk.pixelBits_eq {r : ImgRegs} (hr : r.formatOk) (hpb : r.format.pixelBits < 8) :
    r.format.pixelBits = r.bitDepth.toNat := by
  obtain ⟨hspp, -, -⟩ := legalPair_bounds hr.1
  have hl := (legalPair_iff _ _).1 hr.1
  simp only [List.mem_cons, List.not_mem_nil, or_false] at hl
  simp only [ImgRegs.format, formatOf] at hpb ⊢
  rw [hspp] at hpb ⊢
  split_ifs at hpb ⊢ <;> omega

theorem samplesFit.slice {bd : Byte} {raw : Bytes} (hs : samplesFit bd raw) (off n : Nat) : samplesFit bd (slice raw off n) :=
  fun hbd b hb => hs hbd b (List.mem_of_mem_drop (List.mem_of_mem_take hb))

/-- The samples of a pass are samples of the image (43_adam7.md R600). -/
theorem IsPass.samplesFit {f : Format} {p w h : Nat} {raw sub : Bytes} {bd : Byte} (hp : IsPass f p w h raw sub)
    (hs : samplesFit bd raw) : samplesFit bd sub := by
  intro hbd b hb
  rw [← flatMap_slice_range hp.1] at hb
  obtain ⟨k, hk, hb⟩ := List.mem_flatMap.1 hb
  rw [hp.slice_eq (List.mem_range.1 hk)] at hb
  exact hs.slice _ _ hbd b hb

/-- Unpacking a packed row of a legal image gives its bytes (42_filter.md R507, R508, R509). -/
theorem ImgRegs.formatOk.unpackRow_packedRow {r : ImgRegs} (hr : r.formatOk) {w y : Nat} {raw : Bytes}
    (hend : y * w * r.format.ups + w * r.format.ups ≤ raw.length) (hs : samplesFit r.bitDepth raw) :
    unpackRow r.format w (packedRow r.format w raw y) = slice raw (y * w * r.format.ups) (w * r.format.ups) := by
  unfold unpackRow packedRow
  by_cases hpb : r.format.pixelBits < 8
  · rw [if_pos hpb, if_pos hpb]
    obtain ⟨hp, hu, -⟩ | ⟨hp, -, hu⟩ := formatOf_legal hr.1
    · have hbd := hr.pixelBits_eq hpb
      refine unpack_pack hp ?_ fun b hb => hbd ▸ hs.slice _ _ (hbd ▸ hpb) b hb
      rw [length_slice _ _ _ hend, show r.format.ups = 1 from hu, Nat.mul_one]
    · have hp : r.format.pixelBits = 8 * r.format.ups := hp
      have hu : 0 < r.format.ups := hu
      omega
  · rw [if_neg hpb, if_neg hpb]

/-! ## Scanlines -/

/-- Filtered scanlines unfilter to the image they are of (42_filter.md R506, R509). -/
theorem IsFiltered.isUnfiltered {r : ImgRegs} {level : Byte} {w h : Nat} {raw : Bytes} {lines : List Bytes} (hr : r.formatOk)
    (hraw : raw.length = w * h * r.format.ups) (hs : samplesFit r.bitDepth raw)
    (hf : IsFiltered r.format level w h raw lines) : IsUnfiltered r.format w h lines raw := by
  have hrows : raw.length = h * (w * r.format.ups) := by rw [hraw]; ac_rfl
  have hend : ∀ y < h, y * w * r.format.ups + w * r.format.ups ≤ raw.length := fun y hy => by
    rw [hrows, Nat.mul_assoc]
    exact piece_end_le hy
  refine ⟨(List.range h).map (packedRow r.format w raw), hf.count, by simp, ?_, fun y hy => ?_⟩
  · calc raw = (List.range h).flatMap fun y => slice raw (y * (w * r.format.ups)) (w * r.format.ups) :=
          (flatMap_slice_range hrows).symm
      _ = (List.range h).flatMap fun y => unpackRow r.format w (packedRow r.format w raw y) :=
          List.flatMap_congr fun y hy => by
            rw [hr.unpackRow_packedRow (hend y (List.mem_range.1 hy)) hs, Nat.mul_assoc]
      _ = _ := (List.flatMap_map ..).symm
  · obtain ⟨ft, -, hline⟩ := hf.line y hy
    refine ⟨ft, _, packedRow r.format w raw y, hline, by simp [hy], ?_, ?_⟩
    · rw [length_filt, hr.length_packedRow (hend y hy)]
    · have hprior : priorRow r.format w raw y =
          if y = 0 then zeros (r.format.rowBytes w) else ((List.range h).map (packedRow r.format w raw)).getD (y - 1) [] := by
        rw [priorRow]
        split
        case isTrue => rfl
        case isFalse => simp [List.getD_eq_getElem?_getD, show y - 1 < h by omega]
      rw [← hprior]
      exact isReconstructed_filt ft r.format.bpp _ _

/-- Interlaced scanlines are scanlines that deinterlacing makes the image of (43_adam7.md R604). -/
theorem IsInterlaced.isDeinterlaced {r : ImgRegs} {m level : Byte} {w h : Nat} {raw : Bytes} {lines : List Bytes}
    (hr : r.formatOk) (hraw : raw.length = w * h * r.format.ups) (hs : samplesFit r.bitDepth raw)
    (hi : IsInterlaced r.format m level w h raw lines) : IsDeinterlaced r.format m w h lines raw := by
  obtain ⟨hm, hf⟩ | ⟨hm, sub, part, hlines, hpart⟩ := hi
  · exact .inl ⟨hm, hf.isUnfiltered hr hraw hs⟩
  · refine .inr ⟨hm, hraw, sub, part, hlines, fun p hp => ⟨(hpart p hp).1, fun he => ?_⟩⟩
    obtain ⟨hpass, hf⟩ := (hpart p hp).2 he
    exact ⟨hpass, hf.isUnfiltered hr hpass.1 (hpass.samplesFit hs)⟩

/-- Where a row of the image fits the row buffers, so do the rows of the passes (43_adam7.md R600, 42_filter.md R500). -/
theorem rowsFit_of_rowBytes_le {rowCap w : Nat} {f : Format} (hw : f.rowBytes w ≤ rowCap) (m : Byte) (h : Nat) :
    rowsFit rowCap f m w h := by
  refine ⟨fun _ _ => hw, fun _ p hp _ => Nat.le_trans (Nat.div_le_div_right ?_) hw⟩
  have := Nat.mul_le_mul_right f.pixelBits (passW_le hp w)
  omega

/-- Every legal pair is the format of some image registers with the one filter method (00_scope.md R17). -/
theorem exists_formatOk {ct bd : Byte} (h : legalPair ct bd = true) :
    ∃ r : ImgRegs, r.formatOk ∧ r.format = formatOf ct bd ∧ r.bitDepth = bd :=
  ⟨{ width := 0, height := 0, bitDepth := bd, colorType := ct, compression := 0, filter := 0, interlace := 0, level := 0 },
    ⟨h, rfl⟩, rfl, rfl⟩

/-- Settles O35: what the interlacer-filter writes are scanlines of the image, and of such the deinterlacer gives the image. -/
theorem interlaceRoundTrip : Obligations.InterlaceRoundTrip := by
  unfold Obligations.InterlaceRoundTrip
  intro rowCap ct bd m level w h raw rest u v hlegal hm hl hw hraw hs
  obtain ⟨r, hr, hformat, rfl⟩ := exists_formatOk hlegal
  rw [← hformat] at hw hraw ⊢
  have hfit := rowsFit_of_rowBytes_le hw m h
  obtain ⟨-, hi⟩ := interlacePixels_isInterlaced hr hm hl hfit hraw u
  exact deinterlacePixels_isDeinterlaced hr.bpp_pos hfit (hi.isDeinterlaced hr hraw hs) v rest

end Sys2Proof.Machine
end

section
/-! SUPPORT. Pieces of pseudocode that do not look at `STATUS`, the stage interleaving and the encode sequencer's state, and
leave them alone; and the sequence errors (44_decode.md R709, 45_encode.md R799). -/

namespace Sys2Proof.Machine

/-! ## What a piece leaves aside -/

/-- A change of `STATUS`, of the stage interleaving and of the encode sequencer's state. -/
structure Aside where
  status : Status → Status
  turns : List StageTurn → List StageTurn
  encState : EncState → EncState

/-- The state with that change made. -/
def Aside.on (g : Aside) (s : State) : State :=
  { s with status := g.status s.status, turns := g.turns s.turns, enc.state := g.encState s.enc.state }

/-- A piece's end with a change made to the state it has come to. -/
def Res.mapState {α : Type} (f : State → State) : Res α → Res α
  | .ok a s => .ok a (f s)
  | .raised e info s => .raised e info (f s)
  | .stuck x => .stuck x
  | .refuse r => .refuse r

/-- The piece ends alike whether the change is made before it or after it. -/
def Cmd.Ignores {α : Type} (g : Aside) (m : Cmd α) : Prop := ∀ s, m (g.on s) = (m s).mapState g.on

section Ignores

variable {α β : Type} {g : Aside}

theorem Cmd.Ignores.ok_iff {m : Cmd α} (h : m.Ignores g) {s t : State} {a : α} :
    m (g.on s) = .ok a t ↔ ∃ t', m s = .ok a t' ∧ t = g.on t' := by
  rw [h s]
  cases m s <;> simp [Res.mapState, eq_comm]

theorem Cmd.Ignores.raised_iff {m : Cmd α} (h : m.Ignores g) {s t : State} {e : Err} {info : Word} :
    m (g.on s) = .raised e info t ↔ ∃ t', m s = .raised e info t' ∧ t = g.on t' := by
  rw [h s]
  cases m s <;> simp [Res.mapState, eq_comm, and_assoc]

theorem Cmd.Ignores.ret (a : α) : (Cmd.ret a).Ignores g := fun _ => rfl

theorem Cmd.Ignores.raise (e : Err) (info : Word) : (Cmd.raise e info : Cmd α).Ignores g := fun _ => rfl

theorem Cmd.Ignores.update {f : State → State} (h : ∀ s, f (g.on s) = g.on (f s)) : (Cmd.update f).Ignores g :=
  fun s => congrArg (Res.ok ()) (h s)

theorem Cmd.Ignores.look {f : State → α} (h : ∀ s, f (g.on s) = f s) : (Cmd.look f).Ignores g :=
  fun s => congrArg (Res.ok · (g.on s)) (h s)

theorem Cmd.Ignores.bind {m : Cmd α} {f : α → Cmd β} (h : m.Ignores g) (k : ∀ a, (f a).Ignores g) : (m.bind f).Ignores g := by
  intro s
  rw [Cmd.bind_run, Cmd.bind_run, h s]
  cases m s with
  | ok a t => exact k a t
  | raised e info t => rfl
  | stuck x => rfl
  | refuse x => rfl

theorem Cmd.Ignores.andThen {m : Cmd α} {n : Cmd β} (h : m.Ignores g) (k : n.Ignores g) : (m.andThen n).Ignores g :=
  h.bind fun _ => k

/-- A piece that looks at the state it starts in. -/
theorem Cmd.Ignores.at {m : State → Cmd α} (hm : ∀ s, m (g.on s) = m s) (h : ∀ s, (m s).Ignores g) :
    Cmd.Ignores g (fun s => m s s) := fun s => (congrFun (hm s) _).trans (h s s)

theorem Cmd.Ignores.ite {c : State → Prop} [DecidablePred c] {m n : Cmd α} (hc : ∀ s, c (g.on s) = c s) (h : m.Ignores g)
    (k : n.Ignores g) : Cmd.Ignores g (fun s => if c s then m s else n s) := by
  intro s
  simp only [hc]
  split
  · exact h s
  · exact k s

theorem Cmd.Ignores.raiseIf (c : Bool) (e : Err) (info : Word) : (Cmd.raiseIf c e info).Ignores g :=
  .ite (fun _ => rfl) (.raise e info) (.ret ())

/-- A check of the registers. -/
theorem Cmd.Ignores.raiseIte {c : State → Prop} [DecidablePred c] {e : Err} {info : State → Word} {m : Cmd α}
    (hc : ∀ s, c (g.on s) = c s) (hi : ∀ s, info (g.on s) = info s) (h : m.Ignores g) :
    Cmd.Ignores g (fun s => if c s then .raised e (info s) s else m s) :=
  .ite hc (fun s => congrArg (Res.raised e · (g.on s)) (hi s)) h

theorem Cmd.Ignores.forEach {f : β → Cmd Unit} (h : ∀ b, (f b).Ignores g) (l : List β) : (Cmd.forEach f l).Ignores g := by
  induction l with
  | nil => exact .ret ()
  | cons b rest ih => exact (h b).andThen ih

theorem Item.free_on (it : Item) (k : Nat) (s : State) : it.free k (g.on s) = g.on (it.free k s) := by cases it <;> rfl

/-- No free value depends on what a change of this kind changes. -/
theorem unspecified_on (items : List Item) (s : State) : unspecified items (g.on s) = g.on (unspecified items s) := by
  have step (k : Nat) (t : State) :
      items.foldl (fun t it => it.free k t) (g.on t) = g.on (items.foldl (fun t it => it.free k t) t) := by
    induction items generalizing t with
    | nil => rfl
    | cons it rest ih => rw [List.foldl_cons, Item.free_on, ih]; rfl
  exact step s.freeIdx { s with freeIdx := s.freeIdx + 1 }

theorem Cmd.Ignores.leaving {m : Cmd α} (h : m.Ignores g) (items : List Item) : (m.leaving items).Ignores g := by
  intro s
  unfold Cmd.leaving Cmd.onRaise
  rw [h s]
  cases m s with
  | ok a t => rfl
  | raised e info t => exact congrArg (Res.raised e info) (unspecified_on items t)
  | stuck x => rfl
  | refuse x => rfl

/-! ## The checks -/

theorem checkSize_ignores : checkSize.Ignores g := .raiseIte (info := fun _ => 0) (fun _ => rfl) (fun _ => rfl) (.ret ())

theorem checkColor_ignores : checkColor.Ignores g :=
  .raiseIte (info := fun _ => 0) (fun _ => rfl) (fun _ => rfl) <|
  .raiseIte (info := fun _ => 0) (fun _ => rfl) (fun _ => rfl) <|
  .raiseIte (info := fun _ => 0) (fun _ => rfl) (fun _ => rfl) (.ret ())

theorem checkInterlace_ignores : checkInterlace.Ignores g :=
  .raiseIte (info := fun _ => 0) (fun _ => rfl) (fun _ => rfl) (.ret ())

theorem checkLevel_ignores : checkLevel.Ignores g := .raiseIte (info := fun _ => 0) (fun _ => rfl) (fun _ => rfl) (.ret ())

theorem checkRawRange_ignores : checkRawRange.Ignores g :=
  .raiseIte (info := fun _ => Space.raw.id) (fun _ => rfl) (fun _ => rfl) (.ret ())

theorem checkEncPalette_ignores : checkEncPalette.Ignores g :=
  .ite (fun _ => rfl)
    (.raiseIte (info := fun _ => 0) (fun _ => rfl) (fun _ => rfl) <|
      .raiseIte (info := fun _ => 0) (fun _ => rfl) (fun _ => rfl) (.ret ()))
    (.raiseIte (info := fun _ => 0) (fun _ => rfl) (fun _ => rfl) (.ret ()))

theorem checkSplitSize_ignores : checkSplitSize.Ignores g :=
  .raiseIte (info := fun _ => 0) (fun _ => rfl) (fun _ => rfl) (.ret ())

theorem encChecks_ignores : encChecks.Ignores g :=
  checkSize_ignores.andThen <| checkColor_ignores.andThen <| checkEncPalette_ignores.andThen <|
  checkSplitSize_ignores.andThen <| checkInterlace_ignores.andThen <| checkLevel_ignores.andThen checkRawRange_ignores

end Ignores

/-! ## Commands that run in every state -/

/-- Another state of the encode sequencer. -/
def Aside.encode (e : EncState) : Aside := { status := id, turns := id, encState := fun _ => e }

/-- What a passed validation writes (45_encode.md R751). -/
def State.validated (s : State) : State := { s with cnt.outLen := 0, enc.state := .valid, enc.configChanged := false }

theorem encValidate_ok {s : State} (h : encChecks s = .ok () s) : encValidate s = .ok () s.validated := Cmd.andThen_ok h

/-- A command that validates first ends alike from every state of the encode sequencer: the state is written where the checks
pass, and by the error entry where they do not (45_encode.md R751, 60_exceptions.md R930). -/
theorem runCommand_validated {body rest : Cmd Unit} {leaves : State → State} (s : State) (e : EncState)
    (hpass : ∀ t, encChecks t = .ok () t → body t = rest t.validated)
    (hfail : ∀ t err info, encChecks t = .raised err info t → body t = .raised err info (leaves t))
    (hl : leaves ((Aside.encode e).on s) = (Aside.encode e).on (leaves s)) :
    runCommand .encode body ((Aside.encode e).on s) = runCommand .encode body s := by
  obtain ⟨⟨⟩, h⟩ | ⟨err, info, -, h⟩ := encChecks_examines s
  · have h' := (encChecks_ignores (g := Aside.encode e)).ok_iff.2 ⟨s, h, rfl⟩
    unfold runCommand
    rw [hpass s h, hpass _ h']
    rfl
  · have h' := (encChecks_ignores (g := Aside.encode e)).raised_iff.2 ⟨s, h, rfl⟩
    rw [runCommand_raised (hfail s err info h), runCommand_raised (hfail _ err info h'), hl]
    rfl

theorem exec_encValidate_anyState (s : State) (e : EncState) :
    exec .encValidate { s with enc.state := e } = exec .encValidate s :=
  runCommand_validated (rest := .ret ()) (leaves := id) s e (fun _ => encValidate_ok)
    (fun _ _ _ h => Cmd.andThen_raised h) rfl

theorem exec_encode_anyState (pipe : Bool) (s : State) (e : EncState) :
    exec (.encode pipe) { s with enc.state := e } = exec (.encode pipe) s :=
  runCommand_validated (rest := Cmd.leaving _ dataLeaves) s e
    (fun _ h => Cmd.leaving_congr (Cmd.andThen_ok (encValidate_ok h)) dataLeaves)
    (fun _ _ _ h => Cmd.leaving_raised (Cmd.andThen_raised (Cmd.andThen_raised h))) (unspecified_on dataLeaves s)

/-- A command of the decode sequence in another state than its own (44_decode.md R709). -/
theorem requireDecState_wrong {v : DecState} {s : State} (h : s.dec.state ≠ v) (m : Cmd Unit) :
    runCommand .decode ((requireDecState v).andThen m) s =
      .next (errorEntry .decode .sequenceError (s.dec.state.code.setWidth 32) s) :=
  runCommand_raised (Cmd.andThen_raised (if_neg h))

/-- A command of the encode sequence in another state than its own (45_encode.md R799). -/
theorem requireEncState_wrong {v : EncState} {s : State} (h : s.enc.state ≠ v) (m : Cmd Unit) :
    runCommand .encode ((requireEncState v).andThen m) s =
      .next (errorEntry .encode .sequenceError (s.enc.state.code.setWidth 32) s) :=
  runCommand_raised (Cmd.andThen_raised (if_neg h))

/-- Settles O18: DEC.HEADER and DECODE write the sequencer's state first, ENC.VALIDATE and ENCODE behind checks that do not
look at it; the other commands look at it first. -/
theorem sequenceErrors : Obligations.SequenceErrors := by
  unfold Obligations.SequenceErrors
  refine ⟨fun s d e pipe => ⟨rfl, rfl, exec_encValidate_anyState s e, exec_encode_anyState pipe s e⟩,
    fun s i need hi hs => ?_, fun s i need hi hs => ?_⟩
  · simp only [List.mem_cons, List.not_mem_nil, or_false, Prod.mk.injEq] at hi
    obtain ⟨rfl, rfl⟩ | ⟨rfl, rfl⟩ | ⟨rfl, rfl⟩ | ⟨rfl, rfl⟩ := hi <;>
      exact ⟨_, requireDecState_wrong hs _, rfl, rfl, rfl⟩
  · simp only [List.mem_cons, List.not_mem_nil, or_false, Prod.mk.injEq] at hi
    obtain ⟨rfl, rfl⟩ | ⟨rfl, rfl⟩ | ⟨rfl, rfl⟩ := hi <;>
      exact ⟨_, requireEncState_wrong hs _, rfl, rfl, rfl⟩

end Sys2Proof.Machine
end

section
/-! SUPPORT. What the chunk loop does with a chunk by its type: the chunks it rejects, and what it leaves of those it accepts
(44_decode.md R680 to R689). -/

namespace Sys2Proof.Machine

/-! ## The case on the type -/

theorem chunkCase_idat (data : Bytes) : chunkCase typeIDAT data = (doIdat data).andThen (.ret false) := if_pos rfl

theorem chunkCase_plte (data : Bytes) : chunkCase typePLTE data = (doPlte data).andThen (.ret false) := by
  rw [chunkCase, if_neg (by decide), if_pos rfl]

theorem chunkCase_trns (data : Bytes) : chunkCase typeTRNS data = (doTrns data).andThen (.ret false) := by
  rw [chunkCase, if_neg (by decide), if_neg (by decide), if_pos rfl]

theorem chunkCase_iend (data : Bytes) (s : State) :
    chunkCase typeIEND data s = .ok true { s with dec.seenIend := true } := by
  rw [chunkCase, if_neg (by decide), if_neg (by decide), if_neg (by decide), if_neg (by decide), if_neg (by decide),
    if_neg (by decide), if_neg (by decide), if_pos rfl]
  rfl

/-- The test that the loop makes of a text or time chunk's data (44_decode.md R686). -/
def layoutOk (typ : Word) (data : Bytes) : Bool :=
  if typ = typeTEXT then (keywordEnd data).isSome
  else if typ = typeZTXT then ztxtOk data
  else if typ = typeITXT then itxtOk data
  else timeOk data

/-- The error of a text or time chunk whose data has not the layout of its type (44_decode.md R686). -/
def layoutError (typ : Word) : Err := if typ = typeTIME then .invalidTimeChunk else .invalidTextChunk

/-- The text and time chunks. -/
def metaTypes : List Word := [typeTEXT, typeZTXT, typeITXT, typeTIME]

theorem chunkCase_meta {typ : Word} (h : typ ∈ metaTypes) (data : Bytes) :
    chunkCase typ data = (doMeta (layoutOk typ data) (layoutError typ) typ data).andThen (.ret false) := by
  simp only [metaTypes, List.mem_cons, List.not_mem_nil, or_false] at h
  obtain rfl | rfl | rfl | rfl := h <;> rfl

theorem layoutOk_iff {typ : Word} (h : typ ∈ metaTypes) (data : Bytes) : layoutOk typ data = true ↔ hasLayout typ data := by
  simp only [metaTypes, List.mem_cons, List.not_mem_nil, or_false] at h
  obtain rfl | rfl | rfl | rfl := h
  · exact (hasLayout_text_iff data).symm
  · exact (hasLayout_ztxt_iff data).symm
  · exact (hasLayout_itxt_iff data).symm
  · exact (hasLayout_time_iff data).symm

/-! ## Rejected chunks -/

theorem doIdat_noPalette {s : State} (hct : s.img.colorType = 3) (hp : s.dec.seenPlte = false) (data : Bytes) :
    doIdat data s = .raised .paletteNotFound typeIDAT s := if_pos ⟨hct, hp⟩

theorem doPlte_again {s : State} (h : s.dec.seenPlte = true) (data : Bytes) :
    doPlte data s = .raised .duplicatePalette typePLTE s := if_pos h

/-- A first `PLTE` (44_decode.md R682). -/
theorem doPlte_first {s : State} (h : s.dec.seenPlte = false) (data : Bytes) :
    doPlte data s =
      if s.dec.seenIdat then .raised .illegalPaletteChunk typePLTE s
      else if s.img.colorType = 0 ∨ s.img.colorType = 4 then .raised .illegalPaletteChunk typePLTE s
      else if 256 < data.length / 3 ∨ (s.img.colorType = 3 ∧ 2 ^ s.img.bitDepth.toNat < data.length / 3) then
        .raised .invalidPaletteSize typePLTE s
      else
        ((memWrite .pal 0 (plteEntries data (data.length / 3))).andThen <|
          Cmd.update fun t =>
            { t with dec.palCount := BitVec.ofNat 9 (data.length / 3), dec.seenPlte := true }) s :=
  if_neg (Bool.eq_false_iff.1 h)

theorem doPlte_illegal {s : State} (h : s.dec.seenPlte = false)
    (hi : s.dec.seenIdat = true ∨ s.img.colorType = 0 ∨ s.img.colorType = 4) (data : Bytes) :
    doPlte data s = .raised .illegalPaletteChunk typePLTE s := by
  rw [doPlte_first h]
  split
  · rfl
  case isFalse hn => exact if_pos (hi.resolve_left hn)

/-- A first `PLTE` before the image data, of an image that may have a palette. -/
theorem doPlte_legal {s : State} (h : s.dec.seenPlte = false) (hi : s.dec.seenIdat = false) (h0 : s.img.colorType ≠ 0)
    (h4 : s.img.colorType ≠ 4) (data : Bytes) :
    doPlte data s =
      if 256 < data.length / 3 ∨ (s.img.colorType = 3 ∧ 2 ^ s.img.bitDepth.toNat < data.length / 3) then
        .raised .invalidPaletteSize typePLTE s
      else
        ((memWrite .pal 0 (plteEntries data (data.length / 3))).andThen <|
          Cmd.update fun t =>
            { t with dec.palCount := BitVec.ofNat 9 (data.length / 3), dec.seenPlte := true }) s := by
  rw [doPlte_first h, if_neg (Bool.eq_false_iff.1 hi), if_neg (not_or.2 ⟨h0, h4⟩)]

theorem doTrns_illegal {s : State}
    (h : s.img.colorType = 4 ∨ s.img.colorType = 6 ∨ s.dec.seenTrns = true ∨ s.dec.seenIdat = true ∨
      (s.img.colorType = 3 ∧ s.dec.seenPlte = false)) (data : Bytes) :
    doTrns data s = .raised .illegalTrnsChunk typeTRNS s := by
  unfold doTrns
  by_cases hct : s.img.colorType = 4 ∨ s.img.colorType = 6
  · rw [if_pos hct]
  by_cases ht : s.dec.seenTrns = true
  · rw [if_neg hct, if_pos ht]
  by_cases hi : s.dec.seenIdat = true
  · rw [if_neg hct, if_neg ht, if_pos hi]
  obtain ⟨h4, h6⟩ := not_or.1 hct
  obtain ⟨h3, hp⟩ := (((h.resolve_left h4).resolve_left h6).resolve_left ht).resolve_left hi
  rw [if_neg hct, if_neg ht, if_neg hi, if_pos h3, if_pos hp]

/-- A first `tRNS` of an image with a palette, between `PLTE` and the image data (44_decode.md R683). -/
theorem doTrns_palette {s : State} (ht : s.dec.seenTrns = false) (hi : s.dec.seenIdat = false) (h3 : s.img.colorType = 3)
    (hp : s.dec.seenPlte = true) (data : Bytes) :
    doTrns data s =
      if s.dec.palCount.toNat < data.length then .raised .invalidTrnsSize typeTRNS s
      else
        ((writeAlphas data).andThen <|
          Cmd.update fun t => { t with dec.trnsCount := BitVec.ofNat 9 data.length, dec.seenTrns := true }) s := by
  unfold doTrns
  rw [if_neg (by rw [h3]; decide), if_neg (Bool.eq_false_iff.1 ht), if_neg (Bool.eq_false_iff.1 hi), if_pos h3,
    if_neg (by simp [hp])]

theorem doMeta_noLayout {ok : Bool} (h : ok = false) (e : Err) (typ : Word) (data : Bytes) (s : State) :
    doMeta ok e typ data s = .raised e typ s := Cmd.andThen_raised (Cmd.raiseIf_true (by rw [h]; rfl) s)

theorem doUnknown_necessary {typ : Word} (h : typ.getLsbD 29 = false) (data : Bytes) (s : State) :
    doUnknown typ data s = .raised .unknownNecessaryChunk typ s :=
  Cmd.andThen_raised (Cmd.raiseIf_true (by rw [isAncillary, h]; rfl) s)

theorem chunkCase_meta_noLayout {typ : Word} (h : typ ∈ metaTypes) {data : Bytes} (hl : ¬hasLayout typ data) (s : State) :
    chunkCase typ data s = .raised (layoutError typ) typ s := by
  rw [chunkCase_meta h]
  exact Cmd.andThen_raised
    (doMeta_noLayout (Bool.eq_false_iff.2 fun ho => hl ((layoutOk_iff h data).1 ho)) (layoutError typ) typ data s)

/-- Settles O42: each type's checks in their order. -/
theorem rejectedChunks : Obligations.RejectedChunks := by
  unfold Obligations.RejectedChunks
  intro s data raises
  refine ⟨fun hct hp => ?_, fun hp => ?_, fun hp hi => ?_, fun hp hi h0 h4 hn => ?_, fun h => ?_, fun h3 ht hi hp hn => ?_,
    fun typ hm hl => ?_, fun hl => ?_, fun typ hk ha => ?_⟩
  · exact (congrFun (chunkCase_idat data) s).trans (Cmd.andThen_raised (doIdat_noPalette hct hp data))
  · exact (congrFun (chunkCase_plte data) s).trans (Cmd.andThen_raised (doPlte_again hp data))
  · exact (congrFun (chunkCase_plte data) s).trans (Cmd.andThen_raised (doPlte_illegal hp hi data))
  · exact (congrFun (chunkCase_plte data) s).trans
      (Cmd.andThen_raised ((doPlte_legal hp hi h0 h4 data).trans (if_pos hn)))
  · exact (congrFun (chunkCase_trns data) s).trans (Cmd.andThen_raised (doTrns_illegal h data))
  · exact (congrFun (chunkCase_trns data) s).trans
      (Cmd.andThen_raised ((doTrns_palette ht hi h3 hp data).trans (if_pos hn)))
  · have ht : typ ∈ metaTypes ∧ layoutError typ = .invalidTextChunk := by
      simp only [List.mem_cons, List.not_mem_nil, or_false] at hm
      obtain rfl | rfl | rfl := hm <;> decide
    exact ht.2 ▸ chunkCase_meta_noLayout ht.1 hl s
  · exact chunkCase_meta_noLayout (typ := typeTIME) (by simp [metaTypes]) hl s
  · exact (congrFun (chunkCase_unknown hk data) s).trans (Cmd.andThen_raised (doUnknown_necessary ha data s))

/-! ## Accepted chunks -/

/-- What the loop leaves of `s` behind image data that STAGE can take (44_decode.md R681). -/
def State.tookIdat (s : State) (data : Bytes) : State :=
  { s with
    str.stage :=
      { s.str.stage with
        readable := s.str.stage.readable ++ (s.str.stage.staged ++ data), staged := []
        total := s.str.stage.total + data.length }
    cnt.stageLen := s.cnt.stageLen + BitVec.ofNat 32 data.length
    cnt.idatCount := s.cnt.idatCount + 1
    dec.seenIdat := true }

theorem chunkCase_idat_ok {s : State} {data : Bytes} (hp : s.img.colorType = 3 → s.dec.seenPlte = true)
    (ho : s.str.stage.closed = false) (hf : s.str.stage.total + data.length ≤ s.cfg.stageCap) :
    chunkCase typeIDAT data s = .ok false (s.tookIdat data) := by
  have hn : ¬(s.img.colorType = 3 ∧ s.dec.seenPlte = false) := fun ⟨h3, hf⟩ => by rw [hp h3] at hf; cases hf
  have hidat : doIdat data s = .ok () (s.tookIdat data) := by
    refine (if_neg hn).trans ((Cmd.andThen_ok (streamWrite_ok (i := .stage) ho hf)).trans ?_)
    simp [Cmd.andThen_run, flushStream, State.tookIdat, State.setStream, Streams.set, Streams.get, Stream.write, Stream.flush]
  exact (congrFun (chunkCase_idat data) s).trans (Cmd.andThen_ok hidat)

/-- What the loop leaves of `s` behind a palette (44_decode.md R682). -/
def State.tookPlte (s : State) (data : Bytes) : State :=
  { s.setSpace .pal (s.mem.pal.writeBytes 0 (plteEntries data (data.length / 3))) with
    dec.palCount := BitVec.ofNat 9 (data.length / 3), dec.seenPlte := true }

theorem chunkCase_plte_ok {s : State} {data : Bytes} (hp : s.dec.seenPlte = false) (hi : s.dec.seenIdat = false)
    (h0 : s.img.colorType ≠ 0) (h4 : s.img.colorType ≠ 4) (hn : data.length / 3 ≤ 256)
    (h3 : s.img.colorType = 3 → data.length / 3 ≤ 2 ^ s.img.bitDepth.toNat) :
    chunkCase typePLTE data s = .ok false (s.tookPlte data) := by
  have hsize : ¬(256 < data.length / 3 ∨ (s.img.colorType = 3 ∧ 2 ^ s.img.bitDepth.toNat < data.length / 3)) :=
    not_or.2 ⟨by omega, fun ⟨hct, hlt⟩ => by have := h3 hct; omega⟩
  have hfit : 0 + (plteEntries data (data.length / 3)).length ≤ Space.pal.cap s.cfg := by
    rw [length_plteEntries]; show _ ≤ 1024; omega
  have hplte : doPlte data s = .ok () (s.tookPlte data) :=
    (doPlte_legal hp hi h0 h4 data).trans ((if_neg hsize).trans (Cmd.andThen_ok (memWrite_ok hfit)))
  exact (congrFun (chunkCase_plte data) s).trans (Cmd.andThen_ok hplte)

/-- PAL with the alphas of the entries `l` written (44_decode.md R683). -/
def withAlphas (data : Bytes) (l : List Nat) (m : Memory) : Memory :=
  l.foldl (fun m i => m.write (4 * i + 3) (byteAt data i)) m

theorem writeAlphas_ok {data : Bytes} {l : List Nat} (hl : ∀ i ∈ l, i < 256) (s : State) :
    Cmd.forEach (fun i => memWrite .pal (4 * i + 3) [byteAt data i]) l s =
      .ok () (s.setSpace .pal (withAlphas data l s.mem.pal)) := by
  induction l generalizing s with
  | nil => rfl
  | cons i rest ih =>
    rw [List.forall_mem_cons] at hl
    have hfit : 4 * i + 3 + [byteAt data i].length ≤ Space.pal.cap s.cfg := by
      rw [List.length_singleton]; show _ ≤ 1024; omega
    exact (Cmd.andThen_ok (memWrite_ok hfit)).trans (ih hl.2 _)

/-- What the loop leaves of `s` behind the alphas of a palette (44_decode.md R683). -/
def State.tookTrns (s : State) (data : Bytes) : State :=
  { s.setSpace .pal (withAlphas data (List.range data.length) s.mem.pal) with
    dec.trnsCount := BitVec.ofNat 9 data.length, dec.seenTrns := true }

theorem chunkCase_trns_ok {s : State} {data : Bytes} (ht : s.dec.seenTrns = false) (hi : s.dec.seenIdat = false)
    (h3 : s.img.colorType = 3) (hp : s.dec.seenPlte = true) (hn : data.length ≤ s.dec.palCount.toNat)
    (hc : s.dec.palCount.toNat ≤ 256) : chunkCase typeTRNS data s = .ok false (s.tookTrns data) := by
  have hrange : ∀ i ∈ List.range data.length, i < 256 := fun i hi => by have := List.mem_range.1 hi; omega
  have htrns : doTrns data s = .ok () (s.tookTrns data) :=
    (doTrns_palette ht hi h3 hp data).trans
      ((if_neg (Nat.not_lt.2 hn)).trans (Cmd.andThen_ok (writeAlphas_ok hrange s)))
  exact (congrFun (chunkCase_trns data) s).trans (Cmd.andThen_ok htrns)

/-- What a record leaves of `s` (44_decode.md R684). -/
def State.recorded (s : State) (typ : Word) (data : Bytes) : State :=
  { s.setSpace .metaLog (s.mem.metaLog.writeBytes s.cnt.metaLen.toNat (be32Len data.length ++ be32 typ ++ data)) with
    cnt.metaLen := s.cnt.metaLen + BitVec.ofNat 32 (8 + data.length)
    cnt.metaCount := s.cnt.metaCount + 1 }

theorem record_ok {typ : Word} {data : Bytes} {s : State} (h : s.cnt.metaLen.toNat + (8 + data.length) ≤ s.cfg.metaCap) :
    record typ data s = .ok () (s.recorded typ data) := by
  have hlen : (be32Len data.length ++ be32 typ ++ data).length = 8 + data.length := by
    simp only [List.length_append, length_be32Len, length_be32]
  have hfit : s.cnt.metaLen.toNat + (be32Len data.length ++ be32 typ ++ data).length ≤ Space.metaLog.cap s.cfg := by
    rw [hlen]; exact h
  refine (if_neg (Nat.not_lt.2 hfit)).trans ((Cmd.andThen_ok (memWrite_ok hfit)).trans ?_)
  simp only [Cmd.update_run, hlen]
  rfl

/-- The record of a chunk ends its turn, and a `tRNS` is marked as seen (44_decode.md R683, R686, R689). -/
theorem chunkCase_record_ok {s t : State} {typ : Word} {data : Bytes} (h : s.records typ data)
    (hr : record typ data s = .ok () t) :
    chunkCase typ data s = .ok false { t with dec.seenTrns := if typ = typeTRNS then true else t.dec.seenTrns } := by
  obtain ⟨rfl, ht, hi, hct⟩ | ⟨hm, hlay⟩ | ⟨hk, hanc⟩ := h
  · exact (congrFun (chunkCase_trns data) s).trans
      (Cmd.andThen_ok ((doTrns_advisory ht hi hct data).trans (Cmd.andThen_ok hr)))
  · have hne : typ ≠ typeTRNS := by rintro rfl; exact absurd hm (by decide)
    rw [if_neg hne, chunkCase_meta hm]
    exact Cmd.andThen_ok ((doMeta_layout ((layoutOk_iff hm data).2 hlay) _ _ _ s).trans hr)
  · have hne : typ ≠ typeTRNS := by rintro rfl; exact hk (by decide)
    rw [if_neg hne, chunkCase_unknown hk]
    exact Cmd.andThen_ok ((doUnknown_ancillary hanc data s).trans hr)

/-! ## DEC.CHUNKS to its end -/

/-- What `DecChunks()` leaves behind a loop that has ended in `v` (44_decode.md R660). -/
def State.chunksClosed (v : State) : State := { v with dec.state := .chunks, str.stage := v.str.stage.close }

theorem decChunks_ok {s v : State} (h : chunkLoop (inAvail s + 1) s.chunksStart = .ok () v) :
    decChunks s = .ok () v.chunksClosed := by
  have reader : readChunks s.chunksStart = .ok () { v with str.stage := v.str.stage.close } := Cmd.andThen_ok h
  exact (Cmd.andThen_ok (resetStream_run .stage s)).trans (Cmd.andThen_ok reader)

theorem exec_decChunks_ok {s t : State} (hs : s.dec.state = .header) (h : decChunks s = .ok () t) :
    exec .decChunks s = .next (finish t) := by
  rw [exec_eq_runCommand]
  exact runCommand_ok ((Cmd.andThen_ok (if_pos hs)).trans (Cmd.onRaise_ok h))

/-- Settles O41: the turns leave the loop to the one that ends it, and a chunk's turn passes the checks of its type. -/
theorem acceptedChunks : Obligations.AcceptedChunks := by
  unfold Obligations.AcceptedChunks
  refine ⟨fun s n u v hs hu hv => ⟨?_, Stream.close_closed _⟩, fun s data => ⟨fun hp ho hf => chunkCase_idat_ok hp ho hf,
    chunkCase_iend data s, fun hp hi h0 h4 hn h3 => chunkCase_plte_ok hp hi h0 h4 hn h3,
    fun ht hi h3 hp hn hc => chunkCase_trns_ok ht hi h3 hp hn hc, fun typ h hm => ?_⟩⟩
  · exact exec_decChunks_ok hs (decChunks_ok ((chunkLoop_turns hu).trans (chunkLoop_last _ hv)))
  · exact ⟨_, chunkCase_record_ok h (record_ok hm), rfl⟩

end Sys2Proof.Machine
end

section
/-! SUPPORT. DEC.HEADER on a good first chunk, the chunk loop on image data up to `IEND`, and DEC.INFLATE (44_decode.md R655,
R660, R681, R695). -/

namespace Sys2Proof.Machine

/-! ## DEC.HEADER -/

theorem checkHeader_ok {s : State} (h : s.img.headerOk) : checkHeader s = .ok () s := by
  rw [checkHeader_run, headerError_of_headerOk h]; rfl

theorem decHeader_ok {s v : State} {c : Chunk} (h : readHeader s = .ok c v)
    (hc : v.ctrl.crcCheckEn = true → c.crc = chunkCrc c.typ c.data)
    (hr : checkIhdrChunk c (v.crcChecked c.typ c.data) = .ok () (v.crcChecked c.typ c.data))
    (ho : (parseIhdr c.data v.img).headerOk) :
    decHeader s = .ok () { v.crcChecked c.typ c.data with img := parseIhdr c.data v.img, dec.state := .header } :=
  (Cmd.bind_ok (Cmd.leaving_ok h)).trans ((Cmd.andThen_ok (Cmd.leaving_ok (checkCrcIfEnabled_ok hc))).trans
    ((Cmd.andThen_ok (Cmd.leaving_ok hr)).trans ((Cmd.andThen_ok (Cmd.update_run _ _)).trans
      (Cmd.andThen_ok (Cmd.leaving_ok (checkHeader_ok (s := { v.crcChecked c.typ c.data with img := _ }) ho))))))

/-- What `DecStart()` and `DecHeader()` leave of `s` on a good `IHDR` of data `data` (44_decode.md R651, R655, R665). -/
def State.headerRead (s : State) (data : Bytes) (crc : Word) : State :=
  { s.setSpace .dbuf (s.mem.dbuf.writeBytes 0 data) with
    dec :=
      { state := .header, seenPlte := false, seenTrns := false, seenIdat := false, seenIend := false,
        palCount := 0, trnsCount := 0, pixMax := s.dec.pixMax }
    img := parseIhdr data s.img
    ch := { length := BitVec.ofNat 32 data.length, type := typeIHDR, crc := crc }
    crc.out := if s.ctrl.crcCheckEn then chunkCrc typeIHDR data else s.crc.out
    cnt :=
      { s.cnt with
        inPos := BitVec.ofNat 32 (20 + data.length), idatCount := 0, metaLen := 0, metaCount := 0,
        stageLen := 0, inflLen := 0 }
    str := { s.str with stage := .fresh, infl := .fresh } }

/-- The state behind a chunk that DBUF takes. -/
theorem pastChunk_dbuf {s : State} {typ crc : Word} {data : Bytes} (ht : typ ≠ typeIDAT) (hd : data.length ≤ s.cfg.dbufCap) :
    s.pastChunk typ data crc =
      { s with
        cnt := (s.afterIn (12 + data.length)).cnt
        ch := { length := BitVec.ofNat 32 data.length, type := typ, crc := crc }
        mem := s.mem.set .dbuf (s.mem.dbuf.writeBytes 0 data) } := by
  have hb : (typ == typeIDAT) = false := beq_eq_false_iff_ne.2 ht
  unfold State.pastChunk
  rw [hb, if_pos (by rw [(chunkFits_dbuf data.length s).2 hd]; rfl)]

theorem decStartHeader_ok {s : State} {data : Bytes} {crc : Word} (h13 : 13 ≤ data.length) (hd : data.length ≤ s.cfg.dbufCap)
    (hl : 20 + data.length ≤ s.cnt.inLen.toNat)
    (hb : s.mem.inp.readBytes 0 (20 + data.length) = pngSignature ++ rawChunk typeIHDR data crc)
    (hg : s.ctrl.crcCheckEn = true → crc = chunkCrc typeIHDR data) (ho : (parseIhdr data s.img).headerOk) :
    (decStart.andThen decHeader) s = .ok () (s.headerRead data crc) := by
  have hfit : chunkFits false data.length s.pastSignature = true := (chunkFits_dbuf data.length s.pastSignature).2 hd
  have hpos : (0 : Word) + BitVec.ofNat 32 8 + BitVec.ofNat 32 (12 + data.length) = BitVec.ofNat 32 (20 + data.length) := by
    rw [BitVec.add_assoc, ← BitVec.ofNat_add]; exact (BitVec.zero_add _).trans (congrArg _ (by omega))
  refine (Cmd.andThen_ok (Cmd.update_run _ s)).trans
    ((decHeader_ok (readHeader_holds hl hb) hg (checkIhdrChunk_ok rfl hfit h13 _) ho).trans ?_)
  have hread := pastChunk_dbuf (s := s.pastSignature) (typ := typeIHDR) (crc := crc) (data := data) (by decide) hd
  simp only [hread, State.headerRead, ← hpos]
  rfl

/-- Settles O38: the reads give the chunk, and every check behind them passes. -/
theorem decHeaderResult : Obligations.DecHeaderResult := by
  unfold Obligations.DecHeaderResult
  intro s data crc h13 hd hl hb hg ho
  rw [exec_eq_runCommand]
  exact runCommand_ok (Cmd.leaving_ok (decStartHeader_ok h13 hd hl hb hg ho))

/-! ## Chunks of the loop -/

theorem length_chunkBytes (typ : Word) (data : Bytes) : (chunkBytes typ data).length = 12 + data.length := by
  simp only [chunkBytes, List.length_append, length_be32Len, length_be32]; omega

/-- What IN holds depends on its contents and its cursor only. -/
theorem State.inHolds_congr {s t : State} {v : Bytes} (hm : t.mem.inp = s.mem.inp) (hp : t.cnt.inPos = s.cnt.inPos)
    (hl : t.cnt.inLen = s.cnt.inLen) : t.inHolds v ↔ s.inHolds v := by
  unfold State.inHolds inAvail
  rw [hm, hp, hl]

/-- A turn on a chunk that passes its checks is the case on its type (44_decode.md R660). -/
theorem decChunksStep_chunk {s : State} {typ : Word} {data : Bytes} (h : s.inHolds (chunkBytes typ data))
    (hf : if typ = typeIDAT then s.str.stage.total + data.length ≤ s.cfg.stageCap else data.length ≤ s.cfg.dbufCap) :
    decChunksStep s =
      chunkCase typ data ((s.pastChunk typ data (chunkCrc typ data)).crcChecked typ data) := by
  refine decChunksStep_case h (fun _ => rfl) fun hx => ?_
  have hx := (chunkRead_fits_eq_false_iff s typ data _).1 hx
  split at hx <;> simp_all
  · omega
  · omega

/-- `s` behind a chunk whose data is not written to DBUF. -/
def State.pastData (s : State) (typ : Word) (data : Bytes) : State :=
  { s with
    cnt := (s.afterIn (12 + data.length)).cnt
    ch := { length := BitVec.ofNat 32 data.length, type := typ, crc := chunkCrc typ data }
    crc.out := if s.ctrl.crcCheckEn then chunkCrc typ data else s.crc.out }

theorem decChunksStep_idat {s : State} {data : Bytes} (h : s.inHolds (chunkBytes typeIDAT data))
    (hp : s.img.colorType = 3 → s.dec.seenPlte = true) (ho : s.str.stage.closed = false)
    (hf : s.str.stage.total + data.length ≤ s.cfg.stageCap) :
    decChunksStep s = .ok false ((s.pastData typeIDAT data).tookIdat data) :=
  (decChunksStep_chunk h (by rwa [if_pos rfl])).trans (chunkCase_idat_ok (s := s.pastData typeIDAT data) hp ho hf)

theorem decChunksStep_iend {s : State} (h : s.inHolds (chunkBytes typeIEND [])) :
    decChunksStep s = .ok true { s.pastData typeIEND [] with dec.seenIend := true } := by
  refine (decChunksStep_chunk h (by rw [if_neg (by decide)]; exact Nat.zero_le _)).trans ((chunkCase_iend [] _).trans ?_)
  have hread := pastChunk_dbuf (s := s) (typ := typeIEND) (crc := chunkCrc typeIEND []) (data := []) (by decide)
    (Nat.zero_le _)
  rw [hread]
  rfl

/-- What the chunk loop leaves of `s` behind the `IDAT` chunks of `parts` and `IEND` (44_decode.md R660, R681, R687). -/
def State.idatsRead (s : State) (parts : List Bytes) : State :=
  { s with
    dec.seenIdat := s.dec.seenIdat || !parts.isEmpty, dec.seenIend := true
    ch := { length := 0, type := 0x49454E44, crc := 0xAE426082 }
    crc.out := if s.ctrl.crcCheckEn then 0xAE426082 else s.crc.out
    cnt.inPos := s.cnt.inPos + BitVec.ofNat 32 (parts.flatten.length + 12 * parts.length + 12)
    cnt.stageLen := s.cnt.stageLen + BitVec.ofNat 32 parts.flatten.length
    cnt.idatCount := s.cnt.idatCount + BitVec.ofNat 32 parts.length
    str.stage :=
      { s.str.stage with
        readable := s.str.stage.readable ++ parts.flatten, total := s.str.stage.total + parts.flatten.length } }

theorem chunkCrc_iend : chunkCrc typeIEND [] = 0xAE426082 := by decide +kernel

theorem idatsRead_nil (s : State) : s.idatsRead [] = { s.pastData typeIEND [] with dec.seenIend := true } := by
  unfold State.idatsRead State.pastData
  rw [chunkCrc_iend]
  simp [typeIEND]

/-- Image data and then more of it. -/
theorem idatsRead_tookIdat {s : State} (hs : s.str.stage.staged = []) (data : Bytes) (parts : List Bytes) :
    ((s.pastData typeIDAT data).tookIdat data).idatsRead parts = s.idatsRead (data :: parts) := by
  have hpos : s.cnt.inPos + BitVec.ofNat 32 (12 + data.length) +
      BitVec.ofNat 32 (parts.flatten.length + 12 * parts.length + 12) =
        s.cnt.inPos + BitVec.ofNat 32 ((data :: parts).flatten.length + 12 * (data :: parts).length + 12) := by
    rw [BitVec.add_assoc, ← BitVec.ofNat_add, List.flatten_cons, List.length_append, List.length_cons]
    congr 2; omega
  have hcount : s.cnt.idatCount + 1 + BitVec.ofNat 32 parts.length =
      s.cnt.idatCount + BitVec.ofNat 32 (data :: parts).length := by
    rw [BitVec.add_assoc, List.length_cons, Nat.add_comm, BitVec.ofNat_add]; rfl
  unfold State.idatsRead
  rw [← hpos, ← hcount]
  simp [State.pastData, State.tookIdat, hs, BitVec.add_assoc, BitVec.ofNat_add, Nat.add_assoc]
  split <;> rfl

/-- The chunk loop on the `IDAT` chunks of `parts` and an `IEND`, from an open STAGE (44_decode.md R660, R681, R687). -/
theorem chunkLoop_idats {s : State} {parts : List Bytes} (hp : s.img.colorType = 3 → s.dec.seenPlte = true)
    (ho : s.str.stage.closed = false) (hs : s.str.stage.staged = [])
    (hf : s.str.stage.total + parts.flatten.length ≤ s.cfg.stageCap)
    (h : s.inHolds (parts.flatMap (chunkBytes typeIDAT) ++ chunkBytes typeIEND [])) :
    chunkLoop (inAvail s + 1) s = .ok () (s.idatsRead parts) := by
  induction parts generalizing s with
  | nil => rw [idatsRead_nil]; exact chunkLoop_last _ (decChunksStep_iend h)
  | cons data rest ih =>
    rw [List.flatMap_cons, List.append_assoc] at h
    obtain ⟨hdata, hrest⟩ := State.inHolds_append h
    rw [length_chunkBytes] at hrest
    rw [List.flatten_cons, List.length_append, ← Nat.add_assoc] at hf
    rw [chunkLoop_next (decChunksStep_idat hdata hp ho (by omega)), ← idatsRead_tookIdat hs]
    exact ih hp ho rfl hf hrest

/-- From a reset STAGE, the loop leaves in it the data of the chunks. -/
theorem idatsRead_stage_close (s : State) (parts : List Bytes) :
    (s.chunksStart.idatsRead parts).str.stage.close = .holding parts.flatten 0 := by
  simp [State.idatsRead, State.chunksStart, Stream.fresh, Stream.close, Stream.flush, Stream.holding]

/-- Settles O40: the loop goes through the chunks, each adding its data to STAGE. -/
theorem decChunksResult : Obligations.DecChunksResult := by
  unfold Obligations.DecChunksResult
  intro s parts hs hp hf h
  have hloop : chunkLoop (inAvail s + 1) s.chunksStart = .ok () (s.chunksStart.idatsRead parts) :=
    chunkLoop_idats (s := s.chunksStart) hp rfl rfl (by show 0 + _ ≤ _; rwa [Nat.zero_add]) h
  refine (exec_decChunks_ok hs (decChunks_ok hloop)).trans ?_
  rw [State.chunksClosed, idatsRead_stage_close]
  rfl

/-! ## DEC.INFLATE -/

theorem inflateJob_convert_some {c : Config} {z d : Bytes} (hz : c.zlibPresent = true) (hd : Config.inflateOf c z = some d) :
    (inflateJob c).convert z = .ok d := by simp [inflateJob, hz, hd]

theorem inflateJob_convert_none {c : Config} {z : Bytes} (hz : c.zlibPresent = true) (hd : Config.inflateOf c z = none) :
    (inflateJob c).convert z = .error (.compressionDataError, 0) := by simp [inflateJob, hz, hd]

/-- DEC.INFLATE by the result of the inflater on STAGE (44_decode.md R695, R712). -/
theorem exec_decInflate {s : State} (hs : s.dec.state = .chunks) (hc : s.str.stage.closed = true) :
    exec .decInflate s =
      match (inflateJob s.cfg).result s.str.stage.unread with
      | .ok d => .next (finish (s.inflated d))
      | .error (e, info) => .next (errorEntry .decode e info (unspecified inflateLeaves s.inflating)) := by
  have run : Instr.body s .decInflate s = decInflate s := Cmd.andThen_ok (if_pos hs)
  rw [exec_eq_runCommand, runCommand, run, decInflate_run hc]
  cases (inflateJob s.cfg).result s.str.stage.unread <;> rfl

/-- Settles O44: the result of DEC.INFLATE is the inflater's (`decInflate_run`). -/
theorem decInflateResult : Obligations.DecInflateResult := by
  unfold Obligations.DecInflateResult
  intro s hs hc z
  refine ⟨fun d hz hd hf => ?_, fun e info he => ?_⟩
  · have hres : (inflateJob s.cfg).result z = .ok d := MidJob.result_ok (inflateJob_convert_some hz hd) hf
    rw [exec_decInflate hs hc, hres]
    simp only [State.inflated, State.inflating]
    rfl
  · have hres : (inflateJob s.cfg).result z = .error (e, info) := by
      obtain ⟨hz, rfl, rfl⟩ | ⟨hz, hd, rfl, rfl⟩ | ⟨hz, ⟨d, hd, hf⟩, rfl, rfl⟩ := he
      · exact MidJob.result_error (if_pos hz)
      · exact MidJob.result_error (inflateJob_convert_none hz hd)
      · exact MidJob.result_full (inflateJob_convert_some hz hd) hf
    rw [exec_decInflate hs hc, hres]
    exact ⟨_, rfl, rfl, rfl, rfl, unspecified_mem s.inflating (by decide), unspecified_img s.inflating (by decide)⟩

end Sys2Proof.Machine
end

section
/-! SUPPORT. DEC.PIXELS: its checks in order, a row that is too wide, and the image of scanlines of any filter types
(44_decode.md R697, R713). -/

namespace Sys2Proof.Machine

/-! ## How DEC.PIXELS fails -/

theorem checkPixels_header {s : State} {e : Err} (h : s.headerError = some e) : checkPixels s = .raised e 0 s :=
  Cmd.andThen_raised (checkHeader_raised h)

theorem checkPixels_interlace {s : State} (h : s.headerError = none) (hi : 1 < s.img.interlace.toNat) :
    checkPixels s = .raised .unknownInterlaceMethod 0 s :=
  (Cmd.andThen_ok (checkHeader_ok (headerOk_of_headerError h))).trans (Cmd.andThen_raised (if_pos hi))

theorem checkPixels_raw {s : State} (h : s.headerError = none) (hi : s.img.interlace.toNat ≤ 1)
    (hr : s.cfg.rawCap < s.img.rawBytes) : checkPixels s = .raised .capacityExceeded 3 s :=
  (Cmd.andThen_ok (checkHeader_ok (headerOk_of_headerError h))).trans
    ((Cmd.andThen_ok (if_neg (Nat.not_lt.2 hi))).trans (if_pos hr))

/-- The deinterlacer stops with an error other than the end of INFL (20_memory.md R212). -/
theorem unfilterInfl_raised {engine : FilterUnit → Bytes → Unfiltered} {s : State} {e : Err} {info : Word} {rest : Bytes}
    {u : FilterUnit} (he : e ≠ .unexpectedEof) (h : engine s.flt s.str.infl.unread = .failed e info u rest) :
    unfilterInfl engine s =
      .raised e info { s.setStream .infl (s.str.infl.advance (s.str.infl.unread.length - rest.length)) with flt := u } := by
  simp [unfilterInfl, h, he]

/-- `DecPixels()` raises an error of its checks, or one of the deinterlacer behind them. -/
theorem decPixels_raised {s : State} {e : Err} {info : Word}
    (h : checkPixels s = .raised e info s ∨
      (checkPixels s = .ok () s ∧ e ≠ .unexpectedEof ∧
        ∃ u rest, deinterlacer s s.flt s.str.infl.unread = .failed e info u rest)) :
    ∃ c str u, decPixels s =
      .raised e info (unspecified (pixelsLeaves s.img) { s with cnt := c, str := str, flt := u }) := by
  obtain hx | ⟨hx, he, u, rest, hr⟩ := h
  · exact ⟨s.cnt, s.str, s.flt, Cmd.leaving_raised (Cmd.andThen_raised hx)⟩
  · have engine := unfilterInfl_raised (s := { s with cnt.rawLen := 0 }) (engine := deinterlacer s) he hr
    exact ⟨_, _, _, Cmd.leaving_raised
      ((Cmd.andThen_ok hx).trans ((Cmd.andThen_ok (clearRawLen_run s)).trans (Cmd.bind_raised engine)))⟩

/-- A row of the image does not fit the row buffers (42_filter.md R510, 43_adam7.md R602). -/
theorem deinterlacer_wide {s : State} (hi : s.img.interlace.toNat ≤ 1) (hh : s.img.headerOk)
    (h : s.cfg.rowCap < s.img.format.rowBytes
          (if s.img.interlace = 1 then passW 0 s.img.width.toNat else s.img.width.toNat) ∨
      (s.img.interlace = 1 ∧ ∃ p lines rest,
        IsWidePass s.cfg.rowCap s.img.format s.img.width.toNat s.img.height.toNat p ∧
        IsPassesBefore s.img.format s.img.width.toNat s.img.height.toNat p lines ∧
        s.str.infl.unread = lines.flatten ++ rest)) :
    ∃ u rest, deinterlacer s s.flt s.str.infl.unread = .failed .capacityExceeded 12 u rest := by
  obtain ⟨hw0, hh0, -, -⟩ := hh
  have hw : 0 < s.img.width.toNat := Nat.pos_of_ne_zero fun h0 => hw0 (BitVec.eq_of_toNat_eq h0)
  have hh : 0 < s.img.height.toNat := Nat.pos_of_ne_zero fun h0 => hh0 (BitVec.eq_of_toNat_eq h0)
  unfold deinterlacer
  obtain hwide | ⟨hm, p, lines, rest, hwide, hlines, hin⟩ := h
  · have hfirst : s.cfg.rowCap < s.img.format.rowBytes (s.firstWidth true) := by simpa [State.firstWidth] using hwide
    obtain ⟨hm, hwide⟩ | ⟨hm, hwide⟩ := wide_first (fun _ => hi) hw hh hfirst
    · rw [show s.img.interlace = 0 from hm]
      exact ⟨_, _, deinterlacePixels_wide hh hwide s.flt _⟩
    · rw [show s.img.interlace = 1 from hm]
      exact deinterlacePixels_widePass hwide (lines := []) ⟨fun _ => [], rfl, nofun⟩ s.flt _
  · rw [hm, hin]
    exact deinterlacePixels_widePass hwide hlines s.flt rest

/-! ## DEC.PIXELS on scanlines -/

/-- The raw image that scanlines give has the bytes of the image registers (10_state.md R144). -/
theorem ImgRegs.formatOk.length_isDeinterlaced {r : ImgRegs} (hf : r.formatOk) {lines : List Bytes} {raw : Bytes}
    (hd : IsDeinterlaced r.format r.interlace r.width.toNat r.height.toNat lines raw) : raw.length = r.rawBytes := by
  obtain ⟨-, hu⟩ | ⟨-, hlen, -⟩ := hd
  · exact hf.length_isUnfiltered hu
  · exact hlen

/-- What `DecPixels()` leaves of `s` behind `n` bytes of INFL that give the image `raw` (44_decode.md R697). -/
def State.pixelsRead (s : State) (raw : Bytes) (n : Nat) (v : FilterUnit) : State :=
  { s.setSpace .raw (s.mem.raw.writeBytes 0 raw) with
    dec.state := .pixels
    cnt.rawLen := BitVec.ofNat 32 s.img.rawBytes
    str.infl := { s.str.infl with rpos := s.str.infl.rpos + n }
    flt := v }

theorem decPixels_ok {s : State} {lines : List Bytes} {raw rest : Bytes} (hh : s.img.headerOk)
    (hr : s.img.rawBytes ≤ s.cfg.rawCap)
    (hfit : rowsFit s.cfg.rowCap s.img.format s.img.interlace s.img.width.toNat s.img.height.toNat)
    (hd : IsDeinterlaced s.img.format s.img.interlace s.img.width.toNat s.img.height.toNat lines raw)
    (hin : s.str.infl.unread = lines.flatten ++ rest) :
    ∃ v, decPixels s = .ok () (s.pixelsRead raw lines.flatten.length v) := by
  have ⟨_, _, hf, _⟩ := hh
  have hlen := hf.length_isDeinterlaced hd
  obtain ⟨v, hv⟩ := deinterlacePixels_isDeinterlaced hf.bpp_pos hfit hd s.flt rest
  rw [← hin] at hv
  have hcount : s.str.infl.unread.length - rest.length = lines.flatten.length := by
    rw [hin, List.length_append, Nat.add_sub_cancel]
  have engine := unfilterInfl_done (engine := deinterlacer s) (s := { s with cnt.rawLen := 0 }) hv
  refine ⟨v, Cmd.leaving_ok ((Cmd.andThen_ok (checkPixels_ok hh hd.method_le hr)).trans
    ((Cmd.andThen_ok (clearRawLen_run s)).trans ((Cmd.bind_ok engine).trans
      ((Cmd.andThen_ok (storeRaw_ok (hlen ▸ hr))).trans ?_))))⟩
  rw [hlen, hcount]
  rfl

/-- Settles O45: the checks raise the first error of theirs, and behind them the deinterlacer meets the row that is too wide, or
gives the image. -/
theorem decPixelsResult : Obligations.DecPixelsResult := by
  unfold Obligations.DecPixelsResult
  refine ⟨fun s e info hs h => ?_, fun s lines raw rest hs hh hr hfit hd hin => ?_⟩
  · have hfail : checkPixels s = .raised e info s ∨ (checkPixels s = .ok () s ∧ e ≠ .unexpectedEof ∧
        ∃ u rest, deinterlacer s s.flt s.str.infl.unread = .failed e info u rest) := by
      obtain ⟨he, rfl⟩ | ⟨hn, ⟨hi, rfl, rfl⟩ | ⟨hi, hr, rfl, rfl⟩ | ⟨hi, hr, rfl, rfl, hwide⟩⟩ := h
      · exact .inl (checkPixels_header he)
      · exact .inl (checkPixels_interlace hn hi)
      · exact .inl (checkPixels_raw hn hi hr)
      · have hh := headerOk_of_headerError hn
        exact .inr ⟨checkPixels_ok hh hi hr, nofun, deinterlacer_wide hi hh hwide⟩
    obtain ⟨c, str, u, hrun⟩ := decPixels_raised hfail
    obtain ⟨hmem, hbeyond⟩ := unspecified_pixelsLeaves_mem s.img { s with cnt := c, str := str, flt := u }
    have hdec : (unspecified (pixelsLeaves s.img) { s with cnt := c, str := str, flt := u }).dec = s.dec :=
      unspecified_dec (by simp [pixelsLeaves, Item.freesDec]) _
    rw [exec_eq_runCommand]
    refine ⟨_, runCommand_raised ((Cmd.andThen_ok (if_pos hs)).trans hrun), rfl, rfl, ?_, unspecified_enc _,
      unspecified_img _ (by simp [pixelsLeaves, imageItems]), unspecified_ch _ (by simp [pixelsLeaves, chunkItems]),
      unspecified_crc _, hmem, hbeyond⟩
    rw [errorEntry_dec, hdec]
    rfl
  · obtain ⟨v, hrun⟩ := decPixels_ok hh hr hfit hd hin
    rw [exec_eq_runCommand]
    exact ⟨v, runCommand_ok ((Cmd.andThen_ok (if_pos hs)).trans hrun)⟩

end Sys2Proof.Machine
end

section
/-! SUPPORT. DEC.EXPAND: a pixel's samples and components, the loop over the pixels, its checks, and an index beyond the palette
(44_decode.md R700, R701, R714). -/

namespace Sys2Proof.Machine

/-! ## Samples -/

/-- A component as two bytes, high byte first (10_state.md R147). -/
def componentBytes (c : Nat) : Bytes := [BitVec.ofNat 8 (c / 256), BitVec.ofNat 8 (c % 256)]

theorem be16_eq (v : BitVec 16) : be16 v = componentBytes v.toNat := by
  unfold be16 componentBytes
  congr 1
  · exact BitVec.eq_of_toNat_eq (by simp [Nat.shiftRight_eq_div_pow])
  · congr 1
    exact BitVec.eq_of_toNat_eq (by simp)

theorem pixelBytes_eq (r g b a : BitVec 16) :
    pixelBytes r g b a = [r.toNat, g.toNat, b.toNat, a.toNat].flatMap componentBytes := by
  simp [pixelBytes, be16_eq]

theorem toNat_u16be (v : Bytes) : (u16be v).toNat = (byteAt v 0).toNat * 256 + (byteAt v 1).toNat := by
  unfold u16be
  rw [BitVec.toNat_append, ← Nat.shiftLeft_add_eq_or_of_lt (byteAt v 1).isLt, Nat.shiftLeft_eq]

theorem toNat_and_sampleMask {n : Nat} (hn : n ≤ 8) (b : Byte) : (b &&& sampleMask n).toNat = b.toNat % 2 ^ n := by
  have hlt : 2 ^ n - 1 < 2 ^ 8 := by
    have := Nat.pow_le_pow_right (show 0 < 2 by decide) hn
    have := Nat.pow_pos (n := n) (show 0 < 2 by decide)
    omega
  rw [sampleMask, BitVec.toNat_and, BitVec.toNat_ofNat, Nat.mod_eq_of_lt hlt, Nat.and_two_pow_sub_one_eq_mod]

/-- The bytes of pixel number `k` in RAW (10_state.md R144). -/
def State.rawPixel (s : State) (k : Nat) : Bytes := s.mem.raw.readBytes (k * s.img.format.ups) s.img.format.ups

theorem byteAt_readBytes (m : Memory) (off : Nat) {n i : Nat} (h : i < n) : byteAt (m.readBytes off n) i = m.read (off + i) := by
  rw [byteAt_eq_getElem (by rwa [Memory.length_readBytes]), Memory.getElem_readBytes _ _ _ _ h]

/-- The bit depths of a legal format: 16, or at most 8 with a sample in one byte (00_scope.md R17). -/
theorem ImgRegs.formatOk.ups {r : ImgRegs} (h : r.formatOk) :
    (r.bitDepth = 16 ∧ r.format.ups = 2 * samplesPerPixel r.colorType) ∨
      (r.bitDepth ≠ 16 ∧ r.bitDepth.toNat ≤ 8 ∧ r.format.ups = samplesPerPixel r.colorType) := by
  obtain ⟨hbd, -⟩ := legalPair_known h.1
  unfold ImgRegs.format formatOf
  simp only [List.mem_cons, List.not_mem_nil, or_false] at hbd
  obtain hb | hb | hb | hb | hb := hbd <;> rw [hb] <;> simp [ceilDiv, Nat.mul_comm]

theorem rawSample_toNat {s : State} (hf : s.img.formatOk) (k : Nat) {j : Nat} (hj : j < samplesPerPixel s.img.colorType) :
    (rawSample s.img.bitDepth (s.rawPixel k) j).toNat = s.sample k j := by
  unfold rawSample State.sample State.rawByte State.rawPixel
  obtain ⟨hb, hu⟩ | ⟨hb, h8, hu⟩ := hf.ups
  · rw [if_pos hb, if_pos hb, toNat_u16be, byteAt_slice _ _ _ _ (by omega), byteAt_slice _ _ _ _ (by omega),
      byteAt_readBytes _ _ (by omega), byteAt_readBytes _ _ (by omega)]
    rfl
  · rw [if_neg hb, if_neg hb, BitVec.toNat_setWidth, toNat_and_sampleMask h8, byteAt_readBytes _ _ (by omega)]
    refine Nat.mod_eq_of_lt (Nat.lt_of_le_of_lt (Nat.mod_le _ _) ?_)
    exact Nat.lt_of_lt_of_le (BitVec.isLt _) (Nat.pow_le_pow_right (n := 2) (by decide) (show 8 ≤ 16 by decide))

theorem sample_le {s : State} (hf : s.img.formatOk) (k j : Nat) : s.sample k j ≤ 2 ^ s.img.bitDepth.toNat - 1 := by
  unfold State.sample State.rawByte
  obtain ⟨hb, -⟩ | ⟨hb, -, -⟩ := hf.ups
  · rw [if_pos hb, hb]
    have h1 := (s.mem.raw.read (k * s.img.format.ups + 2 * j)).isLt
    have h2 := (s.mem.raw.read (k * s.img.format.ups + (2 * j + 1))).isLt
    show _ ≤ 65535
    omega
  · rw [if_neg hb]
    exact Nat.le_sub_one_of_lt (Nat.mod_lt _ (Nat.pow_pos (by decide)))

theorem pixMaxOf_toNat {r : ImgRegs} (hf : r.formatOk) : (pixMaxOf r).toNat = r.divisor := by
  obtain ⟨hbd, -⟩ := legalPair_known hf.1
  unfold pixMaxOf ImgRegs.divisor
  split
  · rfl
  · simp only [List.mem_cons, List.not_mem_nil, or_false] at hbd
    obtain hb | hb | hb | hb | hb := hbd <;> rw [hb] <;> rfl

/-! ## Pixels -/

/-- The colour types of a legal format. -/
theorem ImgRegs.formatOk.colorType {r : ImgRegs} (h : r.formatOk) :
    r.colorType = 0 ∨ r.colorType = 2 ∨ r.colorType = 3 ∨ r.colorType = 4 ∨ r.colorType = 6 := by
  simpa using (legalPair_known h.1).2

theorem expandDirect_eq {s : State} (hf : s.img.formatOk) (h3 : s.img.colorType ≠ 3) (k : Nat) :
    expandDirect s.img (s.rawPixel k) = s.expectedPixel k := by
  have hm := pixMaxOf_toNat hf
  have smp := fun {j : Nat} (hj : j < samplesPerPixel s.img.colorType) => rawSample_toNat hf k hj
  unfold expandDirect State.expectedPixel State.components
  simp only [pixelBytes_eq]
  obtain hc | hc | hc | hc | hc := hf.colorType
  · rw [hc] at smp; simp [hc, hm, smp, samplesPerPixel, componentBytes]
  · rw [hc] at smp; simp [hc, hm, smp, samplesPerPixel, componentBytes]
  · exact absurd hc h3
  · rw [hc] at smp; simp [hc, smp, samplesPerPixel, componentBytes]
  · rw [hc] at smp; simp [hc, smp, samplesPerPixel, componentBytes]

/-- An entry of PAL as the four components of a pixel (44_decode.md R700). -/
theorem expandEntry_eq {s : State} (h3 : s.img.colorType = 3) (k : Nat) :
    expandEntry (s.mem.pal.readBytes (4 * s.sample k 0) 4) = s.expectedPixel k := by
  have hbyte := fun {i : Nat} (h : i < 4) => byteAt_readBytes s.mem.pal (4 * s.sample k 0) h
  have hwide (b : Byte) : (b.setWidth 16).toNat = b.toNat := BitVec.toNat_setWidth_of_le (by decide)
  unfold expandEntry State.expectedPixel State.components
  rw [pixelBytes_eq]
  simp only [hwide, hbyte (show 0 < 4 by decide), hbyte (show 1 < 4 by decide), hbyte (show 2 < 4 by decide),
    hbyte (show 3 < 4 by decide)]
  rw [if_neg (by rw [h3]; decide), if_neg (by rw [h3]; decide), if_pos h3]
  rfl

/-- Pixel `k` is no index beyond the palette (44_decode.md R700). -/
def State.indexOk (s : State) (k : Nat) : Prop :=
  s.img.colorType = 3 → s.dec.palCount.toNat ≤ 256 ∧ s.sample k 0 < s.dec.palCount.toNat

/-- The test of a palette index, and the read of its entry (44_decode.md R700, R701). -/
theorem expandPixel_palette {s : State} (hf : s.img.formatOk) (h3 : s.img.colorType = 3) (k : Nat) :
    expandPixel (s.rawPixel k) s =
      if s.dec.palCount.toNat ≤ s.sample k 0 then .raised .invalidPaletteIndex (BitVec.ofNat 32 (s.sample k 0)) s
      else ((memRead .pal (4 * s.sample k 0) 4).bind fun e => .ret (expandEntry e)) s := by
  have hs : (rawSample s.img.bitDepth (s.rawPixel k) 0).toNat = s.sample k 0 := rawSample_toNat hf k (by rw [h3]; decide)
  unfold expandPixel
  simp only [if_pos h3, ← hs, BitVec.ofNat_toNat]

theorem expandPixel_ok {s : State} (hf : s.img.formatOk) {k : Nat} (hi : s.indexOk k) :
    expandPixel (s.rawPixel k) s = .ok (s.expectedPixel k) s := by
  by_cases h3 : s.img.colorType = 3
  · obtain ⟨hc, hlt⟩ := hi h3
    have hread : 4 * s.sample k 0 + 4 ≤ Space.pal.cap s.cfg := by show _ ≤ 1024; omega
    rw [expandPixel_palette hf h3, if_neg (Nat.not_le.2 hlt), Cmd.bind_ok (memRead_ok hread), ← expandEntry_eq h3]
    rfl
  · exact (if_neg h3).trans (congrArg (Res.ok · s) (expandDirect_eq hf h3 k))

theorem length_components (s : State) (k : Nat) : (s.components k).length = 4 := by
  unfold State.components
  dsimp only
  split_ifs <;> rfl

theorem length_expectedPixel (s : State) (k : Nat) : (s.expectedPixel k).length = 8 := by
  rw [State.expectedPixel, List.length_flatMap]
  simp [length_components]

/-- No component is above the divisor (10_state.md R125). -/
theorem components_le {s : State} (hf : s.img.formatOk) (k : Nat) : ∀ c ∈ s.components k, c ≤ s.img.divisor := by
  have hs := sample_le hf k
  have hb (a : Nat) : (s.mem.pal.read a).toNat ≤ 255 := Nat.le_of_lt_succ (BitVec.isLt _)
  unfold State.components ImgRegs.divisor
  obtain hc | hc | hc | hc | hc := hf.colorType <;> simp [hc, hs, hb]

/-! ## The loop over the pixels -/

/-- The image registers name a legal format, RAW holds its bytes and PIX can hold its pixels. -/
structure ExpandFits (s : State) : Prop where
  format : s.img.formatOk
  raw : s.img.rawBytes ≤ s.cfg.rawCap
  pix : s.img.pixels * 8 ≤ s.cfg.pixCap

theorem rawPixel_read {s : State} (h : ExpandFits s) {k : Nat} (hk : k < s.img.pixels) :
    memRead .raw (k * s.img.format.ups) s.img.format.ups s = .ok (s.rawPixel k) s := by
  refine memRead_ok ?_
  have hle : (k + 1) * s.img.format.ups ≤ s.img.rawBytes := Nat.mul_le_mul_right _ hk
  rw [Nat.succ_mul] at hle
  exact Nat.le_trans hle h.raw

/-- `s` with the pixels from number `k` on, `n` of them, written to PIX (44_decode.md R700). -/
def State.withPixels (s : State) (k n : Nat) : State :=
  s.setSpace .pix (s.mem.pix.writeBytes (k * 8) ((List.range' k n).flatMap s.expectedPixel))

theorem expandOne_ok {s : State} (h : ExpandFits s) {k : Nat} (hk : k < s.img.pixels) (hi : s.indexOk k) :
    expandOne k s = .ok () (s.setSpace .pix (s.mem.pix.writeBytes (k * 8) (s.expectedPixel k))) := by
  have hfit : k * 8 + (s.expectedPixel k).length ≤ Space.pix.cap s.cfg := by
    rw [length_expectedPixel]
    exact Nat.le_trans (by omega) h.pix
  exact (Cmd.bind_ok (rawPixel_read h hk)).trans ((Cmd.bind_ok (expandPixel_ok h.format hi)).trans (memWrite_ok hfit))

theorem expandPixels_ok {s : State} (h : ExpandFits s) {k n : Nat} (hn : k + n ≤ s.img.pixels)
    (hi : ∀ j, k ≤ j → j < k + n → s.indexOk j) :
    Cmd.forEach expandOne (List.range' k n) s = .ok () (s.withPixels k n) := by
  induction n generalizing s k with
  | zero => rfl
  | succ n ih =>
    have hone := expandOne_ok h (k := k) (by omega) (hi k (Nat.le_refl _) (by omega))
    have hrest := ih (s := s.setSpace .pix (s.mem.pix.writeBytes (k * 8) (s.expectedPixel k))) (k := k + 1)
      ⟨h.format, h.raw, h.pix⟩ (by simpa using by omega) fun j hj hlt => hi j (by omega) (by omega)
    refine (Cmd.andThen_ok hone).trans (hrest.trans (congrArg (Res.ok ()) ?_))
    unfold State.withPixels
    rw [List.range'_succ, List.flatMap_cons, Memory.writeBytes_append, length_expectedPixel, ← Nat.succ_mul]
    rfl

theorem Cmd.forEach_append {α : Type} (f : α → Cmd Unit) (l l' : List α) :
    Cmd.forEach f (l ++ l') = (Cmd.forEach f l).andThen (Cmd.forEach f l') := by
  induction l with
  | nil => exact (Cmd.ret_andThen () _).symm
  | cons a l ih => rw [List.cons_append, Cmd.forEach, Cmd.forEach, ih, Cmd.andThen_assoc]

/-- A palette index beyond the palette, behind pixels that are none (44_decode.md R701). -/
theorem expandPixels_badIndex {s : State} (h : ExpandFits s) (h3 : s.img.colorType = 3) {k : Nat} (hk : k < s.img.pixels)
    (hi : ∀ j < k, s.indexOk j) (hbad : s.dec.palCount.toNat ≤ s.sample k 0) :
    Cmd.forEach expandOne (List.range s.img.pixels) s =
      .raised .invalidPaletteIndex (BitVec.ofNat 32 (s.sample k 0)) (s.withPixels 0 k) := by
  obtain ⟨n, hn⟩ := Nat.exists_eq_add_of_lt hk
  have hsplit : List.range s.img.pixels = List.range' 0 k ++ k :: List.range' (k + 1) n := by
    have happend := List.range'_append_1 (s := 0) (m := k) (n := n + 1)
    rw [Nat.zero_add] at happend
    rw [List.range_eq_range', hn, ← List.range'_succ, happend, Nat.add_assoc]
  have hraised : expandOne k (s.withPixels 0 k) =
      .raised .invalidPaletteIndex (BitVec.ofNat 32 (s.sample k 0)) (s.withPixels 0 k) := by
    have hread := rawPixel_read (s := s.withPixels 0 k) ⟨h.format, h.raw, h.pix⟩ hk
    have hpixel := (expandPixel_palette (s := s.withPixels 0 k) h.format h3 k).trans (if_pos hbad)
    exact (Cmd.bind_ok hread).trans (Cmd.bind_raised hpixel)
  have hbefore := expandPixels_ok h (k := 0) (n := k) (by omega) fun j _ hj => hi j (by omega)
  rw [hsplit, Cmd.forEach_append, Cmd.andThen_ok hbefore]
  exact Cmd.andThen_raised hraised

/-! ## DEC.EXPAND -/

/-- The state in which `DecExpand()` expands the first pixel (44_decode.md R700). -/
def State.expanding (s : State) : State := { s with cnt.pixLen := 0, dec.pixMax := pixMaxOf s.img }

theorem checkPixRange_ok {s : State} (h : s.img.pixels * 8 ≤ s.cfg.pixCap) : checkPixRange s = .ok () s :=
  if_neg (Nat.not_lt.2 h)

/-- What `DecExpand()` leaves of `s` (44_decode.md R700). -/
def State.expanded (s : State) : State :=
  { s.setSpace .pix (s.mem.pix.writeBytes 0 s.expectedPix) with
    dec.state := .expanded
    dec.pixMax := pixMaxOf s.img
    cnt.pixLen := BitVec.ofNat 32 (s.img.pixels * 8) }

theorem decExpand_ok {s : State} (hh : s.img.headerOk) (hp : s.img.pixels * 8 ≤ s.cfg.pixCap)
    (hr : s.img.rawBytes ≤ s.cfg.rawCap) (hi : ∀ k < s.img.pixels, s.indexOk k) : decExpand s = .ok () s.expanded := by
  have ⟨_, _, hf, _⟩ := hh
  have hloop := expandPixels_ok (s := s.expanding) ⟨hf, hr, hp⟩ (k := 0) (n := s.img.pixels) (Nat.zero_add _).le
    fun j _ hj => hi j (by omega)
  rw [← List.range_eq_range'] at hloop
  refine Cmd.leaving_ok ((Cmd.andThen_ok (checkHeader_ok hh)).trans ((Cmd.andThen_ok (checkPixRange_ok hp)).trans
    ((Cmd.andThen_ok (Cmd.update_run _ s)).trans ((Cmd.andThen_ok hloop).trans ?_))))
  rw [State.withPixels, ← List.range_eq_range']
  rfl

/-- `DecExpand()` raises an error of its checks, or one of a pixel behind them, with the pixels before it written. -/
theorem decExpand_raised {s : State} {e : Err} {info : Word}
    (h : (s.headerError = some e ∧ info = 0) ∨
      (s.headerError = none ∧ s.cfg.pixCap < s.img.pixels * 8 ∧ e = .capacityExceeded ∧ info = 6) ∨
      (s.img.headerOk ∧ s.img.pixels * 8 ≤ s.cfg.pixCap ∧ ∃ k ≤ s.img.pixels,
        Cmd.forEach expandOne (List.range s.img.pixels) s.expanding = .raised e info (s.expanding.withPixels 0 k))) :
    ∃ c d, ∃ k ≤ s.img.pixels,
      decExpand s = .raised e info (unspecified (expandLeaves s.img) { s.withPixels 0 k with cnt := c, dec := d }) := by
  obtain ⟨he, rfl⟩ | ⟨hn, hp, rfl, rfl⟩ | ⟨hh, hp, k, hk, hloop⟩ := h
  · exact ⟨s.cnt, s.dec, 0, Nat.zero_le _, Cmd.leaving_raised (Cmd.andThen_raised (checkHeader_raised he))⟩
  · exact ⟨s.cnt, s.dec, 0, Nat.zero_le _, Cmd.leaving_raised
      ((Cmd.andThen_ok (checkHeader_ok (headerOk_of_headerError hn))).trans (Cmd.andThen_raised (if_pos hp)))⟩
  · exact ⟨_, _, k, hk, Cmd.leaving_raised ((Cmd.andThen_ok (checkHeader_ok hh)).trans
      ((Cmd.andThen_ok (checkPixRange_ok hp)).trans
        ((Cmd.andThen_ok (Cmd.update_run _ s)).trans (Cmd.andThen_raised hloop))))⟩

/-- The bytes of a part of the pixels. -/
theorem length_flatMap_expectedPixel (s : State) (l : List Nat) : (l.flatMap s.expectedPixel).length = 8 * l.length := by
  simp [List.length_flatMap, length_expectedPixel, Nat.mul_comm]

/-- An error of DEC.EXPAND leaves every space but PIX, and PIX beyond the image (44_decode.md R714, log 8). -/
theorem unspecified_expandLeaves_mem (s : State) (c : Counters) (d : DecRegs) {k : Nat} (hk : k ≤ s.img.pixels) :
    let v := unspecified (expandLeaves s.img) { s.withPixels 0 k with cnt := c, dec := d }
    (∀ sp, sp ≠ .pix → v.mem.get sp = s.mem.get sp) ∧
      (s.mem.pix.wf → ∀ a, s.img.pixels * 8 ≤ a → v.mem.pix.read a = s.mem.pix.read a) := by
  refine ⟨fun sp hsp => ?_, fun hw a ha => ?_⟩
  · exact (unspecified_get _ (by simp [expandLeaves, Item.space?, hsp.symm])).trans (Spaces.get_set_other _ _ _ _ hsp)
  · refine (unspecified_read (sp := .pix) (s := { s.withPixels 0 k with cnt := c, dec := d })
      (by simp [expandLeaves, Item.space?, ha]) (Memory.wf_writeBytes _ _ _ hw)).trans
      (Memory.read_writeBytes_outside _ _ _ _ hw (Or.inr ?_))
    rw [length_flatMap_expectedPixel, List.length_range']
    omega

/-- Settles O46: the checks raise the first error of theirs, and behind them every pixel's components are written in turn. -/
theorem decExpandResult : Obligations.DecExpandResult := by
  unfold Obligations.DecExpandResult
  refine ⟨fun s e info hs h => ?_, fun s hs hh hp hr hi => ⟨?_, fun k _ => ⟨length_expectedPixel s k, ?_⟩⟩⟩
  · obtain ⟨c, d, k, hk, hrun⟩ := decExpand_raised (h.imp_right .inl)
    obtain ⟨hmem, hbeyond⟩ := unspecified_expandLeaves_mem s c d hk
    rw [exec_eq_runCommand]
    exact ⟨_, runCommand_raised ((Cmd.andThen_ok (if_pos hs)).trans hrun), rfl, rfl, rfl, unspecified_enc _,
      unspecified_img _ (by simp [expandLeaves, imageItems]), unspecified_ch _ (by simp [expandLeaves, chunkItems]),
      unspecified_crc _, hmem, hbeyond⟩
  · rw [exec_eq_runCommand]
    exact runCommand_ok ((Cmd.andThen_ok (if_pos hs)).trans
      (decExpand_ok hh hp hr fun k hk h3 => ⟨(hi h3).1, (hi h3).2 k hk⟩))
  · have ⟨_, _, hf, _⟩ := hh
    exact components_le hf k

/-- Settles O47: the pixels before the index are written, and its test fails. -/
theorem firstBadIndexReported : Obligations.FirstBadIndexReported := by
  unfold Obligations.FirstBadIndexReported
  intro s k hs hh h3 hp hr hc hk hgood hbad
  have ⟨_, _, hf, _⟩ := hh
  have hloop := expandPixels_badIndex (s := s.expanding) ⟨hf, hr, hp⟩ h3 hk (fun j hj _ => ⟨hc, hgood j hj⟩) hbad
  obtain ⟨c, d, n, hn, hrun⟩ := decExpand_raised (.inr (.inr ⟨hh, hp, k, Nat.le_of_lt hk, hloop⟩))
  obtain ⟨hmem, hbeyond⟩ := unspecified_expandLeaves_mem s c d hn
  rw [exec_eq_runCommand]
  exact ⟨_, runCommand_raised ((Cmd.andThen_ok (if_pos hs)).trans hrun), rfl, rfl, rfl, hmem, hbeyond⟩

end Sys2Proof.Machine
end

section
/-! SUPPORT. The steps of DECODE do not look at `STATUS`, the stage interleaving and the encode sequencer's state
(44_decode.md R650, 60_exceptions.md R931). -/

namespace Sys2Proof.Machine

variable {g : Aside}

/-! ## Accesses -/

theorem memRead_ignores (sp : Space) (off n : Nat) : (memRead sp off n).Ignores g :=
  .ite (fun _ => rfl) (.raise _ _) (fun _ => rfl)

theorem memWrite_ignores (sp : Space) (off : Nat) (v : Bytes) : (memWrite sp off v).Ignores g :=
  .ite (fun _ => rfl) (.raise _ _) (.update fun _ => rfl)

theorem readIn_ignores (n : Nat) : (readIn n).Ignores g := .ite (fun _ => rfl) (.raise _ _) (fun _ => rfl)

theorem readU32_ignores : readU32.Ignores g := (readIn_ignores 4).bind fun _ => .ret _

theorem streamWrite_ignores (i : StreamId) (v : Bytes) : (streamWrite i v).Ignores g :=
  .ite (fun _ => rfl) (.raise _ _) (.ite (fun _ => rfl) (.raise _ _) (.update fun _ => rfl))

theorem readAll_ignores (i : StreamId) : (readAll i).Ignores g :=
  .ite (c := fun s => (s.str.get i).closed = true) (fun _ => rfl) (fun _ => rfl) (fun _ => rfl)

/-! ## The chunk loop -/

theorem readChunkBody_ignores (len : Nat) (typ : Word) (toStage fits : Bool) :
    (readChunkBody len typ toStage fits).Ignores g := by
  refine (readIn_ignores len).bind fun data => Cmd.Ignores.andThen ?_
    (readU32_ignores.bind fun crc => Cmd.Ignores.andThen (.update fun _ => rfl) (.ret _))
  split
  · exact memWrite_ignores _ _ _
  · exact .ret ()

theorem readChunk_ignores (sink : ChunkSink) : (readChunk sink).Ignores g := by
  refine (readU32_ignores.leaving _).bind fun len => Cmd.Ignores.andThen (.update fun _ => rfl) ?_
  refine (readU32_ignores.leaving _).bind fun typ => Cmd.Ignores.andThen (.update fun _ => rfl) (Cmd.Ignores.leaving ?_ _)
  exact Cmd.Ignores.bind (.look fun _ => rfl) fun fits => (Cmd.Ignores.raiseIf _ _ _).andThen (readChunkBody_ignores _ _ _ _)

theorem checkCrcIfEnabled_ignores (c : Chunk) : (checkCrcIfEnabled c).Ignores g :=
  .ite (c := fun s => s.ctrl.crcCheckEn = true) (fun _ => rfl)
    (Cmd.Ignores.andThen (.update fun _ => rfl) (.raiseIf _ _ _)) (.ret ())

theorem record_ignores (typ : Word) (data : Bytes) : (record typ data).Ignores g :=
  .ite (c := fun s => s.cfg.metaCap < s.cnt.metaLen.toNat + (be32Len data.length ++ be32 typ ++ data).length)
    (fun _ => rfl) (.raise _ _)
    (.at (m := fun s => (memWrite .metaLog s.cnt.metaLen.toNat _).andThen _) (fun _ => rfl)
      fun _ => (memWrite_ignores _ _ _).andThen (.update fun _ => rfl))

theorem doIdat_ignores (data : Bytes) : (doIdat data).Ignores g :=
  .raiseIte (info := fun _ => typeIDAT) (fun _ => rfl) (fun _ => rfl)
    ((streamWrite_ignores _ _).andThen (Cmd.Ignores.andThen (.update fun _ => rfl) (.update fun _ => rfl)))

theorem doPlte_ignores (data : Bytes) : (doPlte data).Ignores g :=
  .raiseIte (info := fun _ => typePLTE) (fun _ => rfl) (fun _ => rfl) <|
  .raiseIte (info := fun _ => typePLTE) (fun _ => rfl) (fun _ => rfl) <|
  .raiseIte (info := fun _ => typePLTE) (fun _ => rfl) (fun _ => rfl) <|
  .raiseIte (info := fun _ => typePLTE) (fun _ => rfl) (fun _ => rfl) <|
  (memWrite_ignores _ _ _).andThen (.update fun _ => rfl)

theorem doTrns_ignores (data : Bytes) : (doTrns data).Ignores g :=
  .raiseIte (info := fun _ => typeTRNS) (fun _ => rfl) (fun _ => rfl) <|
  .raiseIte (info := fun _ => typeTRNS) (fun _ => rfl) (fun _ => rfl) <|
  .raiseIte (info := fun _ => typeTRNS) (fun _ => rfl) (fun _ => rfl) <|
  .ite (fun _ => rfl)
    (.raiseIte (info := fun _ => typeTRNS) (fun _ => rfl) (fun _ => rfl) <|
      .raiseIte (info := fun _ => typeTRNS) (fun _ => rfl) (fun _ => rfl) <|
      (Cmd.Ignores.forEach (fun _ => memWrite_ignores _ _ _) _).andThen (.update fun _ => rfl))
    ((record_ignores _ _).andThen (.update fun _ => rfl))

theorem doMeta_ignores (ok : Bool) (e : Err) (typ : Word) (data : Bytes) : (doMeta ok e typ data).Ignores g :=
  (Cmd.Ignores.raiseIf _ _ _).andThen (record_ignores _ _)

theorem chunkCase_ignores (typ : Word) (data : Bytes) : (chunkCase typ data).Ignores g := by
  by_cases hk : typ ∈ knownTypes
  · by_cases hm : typ ∈ metaTypes
    · rw [chunkCase_meta hm]
      exact (doMeta_ignores _ _ _ _).andThen (.ret _)
    · simp only [knownTypes, metaTypes, List.mem_cons, List.not_mem_nil, or_false, not_or] at hk hm
      obtain ⟨h1, h2, h3, h4⟩ := hm
      obtain rfl | rfl | rfl | h | h | h | h | rfl := hk
      · rw [chunkCase_idat]; exact (doIdat_ignores _).andThen (.ret _)
      · rw [chunkCase_plte]; exact (doPlte_ignores _).andThen (.ret _)
      · rw [chunkCase_trns]; exact (doTrns_ignores _).andThen (.ret _)
      · exact absurd h h1
      · exact absurd h h2
      · exact absurd h h3
      · exact absurd h h4
      · intro s
        rw [chunkCase_iend, chunkCase_iend]
        rfl
  · rw [chunkCase_unknown hk]
    exact Cmd.Ignores.andThen ((Cmd.Ignores.raiseIf _ _ _).andThen (record_ignores _ _)) (.ret _)

theorem decChunksStep_ignores : decChunksStep.Ignores g :=
  (readChunk_ignores .auto).bind fun c => (checkCrcIfEnabled_ignores c).andThen <|
    (Cmd.Ignores.raiseIf _ _ _).andThen (chunkCase_ignores _ _)

theorem chunkLoop_ignores (n : Nat) : (chunkLoop n).Ignores g := by
  induction n with
  | zero => exact .raise _ _
  | succ n ih =>
    refine decChunksStep_ignores.bind fun last => ?_
    split
    · exact .ret ()
    · exact ih

theorem decChunks_ignores : decChunks.Ignores g := by
  have reader : readChunks.Ignores g :=
    .at (m := fun s => (chunkLoop (inAvail s + 1)).andThen endChunks) (fun _ => rfl)
      fun _ => (chunkLoop_ignores _).andThen (.update fun _ => rfl)
  exact Cmd.Ignores.andThen (.update fun _ => rfl) (reader.andThen (.update fun _ => rfl))

/-! ## Decompression, pixels, expansion -/

theorem decInflate_ignores : decInflate.Ignores g := by
  have call (z : Bytes) : (callInflate z).Ignores g := by
    refine .raiseIte (info := fun _ => 0) (fun _ => rfl) (fun _ => rfl) fun s => ?_
    show (match Config.inflateOf s.cfg z with | some d => _ | none => _) = _
    cases Config.inflateOf s.cfg z <;> rfl
  unfold decInflate
  refine Cmd.Ignores.leaving ?_ _
  refine Cmd.Ignores.andThen (.update fun _ => rfl) (Cmd.Ignores.andThen (.update fun _ => rfl) ?_)
  refine (readAll_ignores _).bind fun z => (call z).bind fun d => (streamWrite_ignores _ _).andThen ?_
  exact Cmd.Ignores.andThen (.update fun _ => rfl) (Cmd.Ignores.andThen (.update fun _ => rfl) (.update fun _ => rfl))

theorem checkHeader_ignores : checkHeader.Ignores g :=
  checkSize_ignores.andThen <| checkColor_ignores.andThen <|
  Cmd.Ignores.andThen (.raiseIte (info := fun _ => 0) (fun _ => rfl) (fun _ => rfl) (.ret ()))
    (.raiseIte (info := fun _ => 0) (fun _ => rfl) (fun _ => rfl) (.ret ()))

theorem unfilterInfl_ignores (engine : FilterUnit → Bytes → Unfiltered) : (unfilterInfl engine).Ignores g := by
  intro s
  unfold unfilterInfl
  simp only [show (g.on s).flt = s.flt from rfl, show (g.on s).str = s.str from rfl]
  cases engine s.flt s.str.infl.unread with
  | done out u rest => rfl
  | failed e info u rest => dsimp only; split <;> rfl

theorem setDecState_ignores (v : DecState) : (setDecState v).Ignores g := .update fun _ => rfl

theorem storeRaw_ignores (out : Bytes) : (storeRaw out).Ignores g := (memWrite_ignores _ _ _).andThen (.update fun _ => rfl)

theorem decPixels_ignores : decPixels.Ignores g := by
  unfold decPixels
  refine .at (fun _ => rfl) fun s => Cmd.Ignores.leaving ?_ _
  refine (checkHeader_ignores.andThen (checkInterlace_ignores.andThen checkRawRange_ignores)).andThen
    (Cmd.Ignores.andThen (.update fun _ => rfl) ?_)
  exact (unfilterInfl_ignores _).bind fun out => (storeRaw_ignores out).andThen (setDecState_ignores _)

theorem expandPixel_ignores (px : Bytes) : (expandPixel px).Ignores g :=
  .ite (c := fun s => s.img.colorType = 3) (fun _ => rfl) (.raiseIte (fun _ => rfl) (fun _ => rfl)
    (.at (m := fun s => (memRead .pal (4 * (rawSample s.img.bitDepth px 0).toNat) 4).bind _) (fun _ => rfl)
      fun _ => (memRead_ignores _ _ _).bind fun _ => .ret _)) (fun _ => rfl)

theorem expandOne_ignores (k : Nat) : (expandOne k).Ignores g :=
  .at (m := fun s => (memRead .raw (k * s.img.format.ups) s.img.format.ups).bind _) (fun _ => rfl)
    fun _ => (memRead_ignores _ _ _).bind fun _ => (expandPixel_ignores _).bind fun _ => memWrite_ignores _ _ _

theorem checkPixRange_ignores : checkPixRange.Ignores g :=
  .raiseIte (info := fun _ => Space.pix.id) (fun _ => rfl) (fun _ => rfl) (.ret ())

theorem decExpand_ignores : decExpand.Ignores g := by
  unfold decExpand
  refine .at (fun _ => rfl) fun s => Cmd.Ignores.leaving ?_ _
  refine checkHeader_ignores.andThen (checkPixRange_ignores.andThen (Cmd.Ignores.andThen (.update fun _ => rfl) ?_))
  exact (Cmd.Ignores.forEach expandOne_ignores _).andThen
    (Cmd.Ignores.andThen (.update fun _ => rfl) (setDecState_ignores _))

end Sys2Proof.Machine
end

section
/-! SUPPORT. The stages of DECODE run as commands in turn, against DECODE (44_decode.md R720, 60_exceptions.md R921). -/

namespace Sys2Proof.Machine

/-! ## Commands that finish and commands that fail -/

/-- What completion changes (60_exceptions.md R931). -/
def Aside.finish : Aside where
  status t := { t with done := true, busy := false, pipeActive := false }
  turns _ := []
  encState := id

theorem finish_eq_on : finish = Aside.finish.on := rfl

theorem Cmd.onRaise_eq_ok {α : Type} {m : Cmd α} {f : Err → State → State} {s t : State} {a : α} :
    m.onRaise f s = .ok a t ↔ m s = .ok a t := by
  unfold Cmd.onRaise
  cases m s <;> simp

theorem Cmd.onRaise_eq_raised {α : Type} {m : Cmd α} {f : Err → State → State} {s t : State} {e : Err} {info : Word} :
    m.onRaise f s = .raised e info t ↔ ∃ w, m s = .raised e info w ∧ t = f e w := by
  unfold Cmd.onRaise
  cases m s with
  | raised e' info' w =>
    constructor
    · rintro h; cases h; exact ⟨w, rfl, rfl⟩
    · rintro ⟨w', h, rfl⟩; cases h; rfl
  | ok a w => simp
  | stuck x => simp
  | refuse x => simp

/-- A command that goes on to a next state has finished or failed (60_exceptions.md R930, R931). -/
theorem runCommand_next {fam : Family} {body : Cmd Unit} {s t : State} (h : runCommand fam body s = .next t) :
    (∃ w, body s = .ok () w ∧ t = finish w) ∨ ∃ e info w, body s = .raised e info w ∧ t = errorEntry fam e info w := by
  unfold runCommand at h
  split at h
  case h_1 w hb => cases h; exact .inl ⟨w, hb, rfl⟩
  case h_2 e info w hb => cases h; exact .inr ⟨e, info, w, hb, rfl⟩
  all_goals cases h

/-! ## The stages -/

/-- A command of the decode sequence behind DEC.HEADER: the state it asks for, its step of DECODE, and the state it leaves. -/
structure Stage where
  instr : Instr
  need : DecState
  run : Cmd Unit
  leaves : DecState

/-- The command asks for its state and runs its step, whose errors leave `CRC_OUT` alone; the step does not look at what
completion changes, and ends in the state that it leaves, which is not the failed one. -/
structure Stage.Sound (σ : Stage) : Prop where
  exec_eq : ∀ s, s.dec.state = σ.need → ∃ f : Err → State → State,
    (∀ e w, (f e w).crc = w.crc) ∧ exec σ.instr s = runCommand .decode (σ.run.onRaise f) s
  ignores : σ.run.Ignores .finish
  ends : ∀ s a t, σ.run s = .ok a t → t.dec.state = σ.leaves
  live : σ.leaves ≠ .failed

variable {σ : Stage} {s t : State}

/-- A command that starts where another has finished has finished, as its step does from the state before that completion. -/
theorem Stage.Sound.finished (h : σ.Sound) (hs : s.dec.state = σ.need) (hx : exec σ.instr (finish s) = .next t)
    (ht : t.dec.state ≠ .failed) : ∃ w, σ.run s = .ok () w ∧ t = finish w ∧ w.dec.state = σ.leaves := by
  obtain ⟨f, -, hexec⟩ := h.exec_eq (finish s) hs
  obtain ⟨v, hv, rfl⟩ | ⟨e, info, v, -, rfl⟩ := runCommand_next (hexec ▸ hx)
  · obtain ⟨w, hw, rfl⟩ := h.ignores.ok_iff.1 (Cmd.onRaise_eq_ok.1 hv)
    exact ⟨w, hw, rfl, h.ends _ _ _ hw⟩
  · exact absurd rfl ht

/-- And one that has failed has failed as its step does. -/
theorem Stage.Sound.failed (h : σ.Sound) (hs : s.dec.state = σ.need) (hx : exec σ.instr (finish s) = .next t)
    (ht : t.dec.state = .failed) :
    ∃ e info w, σ.run s = .raised e info w ∧ t.errCode = e.code ∧ t.errInfo = info ∧ t.crc = w.crc := by
  obtain ⟨f, hf, hexec⟩ := h.exec_eq (finish s) hs
  obtain ⟨v, hv, rfl⟩ | ⟨e, info, v, hv, rfl⟩ := runCommand_next (hexec ▸ hx)
  · exact absurd ((h.ends _ _ _ (Cmd.onRaise_eq_ok.1 hv)).symm.trans ht) h.live
  · obtain ⟨v', hv', rfl⟩ := Cmd.onRaise_eq_raised.1 hv
    obtain ⟨w, hw, rfl⟩ := h.ignores.raised_iff.1 hv'
    exact ⟨e, info, w, hw, rfl, rfl, hf e _⟩

/-! ## Stages in turn -/

/-- The steps one after the other. -/
def runSteps : List Stage → Cmd Unit
  | [] => .ret ()
  | σ :: rest => σ.run.andThen (runSteps rest)

/-- Each stage asks for the state that the one before it leaves. -/
def Chained : DecState → List Stage → Prop
  | _, [] => True
  | v, σ :: rest => σ.need = v ∧ σ.Sound ∧ Chained σ.leaves rest

theorem runInTurn_cons {failed : State → Bool} {i : Instr} {rest : List Instr} {u : State}
    (h : runInTurn failed (i :: rest) s = some u) :
    ∃ t, exec i s = .next t ∧ failed t = false ∧ runInTurn failed rest t = some u := by
  unfold runInTurn at h
  split at h
  case h_1 t ht =>
    cases hf : failed t
    · rw [hf] at h; exact ⟨t, ht, hf, h⟩
    · rw [hf] at h; cases h
  all_goals cases h

/-- A decode sequencer that has failed. -/
def State.decFailed (s : State) : Bool := s.dec.state == .failed

theorem State.decFailed_eq_false : s.decFailed = false ↔ s.dec.state ≠ .failed := beq_eq_false_iff_ne

/-- Where the first commands finish and the next one fails, the steps in turn raise its error. -/
theorem runSteps_raised {ss : List Stage} {v : DecState} (hc : Chained v ss) (hs : s.dec.state = v) {n : Nat} {i : Instr}
    {u t : State} (hu : runInTurn State.decFailed ((ss.map Stage.instr).take n) (finish s) = some u)
    (hi : (ss.map Stage.instr)[n]? = some i) (hx : exec i u = .next t) (ht : t.dec.state = .failed) :
    ∃ e info w, runSteps ss s = .raised e info w ∧ t.errCode = e.code ∧ t.errInfo = info ∧ t.crc = w.crc := by
  induction ss generalizing s v n with
  | nil => cases hi
  | cons σ rest ih =>
    obtain ⟨rfl, hsound, hrest⟩ := hc
    cases n with
    | zero =>
      cases hu
      cases hi
      obtain ⟨e, info, w, hw, hcode⟩ := hsound.failed hs hx ht
      exact ⟨e, info, w, Cmd.andThen_raised hw, hcode⟩
    | succ n =>
      obtain ⟨t', ht', hlive, hu⟩ := runInTurn_cons hu
      obtain ⟨w, hw, rfl, hstate⟩ := hsound.finished hs ht' (State.decFailed_eq_false.1 hlive)
      obtain ⟨e, info, w', hw', hcode⟩ := ih hrest hstate hu hi
      exact ⟨e, info, w', (Cmd.andThen_ok hw).trans hw', hcode⟩

/-- Where all commands finish, the steps in turn end as they do. -/
theorem runSteps_ok {ss : List Stage} {v : DecState} (hc : Chained v ss) (hs : s.dec.state = v) {u : State}
    (hu : runInTurn State.decFailed (ss.map Stage.instr) (finish s) = some u) :
    ∃ w, runSteps ss s = .ok () w ∧ u = finish w := by
  induction ss generalizing s v with
  | nil => cases hu; exact ⟨s, rfl, rfl⟩
  | cons σ rest ih =>
    obtain ⟨rfl, hsound, hrest⟩ := hc
    obtain ⟨t', ht', hlive, hu⟩ := runInTurn_cons hu
    obtain ⟨w, hw, rfl, hstate⟩ := hsound.finished hs ht' (State.decFailed_eq_false.1 hlive)
    obtain ⟨w', hw', rfl⟩ := ih hrest hstate hu
    exact ⟨w', (Cmd.andThen_ok hw).trans hw', rfl⟩

/-! ## The stages behind DEC.HEADER -/

def stageChunks : Stage := { instr := .decChunks, need := .header, run := decChunks, leaves := .chunks }
def stageInflate : Stage := { instr := .decInflate, need := .chunks, run := decInflate, leaves := .inflated }
def stagePixels : Stage := { instr := .decPixels, need := .inflated, run := decPixels, leaves := .pixels }
def stageExpand : Stage := { instr := .decExpand, need := .pixels, run := decExpand, leaves := .expanded }

/-- The stages behind DEC.HEADER, in order (44_decode.md R650). -/
def bodyStages : List Stage := [stageChunks, stageInflate, stagePixels, stageExpand]

/-- A piece that writes the decode sequencer's state last. -/
abbrev Cmd.EndsIn {α : Type} (v : DecState) (m : Cmd α) : Prop := Cmd.Steps (fun _ t => t.dec.state = v) m

theorem setDecState_endsIn (v : DecState) : (setDecState v).EndsIn v := Cmd.Steps.update _ fun _ => rfl

theorem Cmd.EndsIn.andThen {α β : Type} {v : DecState} {m : Cmd α} {n : Cmd β} (h : n.EndsIn v) : (m.andThen n).EndsIn v :=
  Cmd.Steps.andThen (r₁ := fun _ _ => True) (fun _ _ _ _ => trivial) h fun _ _ _ _ h => h

theorem Cmd.EndsIn.bind {α β : Type} {v : DecState} {m : Cmd α} {f : α → Cmd β} (h : ∀ a, (f a).EndsIn v) :
    (m.bind f).EndsIn v :=
  Cmd.Steps.bind (r₁ := fun _ _ => True) (fun _ _ _ _ => trivial) h fun _ _ _ _ h => h

/-- A command whose pseudocode is its step behind the test of the sequencer's state. -/
theorem exec_stage {i : Instr} {v : DecState} {m : Cmd Unit}
    (hb : ∀ s, exec i s = runCommand .decode ((requireDecState v).andThen m) s)
    (hs : s.dec.state = v) :
    ∃ f : Err → State → State, (∀ e w, (f e w).crc = w.crc) ∧ exec i s = runCommand .decode (m.onRaise f) s := by
  refine ⟨fun _ w => w, fun _ _ => rfl, (hb s).trans ?_⟩
  unfold runCommand
  rw [Cmd.andThen_ok (if_pos hs)]
  unfold Cmd.onRaise
  cases m s <;> rfl

theorem stageChunks_sound : stageChunks.Sound where
  exec_eq s hs := by
    refine ⟨leaveChunks s, fun e w => unspecified_crc w, ?_⟩
    rw [exec_eq_runCommand, runCommand, runCommand]
    rw [show Instr.body s stageChunks.instr s = _ from Cmd.andThen_ok (if_pos hs)]
    rfl
  ignores := decChunks_ignores
  ends := Cmd.EndsIn.andThen (m := resetStream _) (Cmd.EndsIn.andThen (setDecState_endsIn .chunks))
  live := by decide

theorem stageInflate_sound : stageInflate.Sound where
  exec_eq _ hs := exec_stage (fun _ => rfl) hs
  ignores := decInflate_ignores
  ends := Cmd.Steps.leaving (Cmd.EndsIn.andThen (Cmd.EndsIn.andThen (Cmd.EndsIn.bind fun _ => Cmd.EndsIn.bind fun _ =>
    Cmd.EndsIn.andThen (Cmd.EndsIn.andThen (Cmd.EndsIn.andThen (setDecState_endsIn _))))))
  live := by decide

theorem stagePixels_sound : stagePixels.Sound where
  exec_eq _ hs := exec_stage (fun _ => rfl) hs
  ignores := decPixels_ignores
  ends s := Cmd.Steps.leaving (Cmd.EndsIn.andThen (Cmd.EndsIn.andThen (Cmd.EndsIn.bind fun _ => Cmd.EndsIn.andThen
    (setDecState_endsIn _)))) s
  live := by decide

theorem stageExpand_sound : stageExpand.Sound where
  exec_eq _ hs := exec_stage (fun _ => rfl) hs
  ignores := decExpand_ignores
  ends s := Cmd.Steps.leaving (Cmd.EndsIn.andThen (Cmd.EndsIn.andThen (Cmd.EndsIn.andThen (Cmd.EndsIn.andThen
    (Cmd.EndsIn.andThen (setDecState_endsIn _)))))) s
  live := by decide

theorem bodyStages_chained : Chained .header bodyStages :=
  ⟨rfl, stageChunks_sound, rfl, stageInflate_sound, rfl, stagePixels_sound, rfl, stageExpand_sound, trivial⟩

/-- The steps of DECODE behind its header (44_decode.md R720). -/
theorem runSteps_bodyStages : runSteps bodyStages = decSequential.andThen decExpand := by
  have last : decExpand.andThen (.ret ()) = decExpand := by
    funext s
    rw [Cmd.andThen_run]
    cases decExpand s <;> rfl
  show decChunks.andThen (decInflate.andThen (decPixels.andThen (decExpand.andThen (.ret ())))) = _
  rw [last, decSequential, Cmd.andThen_assoc, Cmd.andThen_assoc]

end Sys2Proof.Machine
end

section
/-! SUPPORT. What DECODE leaves alone, and what it leaves of the chunk's type after `PaletteNotFound` (44_decode.md R720,
60_exceptions.md R930, 95_test_vectors.md P6). -/

namespace Sys2Proof.Machine

/-! ## What no step of DECODE writes -/

/-- The encoder, `IMG_MODE.LEVEL`, IN and OUT. -/
def State.decodeSide (s : State) : EncRegs × Byte × Memory × Memory := (s.enc, s.img.level, s.mem.inp, s.mem.outp)

/-- The piece keeps that part of the state, whether it ends or raises an error. -/
def Cmd.KeepsSide {α : Type} (m : Cmd α) : Prop := ∀ s, (m s).Within fun t => t.decodeSide = s.decodeSide

section KeepsSide

variable {α β : Type}

theorem Cmd.KeepsSide.update {f : State → State} (h : ∀ s, (f s).decodeSide = s.decodeSide) : (Cmd.update f).KeepsSide := h

theorem Cmd.KeepsSide.ret (a : α) : (Cmd.ret a).KeepsSide := fun _ => rfl

theorem Cmd.Examines.keepsSide {m : Cmd α} (h : m.Examines) : m.KeepsSide := by
  intro s
  obtain ⟨a, hs⟩ | ⟨e, info, -, hs⟩ := h s <;> rw [hs] <;> exact rfl

theorem Cmd.KeepsSide.bind {m : Cmd α} {f : α → Cmd β} (h : m.KeepsSide) (k : ∀ a, (f a).KeepsSide) : (m.bind f).KeepsSide := by
  intro s
  have hm := h s
  rw [Cmd.bind_run]
  cases hr : m s with
  | ok a t => rw [hr] at hm; exact (k a t).imp fun _ hu => hu.trans hm
  | raised e info t => rw [hr] at hm; exact hm
  | stuck x => trivial
  | refuse x => trivial

theorem Cmd.KeepsSide.andThen {m : Cmd α} {n : Cmd β} (h : m.KeepsSide) (k : n.KeepsSide) : (m.andThen n).KeepsSide :=
  h.bind fun _ => k

theorem Cmd.KeepsSide.onRaise {m : Cmd α} {f : Err → State → State} (h : m.KeepsSide)
    (hf : ∀ e s, (f e s).decodeSide = s.decodeSide) : (m.onRaise f).KeepsSide := by
  intro s
  have hm := h s
  unfold Cmd.onRaise
  cases hr : m s with
  | ok a t => rw [hr] at hm; exact hm
  | raised e info t => rw [hr] at hm; exact (hf e t).trans hm
  | stuck x => trivial
  | refuse x => trivial

/-- A piece that looks at the state it starts in. -/
theorem Cmd.KeepsSide.at {m : State → Cmd α} (h : ∀ s, (m s).KeepsSide) : Cmd.KeepsSide (fun s => m s s) := fun s => h s s

theorem Cmd.KeepsSide.forEach {f : β → Cmd Unit} (h : ∀ b, (f b).KeepsSide) (l : List β) : (Cmd.forEach f l).KeepsSide := by
  induction l with
  | nil => exact .ret ()
  | cons b rest ih => exact (h b).andThen ih

/-- The item frees neither IN nor OUT. -/
abbrev Item.OffSide (it : Item) : Prop := it.space? ≠ some .inp ∧ it.space? ≠ some .outp

theorem Item.free_decodeSide {it : Item} (h : it.OffSide) (k : Nat) (s : State) : (it.free k s).decodeSide = s.decodeSide := by
  have hlevel : (it.free k s).img.level = s.img.level := by cases it <;> rfl
  have hin : (it.free k s).mem.inp = s.mem.inp := Item.free_get k s h.1
  have hout : (it.free k s).mem.outp = s.mem.outp := Item.free_get k s h.2
  unfold State.decodeSide
  rw [Item.free_enc, hlevel, hin, hout]

theorem unspecified_decodeSide {items : List Item} (h : ∀ it ∈ items, it.OffSide) (s : State) :
    (unspecified items s).decodeSide = s.decodeSide :=
  unspecified_keeps State.decodeSide (fun _ _ => rfl) (fun it hit => Item.free_decodeSide (h it hit)) s

theorem Cmd.KeepsSide.leaving {m : Cmd α} {items : List Item} (h : m.KeepsSide) (hi : ∀ it ∈ items, it.OffSide) :
    (m.leaving items).KeepsSide := h.onRaise fun _ => unspecified_decodeSide hi

/-- What the chunk loop keeps, it keeps. -/
theorem Cmd.LoopKept.keepsSide {m : Cmd α} (h : ∀ a, Cmd.LoopKept a m) : m.KeepsSide := by
  intro s
  have side {t : State} (k : LoopKeeps s t) : t.decodeSide = s.decodeSide := by
    have hspaces := k.spaces
    simp only [Prod.mk.injEq] at hspaces
    simp only [State.decodeSide, k.enc, k.img, hspaces]
  have hm := (h s).meets (LoopKeeps.refl s)
  cases hr : m s with
  | ok a t => rw [hr] at hm; exact side hm
  | raised e info t => rw [hr] at hm; exact side hm
  | stuck x => trivial
  | refuse x => trivial

end KeepsSide

/-! ## The steps of DECODE -/

/-- A write to RAW or PIX. -/
theorem memWrite_keepsSide {sp : Space} (hsp : sp = .raw ∨ sp = .pix) (off : Nat) (v : Bytes) :
    (memWrite sp off v).KeepsSide := by
  intro s
  rw [memWrite_run]
  split
  · rfl
  · obtain rfl | rfl := hsp <;> rfl

theorem readHeader_keepsSide : readHeader.KeepsSide := by
  refine Cmd.KeepsSide.andThen ?_ (.at fun s => ?_)
  · refine ((Cmd.LoopKept.keepsSide fun _ => readIn_loopKept 8).leaving (by decide)).bind fun sg => ?_
    exact (Cmd.Examines.raiseIf _ (by decide)).keepsSide.leaving (by decide)
  · refine (Cmd.LoopKept.keepsSide fun _ => readChunk_loopKept .auto).onRaise fun e t => ?_
    unfold leaveChunkData
    split
    · exact unspecified_decodeSide (by simp [Item.OffSide, Item.space?]) t
    · rfl

theorem Chunk.headerLeaves_offSide (c : Chunk) {items : List Item} (h : ∀ it ∈ items, it.OffSide) :
    ∀ it ∈ c.headerLeaves ++ items, it.OffSide := by
  have hd : ∀ it ∈ c.dbufItems, it.OffSide := by
    unfold Chunk.dbufItems
    split <;> simp [Item.OffSide, Item.space?]
  have hr : ∀ it ∈ [Item.inPos, .chLength, .chType], it.OffSide := by decide
  intro it hit
  obtain hit | hit := List.mem_append.1 hit
  · exact (List.mem_append.1 hit).elim (hd it) (hr it)
  · exact h it hit

theorem decHeader_keepsSide : decHeader.KeepsSide := by
  refine (readHeader_keepsSide.leaving (by decide)).bind fun c => ?_
  refine .andThen ((Cmd.LoopKept.keepsSide fun _ => checkCrcIfEnabled_loopKept c).leaving
    (c.headerLeaves_offSide (by decide))) ?_
  refine .andThen ((checkIhdrChunk_examines c).keepsSide.leaving (c.headerLeaves_offSide (by decide))) ?_
  refine .andThen (.update fun _ => rfl) (.andThen ?_ (.update fun _ => rfl))
  exact checkHeader_examines.keepsSide.leaving (c.headerLeaves_offSide (by decide))

theorem chunkLoop_loopKept {a : State} (n : Nat) : Cmd.LoopKept a (chunkLoop n) := by
  induction n with
  | zero => exact Cmd.Triple.raise _ _ fun _ h => h
  | succ n ih =>
    refine Cmd.Triple.bind decChunksStep_loopKept fun last => ?_
    split
    · exact Cmd.LoopKept.ret ()
    · exact ih

theorem decChunks_loopKept {a : State} : Cmd.LoopKept a decChunks := by
  refine Cmd.LoopKept.updateThen (by intro s; rfl) (Cmd.LoopKept.thenUpdate ?_ (by intro s; rfl))
  exact fun s hs => Cmd.LoopKept.thenUpdate (chunkLoop_loopKept _) (by intro t; rfl) s hs

theorem decInflate_keepsSide : decInflate.KeepsSide := by
  have all : (readAll .stage).KeepsSide := by
    intro s
    unfold readAll
    dsimp only
    split <;> trivial
  refine Cmd.KeepsSide.leaving (.andThen (.update fun _ => rfl) (.andThen (.update fun _ => rfl) ?_)) (by decide)
  refine all.bind fun z => (callInflate_examines z).keepsSide.bind fun d => .andThen ?_ ?_
  · exact Cmd.LoopKept.keepsSide fun _ => streamWrite_loopKept _ _
  · exact .andThen (.update fun _ => rfl) (.andThen (.update fun _ => rfl) (.update fun _ => rfl))

theorem unfilterInfl_keepsSide (engine : FilterUnit → Bytes → Unfiltered) : (unfilterInfl engine).KeepsSide := by
  intro s
  unfold unfilterInfl
  dsimp only
  split
  · rfl
  · split <;> trivial

theorem decPixels_keepsSide : decPixels.KeepsSide := by
  unfold decPixels
  refine .at fun s => .leaving (.andThen checkPixels_examines.keepsSide (.andThen (.update fun _ => rfl) ?_)) ?_
  · refine (unfilterInfl_keepsSide _).bind fun out => .andThen (.andThen ?_ (.update fun _ => rfl)) (.update fun _ => rfl)
    exact memWrite_keepsSide (.inl rfl) _ _
  · simp [pixelsLeaves, Item.OffSide, Item.space?]

theorem expandOne_keepsSide (k : Nat) : (expandOne k).KeepsSide :=
  .at (m := fun s => (memRead .raw (k * s.img.format.ups) s.img.format.ups).bind _) fun _ =>
    (memRead_examines _ _ _).keepsSide.bind fun px => (expandPixel_examines px).keepsSide.bind fun _ =>
      memWrite_keepsSide (.inr rfl) _ _

theorem decExpand_keepsSide : decExpand.KeepsSide := by
  unfold decExpand
  refine .at fun s => .leaving (.andThen checkHeader_examines.keepsSide (.andThen checkPixRange_examines.keepsSide ?_)) ?_
  · exact .andThen (.update fun _ => rfl) (.andThen (.forEach expandOne_keepsSide _)
      (.andThen (.update fun _ => rfl) (.update fun _ => rfl)))
  · simp [expandLeaves, Item.OffSide, Item.space?]

theorem decSequential_keepsSide : decSequential.KeepsSide :=
  (Cmd.LoopKept.keepsSide fun _ => decChunks_loopKept).andThen (decInflate_keepsSide.andThen decPixels_keepsSide)

/-! ## An error of DECODE -/

theorem decodeLeaves_offSide (r : ImgRegs) : ∀ it ∈ decodeLeaves r, it.OffSide := by
  simp [decodeLeaves, headerLeaves, Item.OffSide, Item.space?]

theorem leaveDecodeHeader_side (e : Err) (s : State) : (leaveDecodeHeader e s).decodeSide = s.decodeSide := by
  refine unspecified_decodeSide (fun it hit => ?_) s
  obtain hit | hit := List.mem_append.1 hit
  · exact (by split <;> decide : ∀ it ∈ if e = .corruptedChunk then [Item.chCrc] else [], it.OffSide) it hit
  · exact decodeLeaves_offSide _ it hit

/-- What an error of DECODE behind its header, which left `h`, leaves unspecified where it has come to `s`. -/
def decodeItems (h : State) (e : Err) (s : State) : List Item :=
  cursorLeaves (e == .unexpectedEof && s.dec.state == .header) e ++
    (if e = .paletteNotFound then [] else [Item.imgFormat]) ++
    Item.bytes .dbuf 0 (max h.ch.length.toNat h.dbufReach) :: chunksLeaves s ++ decodeLeaves h.img ++
    [Item.imgWidth, Item.imgHeight, Item.imgInterlace]

theorem leaveDecode_eq (h : State) (e : Err) (s : State) : leaveDecode h e s = unspecified (decodeItems h e s) s := rfl

theorem decodeItems_offSide (h : State) (e : Err) (s : State) : ∀ it ∈ decodeItems h e s, it.OffSide := by
  intro it hit
  simp only [decodeItems, List.mem_append, List.mem_cons, List.not_mem_nil, or_false] at hit
  obtain (((hc | hf) | rfl | hl) | hd) | rfl | rfl | rfl := hit
  · exact (by decide : ∀ it ∈ [Item.inPos, .chLength, .chCrc, .chType], it.OffSide) it (cursorLeaves_subset _ _ hc)
  · revert it; split <;> decide
  · simp [Item.OffSide, Item.space?]
  · revert it; simp [chunksLeaves, Item.OffSide, Item.space?]
  · exact decodeLeaves_offSide _ it hd
  all_goals decide

/-- After `PaletteNotFound` `IMG_FORMAT` and `CH_TYPE` stand (95_test_vectors.md P6). -/
theorem decodeItems_paletteNotFound (h s : State) :
    Item.imgFormat ∉ decodeItems h .paletteNotFound s ∧ Item.chType ∉ decodeItems h .paletteNotFound s := by
  simp [decodeItems, cursorLeaves, chunksLeaves, decodeLeaves, headerLeaves]

theorem unspecified_formatWord {items : List Item} (h : .imgFormat ∉ items) (s : State) :
    (unspecified items s).img.formatWord = s.img.formatWord := by
  refine unspecified_keeps (·.img.formatWord) (fun _ _ => rfl) (fun it hit k t => ?_) s
  cases it
  case imgFormat => exact absurd hit h
  all_goals rfl

theorem decodeWith_keepsSide : (decodeWith decSequential).KeepsSide := by
  refine .andThen (.onRaise (.andThen (.update fun _ => rfl) decHeader_keepsSide) leaveDecodeHeader_side) (.at fun h => ?_)
  refine .onRaise (decSequential_keepsSide.andThen decExpand_keepsSide) fun e s => ?_
  rw [leaveDecode_eq]
  exact unspecified_decodeSide (decodeItems_offSide h e s) s

/-! ## `PaletteNotFound` -/

/-- The piece raises no `PaletteNotFound`. -/
abbrev Cmd.SparesPalette {α : Type} (P : State → Prop) (m : Cmd α) (Q : α → State → Prop) : Prop :=
  Cmd.Triple P m Q fun e _ => e ≠ .paletteNotFound

section SparesPalette

variable {P : State → Prop}

theorem Cmd.SparesPalette.raiseIf (c : Bool) {e : Err} (info : Word) (he : e ≠ .paletteNotFound) :
    Cmd.SparesPalette P (Cmd.raiseIf c e info) fun _ => P :=
  Cmd.Triple.raiseIf (fun _ _ _ => he) fun _ _ h => h

/-- A piece and the registers it writes at its end. -/
theorem Cmd.SparesPalette.thenUpdate {m : Cmd Unit} (h : Cmd.SparesPalette (fun _ => True) m fun _ _ => True)
    (f : State → State) : Cmd.SparesPalette (fun _ => True) (m.andThen (.update f)) fun _ _ => True :=
  Cmd.Triple.andThen h fun _ => Cmd.Triple.update f fun _ h => h

theorem readU32_sparesPalette (hP : ∀ s n, P s → P (s.afterIn n)) : Cmd.SparesPalette P readU32 fun _ => P := by
  intro s hs
  by_cases h : inAvail s < 4
  · rw [readU32_raised h]; exact nofun
  · rw [readU32_ok (Nat.le_of_not_lt h)]; exact hP s 4 hs

theorem memWrite_sparesPalette {sp : Space} {off : Nat} {v : Bytes} (hP : ∀ s m, P s → P (s.setSpace sp m)) :
    Cmd.SparesPalette P (memWrite sp off v) fun _ => P := by
  intro s hs
  rw [memWrite_run]
  by_cases h : sp.cap s.cfg < off + v.length
  · rw [if_pos h]; exact nofun
  · rw [if_neg h]; exact hP s _ hs

theorem streamWrite_sparesPalette (i : StreamId) (v : Bytes) :
    Cmd.SparesPalette (fun _ => True) (streamWrite i v) fun _ _ => True := by
  refine Cmd.Triple.of_meets fun s _ => ?_
  rw [streamWrite_run]
  split
  · exact nofun
  split
  · exact nofun
  · trivial

/-- A chunk read whole has its type in `CH_TYPE` (41_framer.md R450). -/
theorem readChunk_sparesPalette (sink : ChunkSink) :
    Cmd.SparesPalette (fun _ => True) (readChunk sink) fun c t => t.ch.type = c.typ := by
  have word : Cmd.SparesPalette (fun _ => True) readU32 fun _ _ => True := readU32_sparesPalette fun _ _ h => h
  refine (word.leaving fun _ _ h => h).bind fun len =>
    Cmd.Triple.andThen (Q := fun _ _ => True) (Cmd.Triple.update _ fun _ h => h) fun _ => ?_
  refine (word.leaving fun _ _ h => h).bind fun typ => ?_
  refine Cmd.Triple.andThen (Q := fun _ t => t.ch.type = typ) (Cmd.Triple.update _ fun _ _ => rfl) fun _ => ?_
  refine Cmd.Triple.leaving (R := fun e _ => e ≠ .paletteNotFound) ?_ fun _ _ h => h
  refine Cmd.Triple.bind (Q := fun _ t => t.ch.type = typ) (Cmd.Triple.look _ fun _ h => h) fun fits =>
    Cmd.Triple.andThen (Cmd.SparesPalette.raiseIf _ _ (by decide)) fun _ => ?_
  refine Cmd.Triple.bind (Q := fun _ t => t.ch.type = typ) ?_ fun data =>
    Cmd.Triple.andThen (Q := fun _ t => t.ch.type = typ) ?_ fun _ => ?_
  · intro s hs
    rw [readIn_run]
    by_cases h : inAvail s < len.toNat
    · rw [if_pos h]; exact nofun
    · rw [if_neg h]; exact hs
  · split
    · exact memWrite_sparesPalette fun _ _ h => h
    · exact Cmd.Triple.ret _ fun _ h => h
  · exact (readU32_sparesPalette fun _ _ h => h).bind fun crc =>
      Cmd.Triple.andThen (Cmd.Triple.update _ fun _ h => h) fun _ => Cmd.Triple.ret _ fun _ h => h

theorem checkCrcIfEnabled_sparesPalette (c : Chunk) {typ : Word} :
    Cmd.SparesPalette (·.ch.type = typ) (checkCrcIfEnabled c) fun _ t => t.ch.type = typ := by
  refine Cmd.Triple.of_meets fun s hs => ?_
  unfold checkCrcIfEnabled checkCrc
  split
  · exact (Cmd.Triple.andThen (Cmd.Triple.update _ fun _ h => h) fun _ =>
      Cmd.SparesPalette.raiseIf (P := (·.ch.type = typ)) _ _ (by decide)).meets hs
  · exact hs

theorem record_sparesPalette (typ : Word) (data : Bytes) :
    Cmd.SparesPalette (fun _ => True) (record typ data) fun _ _ => True := by
  refine Cmd.Triple.of_meets fun s _ => ?_
  unfold record
  dsimp only
  split
  · exact nofun
  · exact (Cmd.SparesPalette.thenUpdate (memWrite_sparesPalette fun _ _ h => h) _).meets trivial

theorem doPlte_sparesPalette (data : Bytes) : Cmd.SparesPalette (fun _ => True) (doPlte data) fun _ _ => True := by
  refine Cmd.Triple.of_meets fun s _ => ?_
  unfold doPlte
  dsimp only
  split_ifs
  · exact nofun
  · exact nofun
  · exact nofun
  · exact nofun
  · exact (Cmd.SparesPalette.thenUpdate (memWrite_sparesPalette fun _ _ h => h) _).meets trivial

theorem doTrns_sparesPalette (data : Bytes) : Cmd.SparesPalette (fun _ => True) (doTrns data) fun _ _ => True := by
  refine Cmd.Triple.of_meets fun s _ => ?_
  unfold doTrns
  split_ifs
  · exact nofun
  · exact nofun
  · exact nofun
  · exact nofun
  · exact nofun
  · exact (Cmd.SparesPalette.thenUpdate (Cmd.Triple.forEach fun _ _ => memWrite_sparesPalette fun _ _ h => h) _).meets
      trivial
  · exact (Cmd.SparesPalette.thenUpdate (record_sparesPalette _ _) _).meets trivial

theorem doMeta_sparesPalette (ok : Bool) {e : Err} (he : e ≠ .paletteNotFound) (typ : Word) (data : Bytes) :
    Cmd.SparesPalette (fun _ => True) ((Cmd.raiseIf (!ok) e typ).andThen (record typ data)) fun _ _ => True :=
  Cmd.Triple.andThen (Cmd.SparesPalette.raiseIf _ _ he) fun _ => record_sparesPalette _ _

end SparesPalette

/-- The piece raises `PaletteNotFound` with the type of an `IDAT` chunk in `CH_TYPE`. -/
abbrev Cmd.BlamesIdat {α : Type} (P : State → Prop) (m : Cmd α) (Q : α → State → Prop) : Prop :=
  Cmd.Triple P m Q fun e t => e = .paletteNotFound → t.ch.type = typeIDAT

theorem Cmd.SparesPalette.blamesIdat {α : Type} {P : State → Prop} {m : Cmd α} {Q : α → State → Prop}
    (h : Cmd.SparesPalette P m Q) : Cmd.BlamesIdat P m Q :=
  Cmd.Triple.conseq h (fun _ h => h) (fun _ _ h => h) fun _ _ hne he => absurd he hne

theorem doIdat_blamesIdat (data : Bytes) : Cmd.BlamesIdat (·.ch.type = typeIDAT) (doIdat data) fun _ _ => True := by
  refine Cmd.Triple.of_meets fun s hs => ?_
  unfold doIdat
  split
  · exact fun _ => hs
  · exact (Cmd.SparesPalette.blamesIdat (Cmd.Triple.andThen (streamWrite_sparesPalette _ _) fun _ =>
      Cmd.Triple.andThen (Cmd.Triple.update _ fun _ h => h) fun _ => Cmd.Triple.update _ fun _ h => h)).meets trivial

theorem chunkCase_blamesIdat (typ : Word) (data : Bytes) :
    Cmd.BlamesIdat (·.ch.type = typ) (chunkCase typ data) fun _ _ => True := by
  have done {P : State → Prop} {m : Cmd Unit} (h : Cmd.BlamesIdat P m fun _ _ => True) (b : Bool) :
      Cmd.BlamesIdat P (m.andThen (.ret b)) fun _ _ => True := Cmd.Triple.andThen h fun _ => Cmd.Triple.ret b fun _ h => h
  have spared {m : Cmd Unit} (h : Cmd.SparesPalette (fun _ => True) m fun _ _ => True) (b : Bool) :
      Cmd.BlamesIdat (·.ch.type = typ) (m.andThen (.ret b)) fun _ _ => True :=
    done (Cmd.Triple.conseq h.blamesIdat (fun _ _ => trivial) (fun _ _ h => h) fun _ _ h => h) b
  unfold chunkCase
  split_ifs with h
  · subst h; exact done (doIdat_blamesIdat data) _
  · exact spared (doPlte_sparesPalette data) _
  · exact spared (doTrns_sparesPalette data) _
  · exact spared (doMeta_sparesPalette _ (by decide) _ _) _
  · exact spared (doMeta_sparesPalette _ (by decide) _ _) _
  · exact spared (doMeta_sparesPalette _ (by decide) _ _) _
  · exact spared (doMeta_sparesPalette _ (by decide) _ _) _
  · exact spared (Cmd.Triple.update _ fun _ h => h) _
  · exact spared (doMeta_sparesPalette _ (by decide) _ _) _

theorem decChunksStep_blamesIdat : Cmd.BlamesIdat (fun _ => True) decChunksStep fun _ _ => True :=
  (readChunk_sparesPalette .auto).blamesIdat.bind fun c => Cmd.Triple.andThen (checkCrcIfEnabled_sparesPalette c).blamesIdat
    fun _ => Cmd.Triple.andThen (Cmd.SparesPalette.raiseIf _ _ (by decide)).blamesIdat fun _ => chunkCase_blamesIdat _ _

theorem chunkLoop_blamesIdat (n : Nat) : Cmd.BlamesIdat (fun _ => True) (chunkLoop n) fun _ _ => True := by
  induction n with
  | zero => exact Cmd.Triple.raise _ _ fun _ _ h => nomatch h
  | succ n ih =>
    refine Cmd.Triple.bind decChunksStep_blamesIdat fun last => ?_
    split
    · exact Cmd.Triple.ret () fun _ h => h
    · exact ih

theorem decChunks_blamesIdat : Cmd.BlamesIdat (fun _ => True) decChunks fun _ _ => True := by
  have reader : Cmd.BlamesIdat (fun _ => True) readChunks fun _ _ => True :=
    fun s hs => Cmd.Triple.andThen (chunkLoop_blamesIdat _) (fun _ => Cmd.Triple.update _ fun _ h => h) s hs
  exact Cmd.Triple.andThen (Cmd.Triple.update _ fun _ h => h) fun _ => Cmd.Triple.andThen reader fun _ =>
    Cmd.Triple.update _ fun _ h => h

end Sys2Proof.Machine
end

section
/-! SUPPORT. DECODE and its five stage commands run in turn (44_decode.md R720, 60_exceptions.md R921). -/

namespace Sys2Proof.Machine

section Steps

variable {s t u h w : State} {e : Err} {info : Word}

/-- DECODE, sequential or pipelined (44_decode.md R721). -/
theorem exec_decode (pipe : Bool) (s : State) : exec (.decode pipe) s = runCommand .decode (decodeWith decSequential) s := by
  simp only [exec, execDecode, decPipelined_eq_decSequential, ite_self]

/-! ## The header -/

/-- The header's step of DECODE (44_decode.md R651, R655). -/
def headerStep : Cmd Unit := decStart.andThen decHeader

theorem headerStep_endsIn : headerStep.EndsIn .header :=
  Cmd.EndsIn.andThen (Cmd.EndsIn.bind fun _ => Cmd.EndsIn.andThen (Cmd.EndsIn.andThen (Cmd.EndsIn.andThen
    (Cmd.EndsIn.andThen (setDecState_endsIn .header)))))

theorem exec_decHeader_finished (hx : exec .decHeader s = .next u) (hu : u.dec.state ≠ .failed) :
    ∃ h, headerStep s = .ok () h ∧ u = finish h ∧ h.dec.state = .header := by
  obtain ⟨h, hh, rfl⟩ | ⟨e, info, w, -, rfl⟩ := runCommand_next hx
  · have hok := Cmd.onRaise_eq_ok.1 hh
    exact ⟨h, hok, rfl, headerStep_endsIn _ _ _ hok⟩
  · exact absurd rfl hu

theorem exec_decHeader_failed (hx : exec .decHeader s = .next u) (hu : u.dec.state = .failed) :
    ∃ e info w, headerStep s = .raised e info w ∧ u.errCode = e.code ∧ u.errInfo = info ∧ u.crc = w.crc := by
  obtain ⟨h, hh, rfl⟩ | ⟨e, info, v, hv, rfl⟩ := runCommand_next hx
  · exact absurd ((headerStep_endsIn _ _ _ (Cmd.onRaise_eq_ok.1 hh)).symm.trans hu) (by decide)
  · obtain ⟨w, hw, rfl⟩ := Cmd.onRaise_eq_raised.1 hv
    exact ⟨e, info, w, hw, rfl, rfl, unspecified_crc w⟩

/-! ## DECODE by its steps -/

theorem decodeWith_run (hh : headerStep s = .ok () h) :
    decodeWith decSequential s = ((runSteps bodyStages).onRaise (leaveDecode h)) h := by
  rw [runSteps_bodyStages]
  exact Cmd.andThen_ok (Cmd.onRaise_eq_ok.2 hh)

theorem decodeWith_ok (hh : headerStep s = .ok () h) (hw : runSteps bodyStages h = .ok () w) :
    decodeWith decSequential s = .ok () w := (decodeWith_run hh).trans (Cmd.onRaise_eq_ok.2 hw)

theorem decodeWith_raised (hh : headerStep s = .ok () h) (hw : runSteps bodyStages h = .raised e info w) :
    decodeWith decSequential s = .raised e info (leaveDecode h e w) := (decodeWith_run hh).trans (Cmd.onRaise_raised hw)

theorem decodeWith_header_raised (hw : headerStep s = .raised e info w) :
    decodeWith decSequential s = .raised e info (leaveDecodeHeader e w) := Cmd.andThen_raised (Cmd.onRaise_raised hw)

/-! ## The stage commands in turn -/

/-- Where the first stage commands finish and the next one fails, DECODE's pseudocode raises its error, with its `CRC_OUT`. -/
theorem decodeWith_raised_of_stage {n : Nat} {i : Instr}
    (hu : runInTurn State.decFailed (decodeStages.take n) s = some u) (hi : decodeStages[n]? = some i)
    (hx : exec i u = .next t) (ht : t.dec.state = .failed) :
    ∃ e info w, decodeWith decSequential s = .raised e info w ∧ t.errCode = e.code ∧ t.errInfo = info ∧ w.crc = t.crc := by
  cases n with
  | zero =>
    cases hu
    cases hi
    obtain ⟨e, info, w, hw, hcode, hinfo, hcrc⟩ := exec_decHeader_failed hx ht
    exact ⟨e, info, _, decodeWith_header_raised hw, hcode, hinfo, (unspecified_crc w).trans hcrc.symm⟩
  | succ n =>
    obtain ⟨u', hu', hlive, hu⟩ := runInTurn_cons hu
    obtain ⟨h, hh, rfl, hstate⟩ := exec_decHeader_finished hu' (State.decFailed_eq_false.1 hlive)
    obtain ⟨e, info, w, hw, hcode, hinfo, hcrc⟩ := runSteps_raised bodyStages_chained hstate hu hi hx ht
    exact ⟨e, info, _, decodeWith_raised hh hw, hcode, hinfo, (unspecified_crc w).trans hcrc.symm⟩

theorem Err.eq_paletteNotFound {e : Err} (h : e.code = 0x23) : e = .paletteNotFound := by
  cases e
  case paletteNotFound => rfl
  all_goals exact absurd h (by decide)

/-- After the `PaletteNotFound` of DEC.CHUNKS `IMG_FORMAT` and `CH_TYPE` stand (95_test_vectors.md P6). -/
theorem decodeWith_paletteNotFound (hx : exec .decHeader s = .next u) (hlive : u.dec.state ≠ .failed)
    (hc : exec .decChunks u = .next t) (ht : t.dec.state = .failed) (hcode : t.errCode = 0x23) :
    ∃ info w, decodeWith decSequential s = .raised .paletteNotFound info w ∧ w.img.formatWord = u.img.formatWord ∧
      w.ch.type = typeIDAT := by
  obtain ⟨h, hh, rfl, hstate⟩ := exec_decHeader_finished hx hlive
  obtain ⟨e, info, w, hw, he, -, -⟩ := stageChunks_sound.failed hstate hc ht
  obtain rfl : e = .paletteNotFound := Err.eq_paletteNotFound (he.symm.trans hcode)
  have himg : w.img = h.img := by
    have hk := decChunks_loopKept.meets (LoopKeeps.refl h)
    rw [show decChunks h = _ from hw] at hk
    exact LoopKeeps.img hk
  have htype : w.ch.type = typeIDAT := by
    have hb := decChunks_blamesIdat.meets (s := h) trivial
    rw [show decChunks h = _ from hw] at hb
    exact hb rfl
  obtain ⟨hformat, hch⟩ := decodeItems_paletteNotFound h w
  refine ⟨info, _, decodeWith_raised hh (Cmd.andThen_raised hw), ?_, ?_⟩
  · exact (unspecified_formatWord hformat w).trans (congrArg ImgRegs.formatWord himg)
  · exact (unspecified_chType w hch).trans htype

/-- Where the five stage commands finish, DECODE ends as they do. -/
theorem exec_decode_of_stages (hx : exec .decHeader s = .next t) (ht : t.dec.state ≠ .failed)
    (hu : runInTurn State.decFailed [.decChunks, .decInflate, .decPixels, .decExpand] t = some u) (pipe : Bool) :
    exec (.decode pipe) s = .next u := by
  obtain ⟨h, hh, rfl, hstate⟩ := exec_decHeader_finished hx ht
  obtain ⟨w, hw, rfl⟩ := runSteps_ok bodyStages_chained hstate hu
  exact (exec_decode pipe s).trans (runCommand_ok (decodeWith_ok hh hw))

theorem runInTurn_next {i : Instr} {rest : List Instr} (hx : exec i s = .next t) (ht : t.dec.state ≠ .failed) :
    runInTurn State.decFailed (i :: rest) s = runInTurn State.decFailed rest t := by
  rw [runInTurn]
  simp only [hx, State.decFailed_eq_false.2 ht, Bool.false_eq_true, if_false]

end Steps

/-- Settles O48: each stage's step does not look at what the completion of the stage before it writes, so the steps of DECODE
and the stage commands go through the same states. -/
theorem decodeEqualsStages : Obligations.DecodeEqualsStages := by
  unfold Obligations.DecodeEqualsStages
  refine ⟨fun pipe s u t n i hu hi hx ht => ?_, fun s s1 s2 s3 s4 s5 h1 d1 h2 d2 h3 d3 h4 d4 h5 d5 => ?_⟩
  · obtain ⟨e, info, w, hw, hcode, hinfo, hcrc⟩ := decodeWith_raised_of_stage hu hi hx ht
    have hside := decodeWith_keepsSide s
    have hframe := body_frames (.decode false) s s
    rw [hw] at hside
    rw [show Instr.body s (.decode false) s = _ from hw] at hframe
    simp only [Res.Within, State.decodeSide, Prod.mk.injEq] at hside
    obtain ⟨henc, hlevel, hinp, houtp⟩ := hside
    refine ⟨_, (exec_decode pipe s).trans (runCommand_raised hw), hcode.symm, hinfo.symm, rfl, hcrc, henc,
      (show Frame _ s w from hframe).ctrl, hlevel, hinp, houtp, ?_⟩
    rintro rfl hpnf
    obtain ⟨u', hu', hlive, hu⟩ := runInTurn_cons hu
    cases hu
    cases hi
    obtain ⟨info', w', hw', hformat, htype⟩ :=
      decodeWith_paletteNotFound hu' (State.decFailed_eq_false.1 hlive) hx ht hpnf
    cases hw.symm.trans hw'
    exact ⟨hformat, htype⟩
  · have live {v d : DecState} (h : v = d) (hd : d ≠ .failed) : v ≠ .failed := h ▸ hd
    refine exec_decode_of_stages h1 (live d1 (by decide)) ?_ false
    rw [runInTurn_next h2 (live d2 (by decide)), runInTurn_next h3 (live d3 (by decide)),
      runInTurn_next h4 (live d4 (by decide)), runInTurn_next h5 (live d5 (by decide))]
    rfl

end Sys2Proof.Machine
end

section
/-! SUPPORT. The bytes that DECODE of a whole file leaves in PAL and PIX (44_decode.md R682, R683, R700). -/

namespace Sys2Proof.Machine

/-! ## Reading back a part of what was written -/

theorem readBytes_writeBytes_slice {m : Memory} (hm : m.wf) {v : Bytes} {off n : Nat} (h : off + n ≤ v.length) :
    (m.writeBytes 0 v).readBytes off n = slice v off n := by
  refine List.ext_getElem (by rw [Memory.length_readBytes, length_slice _ _ _ h]) fun i hi _ => ?_
  rw [Memory.length_readBytes] at hi
  rw [Memory.getElem_readBytes _ _ _ _ hi, ← byteAt_eq_getElem, byteAt_slice _ _ _ _ hi, Memory.read_writeBytes _ _ _ _ hm,
    if_pos (by omega)]
  rfl

theorem read_writeBytes_inside {m : Memory} (hm : m.wf) {v : Bytes} {a : Nat} (h : a < v.length) :
    (m.writeBytes 0 v).read a = byteAt v a := by
  rw [Memory.read_writeBytes _ _ _ _ hm, if_pos (by omega)]
  rfl

/-! ## The palette -/

/-- The data of a `PLTE` chunk (30_encoding.md R326). -/
def paletteBytes (entries : List (Byte × Byte × Byte)) : Bytes := entries.flatMap fun c => [c.1, c.2.1, c.2.2]

theorem length_paletteBytes (entries : List (Byte × Byte × Byte)) : (paletteBytes entries).length = 3 * entries.length := by
  simp [paletteBytes, List.length_flatMap, Nat.mul_comm]

/-- Red, green and blue of entry `i` of a palette. -/
def colourBytes (entries : List (Byte × Byte × Byte)) (i : Nat) : Bytes :=
  [(entries.getD i (0, 0, 0)).1, (entries.getD i (0, 0, 0)).2.1, (entries.getD i (0, 0, 0)).2.2]

theorem paletteBytes_eq (entries : List (Byte × Byte × Byte)) :
    paletteBytes entries = (List.range entries.length).flatMap (colourBytes entries) := by
  have hmap : (List.range entries.length).map (entries.getD · (0, 0, 0)) = entries :=
    List.ext_getElem (by simp) fun i _ hi => by simp [hi]
  conv_lhs => rw [← hmap]
  rw [paletteBytes, List.flatMap_map]
  rfl

theorem byteAt_paletteBytes (entries : List (Byte × Byte × Byte)) {i j : Nat} (hi : i < entries.length) (hj : j < 3) :
    byteAt (paletteBytes entries) (3 * i + j) = byteAt (colourBytes entries i) j := by
  rw [Nat.mul_comm, ← byteAt_slice _ _ 3 _ hj, paletteBytes_eq, slice_flatMap_range (n := 3) (fun _ _ => rfl) hi]

/-- A byte of PAL behind the writes of some alphas (44_decode.md R683). -/
theorem read_withAlphas (data : Bytes) (l : List Nat) {m : Memory} (hm : m.wf) (x : Nat) :
    (withAlphas data l m).read x = if x % 4 = 3 ∧ x / 4 ∈ l then byteAt data (x / 4) else m.read x := by
  induction l generalizing m with
  | nil => rw [if_neg (by simp)]; rfl
  | cons i rest ih =>
    refine (ih (Memory.wf_write _ _ _ hm)).trans ?_
    rw [Memory.read_write _ _ _ _ hm]
    by_cases hx : x = 4 * i + 3
    · rw [if_pos hx, if_pos (c := _ ∧ _ ∈ i :: rest) ⟨by omega, by simp; omega⟩, show x / 4 = i by omega, ite_self]
    · have hiff : x % 4 = 3 ∧ x / 4 ∈ i :: rest ↔ x % 4 = 3 ∧ x / 4 ∈ rest := by
        rw [List.mem_cons]
        exact ⟨fun ⟨h3, h⟩ => ⟨h3, h.resolve_left fun he => hx (by omega)⟩, fun ⟨h3, h⟩ => ⟨h3, .inr h⟩⟩
      rw [if_neg hx]
      simp only [hiff]

/-- PAL behind a `PLTE` of entries and a `tRNS` of alphas (44_decode.md R682, R683). -/
def paletteMemory (m : Memory) (entries : List (Byte × Byte × Byte)) (alphas : Bytes) : Memory :=
  withAlphas alphas (List.range alphas.length) (m.writeBytes 0 (plteEntries (paletteBytes entries) entries.length))

theorem read_paletteMemory {m : Memory} (hm : m.wf) (entries : List (Byte × Byte × Byte)) (alphas : Bytes) (x : Nat) :
    (paletteMemory m entries alphas).read x =
      if x % 4 = 3 ∧ x / 4 < alphas.length then byteAt alphas (x / 4)
      else (m.writeBytes 0 (plteEntries (paletteBytes entries) entries.length)).read x := by
  rw [paletteMemory, read_withAlphas _ _ (Memory.wf_writeBytes _ _ _ hm)]
  simp only [List.mem_range]

/-- Entry `i` of PAL: its colour, and its alpha, or 255 where the `tRNS` has none. -/
theorem read_paletteMemory_entry {m : Memory} (hm : m.wf) {entries : List (Byte × Byte × Byte)} (alphas : Bytes) {i j : Nat}
    (hi : i < entries.length) (hj : j < 4) :
    (paletteMemory m entries alphas).read (4 * i + j) =
      byteAt (colourBytes entries i ++ [alphas.getD i 255]) j := by
  have hlt : 4 * i + j < (plteEntries (paletteBytes entries) entries.length).length := by rw [length_plteEntries]; omega
  have hplte : byteAt (plteEntries (paletteBytes entries) entries.length) (4 * i + j) =
      byteAt [byteAt (paletteBytes entries) (3 * i + 0), byteAt (paletteBytes entries) (3 * i + 1),
        byteAt (paletteBytes entries) (3 * i + 2), 255] j := by
    rw [Nat.mul_comm, ← byteAt_slice _ _ 4 _ hj, plteEntries, slice_flatMap_range (n := 4) (fun _ _ => rfl) hi]
    rfl
  rw [read_paletteMemory hm, read_writeBytes_inside hm hlt, hplte, byteAt_paletteBytes _ hi (by decide),
    byteAt_paletteBytes _ hi (by decide), byteAt_paletteBytes _ hi (by decide)]
  obtain rfl | rfl | rfl | rfl : j = 0 ∨ j = 1 ∨ j = 2 ∨ j = 3 := by omega
  · rw [if_neg (by omega)]; rfl
  · rw [if_neg (by omega)]; rfl
  · rw [if_neg (by omega)]; rfl
  · rw [show (4 * i + 3) / 4 = i by omega]
    by_cases ha : i < alphas.length
    · rw [if_pos ⟨by omega, ha⟩, byteAt_eq_getElem ha]
      exact (List.getD_eq_getElem _ _ ha).symm
    · rw [if_neg (by omega)]
      exact (List.getD_eq_default _ _ (Nat.le_of_not_lt ha)).symm

theorem read_paletteMemory_other {m : Memory} (hm : m.wf) {entries : List (Byte × Byte × Byte)} {alphas : Bytes}
    (ha : alphas.length ≤ entries.length) {x : Nat} (hx : 4 * entries.length ≤ x) :
    (paletteMemory m entries alphas).read x = m.read x := by
  rw [read_paletteMemory hm, if_neg (by omega)]
  exact Memory.read_writeBytes_outside _ _ _ _ hm (.inr (by rw [length_plteEntries]; omega))

/-! ## Samples of an image -/

theorem samplesFit_unpack {bd : Byte} (h : bd.toNat < 8) (row : Bytes) (w : Nat) :
    ∀ b ∈ unpack row w bd.toNat, b.toNat < 2 ^ bd.toNat := by
  intro b hb
  obtain ⟨x, -, rfl⟩ := List.mem_map.1 hb
  rw [toNat_and_sampleMask (Nat.le_of_lt h)]
  exact Nat.mod_lt _ (Nat.two_pow_pos _)

/-- A bit depth below 8 is the size of a pixel (00_scope.md R17). -/
theorem ImgRegs.formatOk.subByte {r : ImgRegs} (hr : r.formatOk) (h : r.bitDepth.toNat < 8) :
    r.format.pixelBits = r.bitDepth.toNat ∧ r.format.ups = 1 := by
  have hl := (legalPair_iff _ _).1 hr.1
  obtain ⟨hspp, -, -⟩ := legalPair_bounds hr.1
  simp only [List.mem_cons, List.not_mem_nil, or_false] at hl
  rw [if_pos (by omega)] at hspp
  unfold ImgRegs.format formatOf ceilDiv
  rw [hspp]
  dsimp only
  omega

theorem IsUnfiltered.samplesFit {r : ImgRegs} (hr : r.formatOk) {w h : Nat} {lines : List Bytes} {raw : Bytes}
    (hu : IsUnfiltered r.format w h lines raw) : samplesFit r.bitDepth raw := by
  obtain ⟨rows, -, -, rfl, -⟩ := hu
  intro hbd b hb
  obtain ⟨hpb, -⟩ := hr.subByte hbd
  obtain ⟨row, -, hb⟩ := List.mem_flatMap.1 hb
  rw [hpb, if_pos hbd] at hb
  exact samplesFit_unpack hbd row w b hb

/-- The samples that scanlines give are samples of the bit depth (42_filter.md R507, 43_adam7.md R600). -/
theorem IsDeinterlaced.samplesFit {r : ImgRegs} (hr : r.formatOk) {m : Byte} {w h : Nat} {lines : List Bytes} {raw : Bytes}
    (hd : IsDeinterlaced r.format m w h lines raw) : samplesFit r.bitDepth raw := by
  obtain ⟨-, hu⟩ | ⟨-, hlen, sub, part, -, hpass⟩ := hd
  · exact hu.samplesFit hr
  · intro hbd b hb
    obtain ⟨i, hi, rfl⟩ := List.getElem_of_mem hb
    obtain ⟨-, hups⟩ := hr.subByte hbd
    rw [hups, Nat.mul_one] at hlen
    obtain ⟨p, hp, k, hk, rfl⟩ := exists_passPixel (hlen ▸ hi)
    obtain ⟨hs, hu⟩ := (hpass p hp).2 (not_passEmpty_of_lt hk)
    have hslice := hs.slice_eq hk
    rw [hups, Nat.mul_one, Nat.mul_one] at hslice
    have hbyte : byteAt (sub p) k = byteAt raw (passPixel p w k) := by
      rw [← Nat.add_zero k, ← byteAt_slice _ k 1 0 (by decide), hslice, byteAt_slice _ _ 1 0 (by decide)]
      rfl
    have hlt : k < (sub p).length := by rw [hs.1, hups, Nat.mul_one]; exact hk
    rw [← byteAt_eq_getElem, ← hbyte, byteAt_eq_getElem hlt]
    exact hu.samplesFit hr hbd _ (List.getElem_mem _)

/-! ## The pixels of PIX -/

/-- Sample `j` of pixel number `k` of the raw image `raw` (10_state.md R144). -/
def ImgRegs.sampleOf (r : ImgRegs) (raw : Bytes) (k j : Nat) : Nat :=
  if r.bitDepth = 16 then
    (byteAt raw (k * r.format.ups + 2 * j)).toNat * 256 + (byteAt raw (k * r.format.ups + 2 * j + 1)).toNat
  else (byteAt raw (k * r.format.ups + j)).toNat

/-- RAW holds an image of the image registers. -/
structure HoldsImage (s : State) (raw : Bytes) : Prop where
  format : s.img.formatOk
  samples : samplesFit s.img.bitDepth raw
  length : raw.length = s.img.rawBytes
  read : ∀ a < raw.length, s.mem.raw.read a = byteAt raw a

theorem sample_eq {s : State} {raw : Bytes} (h : HoldsImage s raw) {k j : Nat} (hk : k < s.img.pixels)
    (hj : j < samplesPerPixel s.img.colorType) : s.sample k j = s.img.sampleOf raw k j := by
  have hend : (k + 1) * s.img.format.ups ≤ raw.length := h.length ▸ Nat.mul_le_mul_right _ hk
  rw [Nat.succ_mul] at hend
  unfold State.sample State.rawByte ImgRegs.sampleOf
  obtain ⟨hb, hu⟩ | ⟨hb, h8, hu⟩ := h.format.ups
  · rw [if_pos hb, if_pos hb, h.read _ (by omega), h.read _ (by omega)]
    rfl
  · rw [if_neg hb, if_neg hb, h.read _ (by omega), byteAt_eq_getElem (by omega)]
    refine Nat.mod_eq_of_lt ?_
    by_cases h8' : s.img.bitDepth.toNat < 8
    · exact h.samples h8' _ (List.getElem_mem _)
    · rw [show s.img.bitDepth.toNat = 8 by omega]
      exact BitVec.isLt _

/-- A byte as a component. -/
theorem componentBytes_byte (b : Byte) : componentBytes b.toNat = [0, b] := by
  have := b.isLt
  simp [componentBytes, Nat.div_eq_of_lt this, Nat.mod_eq_of_lt this]

/-- The eight bytes of PIX of pixel number `k` of an image without palette (44_decode.md R700). -/
theorem expectedPixel_direct {s : State} {raw : Bytes} (h : HoldsImage s raw) {k : Nat} (hk : k < s.img.pixels)
    (h3 : s.img.colorType ≠ 3) :
    s.expectedPixel k =
      let smp := fun j => componentBytes (s.img.sampleOf raw k j)
      let m := componentBytes (2 ^ s.img.bitDepth.toNat - 1)
      if s.img.colorType = 0 then smp 0 ++ smp 0 ++ smp 0 ++ m
      else if s.img.colorType = 2 then smp 0 ++ smp 1 ++ smp 2 ++ m
      else if s.img.colorType = 4 then smp 0 ++ smp 0 ++ smp 0 ++ smp 1
      else smp 0 ++ smp 1 ++ smp 2 ++ smp 3 := by
  have smp := fun {j : Nat} (hj : j < samplesPerPixel s.img.colorType) => sample_eq h hk hj
  unfold State.expectedPixel State.components ImgRegs.divisor
  obtain hc | hc | hc | hc | hc := h.format.colorType
  · rw [hc] at smp; simp [hc, smp, samplesPerPixel, componentBytes]
  · rw [hc] at smp; simp [hc, smp, samplesPerPixel, componentBytes]
  · exact absurd hc h3
  · rw [hc] at smp; simp [hc, smp, samplesPerPixel, componentBytes]
  · rw [hc] at smp; simp [hc, smp, samplesPerPixel, componentBytes]

/-- And of one of a palette image: its entry of PAL. -/
theorem expectedPixel_palette {s : State} {raw : Bytes} (h : HoldsImage s raw) {k : Nat} (hk : k < s.img.pixels)
    (h3 : s.img.colorType = 3) {v0 v1 v2 v3 : Byte}
    (hp : ∀ j < 4, s.mem.pal.read (4 * s.img.sampleOf raw k 0 + j) = byteAt [v0, v1, v2, v3] j) :
    s.expectedPixel k = [0, v0, 0, v1, 0, v2, 0, v3] := by
  have hs := sample_eq h hk (j := 0) (by rw [h3]; decide)
  have hcomponents : s.components k = [v0.toNat, v1.toNat, v2.toNat, v3.toNat] := by
    unfold State.components
    dsimp only
    rw [if_neg (by rw [h3]; decide), if_neg (by rw [h3]; decide), if_pos h3, hs, hp 0 (by decide), hp 1 (by decide),
      hp 2 (by decide), hp 3 (by decide)]
    rfl
  show (s.components k).flatMap componentBytes = _
  rw [hcomponents]
  simp [componentBytes_byte]

/-- The pixels of PIX behind DEC.EXPAND (44_decode.md R700). -/
theorem readBytes_expectedPix {s : State} {m : Memory} (hm : m.wf) {k : Nat} (hk : k < s.img.pixels) :
    (m.writeBytes 0 s.expectedPix).readBytes (8 * k) 8 = s.expectedPixel k := by
  have hlen := length_flatMap_range (m := s.img.pixels) fun k _ => length_expectedPixel s k
  rw [readBytes_writeBytes_slice hm (by rw [State.expectedPix, hlen]; omega), Nat.mul_comm]
  exact slice_flatMap_range (fun k _ => length_expectedPixel s k) hk

end Sys2Proof.Machine
end

section
/-! SUPPORT. The chunks of a palette between the header and the image data (44_decode.md R660, R682, R683). -/

namespace Sys2Proof.Machine

/-! ## Chunks that go to DBUF -/

/-- `s` behind a chunk whose data is written to DBUF (41_framer.md R450). -/
def State.pastDbuf (s : State) (typ : Word) (data : Bytes) : State :=
  (s.pastData typ data).setSpace .dbuf (s.mem.dbuf.writeBytes 0 data)

theorem decChunksStep_dbuf {s : State} {typ : Word} {data : Bytes} (h : s.inHolds (chunkBytes typ data)) (ht : typ ≠ typeIDAT)
    (hd : data.length ≤ s.cfg.dbufCap) : decChunksStep s = chunkCase typ data (s.pastDbuf typ data) := by
  rw [decChunksStep_chunk h (by rwa [if_neg ht]), pastChunk_dbuf ht hd]
  rfl

/-! ## Between the header and the image data -/

/-- What the chunks before the image data change of the state (44_decode.md R682, R683). -/
structure BeforeData where
  inPos : Word
  ch : ChunkRegs
  crc : CrcRegs
  dec : DecRegs
  dbuf : Memory
  pal : Memory

def BeforeData.on (b : BeforeData) (s : State) : State :=
  { s with cnt.inPos := b.inPos, ch := b.ch, crc := b.crc, dec := b.dec, mem := { s.mem with dbuf := b.dbuf, pal := b.pal } }

/-- The state as it stands. -/
def BeforeData.of (s : State) : BeforeData :=
  { inPos := s.cnt.inPos, ch := s.ch, crc := s.crc, dec := s.dec, dbuf := s.mem.dbuf, pal := s.mem.pal }

/-- The `tRNS` chunk of a palette's alphas, if there is one (30_encoding.md R328). -/
def trnsChunks : Option Bytes → Bytes
  | some a => chunkBytes typeTRNS a
  | none => []

/-- The chunks of a palette image before its image data, or none. -/
def chunksBefore (r : ImgRegs) (entries : List (Byte × Byte × Byte)) (alphas : Option Bytes) : Bytes :=
  if r.colorType = 3 then chunkBytes typePLTE (paletteBytes entries) ++ trnsChunks alphas else []

/-- What those chunks leave: a palette image has its palette. -/
structure PaletteTaken (s : State) (entries : List (Byte × Byte × Byte)) (alphas : Option Bytes) (b : BeforeData) : Prop where
  seen : s.img.colorType = 3 → b.dec.seenPlte = true
  count : b.dec.palCount = if s.img.colorType = 3 then BitVec.ofNat 9 entries.length else 0
  trnsCount : b.dec.trnsCount = if s.img.colorType = 3 then BitVec.ofNat 9 (alphas.getD []).length else 0
  pal : b.pal = if s.img.colorType = 3 then paletteMemory s.mem.pal entries (alphas.getD []) else s.mem.pal
  inPos : b.inPos = s.cnt.inPos + BitVec.ofNat 32 (chunksBefore s.img entries alphas).length

/-- The palette of a palette image fits its bit depth, DBUF and PAL, and has an entry for each alpha. -/
structure PaletteFits (s : State) (entries : List (Byte × Byte × Byte)) (alphas : Option Bytes) : Prop where
  dbuf : 768 ≤ s.cfg.dbufCap
  size : entries.length ≤ 256
  depth : entries.length ≤ 2 ^ s.img.bitDepth.toNat
  alphas : (alphas.getD []).length ≤ entries.length

/-- `DecStart()` has run, and no chunk has been read since (44_decode.md R651). -/
structure DecodeFresh (d : DecRegs) : Prop where
  seenPlte : d.seenPlte = false
  seenTrns : d.seenTrns = false
  seenIdat : d.seenIdat = false
  palCount : d.palCount = 0
  trnsCount : d.trnsCount = 0

section Palette

variable {s : State} {entries : List (Byte × Byte × Byte)} {alphas : Option Bytes} {tail : Bytes}

/-- What the `PLTE` chunk of a palette leaves (44_decode.md R682). -/
def State.plteRead (s : State) (entries : List (Byte × Byte × Byte)) : State :=
  { (s.pastDbuf typePLTE (paletteBytes entries)).setSpace .pal
      (s.mem.pal.writeBytes 0 (plteEntries (paletteBytes entries) entries.length)) with
    dec.palCount := BitVec.ofNat 9 entries.length, dec.seenPlte := true }

/-- And a `tRNS` chunk of alphas behind it (44_decode.md R683). -/
def State.trnsRead (s : State) (a : Bytes) : State := (s.pastDbuf typeTRNS a).tookTrns a

theorem decChunksStep_plte (hd : DecodeFresh s.dec) (h3 : s.img.colorType = 3) (hf : PaletteFits s entries alphas)
    (h : s.inHolds (chunkBytes typePLTE (paletteBytes entries))) : decChunksStep s = .ok false (s.plteRead entries) := by
  have hdiv : (paletteBytes entries).length / 3 = entries.length := by rw [length_paletteBytes]; omega
  have hdbuf : (paletteBytes entries).length ≤ s.cfg.dbufCap := by
    have := hf.dbuf
    have := hf.size
    rw [length_paletteBytes]
    omega
  rw [decChunksStep_dbuf h (by decide) hdbuf, chunkCase_plte_ok (s := s.pastDbuf typePLTE (paletteBytes entries))
    hd.seenPlte hd.seenIdat (show s.img.colorType ≠ 0 by rw [h3]; decide) (show s.img.colorType ≠ 4 by rw [h3]; decide)
    (hdiv ▸ hf.size) fun _ => hdiv ▸ hf.depth, State.tookPlte, hdiv]
  rfl

theorem decChunksStep_trns {a : Bytes} (hd : DecodeFresh s.dec) (h3 : s.img.colorType = 3)
    (hf : PaletteFits s entries (some a)) (h : (s.plteRead entries).inHolds (chunkBytes typeTRNS a)) :
    decChunksStep (s.plteRead entries) = .ok false ((s.plteRead entries).trnsRead a) := by
  have hsize := hf.size
  have hlen : a.length ≤ entries.length := hf.alphas
  have hcount : (s.plteRead entries).dec.palCount.toNat = entries.length := by
    show (BitVec.ofNat 9 entries.length).toNat = _
    rw [BitVec.toNat_ofNat, Nat.mod_eq_of_lt (by omega)]
  have hdbuf : a.length ≤ s.cfg.dbufCap := by have := hf.dbuf; omega
  rw [decChunksStep_dbuf h (by decide) hdbuf]
  exact chunkCase_trns_ok (s := (s.plteRead entries).pastDbuf typeTRNS a) hd.seenTrns hd.seenIdat h3 rfl
    (hcount.symm ▸ hlen) (hcount.symm ▸ hsize)

/-- The chunk loop on the palette of a palette image (44_decode.md R682, R683). -/
theorem chunkLoop_palette (hd : DecodeFresh s.dec) (h3 : s.img.colorType = 3) (hf : PaletteFits s entries alphas)
    (h : s.inHolds (chunkBytes typePLTE (paletteBytes entries) ++ trnsChunks alphas ++ tail)) :
    ∃ b : BeforeData, PaletteTaken s entries alphas b ∧
      chunkLoop (inAvail s + 1) s = chunkLoop (inAvail (b.on s) + 1) (b.on s) ∧ (b.on s).inHolds tail := by
  have hchunks : chunksBefore s.img entries alphas = chunkBytes typePLTE (paletteBytes entries) ++ trnsChunks alphas := if_pos h3
  rw [List.append_assoc] at h
  obtain ⟨hplte, hrest⟩ := State.inHolds_append h
  have hplteRead := chunkLoop_next (decChunksStep_plte hd h3 hf hplte)
  rw [length_chunkBytes] at hrest
  cases alphas with
  | none =>
    refine ⟨.of (s.plteRead entries), ⟨fun _ => rfl, (if_pos h3).symm, ?_, (if_pos h3).symm, ?_⟩, hplteRead, hrest⟩
    · rw [if_pos h3]; exact hd.trnsCount
    · rw [hchunks, List.length_append, length_chunkBytes]; rfl
  | some a =>
    obtain ⟨htrns, hrest⟩ := State.inHolds_append (s := s.plteRead entries) hrest
    rw [trnsChunks, length_chunkBytes] at hrest
    have htrnsRead := chunkLoop_next (decChunksStep_trns hd h3 hf htrns)
    have htail : ((s.plteRead entries).trnsRead a).inHolds tail := (State.inHolds_congr rfl rfl rfl).2 hrest
    have hon : (BeforeData.of ((s.plteRead entries).trnsRead a)).on s = (s.plteRead entries).trnsRead a := by
      simp only [State.trnsRead, State.tookTrns, State.pastDbuf, State.pastData, State.plteRead, State.setSpace, Spaces.set,
        BeforeData.on, BeforeData.of, State.afterIn]
    refine ⟨.of ((s.plteRead entries).trnsRead a), ⟨fun _ => rfl, (if_pos h3).symm, (if_pos h3).symm, (if_pos h3).symm, ?_⟩,
      hon.symm ▸ hplteRead.trans htrnsRead, hon.symm ▸ htail⟩
    rw [hchunks, List.length_append, length_chunkBytes, BitVec.ofNat_add, ← BitVec.add_assoc]
    rw [trnsChunks, length_chunkBytes]
    rfl

/-- The chunk loop on the chunks before the image data. -/
theorem chunkLoop_before (hd : DecodeFresh s.dec) (hf : s.img.colorType = 3 → PaletteFits s entries alphas)
    (h : s.inHolds (chunksBefore s.img entries alphas ++ tail)) :
    ∃ b : BeforeData, PaletteTaken s entries alphas b ∧
      chunkLoop (inAvail s + 1) s = chunkLoop (inAvail (b.on s) + 1) (b.on s) ∧ (b.on s).inHolds tail := by
  by_cases h3 : s.img.colorType = 3
  · rw [chunksBefore, if_pos h3] at h
    exact chunkLoop_palette hd h3 (hf h3) h
  · have hchunks : chunksBefore s.img entries alphas = [] := if_neg h3
    rw [hchunks] at h
    refine ⟨.of s, ⟨fun h => absurd h h3, ?_, ?_, (if_neg h3).symm, ?_⟩, rfl, h⟩
    · rw [if_neg h3]; exact hd.palCount
    · rw [if_neg h3]; exact hd.trnsCount
    · rw [hchunks]; exact (BitVec.add_zero _).symm

end Palette

end Sys2Proof.Machine
end

section
/-! SUPPORT. DECODE of a whole file (44_decode.md R720). -/

namespace Sys2Proof.Machine

/-! ## The file -/

/-- The image registers behind the `IHDR` of `r` (44_decode.md R665). -/
def ImgRegs.asRead (r : ImgRegs) (level : Byte) : ImgRegs := { r with compression := 0, filter := 0, level := level }

theorem length_ihdrData (r : ImgRegs) : (ihdrData r).length = 13 := by simp [ihdrData, length_be32]

theorem parseIhdr_ihdrData (r q : ImgRegs) : parseIhdr (ihdrData r) q = r.asRead q.level := by
  have hw : slice (ihdrData r) 0 4 = be32 r.width := rfl
  have hh : slice (ihdrData r) 4 4 = be32 r.height := rfl
  unfold parseIhdr
  rw [hw, hh, u32be_be32, u32be_be32]
  rfl

theorem ImgRegs.headerOk.asRead {r : ImgRegs} (h : r.headerOk) (level : Byte) : (r.asRead level).headerOk := by
  obtain ⟨hw, hh, hf, -⟩ := h
  exact ⟨hw, hh, ⟨hf.1, rfl⟩, rfl⟩

/-- A whole file: signature, `IHDR`, a palette, image data, `IEND` (30_encoding.md R320-R328). -/
def fileOf (r : ImgRegs) (entries : List (Byte × Byte × Byte)) (alphas : Option Bytes) (parts : List Bytes) : Bytes :=
  (pngSignature ++ chunkBytes typeIHDR (ihdrData r)) ++
    (chunksBefore r entries alphas ++ (parts.flatMap (chunkBytes typeIDAT) ++ chunkBytes typeIEND []))

theorem length_idatChunks (parts : List Bytes) :
    (parts.flatMap (chunkBytes typeIDAT)).length = parts.flatten.length + 12 * parts.length := by
  induction parts with
  | nil => rfl
  | cons data rest ih =>
    rw [List.flatMap_cons, List.length_append, ih, length_chunkBytes, List.flatten_cons, List.length_append, List.length_cons]
    omega

theorem length_fileOf (r : ImgRegs) (entries : List (Byte × Byte × Byte)) (alphas : Option Bytes) (parts : List Bytes) :
    (fileOf r entries alphas parts).length =
      33 + ((chunksBefore r entries alphas).length + (parts.flatten.length + 12 * parts.length + 12)) := by
  rw [fileOf]
  simp only [List.length_append, length_idatChunks, length_chunkBytes, length_ihdrData, List.length_nil]
  rfl

/-! ## The steps behind the header -/

/-- What the steps of DECODE behind its header take: the chunks behind the `IHDR`, whose image data inflates to the scanlines of
an image and what follows them. -/
structure BodyInput (s : State) (entries : List (Byte × Byte × Byte)) (alphas : Option Bytes) (parts lines : List Bytes)
    (raw rest : Bytes) : Prop where
  fresh : DecodeFresh s.dec
  header : s.img.headerOk
  rows : rowsFit s.cfg.rowCap s.img.format s.img.interlace s.img.width.toNat s.img.height.toNat
  image : IsDeinterlaced s.img.format s.img.interlace s.img.width.toNat s.img.height.toNat lines raw
  chunks : s.inHolds
    (chunksBefore s.img entries alphas ++ (parts.flatMap (chunkBytes typeIDAT) ++ chunkBytes typeIEND []))
  palette : s.img.colorType = 3 → PaletteFits s entries alphas ∧ ∀ b ∈ raw, b.toNat < entries.length
  stageCap : parts.flatten.length ≤ s.cfg.stageCap
  zlib : s.cfg.zlibPresent = true
  inflate : Config.inflateOf s.cfg parts.flatten = some (lines.flatten ++ rest)
  inflCap : (lines.flatten ++ rest).length ≤ s.cfg.inflCap
  rawCap : s.img.rawBytes ≤ s.cfg.rawCap
  pixCap : s.img.pixels * 8 ≤ s.cfg.pixCap
  rawSpace : s.mem.raw.wf

section BodyInput

variable {s : State} {entries : List (Byte × Byte × Byte)} {alphas : Option Bytes} {parts lines : List Bytes}
  {raw rest : Bytes}

/-- The state behind the chunks (44_decode.md R660, R681-R683, R687). -/
def State.chunksRead (s : State) (b : BeforeData) (parts : List Bytes) : State :=
  { s with
    ch := { length := 0, type := typeIEND, crc := 0xAE426082 }
    crc := { b.crc with out := if s.ctrl.crcCheckEn then 0xAE426082 else b.crc.out }
    dec := { b.dec with state := .chunks, seenIdat := b.dec.seenIdat || !parts.isEmpty, seenIend := true }
    cnt :=
      { s.cnt with
        inPos := b.inPos + BitVec.ofNat 32 (parts.flatten.length + 12 * parts.length + 12)
        stageLen := s.cnt.stageLen + BitVec.ofNat 32 parts.flatten.length
        idatCount := s.cnt.idatCount + BitVec.ofNat 32 parts.length }
    mem := { s.mem with dbuf := b.dbuf, pal := b.pal }
    str := { s.str with stage := .holding parts.flatten 0 } }

theorem chunksRead_eq (s : State) (b : BeforeData) (parts : List Bytes) :
    ((b.on s).chunksStart.idatsRead parts).chunksClosed = s.chunksRead b parts := by
  rw [State.chunksClosed, idatsRead_stage_close]
  simp only [State.chunksRead, State.idatsRead, State.chunksStart, BeforeData.on, typeIEND]
  rfl

/-- The state behind the scanlines `lines`, with the image `raw` of theirs (44_decode.md R695, R697). -/
def State.imageRead (s : State) (b : BeforeData) (parts lines : List Bytes) (raw rest : Bytes) (v : FilterUnit) : State :=
  { s with
    ch := (s.chunksRead b parts).ch
    crc := (s.chunksRead b parts).crc
    dec := { b.dec with state := .pixels, seenIdat := b.dec.seenIdat || !parts.isEmpty, seenIend := true }
    cnt :=
      { (s.chunksRead b parts).cnt with
        inflLen := BitVec.ofNat 32 (lines.flatten ++ rest).length, rawLen := BitVec.ofNat 32 s.img.rawBytes }
    mem := { s.mem with dbuf := b.dbuf, pal := b.pal, raw := s.mem.raw.writeBytes 0 raw }
    str :=
      { s.str with
        stage := .holding parts.flatten parts.flatten.length
        infl := .holding (lines.flatten ++ rest) lines.flatten.length }
    flt := v }

theorem imageRead_eq (s : State) (b : BeforeData) (parts lines : List Bytes) (raw rest : Bytes) (v : FilterUnit) :
    ((s.chunksRead b parts).inflated (lines.flatten ++ rest)).pixelsRead raw lines.flatten.length v =
      s.imageRead b parts lines raw rest v := by
  simp only [State.imageRead, State.pixelsRead, State.inflated, State.inflating, State.chunksRead, State.setSpace, Spaces.set,
    State.setStream, Streams.set, Stream.advance, Stream.holding, Stream.unread, List.drop_zero, Nat.zero_add]

theorem BodyInput.decChunks_ok (h : BodyInput s entries alphas parts lines raw rest) :
    ∃ b : BeforeData, PaletteTaken s entries alphas b ∧ decChunks s = .ok () (s.chunksRead b parts) := by
  have hfits : s.img.colorType = 3 → PaletteFits s.chunksStart entries alphas := fun h3 => by
    obtain ⟨⟨hdbuf, hsize, hdepth, halphas⟩, -⟩ := h.palette h3
    exact ⟨hdbuf, hsize, hdepth, halphas⟩
  obtain ⟨hplte, htrns, hidat, hcount, htcount⟩ := h.fresh
  obtain ⟨b, ⟨hseen, hpal, htrns, hmem, hpos⟩, hloop, hin⟩ :=
    chunkLoop_before (s := s.chunksStart) ⟨hplte, htrns, hidat, hcount, htcount⟩ hfits h.chunks
  have hcap : 0 + parts.flatten.length ≤ s.cfg.stageCap := (Nat.zero_add _).symm ▸ h.stageCap
  have hidats := chunkLoop_idats (s := (b.on s).chunksStart) hseen rfl rfl hcap hin
  exact ⟨b, ⟨hseen, hpal, htrns, hmem, hpos⟩, chunksRead_eq s b parts ▸ Machine.decChunks_ok (hloop.trans hidats)⟩

theorem BodyInput.decInflate_ok (h : BodyInput s entries alphas parts lines raw rest) (b : BeforeData) :
    decInflate (s.chunksRead b parts) = .ok () ((s.chunksRead b parts).inflated (lines.flatten ++ rest)) := by
  have hresult : (inflateJob s.cfg).result parts.flatten = .ok (lines.flatten ++ rest) :=
    MidJob.result_ok (inflateJob_convert_some h.zlib h.inflate) h.inflCap
  have hunread : (s.chunksRead b parts).str.stage.unread = parts.flatten := rfl
  have hcfg : (s.chunksRead b parts).cfg = s.cfg := rfl
  rw [decInflate_run rfl, hunread, hcfg, hresult]

theorem inflated_img_cfg (s : State) (d : Bytes) : (s.inflated d).img = s.img ∧ (s.inflated d).cfg = s.cfg := by
  simp only [State.inflated, State.inflating, State.setStream, and_self]

theorem BodyInput.decPixels_ok (h : BodyInput s entries alphas parts lines raw rest) (b : BeforeData) :
    ∃ v, decPixels ((s.chunksRead b parts).inflated (lines.flatten ++ rest)) =
      .ok () (s.imageRead b parts lines raw rest v) := by
  obtain ⟨himg, hcfg⟩ := inflated_img_cfg (s.chunksRead b parts) (lines.flatten ++ rest)
  have hin : ((s.chunksRead b parts).inflated (lines.flatten ++ rest)).str.infl.unread = lines.flatten ++ rest :=
    congrArg Stream.unread (State.inflated_infl _ _)
  obtain ⟨v, hv⟩ := Machine.decPixels_ok (by rw [himg]; exact h.header) (by rw [himg, hcfg]; exact h.rawCap)
    (by rw [himg, hcfg]; exact h.rows) (by rw [himg]; exact h.image) hin
  exact ⟨v, imageRead_eq s b parts lines raw rest v ▸ hv⟩

/-- RAW holds the image. -/
theorem BodyInput.holdsImage (h : BodyInput s entries alphas parts lines raw rest) (b : BeforeData) (v : FilterUnit) :
    HoldsImage (s.imageRead b parts lines raw rest v) raw := by
  obtain ⟨-, -, hf, -⟩ := h.header
  exact ⟨hf, h.image.samplesFit hf, hf.length_isDeinterlaced h.image, fun a ha => read_writeBytes_inside h.rawSpace ha⟩

/-- Every sample of a palette image is an index of its palette. -/
theorem BodyInput.sample_lt (h : BodyInput s entries alphas parts lines raw rest) (h3 : s.img.colorType = 3) {k : Nat}
    (hk : k < s.img.pixels) : s.img.sampleOf raw k 0 < entries.length := by
  obtain ⟨-, -, hf, -⟩ := h.header
  obtain ⟨-, hraw⟩ := h.palette h3
  have hb : s.img.bitDepth ≠ 16 := by
    intro hb
    have hl := (legalPair_iff _ _).1 hf.1
    rw [h3, hb] at hl
    exact absurd hl (by decide)
  have hend : (k + 1) * s.img.format.ups ≤ raw.length :=
    hf.length_isDeinterlaced h.image ▸ Nat.mul_le_mul_right _ hk
  have hups : 0 < s.img.format.ups := by
    obtain ⟨-, hu⟩ | ⟨-, -, hu⟩ := hf.ups <;> rw [hu, h3] <;> decide
  rw [Nat.succ_mul] at hend
  rw [ImgRegs.sampleOf, if_neg hb, byteAt_eq_getElem (by omega)]
  exact hraw _ (List.getElem_mem _)

theorem BodyInput.decExpand_ok (h : BodyInput s entries alphas parts lines raw rest) {b : BeforeData}
    (hb : PaletteTaken s entries alphas b) (v : FilterUnit) :
    decExpand (s.imageRead b parts lines raw rest v) =
      .ok () (s.imageRead b parts lines raw rest v).expanded := by
  refine Machine.decExpand_ok h.header h.pixCap h.rawCap fun k hk (h3 : s.img.colorType = 3) => ?_
  obtain ⟨hfits, -⟩ := h.palette h3
  have hcount : b.dec.palCount.toNat = entries.length := by
    rw [hb.count, if_pos h3, BitVec.toNat_ofNat, Nat.mod_eq_of_lt (by have := hfits.size; omega)]
  have hspp : 0 < samplesPerPixel s.img.colorType := by rw [h3]; decide
  refine ⟨hcount.trans_le hfits.size, ?_⟩
  rw [sample_eq (h.holdsImage b v) hk hspp]
  exact (h.sample_lt h3 hk).trans_eq hcount.symm

/-- The steps behind the header, one after the other. -/
theorem BodyInput.runSteps_ok (h : BodyInput s entries alphas parts lines raw rest) :
    ∃ b v, PaletteTaken s entries alphas b ∧
      runSteps bodyStages s = .ok () (s.imageRead b parts lines raw rest v).expanded := by
  obtain ⟨b, hb, hchunks⟩ := h.decChunks_ok
  obtain ⟨v, hpixels⟩ := h.decPixels_ok b
  exact ⟨b, v, hb, (Cmd.andThen_ok hchunks).trans ((Cmd.andThen_ok (h.decInflate_ok b)).trans
    ((Cmd.andThen_ok hpixels).trans (Cmd.andThen_ok (h.decExpand_ok hb v))))⟩

end BodyInput

/-! ## The whole file -/

/-- The input of a DECODE: a whole file, whose image data inflates to the scanlines of an image and what follows them. -/
structure DecodesFile (s : State) (r : ImgRegs) (entries : List (Byte × Byte × Byte)) (alphas : Option Bytes)
    (parts lines : List Bytes) (raw rest : Bytes) : Prop where
  cfg : s.cfg.wf = true
  spaces : s.mem.ok s.cfg
  header : r.headerOk
  rows : rowsFit s.cfg.rowCap r.format r.interlace r.width.toNat r.height.toNat
  image : IsDeinterlaced r.format r.interlace r.width.toNat r.height.toNat lines raw
  file : (decStartState s).inHolds (fileOf r entries alphas parts)
  palette : r.colorType = 3 →
    entries.length ≤ 2 ^ r.bitDepth.toNat ∧ (alphas.getD []).length ≤ entries.length ∧ ∀ b ∈ raw, b.toNat < entries.length
  stageCap : parts.flatten.length ≤ s.cfg.stageCap
  zlib : s.cfg.zlibPresent = true
  inflate : Config.inflateOf s.cfg parts.flatten = some (lines.flatten ++ rest)
  inflCap : (lines.flatten ++ rest).length ≤ s.cfg.inflCap
  rawCap : r.rawBytes ≤ s.cfg.rawCap
  pixCap : r.pixels * 8 ≤ s.cfg.pixCap

section DecodesFile

variable {s : State} {r : ImgRegs} {entries : List (Byte × Byte × Byte)} {alphas : Option Bytes}
  {parts lines : List Bytes} {raw rest : Bytes}

theorem dbufCap_of_wf {c : Config} (h : c.wf = true) : 768 ≤ c.dbufCap := by
  simp only [Config.wf, Config.minimumsOk, Bool.and_eq_true, decide_eq_true_eq] at h
  omega

theorem DecodesFile.headerStep_ok (h : DecodesFile s r entries alphas parts lines raw rest) :
    headerStep s = .ok () (s.headerRead (ihdrData r) (chunkCrc typeIHDR (ihdrData r))) := by
  have hlen : (pngSignature ++ chunkBytes typeIHDR (ihdrData r)).length = 20 + (ihdrData r).length := by
    rw [List.length_append, length_chunkBytes, length_ihdrData]; rfl
  obtain ⟨⟨hlen', hread⟩, -⟩ := State.inHolds_append h.file
  rw [hlen] at hlen' hread
  have hdbuf := dbufCap_of_wf h.cfg
  refine decStartHeader_ok (length_ihdrData r).ge (by rw [length_ihdrData]; omega) hlen' hread (fun _ => rfl) ?_
  rw [parseIhdr_ihdrData]
  exact h.header.asRead _

theorem DecodesFile.length_entries_le (h : DecodesFile s r entries alphas parts lines raw rest) (h3 : r.colorType = 3) :
    entries.length ≤ 256 := by
  obtain ⟨hdepth, -⟩ := h.palette h3
  obtain ⟨-, -, hf, -⟩ := h.header
  have hbd : r.bitDepth.toNat ≤ 8 := by
    have hl := (legalPair_iff _ _).1 hf.1
    simp only [List.mem_cons, List.not_mem_nil, or_false] at hl
    rw [h3] at hl
    have h3 : (3 : Byte).toNat = 3 := rfl
    omega
  exact hdepth.trans (Nat.pow_le_pow_right (n := 2) (by decide) hbd)

/-- What no step of DECODE changes but its end. -/
structure DecodeKeeps (s t : State) : Prop where
  status : t.status = s.status
  errCode : t.errCode = s.errCode
  ctrl : t.ctrl = s.ctrl
  enc : t.enc = s.enc
  outLen : t.cnt.outLen = s.cnt.outLen
  outp : t.mem.outp = s.mem.outp
  inp : t.mem.inp = s.mem.inp
  metaLog : t.mem.metaLog = s.mem.metaLog

theorem DecodeKeeps.trans {s t u : State} (h : DecodeKeeps s t) (k : DecodeKeeps t u) : DecodeKeeps s u :=
  ⟨k.status.trans h.status, k.errCode.trans h.errCode, k.ctrl.trans h.ctrl, k.enc.trans h.enc, k.outLen.trans h.outLen,
    k.outp.trans h.outp, k.inp.trans h.inp, k.metaLog.trans h.metaLog⟩

/-- What the header's step leaves in `t` (44_decode.md R651, R665). -/
structure HeaderResults (s : State) (r : ImgRegs) (t : State) : Prop where
  keeps : DecodeKeeps s t
  cfg : t.cfg = s.cfg
  fresh : DecodeFresh t.dec
  img : t.img = r.asRead s.img.level
  inLen : t.cnt.inLen = s.cnt.inLen
  inPos : t.cnt.inPos = BitVec.ofNat 32 33
  stageLen : t.cnt.stageLen = 0
  idatCount : t.cnt.idatCount = 0
  raw : t.mem.raw = s.mem.raw
  pal : t.mem.pal = s.mem.pal
  pix : t.mem.pix = s.mem.pix

theorem headerRead_results {s : State} {r : ImgRegs} {data : Bytes} (hlen : data.length = 13)
    (hdata : parseIhdr data s.img = r.asRead s.img.level) (crc : Word) : HeaderResults s r (s.headerRead data crc) := by
  have hpos : BitVec.ofNat 32 (20 + data.length) = BitVec.ofNat 32 33 := by rw [hlen]
  exact ⟨⟨rfl, rfl, rfl, rfl, rfl, rfl, rfl, rfl⟩, rfl, ⟨rfl, rfl, rfl, rfl, rfl⟩, hdata, rfl, hpos, rfl, rfl, rfl, rfl, rfl⟩

/-- What the steps behind the header, from `s`, leave in `t`: `x` is the state behind the scanlines. -/
structure BodyResults (s : State) (b : BeforeData) (parts : List Bytes) (d raw : Bytes) (x t : State) : Prop where
  keeps : DecodeKeeps s t
  state : t.dec.state = .expanded
  img : t.img = s.img
  inPos : t.cnt.inPos = b.inPos + BitVec.ofNat 32 (parts.flatten.length + 12 * parts.length + 12)
  raw : t.mem.raw = s.mem.raw.writeBytes 0 raw
  rawLen : t.cnt.rawLen = BitVec.ofNat 32 s.img.rawBytes
  pix : t.mem.pix = s.mem.pix.writeBytes 0 x.expectedPix
  pixLen : t.cnt.pixLen = BitVec.ofNat 32 (s.img.pixels * 8)
  pixMax : t.dec.pixMax = pixMaxOf s.img
  palCount : t.dec.palCount = b.dec.palCount
  trnsCount : t.dec.trnsCount = b.dec.trnsCount
  pal : t.mem.pal = b.pal
  stageLen : t.cnt.stageLen = s.cnt.stageLen + BitVec.ofNat 32 parts.flatten.length
  idatCount : t.cnt.idatCount = s.cnt.idatCount + BitVec.ofNat 32 parts.length
  inflLen : t.cnt.inflLen = BitVec.ofNat 32 d.length
  expandedImg : x.img = s.img
  expandedPal : x.mem.pal = b.pal

theorem imageRead_expanded_results (s : State) (b : BeforeData) (parts lines : List Bytes) (raw rest : Bytes) (v : FilterUnit) :
    BodyResults s b parts (lines.flatten ++ rest) raw (s.imageRead b parts lines raw rest v)
      (s.imageRead b parts lines raw rest v).expanded :=
  ⟨⟨rfl, rfl, rfl, rfl, rfl, rfl, rfl, rfl⟩, rfl, rfl, rfl, rfl, rfl, rfl, rfl, rfl, rfl, rfl, rfl, rfl, rfl, rfl, rfl, rfl⟩

/-- Behind the header the steps of DECODE find the rest of the file. -/
theorem DecodesFile.bodyInput (h : DecodesFile s r entries alphas parts lines raw rest) {t : State} (ht : HeaderResults s r t) :
    BodyInput t entries alphas parts lines raw rest := by
  have himg := ht.img
  have hcfg := ht.cfg
  have hfile : t.inHolds
      (chunksBefore r entries alphas ++ (parts.flatMap (chunkBytes typeIDAT) ++ chunkBytes typeIEND [])) := by
    obtain ⟨-, hrest⟩ := State.inHolds_append h.file
    refine (State.inHolds_congr (s := (decStartState s).afterIn _) ht.keeps.inp ?_ ht.inLen).2 hrest
    rw [ht.inPos, List.length_append, length_chunkBytes, length_ihdrData]
    rfl
  obtain ⟨hwf, -⟩ := h.spaces .raw
  constructor
  case fresh => exact ht.fresh
  case header => rw [himg]; exact h.header.asRead _
  case rows => rw [himg, hcfg]; exact h.rows
  case image => rw [himg]; exact h.image
  case chunks => rw [himg]; exact hfile
  case palette =>
    intro h3
    rw [himg] at h3
    obtain ⟨hdepth, halphas, hraw⟩ := h.palette h3
    exact ⟨⟨hcfg ▸ dbufCap_of_wf h.cfg, h.length_entries_le h3, by rw [himg]; exact hdepth, halphas⟩, hraw⟩
  case stageCap => rw [hcfg]; exact h.stageCap
  case zlib => rw [hcfg]; exact h.zlib
  case inflate => rw [hcfg]; exact h.inflate
  case inflCap => rw [hcfg]; exact h.inflCap
  case rawCap => rw [himg, hcfg]; exact h.rawCap
  case pixCap => rw [himg, hcfg]; exact h.pixCap
  case rawSpace => rw [ht.raw]; exact hwf

/-- DECODE of a whole file, through the state `q` behind the header and the state `x` behind the scanlines (44_decode.md
R720). -/
theorem DecodesFile.exec_decode (h : DecodesFile s r entries alphas parts lines raw rest) (pipe : Bool) :
    ∃ q b x t, HeaderResults s r q ∧ PaletteTaken q entries alphas b ∧ HoldsImage x raw ∧
      BodyResults q b parts (lines.flatten ++ rest) raw x t ∧ exec (.decode pipe) s = .next (finish t) := by
  have hheader := headerRead_results (length_ihdrData r) (parseIhdr_ihdrData r s.img) (chunkCrc typeIHDR (ihdrData r))
  have hbody := h.bodyInput hheader
  obtain ⟨b, v, hb, hrun⟩ := hbody.runSteps_ok
  exact ⟨_, b, _, _, hheader, hb, hbody.holdsImage b v, imageRead_expanded_results _ _ _ _ _ _ _,
    (Machine.exec_decode pipe s).trans (runCommand_ok (decodeWith_ok h.headerStep_ok hrun))⟩

end DecodesFile

section Results

variable {s q x t : State} {r : ImgRegs} {entries : List (Byte × Byte × Byte)} {alphas : Option Bytes}
  {parts : List Bytes} {raw d : Bytes} {b : BeforeData}

/-- `IN_POS` behind the file. -/
theorem BodyResults.inPos_eq (ht : BodyResults q b parts d raw x t) (hq : HeaderResults s r q)
    (hb : PaletteTaken q entries alphas b) : t.cnt.inPos = BitVec.ofNat 32 (fileOf r entries alphas parts).length := by
  have hchunks : chunksBefore (r.asRead s.img.level) entries alphas = chunksBefore r entries alphas := rfl
  rw [ht.inPos, hb.inPos, hq.inPos, hq.img, hchunks, length_fileOf, BitVec.ofNat_add 33,
    BitVec.ofNat_add (chunksBefore r entries alphas).length, BitVec.add_assoc]

/-- Entry `i` of PAL (44_decode.md R682, R683). -/
theorem PaletteTaken.read_entry (hb : PaletteTaken q entries alphas b) (h3 : q.img.colorType = 3) (hm : q.mem.pal.wf) {i j : Nat}
    (hi : i < entries.length) (hj : j < 4) :
    b.pal.read (4 * i + j) =
      byteAt (colourBytes entries i ++ [(alphas.getD []).getD i 255]) j := by
  rw [hb.pal, if_pos h3]
  exact read_paletteMemory_entry hm _ hi hj

/-- The bytes of PAL that the file has no entry for. -/
theorem PaletteTaken.read_other (hb : PaletteTaken q entries alphas b) (hm : q.mem.pal.wf)
    (ha : q.img.colorType = 3 → (alphas.getD []).length ≤ entries.length) {a : Nat}
    (hx : ¬(q.img.colorType = 3 ∧ a < 4 * entries.length)) : b.pal.read a = q.mem.pal.read a := by
  rw [hb.pal]
  by_cases h3 : q.img.colorType = 3
  · rw [if_pos h3]
    exact read_paletteMemory_other hm (ha h3) (Nat.le_of_not_lt fun hlt => hx ⟨h3, hlt⟩)
  · rw [if_neg h3]

theorem fileOf_eq (r : ImgRegs) (entries : List (Byte × Byte × Byte)) (alphas : Option Bytes) (parts : List Bytes) :
    pngSignature ++ chunkBytes typeIHDR (ihdrData r) ++
        (if r.colorType = 3 then
          chunkBytes typePLTE (entries.flatMap fun c => [c.1, c.2.1, c.2.2]) ++
            (match alphas with
              | some a => chunkBytes typeTRNS a
              | none => [])
        else []) ++
        parts.flatMap (chunkBytes typeIDAT) ++ chunkBytes typeIEND [] = fileOf r entries alphas parts := by
  simp only [fileOf, chunksBefore, List.append_assoc, paletteBytes]
  cases alphas <;> rfl

theorem readBytes_of_byteAt {m : Memory} {off : Nat} {v : Bytes} (h : ∀ j < v.length, m.read (off + j) = byteAt v j) :
    m.readBytes off v.length = v := by
  refine List.ext_getElem (Memory.length_readBytes _ _ _) fun i _ hi => ?_
  rw [Memory.getElem_readBytes _ _ _ _ hi, h i hi, byteAt_eq_getElem hi]

end Results

/-- Settles O49: the header's step, the chunk loop on the palette and on the image data, and the stages behind it go through;
each space holds what its stage wrote. -/
theorem decodeFile : Obligations.DecodeFile := by
  unfold Obligations.DecodeFile
  intro pipe s r entries alphas parts lines raw rest palette plte trns file w h n alpha two sample
    hcfg hmem hheader hrows himage hlen hread hpalette hstage hzlib hinflate hinfl hraw hpix
  have hfile : file = fileOf r entries alphas parts := fileOf_eq r entries alphas parts
  have hin : DecodesFile s r entries alphas parts lines raw rest :=
    ⟨hcfg, hmem, hheader, hrows, himage, hfile ▸ ⟨hlen, hread⟩, hpalette, hstage, hzlib, hinflate, hinfl, hraw, hpix⟩
  obtain ⟨q, b, x, t, hq, hb, hx, ht, hexec⟩ := hin.exec_decode pipe
  have hk := hq.keeps.trans ht.keeps
  have himg : x.img = r.asRead s.img.level := ht.expandedImg.trans hq.img
  have hct : q.img.colorType = r.colorType := hq.img ▸ rfl
  have hwf (sp : Space) : (s.mem.get sp).wf := (hmem sp).1
  have hpalwf : q.mem.pal.wf := hq.pal ▸ hwf .pal
  have hrlen : raw.length = r.rawBytes := by
    obtain ⟨-, -, hf, -⟩ := hheader
    exact hf.length_isDeinterlaced himage
  refine ⟨finish t, hexec, ?status, ht.state, ?inPos, ht.img.trans hq.img, ?raw, ?rawLen, ?pix, ?pixLen, ?pixMax, ?palCount,
    ?trnsCount, ?pal, ?palOther, ?stageLen, ?idatCount, ht.inflLen, hk.errCode, hk.ctrl, hk.enc, hk.outLen, hk.outp, hk.inp,
    hk.metaLog⟩
  case status => exact congrArg (fun q : Status => { q with done := true, busy := false, pipeActive := false }) hk.status
  case inPos => exact hfile ▸ ht.inPos_eq hq hb
  case raw =>
    show t.mem.raw.readBytes 0 raw.length = raw
    rw [ht.raw, hq.raw]
    exact Memory.readBytes_writeBytes _ _ _ (hwf .raw)
  case rawLen => exact ht.rawLen.trans (by rw [hq.img, hrlen]; rfl)
  case pix =>
    intro k hk m
    have hkx : k < x.img.pixels := himg ▸ hk
    show t.mem.pix.readBytes (8 * k) 8 = _
    rw [ht.pix, hq.pix]
    refine (readBytes_expectedPix (hwf .pix) hkx).trans ?_
    by_cases h3 : r.colorType = 3
    · have hlt : q.img.sampleOf raw k 0 < entries.length := (hin.bodyInput hq).sample_lt (hct.trans h3) (hq.img ▸ hk)
      have hentry := fun j (hj : j < 4) => hb.read_entry (hct.trans h3) hpalwf hlt hj
      rw [← ht.expandedPal, ← ht.expandedImg] at hentry
      rw [expectedPixel_palette hx hkx (himg ▸ h3) hentry, himg, if_neg (by rw [h3]; decide), if_neg (by rw [h3]; decide),
        if_pos h3]
      rfl
    · rw [expectedPixel_direct hx hkx (himg ▸ h3), himg]
      simp only [h3, if_false]
      rfl
  case pixLen => exact ht.pixLen.trans (by rw [hq.img]; rfl)
  case pixMax => exact ht.pixMax.trans (by rw [hq.img]; rfl)
  case palCount => exact (ht.palCount.trans hb.count).trans (by rw [hct])
  case trnsCount => exact (ht.trnsCount.trans hb.trnsCount).trans (by rw [hct])
  case pal =>
    intro h3 i hi
    show t.mem.pal.readBytes (4 * i) 4 = _
    rw [ht.pal]
    exact readBytes_of_byteAt fun j hj => hb.read_entry (hct.trans h3) hpalwf hi hj
  case palOther =>
    intro a ha
    show t.mem.pal.read a = _
    have halphas (h3 : q.img.colorType = 3) : (alphas.getD []).length ≤ entries.length := by
      obtain ⟨-, hle, -⟩ := hpalette (hct.symm.trans h3)
      exact hle
    rw [ht.pal, hb.read_other hpalwf halphas (hct.symm ▸ ha), hq.pal]
  case stageLen => exact ht.stageLen.trans (by rw [hq.stageLen]; exact BitVec.zero_add _)
  case idatCount => exact ht.idatCount.trans (by rw [hq.idatCount]; exact BitVec.zero_add _)

end Sys2Proof.Machine
end

section
/-! SUPPORT. ENC.VALIDATE by its first check that fails, sequences of pieces appended to OUT, and ENC.HEADER and ENC.TRAILER
(45_encode.md R751, R752, R760, R790). -/

namespace Sys2Proof.Machine

/-! ## Validation -/

/-- The palette check before the rest of a piece (45_encode.md R752). -/
theorem checkEncPalette_andThen (n : Cmd Unit) (s : State) :
    checkEncPalette.andThen n s =
      if s.img.colorType = 3 ∧ s.enc.palCount = 0 then .raised .paletteNotFound 0 s
      else if s.img.colorType = 3 ∧ min 256 (2 ^ s.img.bitDepth.toNat) < s.enc.palCount.toNat then
        .raised .invalidPaletteSize 0 s
      else if 256 < s.enc.palCount.toNat then .raised .invalidPaletteSize 0 s
      else n s := by
  rw [Cmd.andThen_run, checkEncPalette]
  by_cases h3 : s.img.colorType = 3
  · simp only [h3, true_and, if_true]
    by_cases h0 : s.enc.palCount = 0
    · rw [if_pos h0, if_pos h0]
    · rw [if_neg h0, if_neg h0]
      by_cases hlt : min 256 (2 ^ s.img.bitDepth.toNat) < s.enc.palCount.toNat
      · rw [if_pos hlt, if_pos hlt]
      · rw [if_neg hlt, if_neg hlt, if_neg (by omega)]
  · simp only [h3, false_and, if_false]
    split_ifs <;> rfl

theorem elim_ite_some {α β : Type} (c : Prop) [Decidable c] (a : α) (o : Option α) (x : β) (f : α → β) :
    (if c then some a else o).elim x f = if c then f a else o.elim x f := by split <;> rfl

/-- The checks of `EncValidate()` raise the first error of theirs (45_encode.md R751). -/
theorem encChecks_run (s : State) :
    encChecks s = s.validationError.elim (.ok () s) fun p => .raised p.1 p.2 s := by
  rw [encChecks, Cmd.andThen_check (m := checkSize) rfl, checkColor_andThen, checkEncPalette_andThen,
    Cmd.andThen_check (m := checkSplitSize) rfl, Cmd.andThen_check (m := checkInterlace) rfl,
    Cmd.andThen_check (m := checkLevel) rfl]
  unfold checkRawRange State.validationError
  simp only [elim_ite_some, Option.elim_none]
  rfl

theorem encValidate_of_none {s : State} (h : s.validationError = none) : encValidate s = .ok () s.validated :=
  encValidate_ok (by rw [encChecks_run, h]; rfl)

theorem encValidate_of_some {s : State} {e : Err} {info : Word} (h : s.validationError = some (e, info)) :
    encValidate s = .raised e info s :=
  Cmd.andThen_raised (by rw [encChecks_run, h]; rfl)

/-- Settles O51: ENC.VALIDATE is the checks and what a passed validation writes. -/
theorem encValidateResult : Obligations.EncValidateResult := by
  unfold Obligations.EncValidateResult
  intro s
  split
  case h_1 e info h => exact runCommand_raised (encValidate_of_some h)
  case h_2 h => exact runCommand_ok (encValidate_of_none h)

/-! ## Pieces into OUT -/

/-- What fits behind bytes in OUT. -/
theorem State.afterOut_outFits {s : State} {v : Bytes} (h : s.outFits v.length) (hc : s.cfg.outCap < 2 ^ 32) (n : Nat) :
    (s.afterOut v).outFits n ↔ s.outFits (v.length + n) := s.outFits_afterOut h hc s.flt n

/-- OUT takes all the pieces (20_memory.md R213). -/
theorem forEach_outWrite_ok {vs : List Bytes} {s : State} (hc : s.cfg.outCap < 2 ^ 32) (h : s.outFits vs.flatten.length) :
    Cmd.forEach outWrite vs s = .ok () (s.afterOut vs.flatten) := by
  induction vs generalizing s with
  | nil => exact congrArg (Res.ok ()) s.afterOut_nil.symm
  | cons v rest ih =>
    rw [List.flatten_cons] at h ⊢
    rw [List.length_append] at h
    have hv : s.outFits v.length := s.outFits_mono h (Nat.le_add_right _ _)
    rw [← State.afterOut_afterOut s v _ hv hc]
    exact (Cmd.andThen_ok (outWrite_ok hv)).trans (ih hc ((State.afterOut_outFits hv hc _).2 h))

theorem flatten_take_succ {vs : List Bytes} {n : Nat} (hn : n < vs.length) :
    (vs.take (n + 1)).flatten = (vs.take n).flatten ++ vs[n] := by
  rw [List.take_succ_eq_append_getElem hn, List.flatten_append, List.flatten_singleton]

/-- OUT takes the pieces before the first that does not fit (20_memory.md R213). -/
theorem forEach_outWrite_raised {vs : List Bytes} {s : State} {n : Nat} (hc : s.cfg.outCap < 2 ^ 32) (hn : n < vs.length)
    (hfit : s.outFits (vs.take n).flatten.length) (hnot : ¬s.outFits (vs.take (n + 1)).flatten.length) :
    Cmd.forEach outWrite vs s = .raised .capacityExceeded 1 (s.afterOut (vs.take n).flatten) := by
  rw [flatten_take_succ hn, List.length_append] at hnot
  have hfull : ¬(s.afterOut (vs.take n).flatten).outFits vs[n].length := mt (State.afterOut_outFits hfit hc _).1 hnot
  have hcut : vs = vs.take n ++ vs[n] :: vs.drop (n + 1) := by
    rw [← List.drop_eq_getElem_cons hn, List.take_append_drop]
  conv_lhs => rw [hcut, Cmd.forEach_append]
  exact (Cmd.andThen_ok (forEach_outWrite_ok hc hfit)).trans (Cmd.andThen_raised (outWrite_raised hfull))

/-- Of pieces that do not all fit there is a first one that does not. -/
theorem State.exists_first_unfit {s : State} {vs : List Bytes} (h0 : s.outFits 0) (h : ¬s.outFits vs.flatten.length) :
    ∃ n, n < vs.length ∧ s.outFits (vs.take n).flatten.length ∧ ¬s.outFits (vs.take (n + 1)).flatten.length := by
  by_contra hall
  push Not at hall
  have upTo : ∀ n ≤ vs.length, s.outFits (vs.take n).flatten.length := by
    intro n hn
    induction n with
    | zero => exact h0
    | succ n ih => exact hall n hn (ih (Nat.le_of_succ_le hn))
  exact h (by simpa only [List.take_length] using upTo vs.length (Nat.le_refl _))

/-! ## Commands of the encode sequence -/

/-- A command of the encode sequence in its own state, the configuration being the validated one, runs its step. -/
theorem encode_ready {v : EncState} {s : State} (hs : s.enc.state = v) (hc : s.enc.configChanged = false) (m : Cmd Unit) :
    ((requireEncState v).andThen <| requireSameConfig.andThen m) s = m s := by
  have same : requireSameConfig s = .ok () s := if_neg (Bool.eq_false_iff.1 hc)
  exact (Cmd.andThen_ok (if_pos hs)).trans (Cmd.andThen_ok same)

/-! ## ENC.HEADER -/

/-- The chunks of a palette image behind its `IHDR` (45_encode.md R760). -/
def State.paletteChunkList (s : State) : List Bytes :=
  chunkBytes typePLTE (plteData s.mem.pal s.enc.palCount.toNat) ::
    if s.enc.emitAlpha = true ∧ 0 < opaqueFrom s.mem.pal s.enc.palCount.toNat then
      [chunkBytes typeTRNS (trnsData s.mem.pal (opaqueFrom s.mem.pal s.enc.palCount.toNat))]
    else []

theorem State.paletteChunkList_congr {s t : State} (hp : t.mem.pal = s.mem.pal) (he : t.enc = s.enc) :
    t.paletteChunkList = s.paletteChunkList := by
  unfold State.paletteChunkList
  rw [hp, he]

theorem State.headerChunks_eq (s : State) :
    s.headerChunks = pngSignature :: chunkBytes typeIHDR (ihdrData s.img) ::
      (if s.img.colorType = 3 then s.paletteChunkList else []) := rfl

theorem Cmd.andThen_ret (m : Cmd Unit) : m.andThen (.ret ()) = m := by
  funext s
  rw [Cmd.andThen_run]
  cases m s <;> rfl

/-- The palette chunks go to OUT one after the other (45_encode.md R760). -/
theorem paletteChunks_run {s : State} (h : s.enc.palCount.toNat ≤ 256) :
    paletteChunks s = Cmd.forEach outWrite s.paletteChunkList s := by
  have read := memRead_ok (sp := .pal) (off := 0) (n := 4 * s.enc.palCount.toNat) (s := s)
    (show 0 + 4 * s.enc.palCount.toNat ≤ 1024 by omega)
  unfold paletteChunks State.paletteChunkList
  refine (Cmd.andThen_ok read).trans (Cmd.andThen_congr_right fun _ t _ => ?_)
  split
  · exact (congrFun (Cmd.andThen_ret _) t).symm
  · rfl

/-- OUT is the one space that a write to it changes. -/
theorem outWrite_keepsPalette {v : Bytes} {s t : State} {a : Unit} (h : outWrite v s = .ok a t) :
    t.mem.pal = s.mem.pal ∧ t.enc = s.enc := by
  rw [outWrite_run] at h
  split at h
  · cases h
  · cases h; exact ⟨rfl, rfl⟩

/-- ENC.HEADER writes the signature and its chunks one after the other (45_encode.md R760). -/
theorem encHeader_run {s : State} (h : s.img.colorType = 3 → s.enc.palCount.toNat ≤ 256) :
    encHeader s = (Cmd.forEach outWrite s.headerChunks).andThen (setEncState .header) s := by
  rw [State.headerChunks_eq, Cmd.forEach, Cmd.forEach, Cmd.andThen_assoc, Cmd.andThen_assoc]
  refine Cmd.andThen_congr_right fun _ t ht => Cmd.andThen_congr_right fun _ u hu => Cmd.andThen_congr_left ?_ _
  obtain ⟨hpal, henc⟩ := outWrite_keepsPalette ht
  obtain ⟨hpal', henc'⟩ := outWrite_keepsPalette hu
  by_cases h3 : s.img.colorType = 3
  · rw [if_pos h3, if_pos h3, ← State.paletteChunkList_congr (hpal'.trans hpal) (henc'.trans henc)]
    exact paletteChunks_run (by rw [henc', henc]; exact h h3)
  · rw [if_neg h3, if_neg h3]
    rfl

theorem encHeader_ok {s : State} (h : s.img.colorType = 3 → s.enc.palCount.toNat ≤ 256) (hc : s.cfg.outCap < 2 ^ 32)
    (hfit : s.outFits s.headerBytes.length) :
    encHeader s = .ok () { s.afterOut s.headerBytes with enc.state := .header } :=
  (encHeader_run h).trans (Cmd.andThen_ok (forEach_outWrite_ok hc hfit))

theorem exec_encHeader {s : State} (hs : s.enc.state = .valid) (hc : s.enc.configChanged = false) :
    exec .encHeader s = runCommand .encode encHeader s := by
  rw [exec_eq_runCommand, runCommand, runCommand, show Instr.body s .encHeader s = _ from encode_ready hs hc encHeader]
  rfl

/-! ## Palette data -/

/-- The `PLTE` data is the red, green and blue of every entry (45_encode.md R760). -/
theorem plteData_eq {pal : Memory} {n : Nat} {rgb : Bytes} (hlen : rgb.length = 3 * n)
    (h : ∀ i < n, ∀ j < 3, byteAt rgb (3 * i + j) = pal.read (4 * i + j)) : plteData pal n = rgb := by
  have entry : ∀ i < n, [pal.read (4 * i), pal.read (4 * i + 1), pal.read (4 * i + 2)] = slice rgb (i * 3) 3 := by
    intro i hi
    have hslice : (slice rgb (i * 3) 3).length = 3 := length_slice _ _ _ (by omega)
    refine ext_byteAt hslice.symm fun j (hj : j < 3) => ?_
    rw [byteAt_slice _ _ _ _ hj, Nat.mul_comm i 3, h i hi j hj]
    interval_cases j <;> rfl
  rw [plteData, ← flatMap_slice_range (s := rgb) (m := n) (n := 3) (by omega)]
  exact List.flatMap_congr fun i hi => entry i (List.mem_range.1 hi)

/-- The alphas up to the last that is not 255 are as many as the `tRNS` data has (45_encode.md R760). -/
theorem opaqueFrom_eq {pal : Memory} {n t : Nat} (ht : t ≤ n) (hopaque : ∀ i, t ≤ i → i < n → pal.read (4 * i + 3) = 255)
    (hlast : ∀ i, t = i + 1 → pal.read (4 * i + 3) ≠ 255) : opaqueFrom pal n = t := by
  induction n with
  | zero => exact (Nat.le_zero.1 ht).symm
  | succ n ih =>
    rw [opaqueFrom]
    by_cases heq : t = n + 1
    · have hne : (pal.read (4 * n + 3)).toNat ≠ 255 := fun h => hlast n heq (BitVec.eq_of_toNat_eq h)
      rw [if_pos (by have := (pal.read (4 * n + 3)).isLt; omega), heq]
    · rw [hopaque n (by omega) (Nat.lt_succ_self n), if_neg (by decide)]
      exact ih (by omega) fun i hi hin => hopaque i hi (Nat.lt_succ_of_lt hin)

theorem trnsData_eq {pal : Memory} {alphas : Bytes} (h : ∀ i < alphas.length, byteAt alphas i = pal.read (4 * i + 3)) :
    trnsData pal alphas.length = alphas := by
  refine List.ext_getElem (by simp [trnsData]) fun i _ hi => ?_
  rw [← byteAt_eq_getElem hi, h i hi]
  simp [trnsData]

/-- Alphas whose last one is not 255. -/
theorem byteAt_getLast_ne {alphas : Bytes} {i : Nat} (h : alphas.getLast? ≠ some 255) (hi : alphas.length = i + 1) :
    byteAt alphas i ≠ 255 := by
  rw [byteAt_eq_getElem (by omega)]
  intro h255
  refine h ?_
  rw [List.getLast?_eq_getElem?, hi, Nat.add_sub_cancel, List.getElem?_eq_getElem (by omega), h255]

/-! ## ENC.TRAILER -/

/-- The twelve bytes of `IEND` (30_encoding.md R328). -/
theorem chunkBytes_iend :
    chunkBytes typeIEND [] = [0x00, 0x00, 0x00, 0x00, 0x49, 0x45, 0x4E, 0x44, 0xAE, 0x42, 0x60, 0x82] := by decide +kernel

theorem encTrailer_ok {s : State} (h : s.outFits 12) :
    encTrailer s = .ok () { s.afterOut (chunkBytes typeIEND []) with enc.state := .done } :=
  Cmd.andThen_ok (outWrite_ok h)

theorem encTrailer_raised {s : State} (h : ¬s.outFits 12) : encTrailer s = .raised .capacityExceeded 1 s :=
  Cmd.andThen_raised (outWrite_raised h)

theorem exec_encTrailer {s : State} (hs : s.enc.state = .data) (hc : s.enc.configChanged = false) :
    exec .encTrailer s = runCommand .encode encTrailer s := by
  rw [exec_eq_runCommand, runCommand, runCommand, show Instr.body s .encTrailer s = _ from encode_ready hs hc encTrailer]
  rfl

/-- Settles O52: ENC.HEADER and ENC.TRAILER append pieces to OUT, the pieces of ENC.HEADER being those of the palette's
entries. -/
theorem encHeaderAndTrailer : Obligations.EncHeaderAndTrailer := by
  unfold Obligations.EncHeaderAndTrailer
  refine ⟨?chunks, fun s hs hcc hwf hpal => ⟨fun hfit => ?fits, fun hlen hfull => ?full⟩,
    fun s hs hcc => ⟨fun hfit => ?trailer, fun hfull => ?trailerFull⟩⟩
  case chunks =>
    intro s rgb alphas n ihdr hlen hrgb hle halphas hopaque hlast
    have hplte : plteData s.mem.pal n = rgb := plteData_eq hlen hrgb
    have hcount : opaqueFrom s.mem.pal n = alphas.length :=
      opaqueFrom_eq hle hopaque fun i hi => halphas i (by omega) ▸ byteAt_getLast_ne hlast hi
    rw [State.headerChunks_eq, State.paletteChunkList, hplte, hcount, trnsData_eq halphas]
    refine congrArg (pngSignature :: chunkBytes typeIHDR (ihdrData s.img) :: ·) ?_
    by_cases h3 : s.img.colorType = 3
    · rw [if_pos h3, if_neg (not_not.2 h3)]
      by_cases hemit : s.enc.emitAlpha = true ∧ 0 < alphas.length
      · rw [if_pos hemit, if_neg (by simpa [List.length_pos_iff] using hemit)]; rfl
      · rw [if_neg hemit, if_pos (by simpa [List.length_pos_iff, imp_iff_not_or] using hemit)]; rfl
    · rw [if_neg h3, if_pos h3]; rfl
  case fits =>
    rw [exec_encHeader hs hcc]
    exact runCommand_ok (encHeader_ok hpal (Config.outCap_lt_of_wf hwf) hfit)
  case full =>
    obtain ⟨n, hn, hfit, hnot⟩ := s.exists_first_unfit hlen.2 hfull
    refine ⟨n, hn, hfit, hnot, ?_⟩
    rw [exec_encHeader hs hcc]
    have write := forEach_outWrite_raised (Config.outCap_lt_of_wf hwf) hn hfit hnot
    exact runCommand_raised ((encHeader_run hpal).trans (Cmd.andThen_raised write))
  case trailer =>
    rw [exec_encTrailer hs hcc, ← chunkBytes_iend]
    exact runCommand_ok (encTrailer_ok hfit)
  case trailerFull =>
    rw [exec_encTrailer hs hcc]
    exact runCommand_raised (encTrailer_raised hfull)

end Sys2Proof.Machine
end

section
/-! SUPPORT. Cutting a sequence into pieces of `m` bytes, and the `IDAT` splitter on closed DEFL (45_encode.md R782). -/

namespace Sys2Proof.Machine

/-! ## Pieces of a sequence -/

/-- The chunker behind a begun piece that takes all that is left. -/
theorem toChunks_go_short {m : Nat} (xs : Bytes) (acc : Array Byte) (out : Array Bytes) (h : acc.size + xs.length ≤ m) :
    List.toChunks.go m xs acc out = out.toList ++ [acc.toList ++ xs] := by
  induction xs generalizing acc with
  | nil => simp [List.toChunks.go]
  | cons x xs ih =>
    rw [List.length_cons] at h
    rw [List.toChunks.go, if_neg (by simp; omega), ih _ (by simp; omega)]
    simp

/-- The chunker behind a begun piece that `v` fills. -/
theorem toChunks_go_full {m : Nat} (v : Bytes) (x : Byte) (rest : Bytes) (acc : Array Byte) (out : Array Bytes)
    (h : acc.size + v.length = m) :
    List.toChunks.go m (v ++ x :: rest) acc out = List.toChunks.go m rest #[x] (out.push (acc.toList ++ v)) := by
  induction v generalizing acc with
  | nil =>
    have hs : acc.size = m := h
    rw [List.nil_append, List.toChunks.go, if_pos (by simp [hs])]
    simp
  | cons y v ih =>
    rw [List.length_cons] at h
    rw [List.cons_append, List.toChunks.go, if_neg (by simp; omega), ih _ (by simp; omega)]
    simp

/-- The pieces the chunker has finished stand in front. -/
theorem toChunks_go_out {m : Nat} (xs : Bytes) (acc : Array Byte) (out : Array Bytes) :
    List.toChunks.go m xs acc out = out.toList ++ List.toChunks.go m xs acc #[] := by
  induction xs generalizing acc out with
  | nil => simp [List.toChunks.go]
  | cons x xs ih =>
    rw [List.toChunks.go, List.toChunks.go]
    split
    · rw [ih _ (out.push acc.toList), ih _ (#[].push acc.toList)]; simp
    · rw [ih]

@[simp] theorem toChunks_nil (m : Nat) : ([] : Bytes).toChunks m = [] := by cases m <;> rfl

/-- The first piece, and the pieces of the rest. -/
theorem toChunks_cons {m : Nat} (hm : 0 < m) {d : Bytes} (hd : d ≠ []) :
    d.toChunks m = d.take m :: (d.drop m).toChunks m := by
  obtain ⟨k, rfl⟩ : ∃ k, m = k + 1 := ⟨m - 1, by omega⟩
  obtain ⟨x, xs, rfl⟩ := List.exists_cons_of_ne_nil hd
  rw [List.take_succ_cons, List.drop_succ_cons]
  show List.toChunks.go (k + 1) xs #[x] #[] = _
  cases hrest : xs.drop k with
  | nil =>
    have hle : xs.length ≤ k := List.drop_eq_nil_iff.1 hrest
    rw [toChunks_go_short _ _ _ (by simp; omega), List.take_of_length_le hle, toChunks_nil]
    rfl
  | cons y rest =>
    have hlen : (xs.take k).length = k := by
      have := congrArg List.length hrest
      rw [List.length_drop, List.length_cons] at this
      rw [List.length_take]; omega
    have hcut : xs = xs.take k ++ y :: rest := by rw [← hrest, List.take_append_drop]
    conv_lhs => rw [hcut, toChunks_go_full _ _ _ _ _ (by simp [hlen]; omega), toChunks_go_out]
    rfl

/-- Induction along the pieces of a sequence. -/
theorem pieces_induction {m : Nat} (hm : 0 < m) {P : Bytes → Prop} (nil : P []) (cons : ∀ d, d ≠ [] → P (d.drop m) → P d)
    (d : Bytes) : P d := by
  induction h : d.length using Nat.strong_induction_on generalizing d with
  | _ n ih =>
    by_cases hd : d = []
    · exact hd ▸ nil
    · have hpos := List.length_pos_iff.2 hd
      exact cons d hd (ih (d.drop m).length (by rw [List.length_drop]; omega) _ rfl)

section Pieces

variable {m : Nat} (hm : 0 < m) (d : Bytes)
include hm

theorem flatten_toChunks : (d.toChunks m).flatten = d := by
  induction d using pieces_induction hm with
  | nil => rw [toChunks_nil]; rfl
  | cons d hd ih => rw [toChunks_cons hm hd, List.flatten_cons, ih, List.take_append_drop]

theorem length_toChunks : (d.toChunks m).length = (d.length + m - 1) / m := by
  induction d using pieces_induction hm with
  | nil => rw [toChunks_nil, List.length_nil, List.length_nil, Nat.zero_add, Nat.div_eq_of_lt (by omega)]
  | cons d hd ih =>
    have hpos := List.length_pos_iff.2 hd
    rw [toChunks_cons hm hd, List.length_cons, ih, List.length_drop, ← Nat.add_div_right _ hm]
    by_cases hle : m ≤ d.length
    · rw [show d.length - m + m - 1 + m = d.length + m - 1 by omega]
    · rw [show d.length - m + m - 1 + m = (m - 1) + m by omega, show d.length + m - 1 = (d.length - 1) + m by omega,
        Nat.add_div_right _ hm, Nat.add_div_right _ hm, Nat.div_eq_of_lt (by omega), Nat.div_eq_of_lt (by omega)]

theorem length_of_mem_toChunks : ∀ p ∈ d.toChunks m, 1 ≤ p.length ∧ p.length ≤ m := by
  induction d using pieces_induction hm with
  | nil => simp
  | cons d hd ih =>
    have hpos := List.length_pos_iff.2 hd
    rw [toChunks_cons hm hd]
    refine List.forall_mem_cons.2 ⟨?_, ih⟩
    rw [List.length_take]; omega

theorem length_of_mem_dropLast_toChunks : ∀ p ∈ (d.toChunks m).dropLast, p.length = m := by
  induction d using pieces_induction hm with
  | nil => simp
  | cons d hd ih =>
    rw [toChunks_cons hm hd]
    by_cases hrest : d.drop m = []
    · rw [hrest, toChunks_nil]; simp
    · have hlt : m < d.length := Nat.lt_of_not_le fun hle => hrest (List.drop_eq_nil_of_le hle)
      have hne : (d.drop m).toChunks m ≠ [] := by rw [toChunks_cons hm hrest]; exact List.cons_ne_nil _ _
      rw [List.dropLast_cons_of_ne_nil hne]
      exact List.forall_mem_cons.2 ⟨by rw [List.length_take]; omega, ih⟩

end Pieces

/-! ## Pieces into chunks -/

/-- What the splitter leaves when it has read the pieces `ps` and placed them (45_encode.md R782, 10_state.md R164). -/
def State.splitAfter (s : State) (ps : List Bytes) : State :=
  { s.afterOut (ps.flatMap (chunkBytes typeIDAT)) with
    str.defl := s.str.defl.advance ps.flatten.length
    cnt :=
      { (s.afterOut (ps.flatMap (chunkBytes typeIDAT))).cnt with
        idatCount := s.cnt.idatCount + BitVec.ofNat 32 ps.length }
    enc.placed := s.enc.placed + ps.flatten.length }

/-- The splitter reads a piece of DEFL and places it (45_encode.md R782). -/
def splitPiece (p : Bytes) : Cmd Unit :=
  (Cmd.update fun s => s.setStream .defl (s.str.defl.advance p.length)).andThen (placeIdat p)

theorem splitPiece_ok {p : Bytes} {s : State} (h : s.outFits (chunkBytes typeIDAT p).length) :
    splitPiece p s = .ok () (s.splitAfter [p]) := by
  have write := outWrite_ok (s := s.setStream .defl (s.str.defl.advance p.length)) h
  refine (Cmd.andThen_ok write).trans ?_
  simp [State.splitAfter, State.afterOut, State.setSpace, State.setStream, Streams.set]

theorem splitPiece_raised {p : Bytes} {s : State} (h : ¬s.outFits (chunkBytes typeIDAT p).length) :
    splitPiece p s = .raised .capacityExceeded 1 (s.setStream .defl (s.str.defl.advance p.length)) :=
  (Cmd.andThen_ok (Cmd.update_run _ s)).trans
    (Cmd.andThen_raised (outWrite_raised (s := s.setStream .defl (s.str.defl.advance p.length)) h))

theorem splitPiece_eq_ok {p : Bytes} {s t : State} {a : Unit} (h : splitPiece p s = .ok a t) : t = s.splitAfter [p] := by
  by_cases hfit : s.outFits (chunkBytes typeIDAT p).length
  · rw [splitPiece_ok hfit] at h; cases h; rfl
  · rw [splitPiece_raised hfit] at h; cases h

theorem State.splitAfter_nil (s : State) : s.splitAfter [] = s := by
  simp [State.splitAfter, Stream.advance]

theorem State.splitAfter_splitAfter {s : State} {ps : List Bytes}
    (h : s.outFits (ps.flatMap (chunkBytes typeIDAT)).length) (hc : s.cfg.outCap < 2 ^ 32) (qs : List Bytes) :
    (s.splitAfter ps).splitAfter qs = s.splitAfter (ps ++ qs) := by
  unfold State.splitAfter
  rw [List.flatMap_append, ← State.afterOut_afterOut s _ _ h hc]
  simp [State.afterOut, State.setSpace, Spaces.set, BitVec.ofNat_add, BitVec.add_assoc, Stream.advance, Nat.add_assoc]

/-- What fits behind chunks in OUT. -/
theorem State.splitAfter_outFits {s : State} {ps : List Bytes} (h : s.outFits (ps.flatMap (chunkBytes typeIDAT)).length)
    (hc : s.cfg.outCap < 2 ^ 32) (n : Nat) :
    (s.splitAfter ps).outFits n ↔ s.outFits ((ps.flatMap (chunkBytes typeIDAT)).length + n) := State.afterOut_outFits h hc n

/-- OUT takes the chunks of all the pieces (45_encode.md R782). -/
theorem forEach_splitPiece_ok {ps : List Bytes} {s : State} (hc : s.cfg.outCap < 2 ^ 32)
    (h : s.outFits (ps.flatMap (chunkBytes typeIDAT)).length) :
    Cmd.forEach splitPiece ps s = .ok () (s.splitAfter ps) := by
  induction ps generalizing s with
  | nil => exact congrArg (Res.ok ()) s.splitAfter_nil.symm
  | cons p rest ih =>
    rw [List.flatMap_cons, List.length_append] at h
    have hp : s.outFits (chunkBytes typeIDAT p).length := s.outFits_mono h (Nat.le_add_right _ _)
    have hp' : s.outFits ([p].flatMap (chunkBytes typeIDAT)).length := by rwa [List.flatMap_singleton]
    have hrest := (State.splitAfter_outFits hp' hc _).2 (by rwa [List.flatMap_singleton])
    refine (Cmd.andThen_ok (splitPiece_ok hp)).trans ((ih (s := s.splitAfter [p]) hc hrest).trans ?_)
    rw [State.splitAfter_splitAfter hp' hc, List.singleton_append]

/-- OUT takes the chunks before the first that does not fit (45_encode.md R760, R782). -/
theorem forEach_splitPiece_raised {ps : List Bytes} {s : State} {n : Nat} (hc : s.cfg.outCap < 2 ^ 32) (hn : n < ps.length)
    (hfit : s.outFits ((ps.take n).flatMap (chunkBytes typeIDAT)).length)
    (hnot : ¬s.outFits ((ps.take (n + 1)).flatMap (chunkBytes typeIDAT)).length) :
    ∃ t : Stream, Cmd.forEach splitPiece ps s = .raised .capacityExceeded 1 ((s.splitAfter (ps.take n)).setStream .defl t) := by
  rw [List.take_succ_eq_append_getElem hn, List.flatMap_append, List.length_append, List.flatMap_singleton] at hnot
  have hfull : ¬(s.splitAfter (ps.take n)).outFits (chunkBytes typeIDAT ps[n]).length :=
    mt (State.splitAfter_outFits hfit hc _).1 hnot
  have hcut : ps = ps.take n ++ ps[n] :: ps.drop (n + 1) := by
    rw [← List.drop_eq_getElem_cons hn, List.take_append_drop]
  have run := (Cmd.andThen_ok (n := Cmd.forEach splitPiece (ps[n] :: ps.drop (n + 1))) (forEach_splitPiece_ok hc hfit)).trans
    (Cmd.andThen_raised (splitPiece_raised hfull))
  rw [← Cmd.forEach_append, ← hcut] at run
  exact ⟨_, run⟩

/-! ## `SplitIDAT` -/

theorem Stream.unread_advance (t : Stream) (n : Nat) : (t.advance n).unread = t.unread.drop n := (List.drop_drop ..).symm

theorem placeIdat_keepsStreams (p : Bytes) : Cmd.Steps (fun s t => t.str = s.str) (placeIdat p) := by
  intro s a t ht
  by_cases hfit : s.outFits (chunkBytes typeIDAT p).length
  · cases (Cmd.andThen_ok (outWrite_ok hfit)).symm.trans ht; rfl
  · cases (Cmd.andThen_raised (outWrite_raised hfit)).symm.trans ht

/-- The splitter takes the first piece of DEFL, and goes on behind it (45_encode.md R782). -/
theorem splitLoop_succ {s : State} {n : Nat} (hc : s.str.defl.closed = true) (hd : s.str.defl.unread ≠ [])
    (hf : s.str.defl.unread.length < n + 1) :
    splitLoop (n + 1) [] s =
      (splitPiece (s.str.defl.unread.take s.enc.maxIdat.toNat)).andThen (splitLoop n []) s := by
  obtain ⟨p, hp⟩ : ∃ p, p = s.str.defl.unread.take s.enc.maxIdat.toNat := ⟨_, rfl⟩
  rw [splitLoop_data (held := []) hd hp, ← hp, List.nil_append, splitPiece, Cmd.andThen_assoc]
  split
  case isTrue => rfl
  case isFalse hne =>
    have hlen : p.length = min s.enc.maxIdat.toNat s.str.defl.unread.length := hp ▸ List.length_take
    have hpos := List.length_pos_iff.2 hd
    obtain ⟨k, rfl⟩ : ∃ k, n = k + 1 := ⟨n - 1, by omega⟩
    obtain ⟨t, ht⟩ : ∃ t, t = s.setStream .defl (s.str.defl.advance p.length) := ⟨_, rfl⟩
    have hend : t.str.defl.unread = [] := by
      rw [ht]
      exact (Stream.unread_advance _ _).trans (List.drop_eq_nil_of_le (by omega))
    have htc : t.str.defl.closed = true := ht ▸ hc
    rw [Cmd.andThen_ok (Cmd.update_run _ s), ← ht, splitLoop_end k p htc hend, if_pos (by omega)]
    conv_lhs => rw [← Cmd.andThen_ret (placeIdat p)]
    refine Cmd.andThen_congr_right fun a u hu => ?_
    have hstr := placeIdat_keepsStreams p t a u hu
    rw [splitLoop_end k [] (hstr ▸ htc) (hstr ▸ hend)]
    rfl

/-- The splitter reads and places the pieces of DEFL one after the other (45_encode.md R782). -/
theorem splitLoop_eq {s : State} (fuel : Nat) (hm : s.enc.maxIdat ≠ 0) (hc : s.str.defl.closed = true)
    (hf : s.str.defl.unread.length < fuel) :
    splitLoop fuel [] s = Cmd.forEach splitPiece (s.str.defl.unread.toChunks s.enc.maxIdat.toNat) s := by
  have hpos : 0 < s.enc.maxIdat.toNat := Nat.pos_of_ne_zero fun h => hm (BitVec.eq_of_toNat_eq h)
  induction fuel generalizing s with
  | zero => exact absurd hf (Nat.not_lt_zero _)
  | succ n ih =>
    by_cases hd : s.str.defl.unread = []
    · rw [splitLoop_end n [] hc hd, hd, toChunks_nil]; rfl
    · rw [splitLoop_succ hc hd hf, toChunks_cons hpos hd, Cmd.forEach]
      refine Cmd.andThen_congr_right fun _ t ht => ?_
      have hlen : 0 < s.str.defl.unread.length := List.length_pos_iff.2 hd
      obtain rfl := splitPiece_eq_ok ht
      have hrest : (s.splitAfter [s.str.defl.unread.take s.enc.maxIdat.toNat]).str.defl.unread =
          s.str.defl.unread.drop s.enc.maxIdat.toNat := by
        refine (Stream.unread_advance _ _).trans (List.drop_eq_drop_iff.2 ?_)
        rw [List.flatten_singleton, List.length_take]; omega
      rw [ih (s := s.splitAfter _) hm hc (by rw [hrest, List.length_drop]; omega) hpos, hrest]
      rfl

theorem splitIdat_eq {s : State} (hm : s.enc.maxIdat ≠ 0) (hc : s.str.defl.closed = true) :
    splitIdat s = Cmd.forEach splitPiece (s.str.defl.unread.toChunks s.enc.maxIdat.toNat) s :=
  (if_neg hm).trans (splitLoop_eq _ hm hc (Nat.lt_succ_self _))

/-- The bytes of an `IDAT` chunk (30_encoding.md R321, R323). -/
theorem flatMap_chunkBytes_idat (ps : List Bytes) :
    (ps.flatMap fun p => be32Len p.length ++ [0x49, 0x44, 0x41, 0x54] ++ p ++ be32 (chunkCrc 0x49444154 p)) =
      ps.flatMap (chunkBytes typeIDAT) := rfl

/-- Settles O54: the pieces are those of `List.toChunks`, and the splitter places them one after the other. -/
theorem idatPieces : Obligations.IdatPieces := by
  unfold Obligations.IdatPieces
  intro s d hwf hlen hm hc hd m chunks
  have hpos : 0 < m := Nat.pos_of_ne_zero fun h => hm (BitVec.eq_of_toNat_eq h)
  have hcap := Config.outCap_lt_of_wf hwf
  have hchunks (ps : List Bytes) : chunks ps = ps.flatMap (chunkBytes typeIDAT) := flatMap_chunkBytes_idat ps
  have hflat : (d.toChunks m).flatten = d := flatten_toChunks hpos d
  have run := hd ▸ splitIdat_eq hm hc
  refine ⟨d.toChunks m, hflat, length_toChunks hpos d, length_of_mem_toChunks hpos d, length_of_mem_dropLast_toChunks hpos d,
    fun hfit => ?_, fun hfull => ?_⟩
  · rw [hchunks] at hfit ⊢
    rw [run, forEach_splitPiece_ok hcap hfit, State.splitAfter, hflat]
    rfl
  · simp only [hchunks] at hfull ⊢
    rw [List.flatMap_def] at hfull
    obtain ⟨n, hn, hfit, hnot⟩ := s.exists_first_unfit hlen.2 hfull
    rw [List.length_map] at hn
    rw [← List.map_take, ← List.flatMap_def] at hfit hnot
    obtain ⟨t, ht⟩ := forEach_splitPiece_raised hcap hn hfit hnot
    exact ⟨n, _, hn, hfit, hnot, run.trans ht, rfl, rfl⟩

end Sys2Proof.Machine
end

section
/-! SUPPORT. ENC.DATA: the interlacer-filter into FILT, the deflater, the splitter, and how each of them fails (45_encode.md
R780, R782, R802). -/

namespace Sys2Proof.Machine

/-! ## Rows that fit the row buffers, and rows that do not -/

section Rows

variable {rowCap : Nat} {f : Format} {src : Bytes} {w h : Nat} {m level : Byte}

/-- The interlacer-filter has no error where every row fits the row buffers (43_adam7.md R603). -/
theorem interlacePixels_err_none (hm : m.toNat ≤ 1) (hl : level.toNat ≤ 3) (hf : rowsFit rowCap f m w h) (u : FilterUnit) :
    (interlacePixels rowCap f m src w h level u).err = none := by
  obtain rfl | rfl := eq_zero_or_one_of_toNat_le hm
  · rw [interlacePixels_zero]
    exact (filterImage_lines hl (hf.1 rfl) u).1
  · exact (interlacePasses_lines hl (fun p hp => hf.2 rfl p (mem_passes.1 hp)) u).1

/-- Where a row of a pass does not fit, there is a first pass with such a row. -/
theorem exists_isWidePass (hf : ¬rowsFit rowCap f 1 w h) : ∃ p, IsWidePass rowCap f w h p := by
  have hwide : ∃ p, p < 7 ∧ ¬passEmpty p w h ∧ rowCap < f.rowBytes (passW p w) := by
    by_contra hall
    push Not at hall
    exact hf ⟨fun h0 => absurd h0 (by decide), fun _ => hall⟩
  classical
  obtain ⟨hp, hempty, hrow⟩ := Nat.find_spec hwide
  refine ⟨Nat.find hwide, hp, hempty, hrow, fun q hq hqe => Nat.le_of_not_lt fun hlt => ?_⟩
  exact Nat.find_min hwide hq ⟨hq.trans hp, hqe, hlt⟩

/-- And it has the error of the row buffers where some row does not (42_filter.md R530). -/
theorem interlacePixels_err_wide (hm : m.toNat ≤ 1) (hl : level.toNat ≤ 3) (hf : ¬rowsFit rowCap f m w h) (u : FilterUnit) :
    (interlacePixels rowCap f m src w h level u).err = some (.capacityExceeded, rowBuffersId) := by
  obtain rfl | rfl := eq_zero_or_one_of_toNat_le hm
  · have hwide : 0 < h ∧ rowCap < f.rowBytes w := by
      by_contra hall
      push Not at hall
      exact hf ⟨fun _ => hall, fun h1 => absurd h1 (by decide)⟩
    rw [interlacePixels_wide hwide.1 hwide.2]
  · obtain ⟨p, hp⟩ := exists_isWidePass hf
    exact (interlacePixels_widePass hl hp u).2

end Rows

/-! ## The interlacer-filter into FILT -/

/-- FILT takes all the scanlines (20_memory.md R213). -/
theorem filterAll_fits {s : State} {rows : List (FilterUnit × Bytes)} {w : Bytes}
    (h : w.length + (rows.map Prod.snd).flatten.length ≤ s.cfg.filtCap) :
    filterAll s rows (.flushed w) = filterEnd (filterJob s) (.flushed (w ++ (rows.map Prod.snd).flatten)) := by
  induction rows generalizing w with
  | nil => rw [List.map_nil, List.flatten_nil, List.append_nil]; rfl
  | cons row rest ih =>
    rw [List.map_cons, List.flatten_cons, List.length_append] at h
    have hrow : ¬StreamId.filt.cap s.cfg < w.length + row.2.length := Nat.not_lt.2 (show _ ≤ s.cfg.filtCap by omega)
    rw [filterAll, Stream.flushed_total, if_neg hrow, Stream.flushed_write_flush, ih (by rw [List.length_append]; omega),
      List.map_cons, List.flatten_cons, List.append_assoc]

/-- FILT cannot take all the scanlines (20_memory.md R213). -/
theorem filterAll_full {s : State} {rows : List (FilterUnit × Bytes)} {w : Bytes} (h0 : w.length ≤ s.cfg.filtCap)
    (h : s.cfg.filtCap < w.length + (rows.map Prod.snd).flatten.length) :
    ∃ u out, filterAll s rows (.flushed w) = .failed .capacityExceeded 10 u out := by
  induction rows generalizing w with
  | nil => exact absurd h (Nat.not_lt.2 h0)
  | cons row rest ih =>
    rw [List.map_cons, List.flatten_cons, List.length_append] at h
    rw [filterAll, Stream.flushed_total]
    by_cases hrow : StreamId.filt.cap s.cfg < w.length + row.2.length
    · exact ⟨_, _, if_pos hrow⟩
    · have hle : w.length + row.2.length ≤ s.cfg.filtCap := Nat.le_of_not_lt hrow
      rw [if_neg hrow, Stream.flushed_write_flush]
      exact ih (by rw [List.length_append]; exact hle) (by rw [List.length_append]; omega)

/-- A state in which the stages of `EncData()` may start: FILT and DEFL are as they are reset, and RAW holds the image
(45_encode.md R780). -/
structure DataReady (s : State) : Prop where
  filt : s.str.filt = .fresh
  defl : s.str.defl = .fresh
  raw : s.img.rawBytes ≤ s.cfg.rawCap
  interlace : s.img.interlace.toNat ≤ 1
  level : s.img.level.toNat ≤ 3

/-- Every row of the image fits the row buffers. -/
def State.rowsFitRowBuffers (s : State) : Prop :=
  rowsFit s.cfg.rowCap s.img.format s.img.interlace s.img.width.toNat s.img.height.toNat

section DataReady

variable {s : State} (h : DataReady s)
include h

theorem DataReady.filterStart : FilterStage.start s = .running (filterJob s).rows (.flushed []) :=
  if_neg (by have := h.raw; omega)

/-- FILT takes the filtered stream, and its end follows. -/
theorem DataReady.filterStage_fits (hfit : s.encFiltered.length ≤ s.cfg.filtCap) :
    filterStage s = commitFilter (filterEnd (filterJob s) (.flushed s.encFiltered)) s := by
  have run := filterAll_fits (s := s) (rows := (filterJob s).rows) (w := []) (by rwa [List.length_nil, Nat.zero_add])
  rw [filterStage_run h.filt, h.filterStart]
  exact congrArg (commitFilter · s) run

theorem DataReady.filterStage_ok (hrows : s.rowsFitRowBuffers) (hfit : s.encFiltered.length ≤ s.cfg.filtCap) :
    filterStage s = .ok () (s.filtered s.encFiltered) := by
  have herr : (filterJob s).err = none := interlacePixels_err_none h.interlace h.level hrows s.flt
  rw [h.filterStage_fits hfit, filterEnd, herr, Stream.flushed_close]
  rfl

theorem DataReady.filterStage_full (hfull : s.cfg.filtCap < s.encFiltered.length) :
    ∃ u out, filterStage s = .raised .capacityExceeded 10 { s.setStream .filt out with flt := u } := by
  obtain ⟨u, out, run⟩ := filterAll_full (s := s) (rows := (filterJob s).rows) (w := []) (Nat.zero_le _)
    (by rwa [List.length_nil, Nat.zero_add])
  rw [filterStage_run h.filt, h.filterStart]
  exact ⟨u, out, congrArg (commitFilter · s) run⟩

theorem DataReady.filterStage_wide (hrows : ¬s.rowsFitRowBuffers) (hfit : s.encFiltered.length ≤ s.cfg.filtCap) :
    ∃ u out, filterStage s = .raised .capacityExceeded 12 { s.setStream .filt out with flt := u } := by
  have herr : (filterJob s).err = some (.capacityExceeded, rowBuffersId) :=
    interlacePixels_err_wide h.interlace h.level hrows s.flt
  rw [h.filterStage_fits hfit, filterEnd, herr]
  exact ⟨_, _, rfl⟩

/-! ## The deflater and the splitter -/

/-- The stages by the result of the deflater on the filtered stream (45_encode.md R780). -/
theorem DataReady.dataStages_run (hrows : s.rowsFitRowBuffers) (hfit : s.encFiltered.length ≤ s.cfg.filtCap) :
    dataStages s =
      match (deflateJob s).result s.encFiltered with
      | .ok d => splitIdat ((s.filtered s.encFiltered).deflated d)
      | .error (e, info) => .raised e info (s.filtered s.encFiltered).deflating := by
  have run := deflateStage_run (s := s.filtered s.encFiltered) rfl h.defl
  rw [deflateJob_filtered, State.filtered_filt, Stream.holding_unread] at run
  refine (Cmd.andThen_ok (h.filterStage_ok hrows hfit)).trans ?_
  cases hr : (deflateJob s).result s.encFiltered with
  | ok d => rw [hr] at run; exact Cmd.andThen_ok run
  | error x => rw [hr] at run; exact Cmd.andThen_raised run

end DataReady

theorem deflateJob_noZlib {s : State} (hz : s.cfg.zlibPresent = false) (f : Bytes) :
    (deflateJob s).result f = .error (.compressionUnavailable, 0) := MidJob.result_error (if_pos hz)

theorem deflateJob_convert {s : State} (hz : s.cfg.zlibPresent = true) :
    (deflateJob s).convert s.encFiltered = .ok s.encDeflated :=
  if_neg (by rw [hz]; decide)

/-- The state in which the splitter starts on the deflated stream `d`, made of the filtered stream `f` (45_encode.md R780). -/
def State.beforeSplit (s : State) (f d : Bytes) : State := ((dataStartState s).filtered f).deflated d

section BeforeSplit

variable (s : State) (f d : Bytes)

theorem State.beforeSplit_cfg : (s.beforeSplit f d).cfg = s.cfg := by simp [State.beforeSplit]

theorem State.beforeSplit_outFits (n : Nat) : (s.beforeSplit f d).outFits n ↔ s.outFits n := by
  have hside : (s.beforeSplit f d).outSide = (dataStartState s).outSide := by simp [State.beforeSplit]
  have hlen : (s.beforeSplit f d).cnt.outLen = s.cnt.outLen := congrArg OutSide.outLen hside
  unfold State.outFits
  rw [hlen, State.beforeSplit_cfg]

theorem State.beforeSplit_maxIdat : (s.beforeSplit f d).enc.maxIdat = s.enc.maxIdat := by
  simp [State.beforeSplit, dataStartState]

theorem State.beforeSplit_defl : (s.beforeSplit f d).str.defl = .holding d 0 := State.deflated_defl _ d

end BeforeSplit

theorem dataStart_ready {s : State} (hraw : s.img.rawBytes ≤ s.cfg.rawCap) (hi : s.img.interlace.toNat ≤ 1)
    (hl : s.img.level.toNat ≤ 3) : DataReady (dataStartState s) := ⟨rfl, rfl, hraw, hi, hl⟩

/-- A deflater that fails ends the stages (45_encode.md R780). -/
theorem dataStages_deflateRaised {s : State} {e : Err} {info : Word} (h : DataReady (dataStartState s))
    (hrows : s.rowsFitRowBuffers) (hfilt : s.encFiltered.length ≤ s.cfg.filtCap)
    (hres : (deflateJob (dataStartState s)).result s.encFiltered = .error (e, info)) :
    dataStages (dataStartState s) = .raised e info ((dataStartState s).filtered s.encFiltered).deflating := by
  have run := h.dataStages_run hrows hfilt
  rw [show (dataStartState s).encFiltered = s.encFiltered from rfl, hres] at run
  exact run

/-- The stages of `EncData()` up to the splitter, which places the pieces of the deflated image (45_encode.md R780, R782). -/
theorem dataStages_split {s : State} (h : DataReady (dataStartState s)) (hrows : s.rowsFitRowBuffers)
    (hfilt : s.encFiltered.length ≤ s.cfg.filtCap) (hz : s.cfg.zlibPresent = true)
    (hdefl : s.encDeflated.length ≤ s.cfg.deflCap) (hm : s.enc.maxIdat ≠ 0) :
    dataStages (dataStartState s) =
      Cmd.forEach splitPiece (s.encDeflated.toChunks s.enc.maxIdat.toNat) (s.beforeSplit s.encFiltered s.encDeflated) := by
  have hres : (deflateJob (dataStartState s)).result s.encFiltered = .ok s.encDeflated :=
    MidJob.result_ok (deflateJob_convert (s := dataStartState s) hz) hdefl
  have run := h.dataStages_run hrows hfilt
  rw [show (dataStartState s).encFiltered = s.encFiltered from rfl, hres] at run
  have split := splitIdat_eq (s := s.beforeSplit s.encFiltered s.encDeflated) (by rwa [State.beforeSplit_maxIdat])
    (by rw [State.beforeSplit_defl, Stream.holding_closed])
  rw [State.beforeSplit_maxIdat, State.beforeSplit_defl, Stream.holding_unread] at split
  exact run.trans split

/-! ## ENC.DATA -/

theorem exec_encData {s : State} (hs : s.enc.state = .header) (hc : s.enc.configChanged = false) :
    exec .encData s = runCommand .encode (encData.leaving dataLeaves) s := by
  rw [exec_eq_runCommand, runCommand, runCommand, show Instr.body s .encData s = _ from encode_ready hs hc _]
  rfl

/-- What the splitter leaves when it has placed all the pieces is what `EncData()` leaves. -/
theorem splitAfter_eq_afterData {s : State} (hm : s.enc.maxIdat ≠ 0) :
    { (s.beforeSplit s.encFiltered s.encDeflated).splitAfter (s.encDeflated.toChunks s.enc.maxIdat.toNat) with
      enc.state := .data } =
      s.afterData (filterJob s).u := by
  have hflat := flatten_toChunks (Nat.pos_of_ne_zero fun h => hm (BitVec.eq_of_toNat_eq h)) s.encDeflated
  simp only [State.splitAfter, hflat, State.afterData, idatBytes]
  simp [State.beforeSplit, State.deflated, State.deflating, State.filtered, dataStartState, State.afterOut, State.setSpace,
    State.setStream, Streams.set, Stream.advance, Stream.holding, filterJob, Stream.unread]
  rfl

theorem EncDataFits.ready {s : State} (h : EncDataFits s) : DataReady (dataStartState s) :=
  dataStart_ready h.raw h.interlace h.level

/-- `EncData()` on an image and chunks that fit (45_encode.md R780). -/
theorem encData_ok {s : State} (h : EncDataFits s) (hc : s.cfg.outCap < 2 ^ 32)
    (hfit : s.outFits (idatBytes s.enc.maxIdat.toNat s.encDeflated).length) :
    encData s = .ok () (s.afterData (filterJob s).u) := by
  have split := dataStages_split h.ready (rowsFit_of_rowBytes_le h.row _ _) h.filt h.zlib h.defl h.split
  rw [forEach_splitPiece_ok (by rwa [State.beforeSplit_cfg]) ((s.beforeSplit_outFits _ _ _).2 hfit)] at split
  refine (Cmd.andThen_ok (Cmd.update_run _ s)).trans ((Cmd.andThen_ok split).trans ?_)
  exact congrArg (Res.ok ()) (splitAfter_eq_afterData h.split)

/-- `t` is `s` with `v` appended to OUT, but for what an error of ENC.DATA leaves open (60_exceptions.md R930, log 8). -/
def FailsInData (s : State) (v : Bytes) (t : State) : Prop :=
  ∃ (k count : Nat) (u : FilterUnit) (filt defl : Stream) (filtLen deflLen idats : Word),
    t = { s.afterOut v with
          flt := u, str.filt := filt, str.defl := defl
          cnt := { (s.afterOut v).cnt with filtLen := filtLen, deflLen := deflLen, idatCount := idats }
          enc.placed := count, freeIdx := k }

/-- An error in front of the splitter appends nothing. -/
theorem FailsInData.of_stage {s : State} (k count : Nat) (u : FilterUnit) (filt defl : Stream) (filtLen deflLen idats : Word) :
    FailsInData s []
      { s with
        flt := u, str.filt := filt, str.defl := defl
        cnt := { s.cnt with filtLen := filtLen, deflLen := deflLen, idatCount := idats }
        enc.placed := count, freeIdx := k } := by
  refine ⟨k, count, u, filt, defl, filtLen, deflLen, idats, ?_⟩
  rw [State.afterOut_nil]

theorem failsInData_deflating (s : State) (f : Bytes) : FailsInData s [] ((dataStartState s).filtered f).deflating := .of_stage ..

/-- A splitter that fails behind pieces that OUT takes. -/
theorem failsInData_split (s : State) (f d : Bytes) (ps : List Bytes) (t : Stream) :
    FailsInData s (ps.flatMap (chunkBytes typeIDAT)) (((s.beforeSplit f d).splitAfter ps).setStream .defl t) := by
  simp only [FailsInData, State.splitAfter, State.beforeSplit, State.deflated, State.deflating, State.filtered, dataStartState,
    State.afterOut, State.setSpace, Spaces.set, State.setStream, Streams.set]
  exact ⟨_, _, _, _, _, _, _, _, rfl⟩

theorem FailsInData.unspecified {s t : State} {v : Bytes} (h : FailsInData s v t) :
    FailsInData s v (unspecified dataLeaves t) := by
  obtain ⟨k, count, u, filt, defl, filtLen, deflLen, idats, rfl⟩ := h
  exact ⟨_, _, _, _, _, _, _, _, rfl⟩

/-- A stage of `EncData()` that fails (45_encode.md R780). -/
theorem encData_raised {s t : State} {e : Err} {info : Word} (h : dataStages (dataStartState s) = .raised e info t) :
    encData s = .raised e info t :=
  (Cmd.andThen_ok (Cmd.update_run _ s)).trans (Cmd.andThen_raised h)

/-- ENC.DATA when a stage fails (45_encode.md R802). -/
theorem exec_encData_raised {s t : State} {v : Bytes} {e : Err} {info : Word} (hs : s.enc.state = .header)
    (hc : s.enc.configChanged = false) (h : dataStages (dataStartState s) = .raised e info t) (ht : FailsInData s v t) :
    ∃ w, FailsInData s v w ∧ exec .encData s = .next (errorEntry .encode e info w) :=
  ⟨_, ht.unspecified, (exec_encData hs hc).trans (runCommand_raised (Cmd.leaving_raised (encData_raised h)))⟩

/-- Settles O53: the stages one after the other, each failing as its stream or the row buffers do. -/
theorem encDataResult : Obligations.EncDataResult := by
  unfold Obligations.EncDataResult
  refine ⟨fun s hs hcc hwf hfits hroom => ⟨(filterJob s).u, ?_⟩, ?_⟩
  · rw [exec_encData hs hcc]
    exact runCommand_ok (Cmd.leaving_ok (encData_ok hfits (Config.outCap_lt_of_wf hwf) hroom))
  intro s e info n pieces rows placed hs hcc hwf hlen hi hl hraw hcases
  have hready := dataStart_ready hraw hi hl
  suffices h : ∃ t, dataStages (dataStartState s) = .raised e info t ∧ FailsInData s placed t by
    obtain ⟨t, hrun, ht⟩ := h
    obtain ⟨w, ⟨k, count, u, filt, defl, filtLen, deflLen, idats, rfl⟩, hexec⟩ := exec_encData_raised hs hcc hrun ht
    exact ⟨k, count, u, filt, defl, filtLen, deflLen, idats, hexec⟩
  obtain ⟨rfl, hfull, rfl, rfl⟩ | ⟨rfl, hfilt, hwide, rfl, rfl⟩ | ⟨rfl, hfilt, hrows, hz, rfl, rfl⟩ |
    ⟨rfl, hfilt, hrows, hz, hdefl, rfl, rfl⟩ | ⟨hn, hfilt, hrows, hz, hdefl, hm, hfit, hnot, rfl, rfl⟩ := hcases
  · obtain ⟨u, out, hrun⟩ := hready.filterStage_full hfull
    exact ⟨_, Cmd.andThen_raised hrun, .of_stage ..⟩
  · obtain ⟨u, out, hrun⟩ := hready.filterStage_wide hwide hfilt
    exact ⟨_, Cmd.andThen_raised hrun, .of_stage ..⟩
  · have hres := deflateJob_noZlib (s := dataStartState s) hz s.encFiltered
    exact ⟨_, dataStages_deflateRaised hready hrows hfilt hres, failsInData_deflating s _⟩
  · have hres := MidJob.result_full (deflateJob_convert (s := dataStartState s) hz) hdefl
    exact ⟨_, dataStages_deflateRaised hready hrows hfilt hres, failsInData_deflating s _⟩
  · obtain ⟨t, hrun⟩ := forEach_splitPiece_raised (s := s.beforeSplit s.encFiltered s.encDeflated)
      (by rw [State.beforeSplit_cfg]; exact Config.outCap_lt_of_wf hwf) hn ((s.beforeSplit_outFits _ _ _).2 hfit)
      (mt (s.beforeSplit_outFits _ _ _).1 hnot)
    exact ⟨_, (dataStages_split hready hrows hfilt hz hdefl hm).trans hrun, failsInData_split s _ _ _ t⟩

end Sys2Proof.Machine
end

section
/-! SUPPORT. What the steps of ENCODE do not look at, and what they leave alone (45_encode.md R804, 60_exceptions.md R930,
R931). -/

namespace Sys2Proof.Machine

/-! ## What they do not look at -/

section Ignores

variable {g : Aside}

theorem outWrite_ignores (v : Bytes) : (outWrite v).Ignores g := .ite (fun _ => rfl) (.raise _ _) (.update fun _ => rfl)

theorem paletteChunks_ignores : paletteChunks.Ignores g := by
  unfold paletteChunks
  refine .at (fun _ => rfl) fun s => (memRead_ignores _ _ _).andThen ((outWrite_ignores _).andThen ?_)
  split
  · exact outWrite_ignores _
  · exact .ret ()

theorem setFlt_ignores (u : FilterUnit) : (setFlt u).Ignores g := .update fun _ => rfl

theorem writeFilt_ignores (row : FilterUnit × Bytes) : (writeRow .filtStream row).Ignores g :=
  (setFlt_ignores _).andThen ((streamWrite_ignores _ _).andThen (.update fun _ => rfl))

theorem raiseErr_ignores (e : Option (Err × Word)) : (raiseErr e).Ignores g := by
  cases e with
  | none => exact .ret ()
  | some p => exact .raise p.1 p.2

theorem filterStage_ignores : filterStage.Ignores g := by
  have emitted (engine : FilterUnit → Filtered) : (emit .filtStream id engine).Ignores g := by
    unfold emit
    exact .at (fun _ => rfl) fun s =>
      (Cmd.Ignores.forEach writeFilt_ignores _).andThen ((setFlt_ignores _).andThen (raiseErr_ignores _))
  unfold filterStage
  exact .at (fun _ => rfl) fun s => (memRead_ignores _ _ _).bind fun src =>
    (emitted _).andThen (Cmd.Ignores.andThen (.update fun _ => rfl) (.update fun _ => rfl))

theorem deflateStage_ignores : deflateStage.Ignores g := by
  have call (f : Bytes) : (callDeflate f).Ignores g :=
    .raiseIte (info := fun _ => 0) (fun _ => rfl) (fun _ => rfl) fun _ => rfl
  exact (readAll_ignores _).bind fun f => (call f).bind fun d => (streamWrite_ignores _ _).andThen
    (Cmd.Ignores.andThen (.update fun _ => rfl) (.update fun _ => rfl))

theorem placeIdat_ignores (held : Bytes) : (placeIdat held).Ignores g := (outWrite_ignores _).andThen (.update fun _ => rfl)

theorem splitLoop_ignores (fuel : Nat) (held : Bytes) : (splitLoop fuel held).Ignores g := by
  induction fuel generalizing held with
  | zero => exact .ret ()
  | succ n ih =>
    intro s
    unfold splitLoop
    simp only [show (g.on s).str = s.str from rfl, show (g.on s).enc.maxIdat = s.enc.maxIdat from rfl]
    cases s.str.defl.readPartial (s.enc.maxIdat.toNat - held.length) with
    | data v t =>
      dsimp only
      split
      · exact (placeIdat_ignores _).andThen (ih []) (s.setStream .defl t)
      · exact ih _ (s.setStream .defl t)
    | endOfFile =>
      dsimp only
      split
      · exact placeIdat_ignores held s
      · rfl
    | unexpectedEof => rfl
    | wait => rfl

theorem splitIdat_ignores : splitIdat.Ignores g :=
  .ite (fun _ => rfl) (fun _ => rfl)
    (.at (m := fun s => splitLoop (s.str.defl.unread.length + 1) []) (fun _ => rfl) fun _ => splitLoop_ignores _ _)

theorem dataStages_ignores : dataStages.Ignores g :=
  filterStage_ignores.andThen (deflateStage_ignores.andThen splitIdat_ignores)

end Ignores

theorem setEncState_ignores (v : EncState) : (setEncState v).Ignores .finish := .update fun _ => rfl

theorem encHeader_ignores : encHeader.Ignores .finish := by
  unfold encHeader
  refine .at (fun _ => rfl) fun s => (outWrite_ignores _).andThen ((outWrite_ignores _).andThen
    (Cmd.Ignores.andThen ?_ (setEncState_ignores _)))
  split
  · exact paletteChunks_ignores
  · exact .ret ()

theorem encData_ignores : encData.Ignores .finish :=
  Cmd.Ignores.andThen (m := Cmd.update dataStartState) (.update fun _ => rfl)
    (dataStages_ignores.andThen (setEncState_ignores _))

theorem encTrailer_ignores : encTrailer.Ignores .finish := (outWrite_ignores _).andThen (setEncState_ignores _)

/-! ## What they leave alone -/

/-- The part `f` of the state holds nothing of what the steps of ENCODE behind its validation write: counters, streams, the
filter engine, OUT, the sequencer's state and the hidden count. -/
def EncodeSpares {β : Type} (f : State → β) : Prop :=
  ∀ (s : State) (c : Counters) (x : Streams) (u : FilterUnit) (o : Memory) (v : EncState) (k i : Nat),
    f { s with cnt := c, str := x, flt := u, mem.outp := o, enc.state := v, enc.placed := k, freeIdx := i } = f s

/-- The piece keeps the part `f` of the state, whether it ends or raises an error. -/
def Cmd.Keeps {α β : Type} (f : State → β) (m : Cmd α) : Prop := ∀ s, (m s).Within fun t => f t = f s

section Keeps

variable {α α' β : Type} {f : State → β}

theorem Cmd.Keeps.ret (a : α) : (Cmd.ret a).Keeps f := fun _ => rfl

theorem Cmd.Keeps.update {h : State → State} (hf : ∀ s, f (h s) = f s) : (Cmd.update h).Keeps f := hf

theorem Cmd.Examines.keeps {m : Cmd α} (h : m.Examines) : m.Keeps f := by
  intro s
  obtain ⟨a, hs⟩ | ⟨e, info, -, hs⟩ := h s <;> rw [hs] <;> exact rfl

theorem Cmd.Keeps.bind {m : Cmd α} {k : α → Cmd α'} (h : m.Keeps f) (hk : ∀ a, (k a).Keeps f) : (m.bind k).Keeps f := by
  intro s
  have hm := h s
  rw [Cmd.bind_run]
  cases hr : m s with
  | ok a t => rw [hr] at hm; exact (hk a t).imp fun _ hu => hu.trans hm
  | raised e info t => rw [hr] at hm; exact hm
  | stuck x => trivial
  | refuse x => trivial

theorem Cmd.Keeps.andThen {m : Cmd α} {n : Cmd α'} (h : m.Keeps f) (k : n.Keeps f) : (m.andThen n).Keeps f := h.bind fun _ => k

/-- A piece that looks at the state it starts in. -/
theorem Cmd.Keeps.at {m : State → Cmd α} (h : ∀ s, (m s).Keeps f) : Cmd.Keeps f (fun s => m s s) := fun s => h s s

theorem Cmd.Keeps.forEach {k : α → Cmd Unit} (h : ∀ a, (k a).Keeps f) (l : List α) : (Cmd.forEach k l).Keeps f := by
  induction l with
  | nil => exact .ret ()
  | cons a rest ih => exact (h a).andThen ih

/-- What a piece that goes on has kept. -/
theorem Cmd.Keeps.ok {m : Cmd α} (h : m.Keeps f) {s t : State} {a : α} (ht : m s = .ok a t) : f t = f s := by
  have hm := h s
  rwa [ht] at hm

theorem Cmd.Keeps.raised {m : Cmd α} (h : m.Keeps f) {s t : State} {e : Err} {info : Word} (ht : m s = .raised e info t) :
    f t = f s := by
  have hm := h s
  rwa [ht] at hm

variable (hf : EncodeSpares f)
include hf

theorem outWrite_keeps (v : Bytes) : (outWrite v).Keeps f := by
  intro s
  rw [outWrite_run]
  split
  · rfl
  · exact hf s (s.afterOut v).cnt s.str s.flt (s.afterOut v).mem.outp s.enc.state s.enc.placed s.freeIdx

theorem setStream_keeps (i : StreamId) (x : Stream) (s : State) : f (s.setStream i x) = f s :=
  hf s s.cnt (s.str.set i x) s.flt s.mem.outp s.enc.state s.enc.placed s.freeIdx

theorem setCounters_keeps (c : Counters) (s : State) : f { s with cnt := c } = f s :=
  hf s c s.str s.flt s.mem.outp s.enc.state s.enc.placed s.freeIdx

theorem setEncState_keeps (v : EncState) : (setEncState v).Keeps f :=
  .update fun s => hf s s.cnt s.str s.flt s.mem.outp v s.enc.placed s.freeIdx

theorem setFlt_keeps (u : FilterUnit) : (setFlt u).Keeps f :=
  .update fun s => hf s s.cnt s.str u s.mem.outp s.enc.state s.enc.placed s.freeIdx

theorem encHeader_keeps : encHeader.Keeps f := by
  have palette : paletteChunks.Keeps f := by
    unfold paletteChunks
    refine .at fun s => (memRead_examines _ _ _).keeps.andThen ((outWrite_keeps hf _).andThen ?_)
    split
    · exact outWrite_keeps hf _
    · exact .ret ()
  unfold encHeader
  refine .at fun s => (outWrite_keeps hf _).andThen ((outWrite_keeps hf _).andThen (Cmd.Keeps.andThen ?_ (setEncState_keeps hf _)))
  split
  · exact palette
  · exact .ret ()

theorem streamWrite_keeps (i : StreamId) (v : Bytes) : (streamWrite i v).Keeps f := by
  intro s
  rw [streamWrite_run]
  split
  · rfl
  · split
    · rfl
    · exact setStream_keeps hf _ _ s

theorem closeStream_keeps (i : StreamId) : (closeStream i).Keeps f := .update fun s => setStream_keeps hf i _ s

theorem filterStage_keeps : filterStage.Keeps f := by
  have row (r : FilterUnit × Bytes) : (writeRow .filtStream r).Keeps f :=
    (setFlt_keeps hf _).andThen ((streamWrite_keeps hf _ _).andThen (.update fun s => setStream_keeps hf _ _ s))
  have err (e : Option (Err × Word)) : (raiseErr e).Keeps f := by
    cases e <;> exact fun _ => rfl
  have emitted (engine : FilterUnit → Filtered) : (emit .filtStream id engine).Keeps f := by
    unfold emit
    exact .at fun s => (Cmd.Keeps.forEach row _).andThen ((setFlt_keeps hf _).andThen (err _))
  unfold filterStage
  exact .at fun s => (memRead_examines _ _ _).keeps.bind fun src =>
    (emitted _).andThen ((closeStream_keeps hf _).andThen (.update fun s => setCounters_keeps hf _ s))

theorem deflateStage_keeps : deflateStage.Keeps f := by
  have all : (readAll .filt).Keeps f := by
    intro s
    unfold readAll
    dsimp only
    split
    · exact setStream_keeps hf _ _ s
    · trivial
  exact all.bind fun z => (callDeflate_examines z).keeps.bind fun d => (streamWrite_keeps hf _ _).andThen
    ((closeStream_keeps hf _).andThen (.update fun s => setCounters_keeps hf _ s))

theorem placeIdat_keeps (held : Bytes) : (placeIdat held).Keeps f :=
  (outWrite_keeps hf _).andThen
    (.update fun s => hf s { s.cnt with idatCount := s.cnt.idatCount + 1 } s.str s.flt s.mem.outp s.enc.state
      (s.enc.placed + held.length) s.freeIdx)

theorem splitLoop_keeps (fuel : Nat) (held : Bytes) : (splitLoop fuel held).Keeps f := by
  induction fuel generalizing held with
  | zero => exact .ret ()
  | succ n ih =>
    intro s
    unfold splitLoop
    cases s.str.defl.readPartial (s.enc.maxIdat.toNat - held.length) with
    | data v t =>
      have start := setStream_keeps hf .defl t s
      dsimp only
      split
      · exact ((placeIdat_keeps hf _).andThen (ih []) _).imp fun _ h => h.trans start
      · exact (ih _ _).imp fun _ h => h.trans start
    | endOfFile =>
      dsimp only
      split
      · exact placeIdat_keeps hf held s
      · rfl
    | unexpectedEof => rfl
    | wait => trivial

theorem splitIdat_keeps : splitIdat.Keeps f := by
  intro s
  unfold splitIdat
  split
  · trivial
  · exact splitLoop_keeps hf _ _ s

theorem encData_keeps : encData.Keeps f :=
  Cmd.Keeps.andThen (m := Cmd.update dataStartState)
    (.update fun s => hf s (dataStartState s).cnt (dataStartState s).str s.flt s.mem.outp s.enc.state 0 s.freeIdx)
    (((filterStage_keeps hf).andThen ((deflateStage_keeps hf).andThen (splitIdat_keeps hf))).andThen (setEncState_keeps hf _))

theorem encTrailer_keeps : encTrailer.Keeps f := (outWrite_keeps hf _).andThen (setEncState_keeps hf _)

end Keeps

/-- The mark of a changed configuration is none of what the steps behind the validation write. -/
theorem configChanged_spared : EncodeSpares fun s => s.enc.configChanged := fun _ _ _ _ _ _ _ _ => rfl

/-- The decoder, the image registers, and the chunk and CRC registers. -/
def State.encodeSide (s : State) : DecRegs × ImgRegs × ChunkRegs × CrcRegs := (s.dec, s.img, s.ch, s.crc)

theorem State.encodeSide_eq_iff {s t : State} :
    t.encodeSide = s.encodeSide ↔ t.dec = s.dec ∧ t.img = s.img ∧ t.ch = s.ch ∧ t.crc = s.crc := by
  simp only [State.encodeSide, Prod.mk.injEq]

theorem encodeSide_spared : EncodeSpares State.encodeSide := fun _ _ _ _ _ _ _ _ => rfl

end Sys2Proof.Machine
end

section
/-! SUPPORT. The ENC.* commands run in turn against ENCODE, and ENCODE of a whole image (45_encode.md R804, R805, 60_exceptions.md
R921). -/

namespace Sys2Proof.Machine

/-! ## ENCODE -/

/-- ENCODE behind its validation (45_encode.md R804). -/
def encodeRest : Cmd Unit := encHeader.andThen (encData.andThen encTrailer)

/-- ENCODE, sequential or pipelined, runs its steps one after the other. -/
theorem exec_encode (pipe : Bool) (s : State) :
    exec (.encode pipe) s = runCommand .encode ((encValidate.andThen encodeRest).leaving dataLeaves) s := by
  have hbody : encodeWith (if pipe then pipelinedStages else dataStages) = encodeWith dataStages := by
    cases pipe
    · rfl
    · exact encodeWith_pipelinedStages
  show runCommand .encode (encodeWith _) s = _
  rw [hbody]
  rfl

theorem encodeRest_keeps : encodeRest.Keeps State.encodeSide :=
  (encHeader_keeps encodeSide_spared).andThen ((encData_keeps encodeSide_spared).andThen (encTrailer_keeps encodeSide_spared))

/-- `v` is the state of an ENCODE that has failed with an error, where its steps had come to `w`: the spaces and `OUT_LEN` are
those of `w`, and the other registers no step writes are those of `s` (60_exceptions.md R930). -/
structure EncodeFails (s w v : State) (e : Err) (info : Word) : Prop where
  code : v.errCode = e.code
  info : v.errInfo = info
  state : v.enc.state = .failed
  mem : v.mem = w.mem
  outLen : v.cnt.outLen = w.cnt.outLen
  dec : v.dec = s.dec
  img : v.img = s.img
  ch : v.ch = s.ch
  crc : v.crc = s.crc

theorem dataLeaves_outLen (s : State) : (unspecified dataLeaves s).cnt.outLen = s.cnt.outLen := rfl

/-- ENCODE fails as its steps do. -/
theorem exec_encode_raised {s w : State} {e : Err} {info : Word} (pipe : Bool)
    (h : (encValidate.andThen encodeRest) s = .raised e info w) (hside : w.encodeSide = s.encodeSide) :
    ∃ v, exec (.encode pipe) s = .next v ∧ EncodeFails s w v e info := by
  obtain ⟨hdec, himg, hch, hcrc⟩ := State.encodeSide_eq_iff.1 hside
  refine ⟨_, (exec_encode pipe s).trans (runCommand_raised (Cmd.leaving_raised h)), rfl, rfl, rfl, ?_, dataLeaves_outLen w, ?_,
    ?_, ?_, ?_⟩
  · exact unspecified_mem w (by decide)
  · exact (unspecified_dec (items := dataLeaves) (by decide) w).trans hdec
  · exact (unspecified_img w (by decide)).trans himg
  · exact (unspecified_ch w (by decide)).trans hch
  · exact (unspecified_crc w).trans hcrc

/-- ENCODE of operands that do not validate (45_encode.md R751). -/
theorem exec_encode_invalid {s : State} {e : Err} {info : Word} (pipe : Bool) (h : s.validationError = some (e, info)) :
    ∃ v, exec (.encode pipe) s = .next v ∧ EncodeFails s s v e info :=
  exec_encode_raised pipe (Cmd.andThen_raised (encValidate_of_some h)) rfl

/-- ENCODE whose validation passes and whose steps behind it fail. -/
theorem exec_encode_fails {s w : State} {e : Err} {info : Word} (pipe : Bool) (hv : s.validationError = none)
    (h : encodeRest s.validated = .raised e info w) :
    ∃ v, exec (.encode pipe) s = .next v ∧ EncodeFails s w v e info :=
  exec_encode_raised pipe ((Cmd.andThen_ok (encValidate_of_none hv)).trans h) (encodeRest_keeps.raised (s := s.validated) h)

/-! ## The commands in turn -/

/-- A command of the encode sequence behind ENC.VALIDATE: the state it asks for, its step of ENCODE, and the state it leaves. -/
structure EncStage where
  instr : Instr
  need : EncState
  run : Cmd Unit
  leaves : EncState

/-- The command that asks for the state `v` may run: the sequencer is there, and the configuration is the validated one. -/
def EncReady (v : EncState) (s : State) : Prop := s.enc.state = v ∧ s.enc.configChanged = false

/-- The command runs its step, whose errors leave the spaces and `OUT_LEN` alone; the step does not look at what completion
changes, and ends in the state that it leaves, which is not the failed one. -/
structure EncStage.Sound (σ : EncStage) : Prop where
  exec_eq : ∀ s, EncReady σ.need s → ∃ f : Err → State → State,
    (∀ e w, (f e w).mem = w.mem ∧ (f e w).cnt.outLen = w.cnt.outLen) ∧
      exec σ.instr s = runCommand .encode (σ.run.onRaise f) s
  ignores : σ.run.Ignores .finish
  ends : ∀ s t, EncReady σ.need s → σ.run s = .ok () t → EncReady σ.leaves t
  live : σ.leaves ≠ .failed

section Turns

variable {σ : EncStage} {s t : State}

/-- A command that starts where another has finished has finished, as its step does from the state before that completion. -/
theorem EncStage.Sound.finished (h : σ.Sound) (hs : EncReady σ.need s) (hx : exec σ.instr (finish s) = .next t)
    (ht : t.enc.state ≠ .failed) : ∃ w, σ.run s = .ok () w ∧ t = finish w ∧ EncReady σ.leaves w := by
  obtain ⟨f, -, hexec⟩ := h.exec_eq (finish s) hs
  obtain ⟨v, hv, rfl⟩ | ⟨e, info, v, -, rfl⟩ := runCommand_next (hexec ▸ hx)
  · obtain ⟨w, hw, rfl⟩ := h.ignores.ok_iff.1 (Cmd.onRaise_eq_ok.1 hv)
    exact ⟨w, hw, rfl, h.ends _ _ hs hw⟩
  · exact absurd rfl ht

/-- And one that has failed has failed as its step does. -/
theorem EncStage.Sound.failed (h : σ.Sound) (hs : EncReady σ.need s) (hx : exec σ.instr (finish s) = .next t)
    (ht : t.enc.state = .failed) :
    ∃ e info w, σ.run s = .raised e info w ∧ t.errCode = e.code ∧ t.errInfo = info ∧ t.mem = w.mem ∧
      t.cnt.outLen = w.cnt.outLen := by
  obtain ⟨f, hf, hexec⟩ := h.exec_eq (finish s) hs
  obtain ⟨v, hv, rfl⟩ | ⟨e, info, v, hv, rfl⟩ := runCommand_next (hexec ▸ hx)
  · obtain ⟨hstate, -⟩ := h.ends (finish s) v hs (Cmd.onRaise_eq_ok.1 hv)
    exact absurd (hstate.symm.trans ht) h.live
  · obtain ⟨v', hv', rfl⟩ := Cmd.onRaise_eq_raised.1 hv
    obtain ⟨w, hw, rfl⟩ := h.ignores.raised_iff.1 hv'
    obtain ⟨hmem, hlen⟩ := hf e (Aside.finish.on w)
    exact ⟨e, info, w, hw, rfl, rfl, hmem, hlen⟩

/-- The steps one after the other. -/
def runEncSteps : List EncStage → Cmd Unit
  | [] => .ret ()
  | σ :: rest => σ.run.andThen (runEncSteps rest)

/-- Each command asks for the state that the one before it leaves. -/
def EncChained : EncState → List EncStage → Prop
  | _, [] => True
  | v, σ :: rest => σ.need = v ∧ σ.Sound ∧ EncChained σ.leaves rest

/-- An encode sequencer that has failed. -/
def State.encFailed (s : State) : Bool := s.enc.state == .failed

theorem State.encFailed_eq_false : s.encFailed = false ↔ s.enc.state ≠ .failed := beq_eq_false_iff_ne

/-- Where the first commands finish and the next one fails, the steps in turn raise its error. -/
theorem runEncSteps_raised {ss : List EncStage} {v : EncState} (hc : EncChained v ss) (hs : EncReady v s) {n : Nat} {i : Instr}
    {u t : State} (hu : runInTurn State.encFailed ((ss.map EncStage.instr).take n) (finish s) = some u)
    (hi : (ss.map EncStage.instr)[n]? = some i) (hx : exec i u = .next t) (ht : t.enc.state = .failed) :
    ∃ e info w, runEncSteps ss s = .raised e info w ∧ t.errCode = e.code ∧ t.errInfo = info ∧ t.mem = w.mem ∧
      t.cnt.outLen = w.cnt.outLen := by
  induction ss generalizing s v n with
  | nil => cases hi
  | cons σ rest ih =>
    obtain ⟨rfl, hsound, hrest⟩ := hc
    cases n with
    | zero =>
      cases hu
      cases hi
      obtain ⟨e, info, w, hw, hresults⟩ := hsound.failed hs hx ht
      exact ⟨e, info, w, Cmd.andThen_raised hw, hresults⟩
    | succ n =>
      obtain ⟨t', ht', hlive, hu⟩ := runInTurn_cons hu
      obtain ⟨w, hw, rfl, hready⟩ := hsound.finished hs ht' (State.encFailed_eq_false.1 hlive)
      obtain ⟨e, info, w', hw', hresults⟩ := ih hrest hready hu hi
      exact ⟨e, info, w', (Cmd.andThen_ok hw).trans hw', hresults⟩

end Turns

def stageHeader : EncStage := { instr := .encHeader, need := .valid, run := encHeader, leaves := .header }
def stageData : EncStage := { instr := .encData, need := .header, run := encData, leaves := .data }
def stageTrailer : EncStage := { instr := .encTrailer, need := .data, run := encTrailer, leaves := .done }

theorem Cmd.onRaise_id {α : Type} (m : Cmd α) : (m.onRaise fun _ w => w) = m := by
  funext s
  unfold Cmd.onRaise
  cases m s <;> rfl

/-- A step that writes the encode sequencer's state last. -/
theorem endsIn_setEncState {m : Cmd Unit} (v : EncState) : Cmd.Steps (fun _ t => t.enc.state = v) (m.andThen (setEncState v)) :=
  Cmd.Steps.andThen (r₁ := fun _ _ => True) (r₂ := fun _ t => t.enc.state = v) (fun _ _ _ _ => trivial)
    (Cmd.Steps.update _ fun _ => rfl) fun _ _ _ _ h => h

theorem stageHeader_sound : stageHeader.Sound where
  exec_eq s hs := ⟨fun _ w => w, fun _ _ => ⟨rfl, rfl⟩, by
    rw [Cmd.onRaise_id]
    exact exec_encHeader hs.1 hs.2⟩
  ignores := encHeader_ignores
  ends s t hs ht := by
    refine ⟨?_, ((encHeader_keeps configChanged_spared).ok ht).trans hs.2⟩
    have hlast := ht
    unfold stageHeader encHeader at hlast
    simp only [← Cmd.andThen_assoc] at hlast
    exact endsIn_setEncState .header s () t hlast
  live := by decide

theorem stageData_sound : stageData.Sound where
  exec_eq s hs := ⟨fun _ => unspecified dataLeaves, fun _ w => ⟨unspecified_mem w (by decide), dataLeaves_outLen w⟩,
    exec_encData hs.1 hs.2⟩
  ignores := encData_ignores
  ends s t hs ht := by
    refine ⟨?_, ((encData_keeps configChanged_spared).ok ht).trans hs.2⟩
    exact endsIn_setEncState (m := dataStages) .data (dataStartState s) () t ht
  live := by decide

theorem stageTrailer_sound : stageTrailer.Sound where
  exec_eq s hs := ⟨fun _ w => w, fun _ _ => ⟨rfl, rfl⟩, by
    rw [Cmd.onRaise_id]
    exact exec_encTrailer hs.1 hs.2⟩
  ignores := encTrailer_ignores
  ends s t hs ht := ⟨endsIn_setEncState .done s () t ht, ((encTrailer_keeps configChanged_spared).ok ht).trans hs.2⟩
  live := by decide

/-- The commands behind ENC.VALIDATE, in order (45_encode.md R750). -/
def restStages : List EncStage := [stageHeader, stageData, stageTrailer]

theorem restStages_chained : EncChained .valid restStages :=
  ⟨rfl, stageHeader_sound, rfl, stageData_sound, rfl, stageTrailer_sound, trivial⟩

theorem runEncSteps_restStages : runEncSteps restStages = encodeRest := by
  show encHeader.andThen (encData.andThen (encTrailer.andThen (.ret ()))) = _
  rw [Cmd.andThen_ret, encodeRest]

/-- ENC.VALIDATE has failed, or finished with what a passed validation writes (45_encode.md R751). -/
theorem exec_encValidate_next {s t : State} (h : exec .encValidate s = .next t) :
    (∃ e info, s.validationError = some (e, info) ∧ t = errorEntry .encode e info s) ∨
      (s.validationError = none ∧ t = finish s.validated) := by
  cases hv : s.validationError with
  | none =>
    have run : exec .encValidate s = _ := runCommand_ok (encValidate_of_none hv)
    cases run.symm.trans h
    exact .inr ⟨rfl, rfl⟩
  | some p =>
    have run : exec .encValidate s = _ := runCommand_raised (encValidate_of_some hv)
    cases run.symm.trans h
    exact .inl ⟨p.1, p.2, rfl, rfl⟩

/-- Where the first commands finish and the next one fails, ENCODE fails with its error, and leaves the spaces and `OUT_LEN` as
it does (60_exceptions.md R921). -/
theorem exec_encode_inTurn {s u t : State} {n : Nat} {i : Instr} (pipe : Bool)
    (hu : runInTurn State.encFailed (encodeStages.take n) s = some u) (hi : encodeStages[n]? = some i)
    (hx : exec i u = .next t) (ht : t.enc.state = .failed) :
    ∃ e info w v, exec (.encode pipe) s = .next v ∧ EncodeFails s w v e info ∧ t.errCode = e.code ∧ t.errInfo = info ∧
      t.mem = w.mem ∧ t.cnt.outLen = w.cnt.outLen := by
  cases n with
  | zero =>
    cases hu
    cases hi
    obtain ⟨e, info, hv, rfl⟩ | ⟨-, rfl⟩ := exec_encValidate_next hx
    · obtain ⟨v, hexec, hfails⟩ := exec_encode_invalid pipe hv
      exact ⟨e, info, s, v, hexec, hfails, rfl, rfl, rfl, rfl⟩
    · cases ht
  | succ n =>
    obtain ⟨t', ht', hlive, hu⟩ := runInTurn_cons hu
    obtain ⟨e, info, -, rfl⟩ | ⟨hv, rfl⟩ := exec_encValidate_next ht'
    · exact absurd rfl (State.encFailed_eq_false.1 hlive)
    · obtain ⟨e, info, w, hw, hresults⟩ := runEncSteps_raised restStages_chained ⟨rfl, rfl⟩ hu hi hx ht
      rw [runEncSteps_restStages] at hw
      obtain ⟨v, hexec, hfails⟩ := exec_encode_fails pipe hv hw
      exact ⟨e, info, w, v, hexec, hfails, hresults⟩

/-! ## The whole image -/

theorem ite_some_eq_none {α : Type} (c : Prop) [Decidable c] (a : α) (o : Option α) :
    (if c then some a else o) = none ↔ ¬c ∧ o = none := by
  by_cases hc : c <;> simp [hc]

/-- A validated encode has a palette that PAL can hold (45_encode.md R752). -/
theorem palCount_le_of_valid {s : State} (h : s.validationError = none) : s.enc.palCount.toNat ≤ 256 := by
  unfold State.validationError at h
  simp only [ite_some_eq_none] at h
  obtain ⟨-, -, -, -, -, -, hpal, -⟩ := h
  exact Nat.le_of_not_lt hpal

/-- The chunks of the header depend on the image, the palette and the encoder's registers for them. -/
theorem State.headerBytes_validated (s : State) : s.validated.headerBytes = s.headerBytes := by
  unfold State.headerBytes
  rw [State.headerChunks_eq, State.headerChunks_eq]
  rfl

/-- The whole file (30_encoding.md R320-R328). -/
def State.encodedFile (s : State) : Bytes :=
  s.headerBytes ++ idatBytes s.enc.maxIdat.toNat s.encDeflated ++ chunkBytes typeIEND []

section Congr

variable {s t : State} (hc : t.cfg = s.cfg)
include hc

theorem State.outFits_congr (hl : t.cnt.outLen = s.cnt.outLen) (n : Nat) : t.outFits n ↔ s.outFits n := by
  unfold State.outFits
  rw [hc, hl]

variable (hi : t.img = s.img) (hr : t.mem.raw = s.mem.raw) (hu : t.flt = s.flt)
include hi hr hu

theorem State.encFiltered_congr : t.encFiltered = s.encFiltered := by
  unfold State.encFiltered
  rw [hc, hi, hr, hu]

theorem State.encDeflated_congr : t.encDeflated = s.encDeflated := by
  unfold State.encDeflated
  rw [State.encFiltered_congr hc hi hr hu, hc, hi]

theorem EncDataFits.congr (hm : t.enc.maxIdat = s.enc.maxIdat) (h : EncDataFits s) : EncDataFits t := by
  have hfilt := State.encFiltered_congr hc hi hr hu
  have hdefl := State.encDeflated_congr hc hi hr hu
  constructor
  case legal => rw [hi]; exact h.legal
  case interlace => rw [hi]; exact h.interlace
  case level => rw [hi]; exact h.level
  case raw => rw [hi, hc]; exact h.raw
  case row => rw [hi, hc]; exact h.row
  case zlib => rw [hc]; exact h.zlib
  case filt => rw [hfilt, hc]; exact h.filt
  case defl => rw [hdefl, hc]; exact h.defl
  case split => rw [hm]; exact h.split

end Congr

/-- What ENCODE behind its validation, from `s`, leaves in `t`: the bytes `file` behind those of OUT, the lengths of the filtered
stream `f` and of the deflated stream `d`, and `c` chunks of image data (45_encode.md R804). -/
structure EncodeResults (s t : State) (file f d : Bytes) (c : Nat) : Prop where
  state : t.enc.state = .done
  mem : t.mem = (s.afterOut file).mem
  outLen : t.cnt.outLen = (s.afterOut file).cnt.outLen
  filtLen : t.cnt.filtLen = BitVec.ofNat 32 f.length
  deflLen : t.cnt.deflLen = BitVec.ofNat 32 d.length
  idatCount : t.cnt.idatCount = BitVec.ofNat 32 c
  status : t.status = s.status
  errCode : t.errCode = s.errCode
  ctrl : t.ctrl = s.ctrl
  side : t.encodeSide = s.encodeSide

/-- The state behind header bytes `a` (45_encode.md R760). -/
def State.headed (s : State) (a : Bytes) : State := { s.afterOut a with enc.state := .header }

section Headed

variable (s : State) (a : Bytes)

/-- The state behind `c` chunks of image data, the bytes `v`, that hold the deflated stream `d` of the filtered stream `f`
(45_encode.md R780). -/
def State.withData (s : State) (v f d : Bytes) (c : Nat) (u : FilterUnit) : State :=
  { s.afterOut v with
    flt := u
    str := { s.str with filt := .holding f f.length, defl := .holding d d.length }
    cnt :=
      { (s.afterOut v).cnt with
        filtLen := BitVec.ofNat 32 f.length, deflLen := BitVec.ofNat 32 d.length, idatCount := BitVec.ofNat 32 c }
    enc.placed := d.length
    enc.state := .data }

/-- What the image data leaves behind the header. -/
theorem State.headed_afterData (u : FilterUnit) :
    (s.headed a).afterData u =
      (s.headed a).withData (idatBytes s.enc.maxIdat.toNat s.encDeflated) s.encFiltered s.encDeflated
        (s.encDeflated.toChunks s.enc.maxIdat.toNat).length u := by
  have hfilt : (s.headed a).encFiltered = s.encFiltered := State.encFiltered_congr rfl rfl rfl rfl
  have hdefl : (s.headed a).encDeflated = s.encDeflated := State.encDeflated_congr rfl rfl rfl rfl
  unfold State.afterData State.withData
  rw [hfilt, hdefl]
  rfl

theorem State.headed_outFits (n : Nat) : (s.headed a).outFits n ↔ (s.afterOut a).outFits n := State.outFits_congr rfl rfl n

/-- What fits behind the header and the image data. -/
theorem State.withData_outFits {s : State} (hc : s.cfg.outCap < 2 ^ 32) {a v : Bytes} (h : s.outFits (a ++ v).length)
    (f d : Bytes) (c : Nat) (u : FilterUnit) (n : Nat) :
    ((s.headed a).withData v f d c u).outFits n ↔ s.outFits ((a ++ v).length + n) := by
  rw [List.length_append] at h ⊢
  have ha : s.outFits a.length := s.outFits_mono h (Nat.le_add_right _ _)
  have hv : (s.headed a).outFits v.length := (s.headed_outFits a _).2 ((State.afterOut_outFits ha hc _).2 h)
  calc ((s.headed a).withData v f d c u).outFits n
    _ ↔ ((s.headed a).afterOut v).outFits n := State.outFits_congr rfl rfl n
    _ ↔ (s.headed a).outFits (v.length + n) := State.afterOut_outFits hv hc n
    _ ↔ (s.afterOut a).outFits (v.length + n) := s.headed_outFits a _
    _ ↔ s.outFits (a.length + v.length + n) := by rw [Nat.add_assoc]; exact State.afterOut_outFits ha hc _

/-- Only OUT and its length decide what appending to OUT leaves of the spaces and of that length. -/
theorem State.afterOut_congr {s t : State} (hm : t.mem = s.mem) (hl : t.cnt.outLen = s.cnt.outLen) (v : Bytes) :
    (t.afterOut v).mem = (s.afterOut v).mem ∧ (t.afterOut v).cnt.outLen = (s.afterOut v).cnt.outLen := by
  simp only [State.afterOut_mem, State.afterOut_cnt, hm, hl, and_self]

/-- The header, the image data and the trailer leave the three of them in OUT. -/
theorem encodeResults_withData {s : State} (hc : s.cfg.outCap < 2 ^ 32) {a v : Bytes} (h : s.outFits (a ++ v).length)
    (e f d : Bytes) (c : Nat) (u : FilterUnit) :
    EncodeResults s { ((s.headed a).withData v f d c u).afterOut e with enc.state := .done } (a ++ v ++ e) f d c := by
  have ha : s.outFits a.length := s.outFits_mono h (by rw [List.length_append]; omega)
  have file : s.afterOut (a ++ v ++ e) = ((s.afterOut a).afterOut v).afterOut e := by
    rw [State.afterOut_afterOut s a v ha hc, State.afterOut_afterOut s _ e h hc]
  obtain ⟨hmem, hlen⟩ := State.afterOut_congr (s := s.afterOut a) (t := s.headed a) rfl rfl v
  obtain ⟨hmem, hlen⟩ :=
    State.afterOut_congr (s := (s.afterOut a).afterOut v) (t := (s.headed a).withData v f d c u) hmem hlen e
  rw [← file] at hmem hlen
  constructor
  case mem => exact hmem
  case outLen => exact hlen
  case side =>
    simp only [State.encodeSide, State.withData, State.headed, State.afterOut_dec, State.afterOut_img, State.afterOut_ch,
      State.afterOut_crc]
  case status => simp only [State.withData, State.headed, State.afterOut_status]
  case errCode => simp only [State.withData, State.headed, State.afterOut_errCode]
  case ctrl => simp only [State.withData, State.headed, State.afterOut_ctrl]
  all_goals rfl

/-- The image data behind header bytes. -/
theorem encData_headed {s : State} (hc : s.cfg.outCap < 2 ^ 32) {a : Bytes} (hf : EncDataFits s)
    (hfit : s.outFits (a ++ idatBytes s.enc.maxIdat.toNat s.encDeflated).length) :
    ∃ u, encData (s.headed a) =
      .ok () ((s.headed a).withData (idatBytes s.enc.maxIdat.toNat s.encDeflated) s.encFiltered s.encDeflated
        (s.encDeflated.toChunks s.enc.maxIdat.toNat).length u) := by
  have fits : EncDataFits (s.headed a) := .congr (s := s) rfl rfl rfl rfl rfl hf
  rw [List.length_append] at hfit
  have ha : s.outFits a.length := s.outFits_mono hfit (Nat.le_add_right _ _)
  have hdefl : (s.headed a).encDeflated = s.encDeflated := State.encDeflated_congr rfl rfl rfl rfl
  have room : (s.headed a).outFits (idatBytes (s.headed a).enc.maxIdat.toNat (s.headed a).encDeflated).length := by
    rw [hdefl]
    exact (s.headed_outFits a _).2 ((State.afterOut_outFits ha hc _).2 hfit)
  have run := encData_ok fits hc room
  exact ⟨_, run.trans (congrArg (Res.ok ()) (s.headed_afterData a _))⟩

end Headed

/-- ENCODE behind its validation, on an image that OUT takes (45_encode.md R804). -/
theorem encodeRest_ok {s : State} (hc : s.cfg.outCap < 2 ^ 32) (hfit : s.outFits s.encodedFile.length)
    (hpal : s.img.colorType = 3 → s.enc.palCount.toNat ≤ 256) (hf : EncDataFits s) :
    ∃ t, encodeRest s = .ok () t ∧
      EncodeResults s t s.encodedFile s.encFiltered s.encDeflated (s.encDeflated.toChunks s.enc.maxIdat.toNat).length := by
  have hfile : s.encodedFile = s.headerBytes ++ idatBytes s.enc.maxIdat.toNat s.encDeflated ++ chunkBytes typeIEND [] := rfl
  rw [hfile, List.length_append, length_chunkBytes] at hfit
  have hdata : s.outFits (s.headerBytes ++ idatBytes s.enc.maxIdat.toNat s.encDeflated).length := s.outFits_mono hfit (by omega)
  have hhead : s.outFits s.headerBytes.length := s.outFits_mono hdata (by rw [List.length_append]; omega)
  have header : encHeader s = .ok () (s.headed s.headerBytes) := encHeader_ok hpal hc hhead
  obtain ⟨u, data⟩ := encData_headed hc hf hdata
  have trailer := encTrailer_ok ((State.withData_outFits hc hdata s.encFiltered s.encDeflated
    (s.encDeflated.toChunks s.enc.maxIdat.toNat).length u 12).2 hfit)
  exact ⟨_, (Cmd.andThen_ok header).trans ((Cmd.andThen_ok data).trans trailer),
    encodeResults_withData hc hdata (chunkBytes typeIEND []) _ _ _ u⟩

theorem State.encodedFile_validated (s : State) : s.validated.encodedFile = s.encodedFile := by
  have hdefl : s.validated.encDeflated = s.encDeflated := State.encDeflated_congr rfl rfl rfl rfl
  unfold State.encodedFile
  rw [s.headerBytes_validated, hdefl]
  rfl

/-- A validated encode places its bytes from the start of OUT, and they can be read there (45_encode.md R751). -/
theorem EncodeResults.from_start {s t : State} {file f d : Bytes} {c : Nat} (h : EncodeResults s.validated t file f d c)
    (hwf : s.mem.outp.wf) :
    t.mem = { s.mem with outp := s.mem.outp.writeBytes 0 file } ∧ t.cnt.outLen = BitVec.ofNat 32 file.length ∧
      t.mem.outp.readBytes 0 file.length = file := by
  have hmem : t.mem = { s.mem with outp := s.mem.outp.writeBytes 0 file } := h.mem
  refine ⟨hmem, h.outLen.trans (BitVec.zero_add _), ?_⟩
  rw [hmem]
  exact s.mem.outp.readBytes_writeBytes 0 file hwf

/-- ENCODE of an image that OUT takes runs its steps from the start of OUT (45_encode.md R804). -/
theorem exec_encode_ok {s : State} (pipe : Bool) (hc : s.cfg.outCap < 2 ^ 32) (hv : s.validationError = none)
    (hf : EncDataFits s) (hlen : s.encodedFile.length ≤ s.cfg.outCap) :
    ∃ t, exec (.encode pipe) s = .next (finish t) ∧
      EncodeResults s.validated t s.encodedFile s.encFiltered s.encDeflated
        (s.encDeflated.toChunks s.enc.maxIdat.toNat).length := by
  have fits : EncDataFits s.validated := .congr (s := s) rfl rfl rfl rfl rfl hf
  have hfilt : s.validated.encFiltered = s.encFiltered := State.encFiltered_congr rfl rfl rfl rfl
  have hdefl : s.validated.encDeflated = s.encDeflated := State.encDeflated_congr rfl rfl rfl rfl
  have room : s.validated.outFits s.validated.encodedFile.length := by
    rw [s.encodedFile_validated]
    exact (Nat.zero_add _).trans_le hlen
  obtain ⟨t, hrun, h⟩ := encodeRest_ok (s := s.validated) hc room (fun _ => palCount_le_of_valid hv) fits
  rw [s.encodedFile_validated, hfilt, hdefl] at h
  have body : (encValidate.andThen encodeRest) s = .ok () t := (Cmd.andThen_ok (encValidate_of_none hv)).trans hrun
  exact ⟨t, (exec_encode pipe s).trans (runCommand_ok (Cmd.leaving_ok body)), h⟩

/-- Settles O55: ENCODE is its steps one after the other, which the commands in turn run too; on an image that fits they go
through. -/
theorem encodeFile : Obligations.EncodeFile := by
  unfold Obligations.EncodeFile
  refine ⟨fun pipe s e info hv => ?_, fun pipe s u t n i hu hi hx ht => ?_, ?_⟩
  · obtain ⟨v, hexec, h⟩ := exec_encode_invalid pipe hv
    exact ⟨v, hexec, h.code, h.info, h.state, h.mem, h.outLen, h.dec, h.img⟩
  · obtain ⟨e, info, w, v, hexec, h, hcode, hinfo, hmem, hlen⟩ := exec_encode_inTurn pipe hu hi hx ht
    exact ⟨v, hexec, h.code.trans hcode.symm, h.info.trans hinfo.symm, h.state, h.mem.trans hmem.symm,
      h.outLen.trans hlen.symm, h.dec, h.img, h.ch, h.crc⟩
  · intro pipe s hwf hmem hv hf file hlen
    obtain ⟨t, hexec, h⟩ := exec_encode_ok pipe (Config.outCap_lt_of_wf hwf) hv hf hlen
    obtain ⟨hdec, himg, hch, hcrc⟩ := State.encodeSide_eq_iff.1 (show t.encodeSide = s.encodeSide from h.side)
    obtain ⟨hout, hlast, hold⟩ := h.from_start (hmem .outp).1
    have hcount : t.cnt.idatCount = BitVec.ofNat 32 (ceilDiv s.encDeflated.length s.enc.maxIdat.toNat) := by
      have hpos : 0 < s.enc.maxIdat.toNat := Nat.pos_of_ne_zero fun h0 => hf.split (BitVec.eq_of_toNat_eq h0)
      rw [h.idatCount, length_toChunks hpos]
      rfl
    have hstatus : t.status = s.status := h.status
    exact ⟨finish t, hexec, congrArg (fun st => { st with done := true, busy := false, pipeActive := false }) hstatus, h.state,
      hlast, hout, hold, h.filtLen, h.deflLen, hcount, h.errCode, himg, hdec, h.ctrl, hch, hcrc⟩

end Sys2Proof.Machine
end

section
/-! SUPPORT. The obligation about the system commands NOP and CLEAR (46_system.md R850, R851). -/

namespace Sys2Proof.Machine

/-- NOP's pseudocode is completion alone (46_system.md R850). -/
theorem exec_nop (s : State) : exec .nop s = .next (finish s) := by
  have body : Instr.body s .nop s = .ok () s := rfl
  exact (exec_eq_runCommand .nop s).trans (runCommand_ok body)

/-- CLEAR's pseudocode is one update of the state, then completion (46_system.md R851). -/
theorem exec_clear (s : State) : exec .clear s = .next (finish (clearState s)) := by
  have body : Instr.body s .clear s = .ok () (clearState s) := rfl
  exact (exec_eq_runCommand .clear s).trans (runCommand_ok body)

/-- Settles O20: neither command can fail, so each ends in the completion (60_exceptions.md R931) of the state its pseudocode
leaves: NOP's is the state itself, CLEAR's is `clearState`. -/
theorem systemCommands : Obligations.SystemCommands := by
  unfold Obligations.SystemCommands
  exact fun s => ⟨exec_nop s, exec_clear s⟩

end Sys2Proof.Machine
end

section
/-! SUPPORT. The interrupt output (60_exceptions.md R945), and what error entry leaves (R930). -/

namespace Sys2Proof.Machine

/-! ## The interrupt output -/

theorem readReg_ctrl_irqEn (s : State) : (s.readReg .ctrl).getLsbD 1 = s.ctrl.irqEn := by
  simp only [State.readReg, Ctrl.word, BitVec.getLsbD_append]
  simp

theorem readReg_status_done (s : State) : (s.readReg .status).getLsbD 1 = s.status.done := by
  simp only [State.readReg, Status.word, BitVec.getLsbD_append]
  simp

theorem readReg_status_err (s : State) : (s.readReg .status).getLsbD 2 = s.status.err := by
  simp only [State.readReg, Status.word, BitVec.getLsbD_append]
  simp

theorem irq_iff (s : State) : s.irq = true ↔ s.ctrl.irqEn = true ∧ (s.status.done = true ∨ s.status.err = true) := by
  rw [State.irq, Bool.and_eq_true, Bool.or_eq_true]

/-- Settles O12: the output is a function of the register bits; completion sets DONE, error entry sets ERR, and a dropped `CMD`
write touches CMD_LOST only (`busyWrites`). -/
theorem interruptOutput : Obligations.InterruptOutput := by
  unfold Obligations.InterruptOutput
  refine ⟨fun s => ?_, fun s hen => ⟨?_, fun fam e info => ?_⟩, fun s w t hb ht => ?_⟩
  · rw [readReg_ctrl_irqEn, readReg_status_done, readReg_status_err, irq_iff]
  · exact (irq_iff _).2 ⟨hen, .inl rfl⟩
  · exact (irq_iff _).2 ⟨hen, .inr rfl⟩
  · obtain ⟨-, hdrop⟩ := busyWrites s w hb
    rw [hdrop] at ht
    cases ht
    rfl

/-! ## Streams and codes -/

theorem Stream.close_rpos (t : Stream) : t.close.rpos = t.rpos := by
  unfold Stream.close
  split <;> rfl

theorem Stream.close_total (t : Stream) : t.close.total = t.total := by
  unfold Stream.close
  split <;> rfl

theorem Stream.close_staged (t : Stream) : t.close.staged = if t.closed then t.staged else [] := by
  unfold Stream.close
  split <;> rfl

/-- A close flushes what is staged (20_memory.md R215). -/
theorem Stream.close_readable (t : Stream) :
    t.close.readable = if t.closed then t.readable else t.readable ++ t.staged := by
  unfold Stream.close
  split <;> rfl

@[simp] theorem Streams.get_closeAll (t : Streams) (i : StreamId) : t.closeAll.get i = (t.get i).close := by
  cases i <;> rfl

/-- No error has the code of "no error" (60_exceptions.md R901). -/
theorem Err.code_ne_zero (e : Err) : e.code ≠ 0 := by cases e <;> decide

theorem DecState.code_injective : Function.Injective DecState.code := by
  intro a b
  cases a <;> cases b <;> decide

theorem EncState.code_injective : Function.Injective EncState.code := by
  intro a b
  cases a <;> cases b <;> decide

/-- `DEC_STATUS` shows the decode state in its low bits (10_state.md R122). -/
theorem DecRegs.statusWord_state (d : DecRegs) : d.statusWord.setWidth 4 = d.state.code := by
  rw [DecRegs.statusWord]
  exact BitVec.setWidth_append_eq_right

/-- `ENC_STATUS` shows the encode state in its low bits (10_state.md R121). -/
theorem EncRegs.statusWord_state (e : EncRegs) : e.statusWord.setWidth 4 = e.state.code := by
  rw [EncRegs.statusWord]
  exact BitVec.setWidth_setWidth_of_le _ (by decide)

/-! ## The sequencer states a command keeps -/

theorem Frame.dec_state {L : Bool → List Reg} {s t : State} (h : Frame L s t) (hr : .decStatus ∉ L s.ctrl.crcCheckEn) :
    t.dec.state = s.dec.state := by
  have hword : t.dec.statusWord = s.dec.statusWord := h.regs .decStatus hr (by decide)
  apply DecState.code_injective
  rw [← DecRegs.statusWord_state, hword, DecRegs.statusWord_state]

theorem Frame.enc_state {L : Bool → List Reg} {s t : State} (h : Frame L s t) (hr : .encStatus ∉ L s.ctrl.crcCheckEn) :
    t.enc.state = s.enc.state := by
  have hword : t.enc.statusWord = s.enc.statusWord := h.regs .encStatus hr (by decide)
  apply EncState.code_injective
  rw [← EncRegs.statusWord_state, hword, EncRegs.statusWord_state]

/-- Of the commands of no sequencer CLEAR alone writes the sequencers' registers (46_system.md R851), and a command of one
sequencer does not write the other's. -/
theorem sequencer_regs (en : Bool) {i : Instr} (hc : i ≠ .clear) :
    (Instr.family i ≠ .decode → Reg.decStatus ∉ resultRegs en i) ∧
      (Instr.family i ≠ .encode → Reg.encStatus ∉ resultRegs en i) := by
  cases i with
  | clear => exact absurd rfl hc
  | decode pipe | encode pipe => cases pipe <;> cases en <;> decide
  | _ => cases en <;> decide

theorem family_decode_iff (i : Instr) :
    Instr.family i = .decode ↔
      i ∈ ([.decHeader, .decChunks, .decInflate, .decPixels, .decExpand, .decode false, .decode true] : List Instr) := by
  cases i with
  | decode pipe | encode pipe => cases pipe <;> decide
  | _ => decide

theorem family_encode_iff (i : Instr) :
    Instr.family i = .encode ↔
      i ∈ ([.encValidate, .encHeader, .encData, .encTrailer, .encode false, .encode true] : List Instr) := by
  cases i with
  | decode pipe | encode pipe => cases pipe <;> decide
  | _ => decide

/-! ## Commands that fail -/

/-- A command that sets ERR has raised an error, and its end is the error entry of the state its pseudocode has come to. -/
theorem exec_failed {i : Instr} {s t : State} (he : s.status.err = false) (hx : exec i s = .next t)
    (ht : t.status.err = true) :
    ∃ e info u, Instr.body s i s = .raised e info u ∧ t = errorEntry (Instr.family i) e info u ∧
      Frame (fun en => resultRegs en i) s u := by
  have hf := body_frames i s s
  rw [exec_eq_runCommand] at hx
  obtain ⟨u, hrun, rfl⟩ | ⟨e, info, u, hrun, rfl⟩ := runCommand_next hx <;> rw [hrun] at hf
  · have hu : u.status.err = true := ht
    rw [hf.status, he] at hu
    cases hu
  · exact ⟨e, info, u, hrun, rfl, hf⟩

/-- CLEAR never fails (46_system.md R851). -/
theorem ne_clear_of_raised {i : Instr} {s u : State} {e : Err} {info : Word} (h : Instr.body s i s = .raised e info u) :
    i ≠ .clear := by
  rintro rfl
  cases h

/-- Settles O17: error entry closes the streams one by one; a command that fails ends in it (`exec_failed`), its pseudocode
having left the states of the sequencers that are not its own (`sequencer_regs`). -/
theorem errorEntryEffect : Obligations.ErrorEntryEffect := by
  unfold Obligations.ErrorEntryEffect
  refine ⟨fun fam e info s => ⟨fun i => ?_, ?_⟩, fun i s t he hx ht => ?_⟩
  · simp only [errorEntry_str, Streams.get_closeAll, Stream.close_closed, Stream.close_staged, Stream.close_readable,
      Stream.close_rpos, Stream.close_total, and_self]
  · exact ⟨rfl, rfl, rfl, rfl, rfl, rfl, rfl, rfl, rfl, rfl, rfl, rfl, rfl, rfl, rfl, rfl, rfl, rfl⟩
  · obtain ⟨e, info, u, hrun, rfl, hf⟩ := exec_failed he hx ht
    obtain ⟨hdec, henc⟩ := sequencer_regs s.ctrl.crcCheckEn (ne_clear_of_raised hrun)
    refine ⟨fun j => ?_, rfl, rfl, e.code_ne_zero, ?_, ?_, ?_⟩
    · rw [errorEntry_str, Streams.get_closeAll, Stream.close_closed]
    · rw [errorEntry_status, hf.status]
    · rw [errorEntry_dec]
      exact ite_congr (propext (family_decode_iff i)) (fun _ => rfl) fun h => hf.dec_state (hdec (mt (family_decode_iff i).1 h))
    · rw [errorEntry_enc]
      exact ite_congr (propext (family_encode_iff i)) (fun _ => rfl) fun h => hf.enc_state (henc (mt (family_encode_iff i).1 h))

end Sys2Proof.Machine
end

section
/-! SUPPORT. No step from a state of the invariant stops with a fault, and the engine's turn ends the command
(60_exceptions.md R952). -/

namespace Sys2Proof.Machine

/-! ## The engine's turn -/

/-- The outcome is one that a command may end with: an idle block with its result shown, or the refusal of
70_reset_and_hazards.md R1023. -/
def EndsCommand (o : Host.Outcome State Fault Refusal) : Prop :=
  (∃ t, o = .next t ∧ t.status.busy = false ∧ (t.status.done = true ∨ t.status.err = true)) ∨
    o = .refused .encodeConfigChanged

/-- The engine's turn of a busy block ends the command: an illegal word by its error entry, another by `exec_inv`. -/
theorem runEngine_ends {s : State} (h : Inv s) (hb : s.status.busy = true) (turns : List StageTurn) :
    EndsCommand (runEngine turns s) := by
  have hr : s.inReset = false := by
    rw [← Bool.not_eq_true]
    intro hr
    rw [h.status.reset hr] at hb
    cases hb
  cases hd : decode s.cmd with
  | error e => exact .inl ⟨_, runEngine_illegal turns hr hb hd, rfl, .inr rfl⟩
  | ok i =>
    have ht : Inv { s with turns := turns } := h.of_view rfl
    rw [runEngine_ok turns hr hb hd]
    exact (exec_inv i ht hb).imp_left fun ⟨t, hx, _, hend⟩ => ⟨t, hx, hend⟩

/-! ## Outcomes that are no fault -/

/-- The outcome is no fault: `safeStep` of a step's outcome. -/
def Faultless (o : Host.Outcome State Fault Refusal) : Prop := ∀ f, o ≠ .fault f

theorem faultless_next (t : State) : Faultless (.next t) := nofun

theorem faultless_refused (r : Refusal) : Faultless (.refused r) := nofun

theorem EndsCommand.faultless {o : Host.Outcome State Fault Refusal} (h : EndsCommand o) : Faultless o := by
  obtain ⟨t, rfl, -⟩ | rfl := h
  · exact faultless_next t
  · exact faultless_refused _

theorem faultless_runEngine {s : State} (h : Inv s) (turns : List StageTurn) : Faultless (runEngine turns s) := by
  cases hb : s.status.busy with
  | true => exact (runEngine_ends h hb turns).faultless
  | false => rw [runEngine_idle turns (.inr hb)]; exact faultless_next s

/-- A host access is made or refused. -/
theorem faultless_regWrite (s : State) (w : AccessWidth) (off : Nat) (v : Word) : Faultless (s.regWrite w off v) := by
  unfold State.regWrite
  split
  · exact faultless_refused _
  split
  · exact faultless_refused _
  · exact faultless_next _

theorem faultless_regRead (s : State) (w : AccessWidth) (off : Nat) : Faultless (s.regRead w off) := by
  unfold State.regRead
  split
  · exact faultless_refused _
  split
  · exact faultless_refused _
  · exact faultless_next _

theorem faultless_spaceWrite (s : State) (sp : Space) (off : Nat) (v : Byte) : Faultless (s.spaceWrite sp off v) := by
  unfold State.spaceWrite
  split
  · exact faultless_refused _
  split
  · exact faultless_refused _
  · exact faultless_next _

theorem faultless_spaceRead (s : State) (sp : Space) (off : Nat) : Faultless (s.spaceRead sp off) := by
  unfold State.spaceRead
  split
  · exact faultless_refused _
  split <;> exact faultless_next _

theorem faultless_busWrite (s : State) (w : AccessWidth) (addr : Nat) (v : Word) : Faultless (s.busWrite w addr v) := by
  unfold State.busWrite
  split
  · exact faultless_regWrite s _ _ _
  · exact faultless_spaceWrite s _ _ _
  · exact faultless_refused _

theorem faultless_busRead (s : State) (w : AccessWidth) (addr : Nat) : Faultless (s.busRead w addr) := by
  unfold State.busRead
  split
  · exact faultless_regRead s _ _
  · exact faultless_spaceRead s _ _
  · exact faultless_refused _

/-- While reset is asserted the access is lost or reads a free value (70_reset_and_hazards.md R1000). -/
theorem faultless_inReset {o : Host.Outcome State Fault Refusal} (c : Bool) (t : State) (h : Faultless o) :
    Faultless (if c then .next t else o) := by
  cases c
  · exact h
  · exact faultless_next t

theorem faultless_handleEvent {s : State} (h : Inv s) (e : HostEvent) : Faultless (handleEvent e s) := by
  cases e with
  | engine turns => exact faultless_runEngine h turns
  | resetAssert => exact faultless_next _
  | resetRelease contents => exact faultless_next _
  | regWrite w off v => exact faultless_inReset _ _ (faultless_regWrite s w off v)
  | regRead w off => exact faultless_inReset _ _ (faultless_regRead s w off)
  | spaceWrite sp off v => exact faultless_inReset _ _ (faultless_spaceWrite s sp off v)
  | spaceRead sp off => exact faultless_inReset _ _ (faultless_spaceRead s sp off)
  | busWrite w addr v => exact faultless_inReset _ _ (faultless_busWrite s w addr v)
  | busRead w addr => exact faultless_inReset _ _ (faultless_busRead s w addr)

/-! ## The step -/

/-- Taking an event off the inbox keeps the invariant, which does not speak of the inbox. -/
theorem Inv.withInbox {s : State} (h : Inv s) (rest : List HostEvent) : Inv (s.withInbox rest) := h.of_view rfl

theorem step_safe {s : State} (h : Inv s) : safeStep s := by
  unfold safeStep
  cases hi : s.port.inbox with
  | nil => rw [step_nil hi]; exact faultless_runEngine h []
  | cons e rest => rw [step_cons hi]; exact faultless_handleEvent (h.withInbox rest) e

/-- Settles O59: a host access is made or refused, and the engine's turn ends the command (`runEngine_ends`). -/
theorem noCommandWaitsForever : Obligations.NoCommandWaitsForever := by
  unfold Obligations.NoCommandWaitsForever
  refine fun s h => ⟨step_safe h, fun hb hturn => ?_⟩
  obtain hi | ⟨turns, rest, hi⟩ := hturn
  · rw [step_nil hi]
    exact runEngine_ends h hb []
  · rw [step_cons hi]
    exact runEngine_ends (h.withInbox rest) hb turns

end Sys2Proof.Machine
end

section
/-! SUPPORT. The mark of a changed encode configuration (70_reset_and_hazards.md R1023, log 11): no command's pseudocode clears it
but a validation that passes. -/

namespace Sys2Proof.Machine

/-! ## Pieces that keep the mark -/

/-- The piece keeps the mark, whether it ends or raises an error. -/
abbrev Cmd.KeepsMark {α : Type} (m : Cmd α) : Prop := m.Keeps fun s => s.enc.configChanged

theorem Cmd.KeepsSide.keepsMark {α : Type} {m : Cmd α} (h : m.KeepsSide) : m.KeepsMark :=
  fun s => (h s).imp fun _ hside => congrArg (·.1.configChanged) hside

theorem Cmd.KeepsMark.onRaise {α : Type} {m : Cmd α} {g : Err → State → State} (h : m.KeepsMark)
    (hg : ∀ e s, (g e s).enc = s.enc) : (m.onRaise g).KeepsMark := by
  intro s
  have hm := h s
  unfold Cmd.onRaise
  cases hr : m s with
  | ok a t => rw [hr] at hm; exact hm
  | raised e info t => rw [hr] at hm; exact (congrArg EncRegs.configChanged (hg e t)).trans hm
  | stuck x => trivial
  | refuse x => trivial

/-- A free value is none of the encoder's registers. -/
theorem Cmd.KeepsMark.leaving {α : Type} {m : Cmd α} {items : List Item} (h : m.KeepsMark) : (m.leaving items).KeepsMark :=
  h.onRaise fun _ => unspecified_enc

theorem leaveChunkData_enc (toStage : Bool) (e : Err) (s : State) : (leaveChunkData toStage e s).enc = s.enc := by
  unfold leaveChunkData
  split
  · exact unspecified_enc s
  · rfl

theorem readIn_keepsMark (n : Nat) : (readIn n).KeepsMark := (Cmd.LoopKept.keepsSide fun _ => readIn_loopKept n).keepsMark

theorem readChunk_keepsMark (sink : ChunkSink) : (readChunk sink).KeepsMark :=
  (Cmd.LoopKept.keepsSide fun _ => readChunk_loopKept sink).keepsMark

theorem setCrcOut_keepsMark (v : Word) : (setCrcOut v).KeepsMark := .update fun _ => rfl

theorem clearRawLen_keepsMark : clearRawLen.KeepsMark := .update fun _ => rfl

theorem storeRaw_keepsMark (out : Bytes) : (storeRaw out).KeepsMark :=
  (memWrite_keepsSide (.inl rfl) _ _).keepsMark.andThen (.update fun _ => rfl)

theorem unfilterIn_keepsMark (engine : FilterUnit → Bytes → Unfiltered) : (unfilterIn engine).KeepsMark := by
  intro s
  unfold unfilterIn
  split <;> rfl

theorem raiseErr_keepsMark (e : Option (Err × Word)) : (raiseErr e).KeepsMark := by
  cases e <;> exact fun _ => rfl

theorem emitOut_keepsMark (items : List Item) (engine : FilterUnit → Filtered) :
    (emit .outSpace (Cmd.leaving · items) engine).KeepsMark := by
  have row (r : FilterUnit × Bytes) : (writeRow .outSpace r).KeepsMark :=
    (setFlt_keeps configChanged_spared _).andThen (outWrite_keeps configChanged_spared _)
  unfold emit
  exact .at fun s => (Cmd.Keeps.forEach row _).andThen
    ((setFlt_keeps configChanged_spared _).andThen (raiseErr_keepsMark _).leaving)

theorem requireSameConfig_keepsMark : requireSameConfig.KeepsMark := by
  intro s
  unfold requireSameConfig
  split <;> trivial

/-! ## Commands -/

/-- The command runs `EncValidate()` (45_encode.md R800, R804). -/
def Instr.Validates (i : Instr) : Prop := i = .encValidate ∨ ∃ pipe, i = .encode pipe

/-- A command of the encode sequence behind ENC.VALIDATE keeps the mark as its step does. -/
theorem encCommand_keepsMark (v : EncState) {m : Cmd Unit} (h : m.KeepsMark) :
    ((requireEncState v).andThen <| requireSameConfig.andThen m).KeepsMark :=
  (requireEncState_examines v).keeps.andThen (requireSameConfig_keepsMark.andThen h)

/-- A command of the decode sequence behind DEC.HEADER keeps the mark as its step does. -/
theorem decCommand_keepsMark (v : DecState) {m : Cmd Unit} (h : m.KeepsMark) : ((requireDecState v).andThen m).KeepsMark :=
  (requireDecState_examines v).keeps.andThen h

/-- A command that validates no encode keeps the mark. -/
theorem body_keepsMark {i : Instr} (hi : ¬Instr.Validates i) (s : State) : (Instr.body s i).KeepsMark := by
  cases i with
  | nop => exact .ret ()
  | clear => exact .update fun _ => rfl
  | crcCalc | crcUpd => exact crcOperand_examines.keeps.bind fun _ => setCrcOut_keepsMark _
  | crcUpd32 => exact setCrcOut_keepsMark _
  | sigCheck => exact (readIn_keepsMark 8).bind fun _ => (Cmd.Examines.raiseIf _ (by decide)).keeps
  | sigWrite => exact outWrite_keeps configChanged_spared _
  | chunkRead => exact ((readChunk_keepsMark .dbuf).onRaise (leaveChunkData_enc false)).bind fun _ => .ret ()
  | chunkVerify =>
    exact chunkData_examines.keeps.bind fun _ =>
      (setCrcOut_keepsMark _).andThen (Cmd.Examines.raiseIf _ (by decide)).keeps
  | chunkSetcrc => exact chunkData_examines.keeps.bind fun _ => .andThen (.update fun _ => rfl) (setCrcOut_keepsMark _)
  | chunkWrite =>
    exact Cmd.Keeps.bind (Cmd.KeepsMark.leaving chunkData_examines.keeps) fun _ => outWrite_keeps configChanged_spared _
  | unfilter =>
    exact Cmd.KeepsMark.leaving (checkFormat_examines.keeps.andThen (checkRawRange_examines.keeps.andThen
      (clearRawLen_keepsMark.andThen ((unfilterIn_keepsMark _).bind storeRaw_keepsMark))))
  | deinterlace =>
    exact Cmd.KeepsMark.leaving (checkFormat_examines.keeps.andThen (checkInterlace_examines.keeps.andThen
      (checkRawRange_examines.keeps.andThen (clearRawLen_keepsMark.andThen
        ((unfilterIn_keepsMark _).bind storeRaw_keepsMark)))))
  | filter =>
    have checks := checkFormat_examines.andThen <| checkLevel_examines.andThen <| checkRawRange_examines.andThen <|
      memRead_examines .raw 0 s.img.rawBytes
    exact Cmd.Keeps.bind (Cmd.KeepsMark.leaving checks.keeps) fun _ => emitOut_keepsMark _ _
  | interlace =>
    have checks := checkFormat_examines.andThen <| checkInterlace_examines.andThen <| checkLevel_examines.andThen <|
      checkRawRange_examines.andThen <| memRead_examines .raw 0 s.img.rawBytes
    exact Cmd.Keeps.bind (Cmd.KeepsMark.leaving checks.keeps) fun _ => emitOut_keepsMark _ _
  | decHeader =>
    exact Cmd.KeepsMark.leaving (Cmd.Keeps.andThen (.update fun _ => rfl) decHeader_keepsSide.keepsMark)
  | decChunks =>
    have chunks : decChunks.KeepsMark := (Cmd.LoopKept.keepsSide fun _ => decChunks_loopKept).keepsMark
    exact decCommand_keepsMark .header (chunks.onRaise fun _ _ => unspecified_enc _)
  | decInflate => exact decCommand_keepsMark .chunks decInflate_keepsSide.keepsMark
  | decPixels => exact decCommand_keepsMark .inflated decPixels_keepsSide.keepsMark
  | decExpand => exact decCommand_keepsMark .pixels decExpand_keepsSide.keepsMark
  | decode pipe =>
    show (decodeWith (if pipe then decPipelined else decSequential)).KeepsMark
    rw [decPipelined_eq_decSequential, ite_self]
    exact decodeWith_keepsSide.keepsMark
  | encHeader => exact encCommand_keepsMark .valid (encHeader_keeps configChanged_spared)
  | encData => exact encCommand_keepsMark .header (Cmd.KeepsMark.leaving (encData_keeps configChanged_spared))
  | encTrailer => exact encCommand_keepsMark .data (encTrailer_keeps configChanged_spared)
  | encValidate => exact absurd (.inl rfl) hi
  | encode pipe => exact absurd (.inr ⟨pipe, rfl⟩) hi

/-- Completion and error entry keep the mark. -/
theorem runCommand_configChanged {fam : Family} {body : Cmd Unit} {s t : State} (hb : body.KeepsMark)
    (h : runCommand fam body s = .next t) : t.enc.configChanged = s.enc.configChanged := by
  obtain ⟨w, hw, rfl⟩ | ⟨e, info, w, hw, rfl⟩ := runCommand_next h
  · exact (hb.ok hw :)
  · exact (hb.raised hw :)

/-- A validation that fails keeps the mark. -/
theorem exec_validates_fails {i : Instr} {s t : State} {p : Err × Word} (hi : Instr.Validates i)
    (hv : s.validationError = some p) (h : exec i s = .next t) : t.enc.configChanged = s.enc.configChanged := by
  obtain rfl | ⟨pipe, rfl⟩ := hi
  · obtain ⟨e, info, -, rfl⟩ | ⟨hnone, -⟩ := exec_encValidate_next h
    · rfl
    · cases hv.symm.trans hnone
  · have fails := Cmd.leaving_raised (items := dataLeaves) (Cmd.andThen_raised (n := encodeRest) (encValidate_of_some hv))
    cases ((exec_encode pipe s).trans (runCommand_raised fails)).symm.trans h
    exact (congrArg EncRegs.configChanged (unspecified_enc s) :)

/-- A command keeps the mark, but for a validation that passes (70_reset_and_hazards.md R1023). -/
theorem exec_configChanged {i : Instr} {s t : State} (h : exec i s = .next t) :
    t.enc.configChanged = s.enc.configChanged ∨ (s.validationError = none ∧ Instr.Validates i) := by
  by_cases hi : Instr.Validates i
  · cases hv : s.validationError with
    | none => exact .inr ⟨rfl, hi⟩
    | some p => exact .inl (exec_validates_fails hi hv h)
  · rw [exec_eq_runCommand] at h
    exact .inl (runCommand_configChanged (body_keepsMark hi s) h)

/-- A command of the encode sequence in its own state is refused once the configuration has changed. -/
theorem encode_changed {v : EncState} {s : State} (hs : s.enc.state = v) (hc : s.enc.configChanged = true) (m : Cmd Unit) :
    runCommand .encode ((requireEncState v).andThen <| requireSameConfig.andThen m) s = .refused .encodeConfigChanged := by
  have same : requireSameConfig s = .refuse .encodeConfigChanged := if_pos hc
  have body : ((requireEncState v).andThen <| requireSameConfig.andThen m) s = .refuse .encodeConfigChanged := by
    rw [Cmd.andThen_ok (if_pos hs : requireEncState v s = .ok () s), Cmd.andThen_run, same]
  rw [runCommand, body]

end Sys2Proof.Machine
end

section
/-! SUPPORT. The mark of a changed encode configuration under the host's events and under a step (70_reset_and_hazards.md R1023,
log 11). -/

namespace Sys2Proof.Machine

/-! ## Register writes -/

theorem storeReg_configChanged (s : State) (r : Reg) (v : Word) :
    (s.storeReg r v).enc.configChanged = s.enc.configChanged := by cases r <;> rfl

theorem storeReg_encState (s : State) (r : Reg) (v : Word) : (s.storeReg r v).enc.state = s.enc.state := by cases r <;> rfl

theorem writeReg_encState (s : State) (r : Reg) (v : Word) : (s.writeReg r v).enc.state = s.enc.state := by
  obtain h | h := writeReg_cases s r v <;> rw [h] <;> exact storeReg_encState s r v

/-- A write that changes a register of a staged encode's configuration sets the mark. -/
theorem writeReg_sets_mark {s : State} {r : Reg} {v : Word} (hr : r.isEncodeConfig = true) (he : s.enc.state.staged = true)
    (hv : (s.writeReg r v).readReg r ≠ s.readReg r) : (s.writeReg r v).enc.configChanged = true := by
  rw [writeReg_readReg] at hv
  simp [State.writeReg, hr, he, hv]

/-! ## Outcomes with the mark -/

/-- The outcome's next state, if it has one, has the mark. -/
def Marked (o : Host.Outcome State Fault Refusal) : Prop := ∀ t, o = .next t → t.enc.configChanged = true

theorem marked_next {t : State} (h : t.enc.configChanged = true) : Marked (.next t) := by rintro u ⟨⟩; exact h

theorem marked_refused (r : Refusal) : Marked (.refused r) := by intro t ht; cases ht

/-- While reset is asserted the access is lost or reads a free value (70_reset_and_hazards.md R1000). -/
theorem marked_inReset {o : Host.Outcome State Fault Refusal} {t : State} (c : Bool) (ht : t.enc.configChanged = true)
    (ho : Marked o) : Marked (if c then .next t else o) := by
  cases c
  · exact ho
  · exact marked_next ht

/-- The block runs a validation that passes. -/
def State.ValidationPasses (s : State) : Prop :=
  s.status.busy = true ∧ s.validationError = none ∧
    (decode s.cmd = .ok .encValidate ∨ ∃ pipe, decode s.cmd = .ok (.encode pipe))

/-! ## Events -/

section Marked

variable {s : State} (hm : s.enc.configChanged = true)
include hm

theorem writeReg_marked (r : Reg) (v : Word) : (s.writeReg r v).enc.configChanged = true := by
  obtain h | h := writeReg_cases s r v <;> rw [h]
  exact (storeReg_configChanged s r v).trans hm

theorem hostWrite_marked (r : Reg) (v : Word) : (s.hostWrite r v).enc.configChanged = true := by
  unfold State.hostWrite State.writeCmd
  split
  · split <;> exact hm
  · split
    · exact writeReg_marked hm r v
    · exact hm

theorem marked_regWrite (w : AccessWidth) (off : Nat) (v : Word) : Marked (s.regWrite w off v) := by
  unfold State.regWrite State.windowWrite
  split
  · exact marked_refused _
  split
  · exact marked_refused _
  · refine marked_next ?_
    split
    · exact hostWrite_marked hm _ v
    · exact hm

theorem marked_regRead (w : AccessWidth) (off : Nat) : Marked (s.regRead w off) := by
  unfold State.regRead State.windowRead
  split
  · exact marked_refused _
  split
  · exact marked_refused _
  · refine marked_next ?_
    split <;> exact hm

theorem marked_spaceWrite (sp : Space) (off : Nat) (v : Byte) : Marked (s.spaceWrite sp off v) := by
  unfold State.spaceWrite
  split
  · exact marked_refused _
  split
  · exact marked_refused _
  · exact marked_next hm

theorem marked_spaceRead (sp : Space) (off : Nat) : Marked (s.spaceRead sp off) := by
  unfold State.spaceRead
  split
  · exact marked_refused _
  split <;> exact marked_next hm

theorem marked_busWrite (w : AccessWidth) (addr : Nat) (v : Word) : Marked (s.busWrite w addr v) := by
  unfold State.busWrite
  split
  · exact marked_regWrite hm _ _ _
  · exact marked_spaceWrite hm _ _ _
  · exact marked_refused _

theorem marked_busRead (w : AccessWidth) (addr : Nat) : Marked (s.busRead w addr) := by
  unfold State.busRead
  split
  · exact marked_regRead hm _ _
  · exact marked_spaceRead hm _ _
  · exact marked_refused _

/-- The engine's turn keeps the mark, but for a validation that passes. -/
theorem runEngine_marked {t : State} {turns : List StageTurn} (h : runEngine turns s = .next t) :
    t.enc.configChanged = true ∨ s.ValidationPasses := by
  unfold runEngine at h
  split at h
  · cases h; exact .inl hm
  rename_i hb
  have hbusy : s.status.busy = true := by revert hb; cases s.status.busy <;> simp
  split at h
  · cases h; exact .inl hm
  rename_i i hd
  obtain hk | ⟨hv, hi⟩ := exec_configChanged h
  · exact .inl (hk.trans hm)
  · refine .inr ⟨hbusy, hv, ?_⟩
    obtain rfl | ⟨pipe, rfl⟩ := hi
    · exact .inl hd
    · exact .inr ⟨pipe, hd⟩

/-- An event keeps the mark, but for a reset and for a validation that passes. -/
theorem handleEvent_marked {t : State} {e : HostEvent} (h : handleEvent e s = .next t) :
    t.enc.configChanged = true ∨ e = .resetAssert ∨ (∃ c, e = .resetRelease c) ∨ s.ValidationPasses := by
  cases e with
  | engine turns => exact (runEngine_marked hm h).imp_right fun hv => .inr (.inr hv)
  | resetAssert => exact .inr (.inl rfl)
  | resetRelease c => exact .inr (.inr (.inl ⟨c, rfl⟩))
  | regWrite w off v => exact .inl (marked_inReset _ hm (marked_regWrite hm w off v) t h)
  | regRead w off => exact .inl (marked_inReset (t := s.readUnaccepted) _ hm (marked_regRead hm w off) t h)
  | spaceWrite sp off v => exact .inl (marked_inReset _ hm (marked_spaceWrite hm sp off v) t h)
  | spaceRead sp off => exact .inl (marked_inReset (t := s.readUnaccepted) _ hm (marked_spaceRead hm sp off) t h)
  | busWrite w addr v => exact .inl (marked_inReset _ hm (marked_busWrite hm w addr v) t h)
  | busRead w addr => exact .inl (marked_inReset (t := s.readUnaccepted) _ hm (marked_busRead hm w addr) t h)

/-- A step keeps the mark, but for a reset and for a validation that passes. -/
theorem step_marked {t : State} (h : step s = .next t) :
    t.enc.configChanged = true ∨ (∃ rest, s.port.inbox = .resetAssert :: rest) ∨
      (∃ c rest, s.port.inbox = .resetRelease c :: rest) ∨ s.ValidationPasses := by
  cases hi : s.port.inbox with
  | nil =>
    rw [step_nil hi] at h
    exact (runEngine_marked hm h).imp_right fun hv => .inr (.inr hv)
  | cons e rest =>
    rw [step_cons hi] at h
    obtain hk | rfl | ⟨c, rfl⟩ | hv := handleEvent_marked (s := s.withInbox rest) hm h
    · exact .inl hk
    · exact .inr (.inl ⟨rest, rfl⟩)
    · exact .inr (.inr (.inl ⟨c, rest, rfl⟩))
    · exact .inr (.inr (.inr hv))

end Marked

end Sys2Proof.Machine
end

section
/-! SUPPORT. Reset, and the obligations of 70_reset_and_hazards.md. -/

namespace Sys2Proof.Machine

/-- The encode configuration, as R1023 lists it, does not hold `CMD`. -/
theorem isEncodeConfig_of_mem {r : Reg}
    (h : r ∈ ([.imgWidth, .imgHeight, .imgFormat, .imgMode, .encPalCount, .encCfg, .encMaxIdat] : List Reg)) :
    r.isEncodeConfig = true ∧ r ≠ .cmd := by
  revert r; decide

/-- A staged encode is between ENC.VALIDATE and the end of ENC.TRAILER. -/
theorem staged_of_mem {v : EncState} (h : v ∈ ([.valid, .header, .data] : List EncState)) : v.staged = true := by
  revert v; decide

/-- Settles O19: a write sets the mark by its definition; a step keeps it (`step_marked`), since every command does but a
validation that passes (`exec_configChanged`); and ENC.HEADER, ENC.DATA and ENC.TRAILER look at it behind the state. -/
theorem changedEncodeConfigRefused : Obligations.ChangedEncodeConfigRefused := by
  unfold Obligations.ChangedEncodeConfigRefused
  refine ⟨fun s r v hb hr hv he => ?_, fun s t hm h => step_marked hm h, fun s hm => ⟨?_, ?_, ?_⟩⟩
  · obtain ⟨hconfig, hcmd⟩ := isEncodeConfig_of_mem hr
    rw [hostWrite_idle v hb hcmd] at hv ⊢
    exact ⟨writeReg_sets_mark hconfig (staged_of_mem he) hv, writeReg_encState s r v⟩
  · exact fun hs => encode_changed hs hm encHeader
  · exact fun hs => encode_changed hs hm (encData.leaving dataLeaves)
  · exact fun hs => encode_changed hs hm encTrailer

/-! ## Reset -/

theorem resetWith_readReg (c : Config) (m : Spaces) (r : Reg) : (State.resetWith c m).readReg r = State.reset.readReg r := by
  cases r <;> rfl

/-- Settles O1: each register of the reset state is evaluated. -/
theorem resetValues : Obligations.ResetValues := by
  unfold Obligations.ResetValues
  refine ⟨fun r => ?_, rfl, rfl, rfl, rfl, rfl, rfl⟩
  cases r <;> rfl

/-- A cell behind all the listed ones is listed last. -/
theorem Memory.write_last {m : Memory} {a : Nat} {v : Byte} (h : m.below a) (hv : v ≠ Memory.unlisted) :
    m.write a v = m ++ [(a, v)] := by
  induction m with
  | nil => exact if_neg hv
  | cons c rest ih =>
    obtain ⟨b, w⟩ := c
    have hb : b < a := h (b, w) (List.mem_cons_self ..)
    rw [Memory.write, if_neg (by omega), if_neg (by omega), ih fun d hd => h d (List.mem_cons_of_mem _ hd)]
    rfl

/-- Cells in rising order, written one after the other behind the listed ones, are listed as they come. -/
theorem Memory.foldl_write_append {cap : Nat} {rest acc : Memory} (hw : (acc ++ rest).wf) (hb : rest.below cap) :
    rest.foldl (fun m c => if c.1 < cap then m.write c.1 c.2 else m) acc = acc ++ rest := by
  induction rest generalizing acc with
  | nil => exact (List.append_nil acc).symm
  | cons c rest ih =>
    have ⟨hp, hn⟩ := hw
    obtain ⟨-, -, hrises⟩ := List.pairwise_append.1 hp
    have hlast : Memory.below acc c.1 := fun d hd => hrises d hd c (List.mem_cons_self ..)
    have hc : c.2 ≠ Memory.unlisted := hn c (List.mem_append_right _ (List.mem_cons_self ..))
    rw [List.append_cons] at hw ⊢
    rw [List.foldl_cons, if_pos (hb c (List.mem_cons_self ..)), Memory.write_last hlast hc]
    exact ih hw fun d hd => hb d (List.mem_cons_of_mem _ hd)

/-- A canonical memory within the size is the memory of its own cells. -/
theorem Memory.ofCells_of_wf {m : Memory} {cap : Nat} (hw : m.wf) (hb : m.below cap) : Memory.ofCells cap m = m :=
  Memory.foldl_write_append (acc := []) hw hb

/-- Contents that are canonical and within the sizes are what a release brings (70_reset_and_hazards.md R1002). -/
theorem Spaces.normal_of_ok {c : Config} {m : Spaces} (h : m.ok c) : Spaces.normal c m = m := by
  have cells (sp : Space) : Memory.ofCells (sp.cap c) (m.get sp) = m.get sp := Memory.ofCells_of_wf (h sp).1 (h sp).2
  exact (Spaces.mk.injEq ..).mpr ⟨cells .inp, cells .outp, cells .dbuf, cells .raw, cells .pal, cells .metaLog, cells .pix⟩

/-- A release behind an assertion gives the state of R1000, with the host's side kept. -/
theorem releaseReset_eq {s : State} (h : s.inReset = true) (contents : Spaces) :
    s.releaseReset contents = s.keepHostSide (State.resetWith s.cfg (Spaces.normal s.cfg contents)) := if_pos h

/-- Settles O2: the assertion is one step, and the release the next. -/
theorem resetAbandonsCommand : Obligations.ResetAbandonsCommand := by
  unfold Obligations.ResetAbandonsCommand
  intro s contents rest hok hinbox
  refine ⟨_, _, step_cons hinbox, rfl, rfl, rfl, rfl, rfl,
    (step_cons (e := .resetRelease contents) rfl).trans (congrArg Host.Outcome.next (releaseReset_eq rfl contents)),
    rfl, fun r => ?_, rfl, rfl, rfl, rfl, rfl, ?_, rfl, rfl⟩
  · exact resetWith_readReg s.cfg (Spaces.normal s.cfg contents) r
  · exact Spaces.normal_of_ok hok

theorem Spaces.ok_empty (c : Config) : Spaces.empty.ok c := by
  intro sp
  cases sp <;> exact ⟨Memory.wf_nil, nofun⟩

/-- Settles O57: the parameters are well-formed, and empty spaces are canonical. -/
theorem invariantAtReset : Obligations.InvariantAtReset := by
  unfold Obligations.InvariantAtReset
  exact inv_resetWith (by decide) (Spaces.ok_empty _)

end Sys2Proof.Machine
end
